-- ==== Sys2Proof/Word.lean ====
section
/-! DEFINITION. The word types of the block and of its command port: a command word and a mask are 32 bits, a
colour and an identifier 16, a byte on the display bus 8. -/

namespace Sys2Proof

/-- A 32-bit word: a command word, an operand register, a set or clear mask (R20, R30, R100). -/
abbrev Word := BitVec 32

/-- A 16-bit value: a colour, an identifier, a window coordinate (R120, R121, R124). -/
abbrev Half := BitVec 16

/-- An 8-bit value: a byte on the display bus, a PCM sample (R72, R76). -/
abbrev Byte := BitVec 8

/-- The level of a pin or the value of a one-bit operand: `true` is 1, `false` is 0. -/
abbrev Level := Bool

end Sys2Proof
end

