-- ==== Sys2Proof/Config.lean ====
section
/-! DEFINITION. The configuration record `CFG` of 00_scope.md R7, the reference values that R7 gives, the fixed
numbers of the source, and the free value of the model. A configuration is plain data and stands in the state
(State.cfg), so that a statement about every state is a statement about every configuration (log 1). -/

namespace Sys2Proof

/-- The three families of controllers that an identifier may select (R36). -/
inductive Family where
  | A
  | B
  | C
deriving DecidableEq, Repr

/-- ControllerVariant: a recognised family, or Unknown (R36). -/
inductive Variant where
  | family (f : Family)
  | unknown
deriving DecidableEq, Repr

/-- The two strobe variants of a byte write (R162, R163). -/
inductive StrobeVariant where
  | compliant
  | merged
deriving DecidableEq, Repr

/-- The three mandatory delays of bring-up, in milliseconds (R128, R208). -/
inductive DelayMs where
  | ms50
  | ms150
  | ms500
deriving DecidableEq, Repr

/-- How many data bytes a register step of a bring-up sequence sends: 1, 2 or 4 (R128). -/
inductive DataBytes where
  | one
  | two
  | four
deriving DecidableEq, Repr

/-- One step of `INIT_SEQ` (R128): `Cmd(op)`, `Reg(op, n, value)`, `Delay(ms)`. The value's low `8 * n` bits count. -/
inductive InitStep where
  | cmd (op : Byte)
  | reg (op : Byte) (n : DataBytes) (value : Word)
  | delay (d : DelayMs)
deriving DecidableEq, Repr

/-- What a recognised family fixes: its command bytes (R129) and its bring-up sequence (R75). -/
structure FamilyTable where
  memWrite : Byte
  xWin : Byte
  yWin : Byte
  madctl : Byte
  initSeq : List InitStep
deriving DecidableEq, Repr

/-- The four memory-access-control values of a family that rotates, for r = 0, 1, 2, 3 (R130). -/
structure RotationTable where
  r0 : Byte
  r1 : Byte
  r2 : Byte
  r3 : Byte
deriving DecidableEq, Repr

/-- `count` consecutive pin numbers from `first` on: how a set of pins is written down (log 13). -/
structure PinRange where
  first : Nat
  count : Nat
deriving DecidableEq, Repr

/-- The configuration record `CFG` (R7). The constraints it must meet (R8) are `Machine.ConfigOk`. -/
structure Config where
  /-- `PIN_D[0..7]`, line D0 first. -/
  dataPins : List Nat
  pinWR : Nat
  pinCS : Nat
  pinCD : Nat
  pinRD : Nat
  /-- `VALID_PIN`, as the ranges of pins that exist (log 13). -/
  validPins : List PinRange
  gpioBase : Nat
  gpioSize : Nat
  setOffset : Nat
  clrOffset : Nat
  wrActive : Level
  wrIdle : Level
  csActive : Level
  csIdle : Level
  rdActive : Level
  rdIdle : Level
  cdCommand : Level
  cdData : Level
  strobe : StrobeVariant
  idsA : List Half
  idsB : List Half
  idsC : List Half
  tableA : FamilyTable
  tableB : FamilyTable
  tableC : FamilyTable
  opcGeneric : Byte
  /-- `MADCTL_ROT[A]`. -/
  rotA : RotationTable
  /-- `MADCTL_ROT[B]`. -/
  rotB : RotationTable
  nativeW : Nat
  nativeH : Nat
  exclusiveIds : List Half
  /-- `VOL_LOOKUP`, entry `vol * 256 + s`; an entry that the list does not reach has the reference value (log 14). -/
  volTable : List Int
  sampleRate : Nat
  pwmPeriodNs : Nat
deriving DecidableEq, Repr

/-- `GROUP_STRIDE` (R7, decision D6). -/
def Config.groupStride : Nat := 4

/-- `FLOOD_BLOCK`: strobe-only pixels per batch, a number of the source (R7). -/
def Config.floodBlock : Nat := 64

/-- `N_CHANNELS`: mixer channel slots, a number of the source (R7). -/
def Config.nChannels : Nat := 8

/-- `HANDLE_MOD`: the modulus of the handle counter, a number of the source (R7). -/
def Config.handleMod : Nat := 100

/-- `PAN_MAX`: the largest legal pan volume; the smallest is 0 (R7). -/
def Config.panMax : Nat := 127

/-- The bring-up sequence that 95_test_vectors.md section 3.1 uses for every family: illustrative values. -/
def Config.referenceSeq : List InitStep :=
  [.reg 0xC0 .one 0x23, .delay .ms50, .reg 0xC5 .two 0x3E28, .reg 0x3A .one 0x55, .reg 0xB1 .two 0x0018,
   .reg 0x36 .one 0x48, .cmd 0x11, .delay .ms150, .cmd 0x29, .delay .ms500]

/-- The reference command bytes of every family (R7). -/
def Config.referenceTable : FamilyTable where
  memWrite := 0x2C
  xWin := 0x2A
  yWin := 0x2B
  madctl := 0x36
  initSeq := Config.referenceSeq

/-- The reference rotation values of both rotating families (R7). -/
def Config.referenceRot : RotationTable where
  r0 := 0x48
  r1 := 0x28
  r2 := 0x88
  r3 := 0xE8

/-- The reference configuration of R7, that of the examples of the spec. DESIGN CHOICE as the configuration of
`State.reset` (log 1), unsafe: an open parameter has no value in the spec. -/
def Config.reference : Config where
  dataPins := [40, 41, 42, 43, 44, 45, 46, 47]
  pinWR := 48
  pinCS := 49
  pinCD := 50
  pinRD := 51
  validPins := [⟨0, 192⟩]
  gpioBase := 0
  gpioSize := 0x1000
  setOffset := 0x34
  clrOffset := 0x4C
  wrActive := false
  wrIdle := true
  csActive := false
  csIdle := true
  rdActive := false
  rdIdle := true
  cdCommand := false
  cdData := true
  strobe := .merged
  idsA := [0x00A1]
  idsB := [0x00B1]
  idsC := [0x00C1]
  tableA := Config.referenceTable
  tableB := Config.referenceTable
  tableC := Config.referenceTable
  opcGeneric := 0x22
  rotA := Config.referenceRot
  rotB := Config.referenceRot
  nativeW := 240
  nativeH := 320
  exclusiveIds := [1, 2]
  volTable := []
  sampleRate := 11025
  pwmPeriodNs := 90703

/-- The free value (log 15): what `LAST_IDX` holds after an emission whose sample index does not fit its 64 bits
(R47 gives the width, R271 an unbounded index). Nothing constrains it; the argument numbers its uses. -/
opaque Config.freeIndex : Nat → BitVec 64

end Sys2Proof
end

