-- ==== Sys2Proof/Syntax.lean ====
section
/-! DEFINITION. The abstract syntax: the seventeen commands of 30_encoding.md R103 with the operands of R104, one
constructor per row of spec/opcode_table.json. Pin numbers, handles, the separation and the rotation are numbers with a
range (WellFormed.lean); the other operands are words of a fixed width. -/

namespace Sys2Proof

/-- The instructions of the block: the commands of R4, in the order of the opcode table. -/
inductive Instr where
  /-- GPIO.INIT pin (R141). -/
  | gpioInit (pin : Nat)
  /-- GPIO.DIROUT handle (R142). -/
  | gpioDirout (handle : Nat)
  /-- GPIO.WRLVL handle, level (R143). -/
  | gpioWrlvl (handle : Nat) (level : Level)
  /-- GPIO.FSET mask (R144). -/
  | gpioFset (mask : Word)
  /-- GPIO.FCLR mask (R145). -/
  | gpioFclr (mask : Word)
  /-- LCD.WR8 value (R164). -/
  | lcdWr8 (value : Byte)
  /-- LCD.WR16 value (R165). -/
  | lcdWr16 (value : Half)
  /-- LCD.WREG32 reg, value (R168). -/
  | lcdWreg32 (reg : Byte) (value : Word)
  /-- LCD.SETWIN x1, y1, x2, y2 (R169). -/
  | lcdSetwin (x1 y1 x2 y2 : Half)
  /-- LCD.FLOOD color, len (R170). -/
  | lcdFlood (color : Half) (len : Word)
  /-- LCD.PUSH buffer, count, isFirstCall (R180). -/
  | lcdPush (buffer count : Word) (isFirstCall : Bool)
  /-- LCD.RESET (R200). -/
  | lcdReset
  /-- LCD.INIT id (R205). -/
  | lcdInit (id : Half)
  /-- LCD.SETROT r (R215). -/
  | lcdSetrot (r : Nat)
  /-- MIX.ADD sfxId, volume, step, separation, tic (R230): volume and tic are two's-complement words. -/
  | mixAdd (sfxId : Half) (volume step : Word) (separation : Nat) (tic : Word)
  /-- MIX.TICK (R245). -/
  | mixTick
  /-- PWM.POLL (R270). -/
  | pwmPoll
deriving DecidableEq, Repr

end Sys2Proof
end

