-- ==== Sys2Proof/WellFormed.lean ====
section
/-! DEFINITION. Which terms of `Instr` the command encoding can spell: a pin number and a handle have 16 bits
(30_encoding.md R104, R127), a separation is one of 0..255 (R231), a rotation one of 0..3 (R215). Operand values that
decode but lie outside an operation's domain are no encoding errors (R106) and are not checked here. -/

namespace Sys2Proof

/-- The instruction can be spelt: each numbered operand fits the field that R104 gives it. -/
def WellFormed : Instr → Bool
  | .gpioInit pin => decide (pin < 65536)
  | .gpioDirout handle => decide (handle < 65536)
  | .gpioWrlvl handle _ => decide (handle < 65536)
  | .gpioFset _ => true
  | .gpioFclr _ => true
  | .lcdWr8 _ => true
  | .lcdWr16 _ => true
  | .lcdWreg32 _ _ => true
  | .lcdSetwin _ _ _ _ => true
  | .lcdFlood _ _ => true
  | .lcdPush _ _ _ => true
  | .lcdReset => true
  | .lcdInit _ => true
  | .lcdSetrot r => decide (r < 4)
  | .mixAdd _ _ _ separation _ => decide (separation < 256)
  | .mixTick => true
  | .pwmPoll => true

end Sys2Proof
end

