-- ==== Sys2Proof/Decode.lean ====
section
/-! DEFINITION. The command encoding of 30_encoding.md: the decoder, total on every list of words and rejecting by
name (R100 to R105), and after it the encoder. -/

namespace Sys2Proof

/-- Why a list of words spells no command (R105). -/
inductive DecodeError where
  /-- No first word. -/
  | noWords
  /-- The opcode byte is none of the seventeen of R103. -/
  | unknownOpcode (op : Byte)
  /-- A reserved bit of the first word, or of the fourth word of MIX.ADD, is 1. -/
  | reservedBits
  /-- The opcode has another number of extension words (R100). -/
  | wrongLength
deriving DecidableEq, Repr

/-- The decoder's verdict: a command, or `Illegal` with its reason (R105). -/
inductive Decoded where
  | command (i : Instr)
  | illegal (e : DecodeError)
deriving DecidableEq, Repr

/-- `W0[31:24]` (R101). -/
def opcodeOf (w : Word) : Byte := w.extractLsb' 24 8

/-- `imm24 = W0[23:0]` (R101). -/
def imm24Of (w : Word) : BitVec 24 := w.extractLsb' 0 24

/-- The first word of a command: the opcode above the immediate (R101). -/
def firstWord (op : Byte) (imm : BitVec 24) : Word := op ++ imm

/-- The bits of the immediate from bit `n` up are all 0: the fields that a format does not use (R101, R105). -/
def reservedClear (n : Nat) (imm : BitVec 24) : Bool := imm >>> n == 0

/-- A command without extension words. -/
def withNone (ext : List Word) (clear : Bool) (i : Instr) : Decoded :=
  match ext with
  | [] => if clear then .command i else .illegal .reservedBits
  | _ => .illegal .wrongLength

/-- A command with one extension word. -/
def withOne (ext : List Word) (clear : Bool) (i : Word → Instr) : Decoded :=
  match ext with
  | [w1] => if clear then .command (i w1) else .illegal .reservedBits
  | _ => .illegal .wrongLength

/-- A command with two extension words. -/
def withTwo (ext : List Word) (clear : Bool) (i : Word → Word → Instr) : Decoded :=
  match ext with
  | [w1, w2] => if clear then .command (i w1 w2) else .illegal .reservedBits
  | _ => .illegal .wrongLength

/-- A command with four extension words, of which the third has its bits 31 to 8 reserved (R105, MIX.ADD). -/
def withFour (ext : List Word) (clear : Bool) (i : Word → Word → Byte → Word → Instr) : Decoded :=
  match ext with
  | [w1, w2, w3, w4] =>
    if clear && w3 >>> 8 == 0 then .command (i w1 w2 (w3.extractLsb' 0 8) w4) else .illegal .reservedBits
  | _ => .illegal .wrongLength

/-- The command that an opcode, an immediate and the extension words spell: the table of R103 with the operand
assembly of R104. -/
def decodeFields (op : Byte) (imm : BitVec 24) (ext : List Word) : Decoded :=
  let low16 : Half := imm.extractLsb' 0 16
  let low8 : Byte := imm.extractLsb' 0 8
  if op = 0x01 then withNone ext (reservedClear 16 imm) (.gpioInit low16.toNat)
  else if op = 0x02 then withNone ext (reservedClear 16 imm) (.gpioDirout low16.toNat)
  else if op = 0x03 then withNone ext (reservedClear 17 imm) (.gpioWrlvl low16.toNat (imm.getLsbD 16))
  else if op = 0x04 then withOne ext (reservedClear 0 imm) fun w1 => .gpioFset w1
  else if op = 0x05 then withOne ext (reservedClear 0 imm) fun w1 => .gpioFclr w1
  else if op = 0x10 then withNone ext (reservedClear 8 imm) (.lcdWr8 low8)
  else if op = 0x11 then withNone ext (reservedClear 16 imm) (.lcdWr16 low16)
  else if op = 0x12 then withOne ext (reservedClear 8 imm) fun w1 => .lcdWreg32 low8 w1
  else if op = 0x13 then
    withTwo ext (reservedClear 0 imm) fun w1 w2 =>
      .lcdSetwin (w1.extractLsb' 16 16) (w2.extractLsb' 16 16) (w1.extractLsb' 0 16) (w2.extractLsb' 0 16)
  else if op = 0x14 then withOne ext (reservedClear 16 imm) fun w1 => .lcdFlood low16 w1
  else if op = 0x15 then withTwo ext (reservedClear 1 imm) fun w1 w2 => .lcdPush w1 w2 (imm.getLsbD 0)
  else if op = 0x18 then withNone ext (reservedClear 0 imm) .lcdReset
  else if op = 0x19 then withNone ext (reservedClear 16 imm) (.lcdInit low16)
  else if op = 0x1A then withNone ext (reservedClear 2 imm) (.lcdSetrot (imm.extractLsb' 0 2).toNat)
  else if op = 0x20 then
    withFour ext (reservedClear 16 imm) fun w1 w2 sep w4 => .mixAdd low16 w1 w2 sep.toNat w4
  else if op = 0x21 then withNone ext (reservedClear 0 imm) .mixTick
  else if op = 0x28 then withNone ext (reservedClear 0 imm) .pwmPoll
  else .illegal (.unknownOpcode op)

/-- The command that a list of words spells, first word first (R100, R101, R105). -/
def decode : List Word → Decoded
  | [] => .illegal .noWords
  | w0 :: ext => decodeFields (opcodeOf w0) (imm24Of w0) ext

/-- How many extension words an opcode has: the column k of R103. An opcode of no command has none. -/
def extensionWords (op : Byte) : Nat :=
  if op = 0x04 ∨ op = 0x05 ∨ op = 0x12 ∨ op = 0x14 then 1
  else if op = 0x13 ∨ op = 0x15 then 2
  else if op = 0x20 then 4
  else 0

/-- The opcode byte of a command: the first column of R103. -/
def opcodeByte : Instr → Byte
  | .gpioInit _ => 0x01
  | .gpioDirout _ => 0x02
  | .gpioWrlvl _ _ => 0x03
  | .gpioFset _ => 0x04
  | .gpioFclr _ => 0x05
  | .lcdWr8 _ => 0x10
  | .lcdWr16 _ => 0x11
  | .lcdWreg32 _ _ => 0x12
  | .lcdSetwin _ _ _ _ => 0x13
  | .lcdFlood _ _ => 0x14
  | .lcdPush _ _ _ => 0x15
  | .lcdReset => 0x18
  | .lcdInit _ => 0x19
  | .lcdSetrot _ => 0x1A
  | .mixAdd _ _ _ _ _ => 0x20
  | .mixTick => 0x21
  | .pwmPoll => 0x28

/-- The immediate of a command's first word: its operand fields, the other bits 0 (R102, R103). -/
def immediateOf : Instr → BitVec 24
  | .gpioInit pin => (BitVec.ofNat 16 pin).setWidth 24
  | .gpioDirout handle => (BitVec.ofNat 16 handle).setWidth 24
  | .gpioWrlvl handle level => (BitVec.ofBool level ++ BitVec.ofNat 16 handle).setWidth 24
  | .gpioFset _ => 0
  | .gpioFclr _ => 0
  | .lcdWr8 value => value.setWidth 24
  | .lcdWr16 value => value.setWidth 24
  | .lcdWreg32 reg _ => reg.setWidth 24
  | .lcdSetwin _ _ _ _ => 0
  | .lcdFlood color _ => color.setWidth 24
  | .lcdPush _ _ isFirstCall => (BitVec.ofBool isFirstCall).setWidth 24
  | .lcdReset => 0
  | .lcdInit id => id.setWidth 24
  | .lcdSetrot r => (BitVec.ofNat 2 r).setWidth 24
  | .mixAdd sfxId _ _ _ _ => sfxId.setWidth 24
  | .mixTick => 0
  | .pwmPoll => 0

/-- The extension words of a command, first one first (R103). -/
def extensionOf : Instr → List Word
  | .gpioInit _ => []
  | .gpioDirout _ => []
  | .gpioWrlvl _ _ => []
  | .gpioFset mask => [mask]
  | .gpioFclr mask => [mask]
  | .lcdWr8 _ => []
  | .lcdWr16 _ => []
  | .lcdWreg32 _ value => [value]
  | .lcdSetwin x1 y1 x2 y2 => [x1 ++ x2, y1 ++ y2]
  | .lcdFlood _ len => [len]
  | .lcdPush buffer count _ => [buffer, count]
  | .lcdReset => []
  | .lcdInit _ => []
  | .lcdSetrot _ => []
  | .mixAdd _ volume step separation tic => [volume, step, (BitVec.ofNat 8 separation).setWidth 32, tic]
  | .mixTick => []
  | .pwmPoll => []

/-- The words of a command (R100 to R103). -/
def encode (i : Instr) : List Word := firstWord (opcodeByte i) (immediateOf i) :: extensionOf i

/-- Word number `k` of a number whose bits are counted from the first word on. -/
def tableWord (w k : Nat) : Word := BitVec.ofNat 32 (w / 2 ^ (32 * k))

/-- The words of the command whose bits are the low `nbits` of `w`, every higher bit 0: as many words as its opcode
asks for, the first word in bits 31..0. -/
def tableWords (nbits w : Nat) : List Word :=
  let v := w % 2 ^ nbits
  (List.range (1 + extensionWords (opcodeOf (tableWord v 0)))).map (tableWord v)

/-- The instruction that the decoder reads from the words of `tableWords`. -/
def decodeTableWord (nbits w : Nat) : Option Instr :=
  match decode (tableWords nbits w) with
  | .command i => some i
  | .illegal _ => none

end Sys2Proof
end

