-- ==== Sys2Proof/Machine/State.lean ====
section
/-! DEFINITION. The state of the block (10_state.md), with the configuration and the environment inputs that its step
takes (00_scope.md R7, R12), the reasons a step can stop, and the state after power-on reset (R330). -/

namespace Sys2Proof.Machine

/-- The two execution contexts (R310): R is render and simulation, A is audio. -/
inductive Context where
  | R
  | A
deriving DecidableEq, Repr

/-- `FAULT` (R50) with the codes of R290: None, F_PIN, F_MAP, F_PAN. -/
inductive FaultKind where
  | none
  | pin
  | map
  | pan
deriving DecidableEq, Repr

/-- `DSTATE` (R35). -/
inductive DriverState where
  | uninitialized
  | reset
  | initialized
  | ready
deriving DecidableEq, Repr

/-- `DIR[p]` (R28). -/
inductive PinDir where
  | unconfigured
  | output
deriving DecidableEq, Repr

/-- `PHASE` (R24): IDLE, the phases of LCD.FLOOD (F), LCD.PUSH (P), LCD.INIT (I) and LCD.RESET (RS). -/
inductive Phase where
  | idle
  | fCmd
  | fFirstHi
  | fFirstLo
  | fBlock
  | fRem
  | fPixHi
  | fPixLo
  | fEnd
  | pCmd
  | pPixHi
  | pPixLo
  | pEnd
  | iSeq
  | iWin
  | iFlood
  | iEnd
  | rsIdle
  | rsByte
  | rsPulse
  | rsEnd
deriving DecidableEq, Repr

/-- One event of the trace `EVT` (R51). The string of `pw` is the list of its ASCII characters. -/
inductive Event where
  | aq (p : Nat)
  | dirOut (p : Nat)
  | lv (p : Nat) (l : Level)
  | map
  | fs (m : Word)
  | fc (m : Word)
  | dl (ms : Nat)
  | pw (s : List Char)
  | halt (code : Nat)
deriving DecidableEq, Repr

/-- One slot of the channel file (R42); `stop` is the field `end`. -/
structure Channel where
  active : Bool
  ptr : Nat
  frac : BitVec 16
  stop : Nat
  step : Word
  startTic : Word
  lvol : BitVec 7
  rvol : BitVec 7
  sfxid : Half
  handle : BitVec 7
deriving DecidableEq, Repr

/-- A slot after reset: not active (R42); the other fields have no reset value in the spec, 0 is the model's DESIGN
CHOICE (log 4). -/
def Channel.idle : Channel where
  active := false
  ptr := 0
  frac := 0
  stop := 0
  step := 0
  startTic := 0
  lvol := 0
  rvol := 0
  sfxid := 0
  handle := 0

/-- The buffer that the asset loader supplies for one sound id: `SFX(id)` (R7, R12). -/
structure Sound where
  id : Half
  start : Nat
  length : Nat
deriving DecidableEq, Repr

/-- The sample memory `PCM` (R72): bytes by address, in the canonical form of Machine/Cells.lean. -/
abbrev Memory := List Host.Cell

/-- The environment inputs of R12 (log 2). -/
structure Env where
  /-- `MAP_OK`: whether mapping the register resource succeeds. -/
  mapOk : Bool
  /-- The pins that the vendor API does not grant: `ACQUIRE_OK(p)` is false of these (log 13). -/
  denied : List PinRange
  /-- `SFX`: the buffers of the sounds that the loader supplies. -/
  sounds : List Sound
  /-- `PCM` (R72). -/
  pcm : Memory
  /-- `PIX` (R73): 16-bit pixels by element address, in the canonical form of Machine/Cells.lean. -/
  pix : List (Nat × Half)
  /-- What the next `Now()` returns (R48). -/
  now : BitVec 64
deriving DecidableEq, Repr

/-- One input of the host or of the environment, in the order of the schedule (logs 3, 21, 22). -/
inductive HostInput where
  /-- A context hands a whole command to the command port, and it runs to its last event before anything else. -/
  | issue (ctx : Context) (words : List Word)
  /-- As `issue`, but a multi-event LCD operation runs one phase at a time (R176, R177), other inputs between them. -/
  | start (ctx : Context) (words : List Word)
  /-- The sequencer of context R takes the step of its current phase. -/
  | tick
  /-- The monotonic clock shows a new value (R48). -/
  | clock (t : BitVec 64)
  /-- The renderer, in context R, writes one element of `PIX` (R73). -/
  | pixel (a : Nat) (v : Half)
deriving DecidableEq, Repr

/-- The state of the machine: the block's own state (10_state.md), after it the parameters and inputs that the step
takes and the model's counter. INVENTORY.md lists each field with its rule and its reset value. -/
structure State where
  opr0 : Word
  opr1 : Word
  opr2 : Word
  opr3 : Word
  opr4 : Word
  cmdw : Word
  res : Word
  resA : Word
  busyR : Bool
  busyA : Bool
  phase : Phase
  flBlocks : BitVec 32
  flInblk : BitVec 7
  flRem : BitVec 6
  flLeft : BitVec 32
  puIdx : BitVec 32
  inIdx : Nat
  rsCnt : BitVec 2
  /-- The model's own: `OPR[0]` as the operation that the sequencer executes read it when it began (log 9). -/
  held : Word
  mapped : Bool
  /-- `PIN[p]` is bit `p mod 32` of the word of group `p div 32`. -/
  latches : List (Nat × Word)
  /-- `DIR[p]`, 1 for `Output`, laid out as `latches`. -/
  dirs : List (Nat × Word)
  /-- `OWN[p]`, laid out as `latches`. -/
  owns : List (Nat × Word)
  dstate : DriverState
  variant : Variant
  rot : BitVec 2
  curW : BitVec 17
  curH : BitVec 17
  winx : Word
  winy : Word
  winValid : Bool
  streamOpen : Bool
  channels : List Channel
  handleCtr : BitVec 7
  t0 : BitVec 64
  lastIdx : BitVec 64
  dutyNs : Nat
  halted : Bool
  fault : FaultKind
  faultInfo : Word
  degraded : Bool
  evt : List Event
  cfg : Config
  env : Env
  port : List HostInput
  freeCount : Nat
deriving DecidableEq, Repr

/-- The reasons a step answers with a fault. -/
inductive Fault where
  /-- Raised by a step, and by every meaning, of a state with `HALTED = 1`: the block is stuck for ever (R296, U22).
  Safe: the spec gives nothing after HALT. -/
  | halted (kind : FaultKind)
deriving DecidableEq, Repr

/-- The reasons a step is refused: each case the spec gives no meaning (R10, R301, 93_implementation_defined.md). All
but `notModelled` are the spec's own `refuse`. Every one is safe: the machine stops where the spec says nothing. -/
inductive Refusal where
  /-- An instruction without a meaning yet; no arm of exec answers so. -/
  | notModelled (mnemonic : String)
  /-- The words spell no command (R105, U10): raised by the command port. -/
  | illegalCommand (e : DecodeError)
  /-- A command issued while its context is busy, or a pixel written then (R23, R73, U11): the command port. -/
  | contextBusy
  /-- A command issued by the other context (R83, U11): the command port. -/
  | wrongContext
  /-- A configuration that breaks a constraint of R8 (U18): every step. -/
  | badConfig
  /-- The monotonic clock went back (R48, U20): the command port. -/
  | clockDecreased
  /-- GPIO.INIT of a pin that has a handle (R141, U1). -/
  | pinAlreadyAcquired
  /-- GPIO.DIROUT or GPIO.WRLVL of a pin without a handle (R142, R143, U2). -/
  | noSuchHandle
  /-- GPIO.WRLVL of a pin that is not an output (R143, U2). -/
  | notAnOutput
  /-- A write at an offset that holds no set or clear register (R71): a fast write under a bad configuration. -/
  | noGpioRegister
  /-- An LCD command before the twelve pins are acquired outputs (R148, U8). -/
  | pinsNotReady
  /-- An LCD command in a driver state that R226 does not list for it (U8). -/
  | wrongDriverState
  /-- `Write8` or `StrobePulse` entered with the write-strobe not idle (R161, R166, U13). -/
  | strobeNotIdle
  /-- LCD.SETWIN with `x2 < x1` or `y2 < y1` (R169, U7). -/
  | windowNotSorted
  /-- LCD.FLOOD or a first LCD.PUSH without a window (R170, R180, R340). -/
  | noWindow
  /-- LCD.FLOOD of no pixel (R170, U3). -/
  | emptyFlood
  /-- A continued LCD.PUSH with no open stream (R180, U4). -/
  | noOpenStream
  /-- LCD.SETROT of family C (R215, R220, U5). -/
  | rotationUndefined
  /-- MIX.ADD with a negative volume (R231, U6). -/
  | negativeVolume
  /-- MIX.ADD of a sound without a buffer of at least one sample (R230, U15). -/
  | emptySound
deriving DecidableEq, Repr

/-- The state after power-on reset under a configuration and an environment (R330, R331, the table of 10_state.md
section 10). A register the table gives no value holds 0, `VARIANT` Unknown, a pin latch level 0 (log 4, log 5).
`T0` is the clock at reset release (R46). -/
def State.powerOn (cfg : Config) (env : Env) : State where
  opr0 := 0
  opr1 := 0
  opr2 := 0
  opr3 := 0
  opr4 := 0
  cmdw := 0
  res := 0
  resA := 0
  busyR := false
  busyA := false
  phase := .idle
  flBlocks := 0
  flInblk := 0
  flRem := 0
  flLeft := 0
  puIdx := 0
  inIdx := 0
  rsCnt := 0
  held := 0
  mapped := false
  latches := []
  dirs := []
  owns := []
  dstate := .uninitialized
  variant := .unknown
  rot := 0
  curW := 0
  curH := 0
  winx := 0
  winy := 0
  winValid := false
  streamOpen := false
  channels := List.replicate Config.nChannels Channel.idle
  handleCtr := 0
  t0 := env.now
  lastIdx := 0
  dutyNs := 0
  halted := false
  fault := .none
  faultInfo := 0
  degraded := false
  evt := []
  cfg := cfg
  env := env
  port := []
  freeCount := 0

/-- The environment of `State.reset`: the mapping succeeds, every pin is granted, the loader supplies nothing, both
memories list nothing, the clock shows 0. DESIGN CHOICE (log 2), unsafe: the spec leaves the environment open. -/
def Env.reference : Env where
  mapOk := true
  denied := []
  sounds := []
  pcm := []
  pix := []
  now := 0

/-- The machine right after reset, with the reference configuration and environment (logs 1 and 2). -/
def State.reset : State := State.powerOn Config.reference Env.reference

end Sys2Proof.Machine
end

