-- ==== Sys2Proof/Machine/Cells.lean ====
section
/-! DEFINITION. Memories and pin files as lists of (address, value) pairs in one canonical form: addresses strictly
rising, no entry with the value 0, which is what an unlisted address reads as (log 12). -/

namespace Sys2Proof.Machine

/-- The value at an address; 0 where the list has no entry. -/
def readCells {w : Nat} : List (Nat × BitVec w) → Nat → BitVec w
  | [], _ => 0
  | (k, v) :: rest, a => if k = a then v else readCells rest a

/-- The list without any entry for an address. -/
def dropCell {w : Nat} (a : Nat) : List (Nat × BitVec w) → List (Nat × BitVec w)
  | [] => []
  | (k, v) :: rest => if k = a then dropCell a rest else (k, v) :: dropCell a rest

/-- The list with an entry put before the first entry of a higher address. -/
def insertCell {w : Nat} (a : Nat) (v : BitVec w) : List (Nat × BitVec w) → List (Nat × BitVec w)
  | [] => [(a, v)]
  | (k, u) :: rest => if a < k then (a, v) :: (k, u) :: rest else (k, u) :: insertCell a v rest

/-- The list after a write; writing 0 leaves no entry. -/
def writeCells {w : Nat} (l : List (Nat × BitVec w)) (a : Nat) (v : BitVec w) : List (Nat × BitVec w) :=
  if v = 0 then dropCell a l else insertCell a v (dropCell a l)

/-- The canonical form: addresses strictly rising, no entry 0. -/
def cellsOk {w : Nat} : List (Nat × BitVec w) → Bool
  | [] => true
  | (_, v) :: [] => decide (v ≠ 0)
  | (k, v) :: (k', v') :: rest => decide (v ≠ 0) && decide (k < k') && cellsOk ((k', v') :: rest)

/-- The canonical form of the sample memory. -/
def Memory.wf (m : Memory) : Bool := cellsOk m

/-- `BIT(p)`, the mask of pin `p` inside the 32-bit word of its group (R11, R122). -/
def pinMask (p : Nat) : Word := BitVec.twoPow 32 (p % 32)

/-- The bit of pin `p` in a pin file: bit `p mod 32` of group `p div 32` (R122). -/
def pinBit (f : List (Nat × Word)) (p : Nat) : Bool := (readCells f (p / 32)).getLsbD (p % 32)

/-- A pin file with the bits of a mask set in one group. -/
def setGroupBits (f : List (Nat × Word)) (g : Nat) (m : Word) : List (Nat × Word) :=
  writeCells f g (readCells f g ||| m)

/-- A pin file with the bits of a mask cleared in one group. -/
def clearGroupBits (f : List (Nat × Word)) (g : Nat) (m : Word) : List (Nat × Word) :=
  writeCells f g (readCells f g &&& ~~~m)

/-- A pin file with the bit of one pin written. -/
def writePinBit (f : List (Nat × Word)) (p : Nat) (b : Bool) : List (Nat × Word) :=
  if b then setGroupBits f (p / 32) (pinMask p) else clearGroupBits f (p / 32) (pinMask p)

/-- `PIN[p]`: the output latch of pin `p` (R27). -/
def State.pin (s : State) (p : Nat) : Level := pinBit s.latches p

/-- `DIR[p]`: the direction of pin `p` (R28). -/
def State.dir (s : State) (p : Nat) : PinDir := if pinBit s.dirs p then .output else .unconfigured

/-- `OWN[p]`: whether pin `p` has a handle (R29). -/
def State.owned (s : State) (p : Nat) : Bool := pinBit s.owns p

/-- `MemRead(PCM, a, 1)`: one sample byte (R72). -/
def State.readPcm (s : State) (a : Nat) : Byte := readCells s.env.pcm a

/-- `MemRead(PIX, a, 2)`: one pixel (R73). -/
def State.readPix (s : State) (a : Nat) : Half := readCells s.env.pix a

/-- The renderer's write of one pixel (R73). -/
def State.writePix (s : State) (a : Nat) (v : Half) : State :=
  { s with env := { s.env with pix := writeCells s.env.pix a v } }

end Sys2Proof.Machine
end

