-- ==== Sys2Proof/Machine/Params.lean ====
section
/-! DEFINITION. What a configuration and an environment fix: valid and granted pins, groups and masks (R11, R71, R122),
tables by family (R129, R130, R206), the volume table (R247), and the constraints of R8. -/

namespace Sys2Proof.Machine

/-- A pin lies in one of the ranges. -/
def inRanges (l : List PinRange) (p : Nat) : Bool :=
  l.any fun r => decide (r.first ≤ p) && decide (p < r.first + r.count)

/-- `VALID_PIN(p)` (R7). -/
def validPin (c : Config) (p : Nat) : Bool := inRanges c.validPins p

/-- `ACQUIRE_OK(p)` (R12). -/
def acquireOk (e : Env) (p : Nat) : Bool := !inRanges e.denied p

/-- `PIN_D[i]` (R7). -/
def pinD (c : Config) (i : Nat) : Nat := c.dataPins.getD i 0

/-- The twelve pins of the display bus: the data lines, then write, chip-select, command/data, read (R148, R335). -/
def twelvePins (c : Config) : List Nat :=
  (List.range 8).map (pinD c) ++ [c.pinWR, c.pinCS, c.pinCD, c.pinRD]

/-- `FAST_GROUP = PIN_WR div 32` (R7, R147). -/
def fastGroup (c : Config) : Nat := c.pinWR / 32

/-- The bitwise or of a list of masks. -/
def orAll : List Word → Word
  | [] => 0
  | m :: rest => m ||| orAll rest

/-- `WR_MASK` (R11). -/
def wrMask (c : Config) : Word := pinMask c.pinWR

/-- `DATA_MASK` (R11). -/
def dataMask (c : Config) : Word := orAll ((List.range 8).map fun i => pinMask (pinD c i))

/-- `ONES(v)`: the mask of the data lines whose bit of `v` is 1 (R11, R123). -/
def onesMask (c : Config) (v : Byte) : Word :=
  orAll ((List.range 8).map fun i => if v.getLsbD i then pinMask (pinD c i) else 0)

/-- `ZEROS(v) = DATA_MASK & ~ONES(v)` (R11, R123). -/
def zerosMask (c : Config) (v : Byte) : Word := dataMask c &&& ~~~onesMask c v

/-- The pins of a group that exist, as a mask: the pins a write to its set or clear register can move (R144). -/
def validMask (c : Config) (g : Nat) : Word :=
  orAll ((List.range 32).map fun i => if validPin c (32 * g + i) then BitVec.twoPow 32 i else 0)

/-- A register group exists: one of its pins does. -/
def groupExists (c : Config) (g : Nat) : Bool := (List.range 32).any fun i => validPin c (32 * g + i)

/-- The register groups that exist. -/
def validGroups (c : Config) : List Nat :=
  c.validPins.flatMap fun r =>
    if r.count = 0 then [] else List.range' (r.first / 32) ((r.first + r.count - 1) / 32 - r.first / 32 + 1)

/-- The byte offset of the set register of group `g` (R71). -/
def setRegOffset (c : Config) (g : Nat) : Nat := c.setOffset + Config.groupStride * g

/-- The byte offset of the clear register of group `g` (R71). -/
def clrRegOffset (c : Config) (g : Nat) : Nat := c.clrOffset + Config.groupStride * g

/-- The physical address of a byte offset of the register block, which is `[GPIO_BASE, GPIO_BASE + GPIO_SIZE)` (R71). -/
def gpioAddress (c : Config) (off : Nat) : Nat := c.gpioBase + off

/-- A register of the `GPIO` space (R30): the set or the clear register of a group. -/
inductive GpioReg where
  | set (g : Nat)
  | clr (g : Nat)
deriving DecidableEq, Repr

/-- The group whose register lies at an offset of a row of registers that starts at `base`, where it exists. -/
def groupAt (c : Config) (base off : Nat) : Option Nat :=
  let g := (off - base) / Config.groupStride
  if base + Config.groupStride * g = off ∧ groupExists c g then some g else none

/-- The register at a byte offset of the `GPIO` space: the map of R71. -/
def gpioRegAt (c : Config) (off : Nat) : Option GpioReg :=
  match groupAt c c.setOffset off with
  | some g => some (.set g)
  | none =>
    match groupAt c c.clrOffset off with
    | some g => some (.clr g)
    | none => none

/-- The tables of a recognised family. -/
def familyTable (c : Config) : Family → FamilyTable
  | .A => c.tableA
  | .B => c.tableB
  | .C => c.tableC

/-- `MADCTL_ROT[v]` for the families of `ROT_FAMILIES = {A, B}`; none for family C (R220). -/
def rotationTable (c : Config) : Family → Option RotationTable
  | .A => some c.rotA
  | .B => some c.rotB
  | .C => none

/-- The entry of a rotation table for `r` (R130, R215). -/
def rotationByte (t : RotationTable) (r : BitVec 2) : Byte :=
  if r = 0 then t.r0 else if r = 1 then t.r1 else if r = 2 then t.r2 else t.r3

/-- `Classify(id)` (R206). -/
def classify (c : Config) (id : Half) : Variant :=
  if id ∈ c.idsA then .family .A
  else if id ∈ c.idsB then .family .B
  else if id ∈ c.idsC then .family .C
  else .unknown

/-- The reference `VOL_LOOKUP` of R7: `tdiv(vol * (s - 128) * 256, 127)`. -/
def referenceVolume (vol : BitVec 7) (b : Byte) : Int :=
  Int.tdiv ((vol.toNat : Int) * ((b.toNat : Int) - 128) * 256) 127

/-- `VOL_LOOKUP(vol, s)` (R247): the configured entry, or the reference value where none is configured. -/
def volLookup (c : Config) (vol : BitVec 7) (b : Byte) : Int :=
  match c.volTable[vol.toNat * 256 + b.toNat]? with
  | some v => v
  | none => referenceVolume vol b

/-- `FOLD(l, r)` (R247, decision D26). -/
def foldSides (l r : Int) : Int := l + r

/-- `SFX(id)`: the first buffer the loader lists for the id (R7, U15). -/
def soundOf (e : Env) (id : Half) : Option Sound := e.sounds.find? fun x => decide (x.id = id)

/-- R8, the pins: eight data lines, twelve distinct valid pins, the nine fast lines in one group. -/
abbrev PinsOk (c : Config) : Prop :=
  c.dataPins.length = 8 ∧ (twelvePins c).Nodup ∧ (∀ p ∈ twelvePins c, validPin c p = true) ∧
    ∀ i ∈ List.range 8, pinD c i / 32 = fastGroup c

/-- R8, the registers: offsets that differ, are multiples of 4 and place every group's registers inside the block
without overlap. -/
abbrev RegistersOk (c : Config) : Prop :=
  c.setOffset % 4 = 0 ∧ c.clrOffset % 4 = 0 ∧ c.setOffset ≠ c.clrOffset ∧
    (∀ g ∈ validGroups c, setRegOffset c g + 4 ≤ c.gpioSize ∧ clrRegOffset c g + 4 ≤ c.gpioSize) ∧
    ∀ g ∈ validGroups c, ∀ h ∈ validGroups c, setRegOffset c g ≠ clrRegOffset c h

/-- No identifier of the first list stands in the second. -/
def disjointIds (l m : List Half) : Bool := l.all fun x => decide (x ∉ m)

/-- R8, the identifiers: three pairwise disjoint sets. -/
abbrev IdsOk (c : Config) : Prop :=
  disjointIds c.idsA c.idsB = true ∧ disjointIds c.idsA c.idsC = true ∧ disjointIds c.idsB c.idsC = true

/-- R8, the panel: each dimension in 1..65536, the area below 2^32. -/
abbrev PanelOk (c : Config) : Prop :=
  1 ≤ c.nativeW ∧ c.nativeW ≤ 65536 ∧ 1 ≤ c.nativeH ∧ c.nativeH ≤ 65536 ∧ c.nativeW * c.nativeH < 4294967296

/-- R8, the levels: each active level differs from its idle level, the command level from the data level. -/
abbrev LevelsOk (c : Config) : Prop :=
  c.wrActive ≠ c.wrIdle ∧ c.csActive ≠ c.csIdle ∧ c.rdActive ≠ c.rdIdle ∧ c.cdCommand ≠ c.cdData

/-- R7, the rates: `SAMPLE_RATE` and `PWM_PERIOD_NS` are positive. -/
abbrev RatesOk (c : Config) : Prop := 0 < c.sampleRate ∧ 0 < c.pwmPeriodNs

/-- The constraints of R8 on a configuration. A step of a machine whose configuration breaks one is refused (U18). That
a sequence programs the seven things of R207 in order is not among them: R128 gives no register number to test it by, so
every `INIT_SEQ` is accepted, an empty one too. DESIGN CHOICE (log 26). -/
abbrev ConfigOk (c : Config) : Prop := PinsOk c ∧ RegistersOk c ∧ IdsOk c ∧ PanelOk c ∧ LevelsOk c ∧ RatesOk c

end Sys2Proof.Machine
end

