-- ==== Sys2Proof/Machine/Flags.lean ====
section
/-! DEFINITION. The views of the pins (R11), the one-bit flags and how the rules compute them: PinsReady (R148), the
state preconditions (R226), STREAM_OPEN (R45, R161 f), the busy flags (R23), the current dimensions (R38). -/

namespace Sys2Proof.Machine

/-- `WR = PIN[PIN_WR]` (R11). -/
def State.wr (s : State) : Level := s.pin s.cfg.pinWR

/-- `CS = PIN[PIN_CS]` (R11). -/
def State.cs (s : State) : Level := s.pin s.cfg.pinCS

/-- `CD = PIN[PIN_CD]` (R11). -/
def State.cd (s : State) : Level := s.pin s.cfg.pinCD

/-- `RD = PIN[PIN_RD]` (R11). -/
def State.rd (s : State) : Level := s.pin s.cfg.pinRD

/-- The byte whose bit `i` is the level of data line `Di` (R11, `DBUS`), for a function of the pins. -/
def dataByte (c : Config) (level : Nat → Level) : Byte :=
  BitVec.ofBoolListLE [level (pinD c 0), level (pinD c 1), level (pinD c 2), level (pinD c 3),
    level (pinD c 4), level (pinD c 5), level (pinD c 6), level (pinD c 7)]

/-- `DBUS` (R11). -/
def State.dbus (s : State) : Byte := dataByte s.cfg s.pin

/-- `PinsReady` (R148): all twelve pins are acquired outputs. -/
def State.pinsReady (s : State) : Bool :=
  (twelvePins s.cfg).all fun p => s.owned p && decide (s.dir p = .output)

/-- The driver state of LCD.WR8, LCD.WR16 and LCD.WREG32 (R226): any but `Uninitialized`. -/
def State.protocolState (s : State) : Bool := decide (s.dstate ≠ .uninitialized)

/-- The driver state of LCD.SETWIN, LCD.FLOOD and LCD.PUSH (R226): `Initialized` or `Ready`. -/
def State.drawingState (s : State) : Bool := decide (s.dstate = .initialized) || decide (s.dstate = .ready)

/-- The driver state of LCD.SETROT (R226): `Ready`, or `Initialized` with the Unknown variant. -/
def State.rotationState (s : State) : Bool :=
  decide (s.dstate = .ready) || (decide (s.dstate = .initialized) && decide (s.variant = .unknown))

/-- The window may be streamed into: Unknown variant, or a window is programmed (R170, R180, R340). -/
def State.windowReady (s : State) : Bool := decide (s.variant = .unknown) || s.winValid

/-- R161 f: a byte latched at command level ends any pixel stream. -/
def State.closeStream (s : State) : State :=
  if s.cs = s.cfg.csActive ∧ s.cd = s.cfg.cdCommand then { s with streamOpen := false } else s

/-- R45 at the event of a raw GPIO command, from the state `before` it to its state: an active-to-idle edge of the
write-strobe, with chip-select active and command/data select at command level after it, transfers a command byte to the
controller (R52), and every such transfer that opens no stream ends any (R45 against R343 and the
flags of R143 to R145: DEDUCED, log 10). -/
def State.closeOnEdge (s before : State) : State :=
  if before.wr = before.cfg.wrActive ∧ s.wr = s.cfg.wrIdle then s.closeStream else s

/-- The busy flag of a context (R23). -/
def State.busy (s : State) : Context → Bool
  | .R => s.busyR
  | .A => s.busyA

/-- The busy flag of a context written (R23). -/
def State.setBusy (s : State) (ctx : Context) (b : Bool) : State :=
  match ctx with
  | .R => { s with busyR := b }
  | .A => { s with busyA := b }

/-- Rotation `r` exchanges width and height: 1 and 3 do (R38, R215). -/
def swapsAxes (r : BitVec 2) : Bool := r.getLsbD 0

/-- `ROT` written, and with it the current dimensions (R38). -/
def State.setRotation (s : State) (r : BitVec 2) : State :=
  { s with
    rot := r
    curW := BitVec.ofNat 17 (if swapsAxes r then s.cfg.nativeH else s.cfg.nativeW)
    curH := BitVec.ofNat 17 (if swapsAxes r then s.cfg.nativeW else s.cfg.nativeH) }

end Sys2Proof.Machine
end

