-- ==== Sys2Proof/Machine/Operands.lean ====
section
/-! DEFINITION. Operands: how a command's words reach the operand registers (R20, R21, R101), the operand assembly of
R104 from those registers, and the byte order of values on the bus (R76, R128). -/

namespace Sys2Proof.Machine

/-- The high byte of a 16-bit value: the first on the bus (R76). -/
def hiByte (v : Half) : Byte := v.extractLsb' 8 8

/-- The low byte of a 16-bit value: the second on the bus (R76). -/
def loByte (v : Half) : Byte := v.extractLsb' 0 8

/-- The four bytes of a 32-bit register value, bits 31..24 first (R76). -/
def wordBytes (v : Word) : List Byte :=
  [v.extractLsb' 24 8, v.extractLsb' 16 8, v.extractLsb' 8 8, v.extractLsb' 0 8]

/-- The data bytes of a register step: the low `8 * n` bits of the value, most significant byte first (R128, R167). -/
def stepBytes (n : DataBytes) (v : Word) : List Byte :=
  match n with
  | .one => [v.extractLsb' 0 8]
  | .two => [v.extractLsb' 8 8, v.extractLsb' 0 8]
  | .four => wordBytes v

/-- The length of a delay in milliseconds (R128). -/
def delayMs : DelayMs → Nat
  | .ms50 => 50
  | .ms150 => 150
  | .ms500 => 500

/-- The red field of a colour in the usual reading of 5-6-5 packed RGB (R121); no rule uses it. -/
def colorRed (c : Half) : BitVec 5 := c.extractLsb' 11 5

/-- The green field of a colour in the usual reading of 5-6-5 packed RGB (R121); no rule uses it. -/
def colorGreen (c : Half) : BitVec 6 := c.extractLsb' 5 6

/-- The blue field of a colour in the usual reading of 5-6-5 packed RGB (R121); no rule uses it. -/
def colorBlue (c : Half) : BitVec 5 := c.extractLsb' 0 5

/-- `OPR[i] <- Wi` for the extension words a command has, the registers beyond them unchanged (R20, R101). -/
def State.setExtension (s : State) : List Word → State
  | [] => s
  | [w1] => { s with opr1 := w1 }
  | [w1, w2] => { s with opr1 := w1, opr2 := w2 }
  | [w1, w2, w3] => { s with opr1 := w1, opr2 := w2, opr3 := w3 }
  | w1 :: w2 :: w3 :: w4 :: _ => { s with opr1 := w1, opr2 := w2, opr3 := w3, opr4 := w4 }

/-- R101: what accepting a command of either context writes: `CMDW`, `OPR[0]`, the operand registers of its extension
words (R20, R21), the busy flag of the context. -/
def State.accept (s : State) (ctx : Context) (words : List Word) : State :=
  match words with
  | [] => s
  | w0 :: ext =>
    State.setBusy { (s.setExtension ext) with cmdw := w0, opr0 := (imm24Of w0).setWidth 32 } ctx true

/-- `OPR[0][15:0]`: the operand of GPIO.INIT, GPIO.DIROUT, GPIO.WRLVL, LCD.WR16, LCD.FLOOD (color), LCD.INIT and
MIX.ADD (sfxId) (R104). -/
def State.operand16 (s : State) : Half := s.opr0.extractLsb' 0 16

/-- `OPR[0][7:0]`: the operand of LCD.WR8 and LCD.WREG32 (R104). -/
def State.operand8 (s : State) : Byte := s.opr0.extractLsb' 0 8

/-- `OPR[0][16]`: the level of GPIO.WRLVL (R104). -/
def State.operandLevel (s : State) : Level := s.opr0.getLsbD 16

/-- `OPR[0][1:0]`: the rotation of LCD.SETROT (R104). -/
def State.operandRotation (s : State) : BitVec 2 := s.opr0.extractLsb' 0 2

/-- `OPR[0][0]`: the first-call flag of LCD.PUSH (R104). -/
def State.operandFirst (s : State) : Bool := s.opr0.getLsbD 0

/-- `OPR[1][31:16]`, `OPR[1][15:0]`, `OPR[2][31:16]`, `OPR[2][15:0]`: x1, x2, y1, y2 of LCD.SETWIN (R104). -/
def State.operandWindow (s : State) : Half × Half × Half × Half :=
  (s.opr1.extractLsb' 16 16, s.opr1.extractLsb' 0 16, s.opr2.extractLsb' 16 16, s.opr2.extractLsb' 0 16)

/-- `OPR[3][7:0]`: the separation of MIX.ADD (R104). -/
def State.operandSeparation (s : State) : Byte := s.opr3.extractLsb' 0 8

/-- The instruction that the operand registers hold: the assembly of R104 for the opcode in `CMDW`. -/
def State.operandInstr (s : State) : Option Instr :=
  let op := opcodeOf s.cmdw
  if op = 0x01 then some (.gpioInit s.operand16.toNat)
  else if op = 0x02 then some (.gpioDirout s.operand16.toNat)
  else if op = 0x03 then some (.gpioWrlvl s.operand16.toNat s.operandLevel)
  else if op = 0x04 then some (.gpioFset s.opr1)
  else if op = 0x05 then some (.gpioFclr s.opr1)
  else if op = 0x10 then some (.lcdWr8 s.operand8)
  else if op = 0x11 then some (.lcdWr16 s.operand16)
  else if op = 0x12 then some (.lcdWreg32 s.operand8 s.opr1)
  else if op = 0x13 then
    let (x1, x2, y1, y2) := s.operandWindow
    some (.lcdSetwin x1 y1 x2 y2)
  else if op = 0x14 then some (.lcdFlood s.operand16 s.opr1)
  else if op = 0x15 then some (.lcdPush s.opr1 s.opr2 s.operandFirst)
  else if op = 0x18 then some .lcdReset
  else if op = 0x19 then some (.lcdInit s.operand16)
  else if op = 0x1A then some (.lcdSetrot s.operandRotation.toNat)
  else if op = 0x20 then some (.mixAdd s.operand16 s.opr1 s.opr2 s.operandSeparation.toNat s.opr4)
  else if op = 0x21 then some .mixTick
  else if op = 0x28 then some .pwmPoll
  else none

end Sys2Proof.Machine
end

