-- ==== Sys2Proof/Machine/Ops.lean ====
section
/-! DEFINITION. The named operations that the meanings share: events, taking a fault (R296), the register port and the
fast path (R30, R144 to R146), the slow path (R143), the byte write in both strobe variants (R161 to R163), the strobe
pulse (R166), register writes (R167), the window (R169), the flood (R170 to R172), the pixel stream (R180), the
bring-up sequence (R207). -/

namespace Sys2Proof.Machine

/-- How far a procedure of the rules came: to its end, to a fatal condition that was taken (the state after it), or to
a `refuse` line. -/
inductive Result where
  | ok (s : State)
  | stop (s : State)
  | refuse (r : Refusal)
deriving DecidableEq, Repr

/-- The next procedure, when the one before came to its end. -/
def Result.bind (x : Result) (f : State → Result) : Result :=
  match x with
  | .ok s => f s
  | .stop s => .stop s
  | .refuse r => .refuse r

/-- The outcome of an operation: a fatal condition is taken, so its state is a next state (R296). -/
def Result.outcome : Result → Host.Outcome State Fault Refusal
  | .ok s => .next s
  | .stop s => .next s
  | .refuse r => .refused r

/-- An operation of the block: stuck for ever once `HALTED` is set (R296, U22), else the body. -/
def State.run (s : State) (body : State → Result) : Host.Outcome State Fault Refusal :=
  if s.halted then .fault (.halted s.fault) else (body s).outcome

/-- `n` repetitions of a procedure. -/
def repeatOp : Nat → (State → Result) → State → Result
  | 0, _, s => .ok s
  | n + 1, f, s => (f s).bind (repeatOp n f)

/-- `Emit(e)` (R10, R51). -/
def State.emit (s : State) (e : Event) : State := { s with evt := s.evt ++ [e] }

/-- The code of a fault (R290). -/
def faultCode : FaultKind → Nat
  | .none => 0
  | .pin => 1
  | .map => 2
  | .pan => 3

/-- The state after a fault is taken (R296): the fault and its value recorded, `HALTED` set, the HALT event emitted,
the busy flags and the phase cleared, everything else as it was. -/
def State.halt (s : State) (k : FaultKind) (info : Word) : State :=
  { s with
    fault := k
    faultInfo := info
    halted := true
    evt := s.evt ++ [.halt (faultCode k)]
    busyR := false
    busyA := false
    phase := .idle }

/-- `raise F(info)` (R296): the fault is taken and the operation ends. There is no return from it (R298). -/
def State.raise (s : State) (k : FaultKind) (info : Word) : Result := .stop (s.halt k info)

/-- `EnsureMapped()` (R146): the register resource is mapped at the first fast write, a failure is fatal. -/
def ensureMapped (s : State) : Result :=
  if s.mapped then .ok s
  else if s.env.mapOk then .ok (State.emit { s with mapped := true } .map)
  else s.raise .map 0

/-- A write to a set register (level 1) or clear register (level 0): every existing pin of the group whose mask bit is
1 takes the level, at one instant, and no other latch changes (R30, R78, R144, R145). -/
def State.writeReg (s : State) (r : GpioReg) (m : Word) : State :=
  match r with
  | .set g => { s with latches := setGroupBits s.latches g (m &&& validMask s.cfg g) }
  | .clr g => { s with latches := clearGroupBits s.latches g (m &&& validMask s.cfg g) }

/-- `MemWrite(GPIO, offset, 4, v)` (R10, R71): the register at the offset is written. -/
def gpioWrite (off : Nat) (m : Word) (s : State) : Result :=
  match gpioRegAt s.cfg off with
  | some r => .ok (s.writeReg r m)
  | none => .refuse .noGpioRegister

/-- `FastSet(m)` (R144). -/
def fastSet (m : Word) (s : State) : Result :=
  (ensureMapped s).bind fun s1 =>
    (gpioWrite (setRegOffset s1.cfg (fastGroup s1.cfg)) m s1).bind fun s2 => .ok (s2.emit (.fs m))

/-- `FastClr(m)` (R145). -/
def fastClr (m : Word) (s : State) : Result :=
  (ensureMapped s).bind fun s1 =>
    (gpioWrite (clrRegOffset s1.cfg (fastGroup s1.cfg)) m s1).bind fun s2 => .ok (s2.emit (.fc m))

/-- A fast write of a mask that drives its pins to a level. -/
def fastDrive (l : Level) (m : Word) (s : State) : Result := if l then fastSet m s else fastClr m s

/-- GPIO.FSET and GPIO.FCLR (R144, R145): a raw fast write, which may end a pixel stream (R45). -/
def rawDrive (l : Level) (m : Word) (s : State) : Result :=
  (fastDrive l m s).bind fun t => .ok (t.closeOnEdge s)

/-- `Level(p, l)` (R143 from its third line on, R160): the slow path drives one pin. -/
def State.level (s : State) (p : Nat) (l : Level) : State :=
  State.emit { s with latches := writePinBit s.latches p l } (.lv p l)

/-- `WrActive()` (R160). -/
def wrActiveOp (s : State) : Result := fastDrive s.cfg.wrActive (wrMask s.cfg) s

/-- `WrIdle()` (R160). -/
def wrIdleOp (s : State) : Result := fastDrive s.cfg.wrIdle (wrMask s.cfg) s

/-- The compliant byte write (R162): ones, zeros, strobe active, strobe idle. -/
def writeCompliant (v : Byte) (s : State) : Result :=
  (fastSet (onesMask s.cfg v) s).bind fun s1 =>
    (fastClr (zerosMask s1.cfg v) s1).bind fun s2 => (wrActiveOp s2).bind wrIdleOp

/-- The merged byte write (R163): the data write in the strobe's active direction comes second and carries the
strobe. -/
def writeMerged (v : Byte) (s : State) : Result :=
  if s.cfg.wrActive then
    (fastClr (zerosMask s.cfg v) s).bind fun s1 =>
      (fastSet (onesMask s1.cfg v ||| wrMask s1.cfg) s1).bind wrIdleOp
  else
    (fastSet (onesMask s.cfg v) s).bind fun s1 =>
      (fastClr (zerosMask s1.cfg v ||| wrMask s1.cfg) s1).bind wrIdleOp

/-- `Write8(v)` (R161): refused with the strobe not idle, then the sequence of the configured variant, then the stream
bit. -/
def write8 (v : Byte) (s : State) : Result :=
  if s.wr ≠ s.cfg.wrIdle then .refuse .strobeNotIdle
  else
    (match s.cfg.strobe with
      | .compliant => writeCompliant v s
      | .merged => writeMerged v s).bind fun s1 => .ok s1.closeStream

/-- `Write16(w)` (R165): the high byte, then the low byte. -/
def write16 (v : Half) (s : State) : Result := (write8 (hiByte v) s).bind (write8 (loByte v))

/-- A byte write for each byte of a list, in order. -/
def writeBytes : List Byte → State → Result
  | [], s => .ok s
  | b :: rest, s => (write8 b s).bind (writeBytes rest)

/-- `StrobePulse()` (R166): the strobe alone, active and idle. -/
def strobePulse (s : State) : Result :=
  if s.wr ≠ s.cfg.wrIdle then .refuse .strobeNotIdle else (wrActiveOp s).bind wrIdleOp

/-- `StrobePixel()` (R166): two pulses, one pixel of two equal bytes. -/
def strobePixel (s : State) : Result := (strobePulse s).bind strobePulse

/-- `RegWrite(op, n, value)` (R167), with the data bytes of the value, most significant first. -/
def regWrite (op : Byte) (bytes : List Byte) (s : State) : Result :=
  let s0 := (s.level s.cfg.pinCS s.cfg.csActive).level s.cfg.pinCD s.cfg.cdCommand
  (write8 op s0).bind fun s1 =>
    (writeBytes bytes (s1.level s1.cfg.pinCD s1.cfg.cdData)).bind fun s2 =>
      .ok (s2.level s2.cfg.pinCS s2.cfg.csIdle)

/-- The packing of a pair of coordinates, `(x1 << 16) | x2` (R120). -/
def packPair (hi lo : Half) : Word := hi ++ lo

/-- `SetWin(x1, y1, x2, y2)` (R169 after its `require` and `refuse` lines): nothing in the Unknown variant. -/
def setWindow (x1 y1 x2 y2 : Half) (s : State) : Result :=
  match s.variant with
  | .unknown => .ok s
  | .family f =>
    (regWrite (familyTable s.cfg f).xWin (wordBytes (packPair x1 x2)) s).bind fun s1 =>
      (regWrite (familyTable s1.cfg f).yWin (wordBytes (packPair y1 y2)) s1).bind fun s2 =>
        .ok { s2 with winx := packPair x1 x2, winy := packPair y1 y2, winValid := true }

/-- `SetWin(0, 0, CUR_W - 1, CUR_H - 1)`: the full screen (R120, R205, R215). -/
def setFullWindow (s : State) : Result :=
  setWindow 0 0 (BitVec.ofNat 16 (s.curW.toNat - 1)) (BitVec.ofNat 16 (s.curH.toNat - 1)) s

/-- `MemWriteOp()` (R160): the memory-write command of the variant, the generic opcode in the Unknown state. -/
def memWriteOp (s : State) : Byte :=
  match s.variant with
  | .family f => (familyTable s.cfg f).memWrite
  | .unknown => s.cfg.opcGeneric

/-- How LCD.FLOOD and a first LCD.PUSH open a stream (R170, R180): chip-select, the memory-write command, the stream
bit. -/
def openStream (s : State) : Result :=
  let s0 := (s.level s.cfg.pinCS s.cfg.csActive).level s.cfg.pinCD s.cfg.cdCommand
  (write8 (memWriteOp s0) s0).bind fun s1 => .ok { s1 with streamOpen := true }

/-- `FloodFast(n)` (R171): blocks of 64 strobe-only pixels, then the remainder. -/
def floodFast (n : Nat) (s : State) : Result :=
  (repeatOp (n / Config.floodBlock) (repeatOp Config.floodBlock strobePixel) s).bind
    (repeatOp (n % Config.floodBlock) strobePixel)

/-- The pixels after the first (R170): strobes where the two bytes are equal, full writes where they differ. -/
def floodRest (color : Half) (n : Nat) (s : State) : Result :=
  if hiByte color = loByte color then floodFast n s else repeatOp n (write16 color) s

/-- `Flood(color, len)` (R170 after its `require` and `refuse` lines). -/
def flood (color : Half) (len : Nat) (s : State) : Result :=
  (openStream s).bind fun s1 =>
    (write16 color (s1.level s1.cfg.pinCD s1.cfg.cdData)).bind fun s2 =>
      (floodRest color (len - 1) s2).bind fun s3 => .ok (s3.level s3.cfg.pinCS s3.cfg.csIdle)

/-- The pixels of LCD.PUSH (R180): `n` elements of `PIX` from address `a` on, each two byte writes. -/
def pushPixels : Nat → Nat → State → Result
  | _, 0, s => .ok s
  | a, n + 1, s => (write16 (s.readPix a) s).bind (pushPixels (a + 1) n)

/-- One step of a bring-up sequence (R207). -/
def runInitStep (x : InitStep) (s : State) : Result :=
  match x with
  | .cmd op => regWrite op [] s
  | .reg op n v => regWrite op (stepBytes n v) s
  | .delay d => .ok (s.emit (.dl (delayMs d)))

/-- `RunSeq(seq)` (R207). -/
def runSeq : List InitStep → State → Result
  | [], s => .ok s
  | x :: rest, s => (runInitStep x s).bind (runSeq rest)

/-- The `require` and `refuse` lines of LCD.WR8, LCD.WR16 and LCD.WREG32 (R164, R165, R168): none when the command is
accepted. -/
def protocolCheck (s : State) : Option Refusal :=
  if !s.pinsReady then some .pinsNotReady
  else if !s.protocolState then some .wrongDriverState
  else none

/-- The `require` and `refuse` lines of LCD.SETWIN (R169). -/
def windowCheck (x1 y1 x2 y2 : Half) (s : State) : Option Refusal :=
  if !s.pinsReady then some .pinsNotReady
  else if !s.drawingState then some .wrongDriverState
  else if x2.toNat < x1.toNat ∨ y2.toNat < y1.toNat then some .windowNotSorted
  else none

/-- The `require` and `refuse` lines of LCD.FLOOD (R170). -/
def floodCheck (len : Nat) (s : State) : Option Refusal :=
  if !s.pinsReady then some .pinsNotReady
  else if !s.drawingState then some .wrongDriverState
  else if !s.windowReady then some .noWindow
  else if len = 0 then some .emptyFlood
  else none

/-- The `require` lines of LCD.PUSH (R180). -/
def pushCheck (isFirstCall : Bool) (s : State) : Option Refusal :=
  if !s.pinsReady then some .pinsNotReady
  else if !s.drawingState then some .wrongDriverState
  else if isFirstCall && !s.windowReady then some .noWindow
  else if !isFirstCall && !s.streamOpen then some .noOpenStream
  else none

/-- The `require` line of LCD.RESET (R200). -/
def resetCheck (s : State) : Option Refusal :=
  if !s.pinsReady then some .pinsNotReady
  else if s.dstate ≠ .uninitialized then some .wrongDriverState
  else none

/-- The `require` line of LCD.INIT (R205). -/
def initCheck (s : State) : Option Refusal :=
  if !s.pinsReady then some .pinsNotReady
  else if s.dstate ≠ .reset then some .wrongDriverState
  else none

/-- The `require` lines of LCD.SETROT (R215). -/
def rotationCheck (s : State) : Option Refusal :=
  if !s.pinsReady then some .pinsNotReady
  else if !s.rotationState then some .wrongDriverState
  else none

/-- An operation after its `require` and `refuse` lines: those come first in every command (R299). -/
def afterCheck (check : Option Refusal) (body : Result) : Result :=
  match check with
  | some r => .refuse r
  | none => body

end Sys2Proof.Machine
end

