-- ==== Sys2Proof/Machine/Controller.lean ====
section
/-! DEFINITION. The meanings of the display controller commands (42_controller.md), each as the big step of its rule. -/

namespace Sys2Proof.Machine

/-- The first lines of LCD.RESET (R200): the four control lines idled by the slow path, in the glossary's order. -/
def idleControlLines (s : State) : State :=
  let c := s.cfg
  (((s.level c.pinCS c.csIdle).level c.pinCD c.cdData).level c.pinWR c.wrIdle).level c.pinRD c.rdIdle

/-- The zero byte of LCD.RESET at command level, with the first of the three pulses (R200). -/
def resetByte (s : State) : Result :=
  write8 0x00 ((s.level s.cfg.pinCS s.cfg.csActive).level s.cfg.pinCD s.cfg.cdCommand)

/-- The last lines of LCD.RESET (R200). -/
def finishReset (s : State) : State :=
  { s.level s.cfg.pinCS s.cfg.csIdle with winValid := false, streamOpen := false, dstate := .reset }

/-- LCD.RESET (R200): the bus resynchronisation, from `Uninitialized` to `Reset`. -/
def execLcdReset (s : State) : Host.Outcome State Fault Refusal :=
  s.run fun s =>
    afterCheck (resetCheck s) <|
      (resetByte (idleControlLines s)).bind fun s1 =>
        (strobePulse s1).bind fun s2 => (strobePulse s2).bind fun s3 => .ok (finishReset s3)

/-- LCD.INIT of an unrecognised identifier (R205, R210): the degraded Unknown state, no event. -/
def initUnknown (s : State) : State :=
  { s with variant := .unknown, dstate := .initialized, degraded := true }

/-- LCD.INIT between the sequence and the window (R205). -/
def initScreen (s : State) : State := State.setRotation { s with dstate := .initialized } 0

/-- LCD.INIT (R205): the bring-up sequence of the recognised family, the full-screen window, one flood to black. -/
def execLcdInit (id : Half) (s : State) : Host.Outcome State Fault Refusal :=
  s.run fun s =>
    afterCheck (initCheck s) <|
      match classify s.cfg id with
      | .unknown => .ok (initUnknown s)
      | .family f =>
        (runSeq (familyTable s.cfg f).initSeq { s with variant := .family f }).bind fun s1 =>
          (setFullWindow (initScreen s1)).bind fun s2 =>
            (flood 0x0000 (s2.curW.toNat * s2.curH.toNat) s2).bind fun s3 => .ok { s3 with dstate := .ready }

/-- LCD.SETROT (R215): the memory-access-control value, the rotation with its dimensions, the full-screen window;
nothing in the Unknown variant, refused for family C. -/
def execLcdSetrot (r : Nat) (s : State) : Host.Outcome State Fault Refusal :=
  s.run fun s =>
    afterCheck (rotationCheck s) <|
      match s.variant with
      | .unknown => .ok s
      | .family f =>
        match rotationTable s.cfg f with
        | none => .refuse .rotationUndefined
        | some t =>
          (regWrite (familyTable s.cfg f).madctl [rotationByte t (BitVec.ofNat 2 r)] s).bind fun s1 =>
            setFullWindow (s1.setRotation (BitVec.ofNat 2 r))

end Sys2Proof.Machine
end

