-- ==== Sys2Proof/Machine/Gpio.lean ====
section
/-! DEFINITION. The meanings of the GPIO commands (40_gpio.md). -/

namespace Sys2Proof.Machine

/-- GPIO.INIT (R141): the pin is acquired and its number returned as the handle; an invalid or ungranted pin is fatal. -/
def execGpioInit (pin : Nat) (s : State) : Host.Outcome State Fault Refusal :=
  s.run fun s =>
    if !validPin s.cfg pin || !acquireOk s.env pin then s.raise .pin (BitVec.ofNat 32 pin)
    else if s.owned pin then .refuse .pinAlreadyAcquired
    else .ok (State.emit { s with owns := writePinBit s.owns pin true, res := BitVec.ofNat 32 pin } (.aq pin))

/-- GPIO.DIROUT (R142): the pin is made an output; its level is not written. -/
def execGpioDirout (handle : Nat) (s : State) : Host.Outcome State Fault Refusal :=
  s.run fun s =>
    if !validPin s.cfg handle || !s.owned handle then .refuse .noSuchHandle
    else .ok (State.emit { s with dirs := writePinBit s.dirs handle true } (.dirOut handle))

/-- GPIO.WRLVL (R143): the slow path drives one output pin, which may end a pixel stream (R45). -/
def execGpioWrlvl (handle : Nat) (level : Level) (s : State) : Host.Outcome State Fault Refusal :=
  s.run fun s =>
    if !validPin s.cfg handle || !s.owned handle then .refuse .noSuchHandle
    else if s.dir handle ≠ .output then .refuse .notAnOutput
    else .ok ((s.level handle level).closeOnEdge s)

/-- GPIO.FSET (R144): a mask written to the set register of the fast group. -/
def execGpioFset (mask : Word) (s : State) : Host.Outcome State Fault Refusal :=
  s.run (rawDrive true mask)

/-- GPIO.FCLR (R145): a mask written to the clear register of the fast group. -/
def execGpioFclr (mask : Word) (s : State) : Host.Outcome State Fault Refusal :=
  s.run (rawDrive false mask)

end Sys2Proof.Machine
end

