-- ==== Sys2Proof/Machine/Protocol.lean ====
section
/-! DEFINITION. The meanings of the display protocol commands (41_protocol.md), each as the big step of its rule. -/

namespace Sys2Proof.Machine

/-- LCD.WR8 (R164): one byte write, chip-select and command/data select as they are. -/
def execLcdWr8 (value : Byte) (s : State) : Host.Outcome State Fault Refusal :=
  s.run fun s => afterCheck (protocolCheck s) (write8 value s)

/-- LCD.WR16 (R165): two byte writes, high byte first. -/
def execLcdWr16 (value : Half) (s : State) : Host.Outcome State Fault Refusal :=
  s.run fun s => afterCheck (protocolCheck s) (write16 value s)

/-- LCD.WREG32 (R168): a register write of four data bytes; the window registers are not touched. -/
def execLcdWreg32 (reg : Byte) (value : Word) (s : State) : Host.Outcome State Fault Refusal :=
  s.run fun s => afterCheck (protocolCheck s) (regWrite reg (wordBytes value) s)

/-- LCD.SETWIN (R169): the two packed window registers, written and kept; nothing in the Unknown variant. -/
def execLcdSetwin (x1 y1 x2 y2 : Half) (s : State) : Host.Outcome State Fault Refusal :=
  s.run fun s => afterCheck (windowCheck x1 y1 x2 y2 s) (setWindow x1 y1 x2 y2 s)

/-- LCD.FLOOD (R170): the memory-write command, then `len` pixels of one colour. -/
def execLcdFlood (color : Half) (len : Word) (s : State) : Host.Outcome State Fault Refusal :=
  s.run fun s => afterCheck (floodCheck len.toNat s) (flood color len.toNat s)

/-- LCD.PUSH (R180): `count` pixels of `PIX` from `buffer` on, the memory-write command only on a first call. -/
def execLcdPush (buffer count : Word) (isFirstCall : Bool) (s : State) : Host.Outcome State Fault Refusal :=
  s.run fun s =>
    afterCheck (pushCheck isFirstCall s) <|
      (if isFirstCall then openStream s else .ok (s.level s.cfg.pinCS s.cfg.csActive)).bind fun s1 =>
        (pushPixels buffer.toNat count.toNat (s1.level s1.cfg.pinCD s1.cfg.cdData)).bind fun s2 =>
          .ok (s2.level s2.cfg.pinCS s2.cfg.csIdle)

end Sys2Proof.Machine
end

