-- ==== Sys2Proof/Machine/Mixer.lean ====
section
/-! DEFINITION. The meanings of the mixer commands (43_mixer.md): the channel file's operations, MIX.ADD, MIX.TICK. -/

namespace Sys2Proof.Machine

/-- `Exclusive(sfxId)` (R236): every active instance of an exclusive id is silenced, only `active` cleared. -/
def silence (c : Config) (id : Half) (l : List Channel) : List Channel :=
  if id ∈ c.exclusiveIds then
    l.map fun ch => if ch.active ∧ ch.sfxid = id then { ch with active := false } else ch
  else l

/-- The smallest start-tic of a list of channels, as signed numbers; 0 for no channel. -/
def minTic : List Channel → Int
  | [] => 0
  | [ch] => ch.startTic.toInt
  | ch :: rest => min ch.startTic.toInt (minTic rest)

/-- `SelectSlot()` (R237): the least free slot, else the least slot among those of the smallest start-tic. -/
def selectSlot (l : List Channel) : Nat :=
  match l.findIdx? fun ch => !ch.active with
  | some c => c
  | none => l.findIdx fun ch => decide (ch.startTic.toInt = minTic l)

/-- The left result of `Pan` (R238), on unbounded integers. -/
def panLeft (volume : Int) (separation : Nat) : Int :=
  let sep : Int := separation + 1
  volume - (volume * sep * sep) / 65536

/-- The right result of `Pan` (R238), on unbounded integers. -/
def panRight (volume : Int) (separation : Nat) : Int :=
  let sepR : Int := (separation + 1 : Int) - 257
  volume - (volume * sepR * sepR) / 65536

/-- A pan result lies in `[PAN_MIN, PAN_MAX]` (R238). -/
def panLegal (v : Int) : Bool := decide (0 ≤ v) && decide (v ≤ (Config.panMax : Int))

/-- The record that step 4 of MIX.ADD writes into its slot (R243). -/
def newChannel (x : Sound) (step tic : Word) (left right : Int) (handle : BitVec 7) : Channel where
  active := true
  ptr := x.start
  frac := 0
  stop := x.start + x.length
  step := step
  startTic := tic
  lvol := BitVec.ofInt 7 left
  rvol := BitVec.ofInt 7 right
  sfxid := x.id
  handle := handle

/-- `(HANDLE_CTR + 1) mod 100` (R44). -/
def nextHandle (h : BitVec 7) : BitVec 7 := BitVec.ofNat 7 ((h.toNat + 1) % Config.handleMod)

/-- `Record` (R243): the slot filled, the handle returned, the counter advanced. -/
def State.recordSound (s : State) (slot : Nat) (x : Sound) (step tic : Word) (left right : Int) : State :=
  { s with
    channels := s.channels.set slot (newChannel x step tic left right s.handleCtr)
    res := s.handleCtr.setWidth 32
    handleCtr := nextHandle s.handleCtr }

/-- Steps 1 to 4 of MIX.ADD (R230), for a sound with a buffer and a volume that is not negative: exclusivity, the slot,
panning with its range check (left before right, R238), the record. -/
def addSound (x : Sound) (volume : Int) (step : Word) (separation : Nat) (tic : Word) (s : State) : Result :=
  let s1 := { s with channels := silence s.cfg x.id s.channels }
  let left := panLeft volume separation
  let right := panRight volume separation
  if !panLegal left then s1.raise .pan (BitVec.ofInt 32 left)
  else if !panLegal right then s1.raise .pan (BitVec.ofInt 32 right)
  else .ok (s1.recordSound (selectSlot s1.channels) x step tic left right)

/-- MIX.ADD (R230): a sound is recorded in a slot of the channel file. -/
def execMixAdd (sfxId : Half) (volume step : Word) (separation : Nat) (tic : Word) (s : State) :
    Host.Outcome State Fault Refusal :=
  s.run fun s =>
    match soundOf s.env sfxId with
    | none => .refuse .emptySound
    | some x =>
      if x.length < 1 then .refuse .emptySound
      else if volume.toInt < 0 then .refuse .negativeVolume
      else addSound x volume.toInt step separation tic s

/-- What a channel contributes to a tick (R245, R247): nothing while it is not active. -/
def contribution (s : State) (ch : Channel) : Int :=
  if ch.active then
    foldSides (volLookup s.cfg ch.lvol (s.readPcm ch.ptr)) (volLookup s.cfg ch.rvol (s.readPcm ch.ptr))
  else 0

/-- `Advance(c)` (R246) with `Deactivate(c)` (R252), on an active channel. -/
def advance (ch : Channel) : Channel :=
  let t := ch.frac.toNat + ch.step.toNat
  let ptr := ch.ptr + t / 65536
  { ch with ptr := ptr, frac := BitVec.ofNat 16 (t % 65536), active := decide (ptr < ch.stop) }

/-- What a tick does to a slot (R245). -/
def tickChannel (ch : Channel) : Channel := if ch.active then advance ch else ch

/-- The sum of the contributions of every channel (R245). -/
def mixSum (s : State) : Int := (s.channels.map (contribution s)).sum

/-- `clamp(acc, -32768, 32767)` (R248): saturating. -/
def clamp16 (v : Int) : Int := if v < -32768 then -32768 else if 32767 < v then 32767 else v

/-- The sample that a tick returns (R245, R248). -/
def mixSample (s : State) : Int := clamp16 (mixSum s)

/-- `MixTick()` (R245): the sample left in `RES_A`, every active channel advanced. -/
def mixTick (s : State) : State :=
  { s with resA := BitVec.ofInt 32 (mixSample s), channels := s.channels.map tickChannel }

/-- MIX.TICK (R245). -/
def execMixTick (s : State) : Host.Outcome State Fault Refusal := s.run fun s => .ok (mixTick s)

end Sys2Proof.Machine
end

