-- ==== Sys2Proof/Machine/Pwm.lean ====
section
/-! DEFINITION. The meaning of PWM.POLL (44_pwm.md), with the duty mapping (R249), the sample index (R271) and the
decimal spelling of the duty value (R126, R278). -/

namespace Sys2Proof.Machine

/-- `65536 * DutyFraction(sample)`: the numerator of the duty fraction (R249). -/
def dutyNumerator (sample : Int) : Int := sample + 32768

/-- `DutyNs(sample)` (R249): the floor of the duty fraction of the period. -/
def dutyNs (c : Config) (sample : Int) : Nat := (dutyNumerator sample * (c.pwmPeriodNs : Int) / 65536).toNat

/-- The character of a decimal digit. -/
def digitChar (d : Nat) : Char := Char.ofNat (48 + d)

/-- The decimal digits of a number, most significant first, of at most `fuel` digits. -/
def decimalDigits : Nat → Nat → List Nat
  | 0, _ => []
  | fuel + 1, v => if v < 10 then [v] else decimalDigits fuel (v / 10) ++ [v % 10]

/-- `Decimal(v)` (R126, R278): the shortest decimal spelling, `0` as one digit, no leading zero. -/
def decimal (v : Nat) : List Char := (decimalDigits (v + 1) v).map digitChar

/-- The ideal sample index at a clock value (R271), exact on unbounded integers. -/
def sampleIndex (c : Config) (t0 t : BitVec 64) : Nat := (t.toNat - t0.toNat) * c.sampleRate / 1000000000

/-- `LAST_IDX <- n` (R270): 64 bits (R47). An index that does not fit leaves a free value there (log 15). -/
def State.setLastIdx (s : State) (n : Nat) : State :=
  if n < 18446744073709551616 then { s with lastIdx := BitVec.ofNat 64 n }
  else { s with lastIdx := Config.freeIndex s.freeCount, freeCount := s.freeCount + 1 }

/-- The emission of PWM.POLL (R270): one tick, the duty value written, the index kept. -/
def emitSample (n : Nat) (s : State) : State :=
  let duty := dutyNs s.cfg (mixSample s)
  (State.emit { mixTick s with dutyNs := duty } (.pw (decimal duty))).setLastIdx n

/-- PWM.POLL (R270): an emission when the sample index has advanced, else nothing. -/
def execPwmPoll (s : State) : Host.Outcome State Fault Refusal :=
  s.run fun s =>
    let n := sampleIndex s.cfg s.t0 s.env.now
    if s.lastIdx.toNat < n then .ok (emitSample n s) else .ok s

end Sys2Proof.Machine
end

