-- ==== Sys2Proof/Machine/Dispatch.lean ====
section
/-! DEFINITION. The one dispatch from an instruction to its meaning. -/

namespace Sys2Proof.Machine

def exec (i : Instr) (s : State) : Host.Outcome State Fault Refusal :=
  match i with
  | .gpioInit pin => Sys2Proof.Machine.execGpioInit pin s
  | .gpioDirout handle => Sys2Proof.Machine.execGpioDirout handle s
  | .gpioWrlvl handle level => Sys2Proof.Machine.execGpioWrlvl handle level s
  | .gpioFset mask => Sys2Proof.Machine.execGpioFset mask s
  | .gpioFclr mask => Sys2Proof.Machine.execGpioFclr mask s
  | .lcdWr8 value => Sys2Proof.Machine.execLcdWr8 value s
  | .lcdWr16 value => Sys2Proof.Machine.execLcdWr16 value s
  | .lcdWreg32 reg value => Sys2Proof.Machine.execLcdWreg32 reg value s
  | .lcdSetwin x1 y1 x2 y2 => Sys2Proof.Machine.execLcdSetwin x1 y1 x2 y2 s
  | .lcdFlood color len => Sys2Proof.Machine.execLcdFlood color len s
  | .lcdPush buffer count isFirstCall => Sys2Proof.Machine.execLcdPush buffer count isFirstCall s
  | .lcdReset => Sys2Proof.Machine.execLcdReset s
  | .lcdInit id => Sys2Proof.Machine.execLcdInit id s
  | .lcdSetrot r => Sys2Proof.Machine.execLcdSetrot r s
  | .mixAdd sfxId volume step separation tic => Sys2Proof.Machine.execMixAdd sfxId volume step separation tic s
  | .mixTick => Sys2Proof.Machine.execMixTick s
  | .pwmPoll => Sys2Proof.Machine.execPwmPoll s

end Sys2Proof.Machine
end

