-- ==== Sys2Proof/Machine/Sequencer.lean ====
section
/-! DEFINITION. The sequencer of context R: the state-machine forms of LCD.FLOOD (R176), LCD.PUSH (R180), LCD.RESET
(R200) and LCD.INIT (R205), one phase a step, with the counters of R25. R177 says that they do what the big steps of
Dispatch.lean do. -/

namespace Sys2Proof.Machine

/-- The command in execution is LCD.INIT, whose I_FLOOD runs the flood machine (R21, R205). -/
def State.inInit (s : State) : Bool := decide (opcodeOf s.cmdw = 0x19)

/-- The operation that begins reads `OPR[0]`, which the decoding of a command of context A may write before the
operation ends (R20, R101); the operation goes on with what it read (log 9). -/
def State.hold (s : State) : State := { s with held := s.opr0 }

/-- The colour the flood machine writes: the operand of LCD.FLOOD, black inside LCD.INIT (R170, R205). -/
def State.floodColor (s : State) : Half := if s.inInit then 0x0000 else s.held.extractLsb' 0 16

/-- The number of pixels the flood machine writes: the operand of LCD.FLOOD, the screen inside LCD.INIT (R170, R205). -/
def State.floodLen (s : State) : Nat := if s.inInit then s.curW.toNat * s.curH.toNat else s.opr1.toNat

/-- The phase put, after a procedure. -/
def toPhase (p : Phase) (s : State) : Result := .ok { s with phase := p }

/-- The operation in execution ends: IDLE, and context R is free (R23, R24). -/
def State.endOperation (s : State) : State := { s with phase := .idle, busyR := false }

/-- Where the strobe-only path goes on: batches, the remainder, the end (R176). -/
def strobePhase (s : State) : Phase :=
  if s.flBlocks ≠ 0 then .fBlock else if s.flRem ≠ 0 then .fRem else .fEnd

/-- Where the full-write path goes on: the next pixel or the end (R176). -/
def pixelPhase (s : State) : Phase := if s.flLeft ≠ 0 then .fPixHi else .fEnd

/-- F_FIRST_LO after its byte write (R176): the counters of the path that the colour selects. -/
def loadFlood (s : State) : State :=
  if hiByte s.floodColor = loByte s.floodColor then
    { s with
      flBlocks := BitVec.ofNat 32 ((s.floodLen - 1) / Config.floodBlock)
      flRem := BitVec.ofNat 6 ((s.floodLen - 1) % Config.floodBlock)
      flInblk := BitVec.ofNat 7 Config.floodBlock }
  else { s with flLeft := BitVec.ofNat 32 (s.floodLen - 1) }

/-- The next phase after F_FIRST_LO (R176). -/
def firstPhase (s : State) : Phase :=
  if hiByte s.floodColor = loByte s.floodColor then strobePhase s else pixelPhase s

/-- F_BLOCK after its strobe pixel (R176): one pixel less in the batch, the batch reloaded when it is empty. -/
def countBlock (s : State) : State :=
  if s.flInblk - 1 = 0 then { s with flBlocks := s.flBlocks - 1, flInblk := BitVec.ofNat 7 Config.floodBlock }
  else { s with flInblk := s.flInblk - 1 }

/-- The pixel of LCD.PUSH in transfer (R180). -/
def State.pushPixel (s : State) : Half := s.readPix (s.opr1.toNat + s.puIdx.toNat)

/-- Where LCD.PUSH goes on: the next pixel or the end (R180). -/
def pushPhase (s : State) : Phase := if s.puIdx.toNat < s.opr2.toNat then .pPixHi else .pEnd

/-- The bring-up sequence of the variant in `VARIANT` (R205); none in the Unknown variant. -/
def State.initSteps (s : State) : List InitStep :=
  match s.variant with
  | .family f => (familyTable s.cfg f).initSeq
  | .unknown => []

/-- Where LCD.INIT goes on: the next step of the sequence or the window (R205). -/
def initPhase (s : State) : Phase := if s.inIdx < s.initSteps.length then .iSeq else .iWin

/-- One step of the current phase; IDLE does nothing (R176, R180, R200, R205). -/
def seqStep (s : State) : Result :=
  match s.phase with
  | .idle => .ok s
  | .fCmd => (openStream s).bind fun s1 => toPhase .fFirstHi (s1.level s1.cfg.pinCD s1.cfg.cdData)
  | .fFirstHi => (write8 (hiByte s.floodColor) s).bind (toPhase .fFirstLo)
  | .fFirstLo =>
    (write8 (loByte s.floodColor) s).bind fun s1 => toPhase (firstPhase (loadFlood s1)) (loadFlood s1)
  | .fBlock => (strobePixel s).bind fun s1 => toPhase (strobePhase (countBlock s1)) (countBlock s1)
  | .fRem =>
    (strobePixel s).bind fun s1 =>
      let s2 := { s1 with flRem := s1.flRem - 1 }
      toPhase (if s2.flRem ≠ 0 then .fRem else .fEnd) s2
  | .fPixHi => (write8 (hiByte s.floodColor) s).bind (toPhase .fPixLo)
  | .fPixLo =>
    (write8 (loByte s.floodColor) s).bind fun s1 =>
      let s2 := { s1 with flLeft := s1.flLeft - 1 }
      toPhase (pixelPhase s2) s2
  | .fEnd =>
    let s1 := s.level s.cfg.pinCS s.cfg.csIdle
    if s1.inInit then toPhase .iEnd s1 else .ok s1.endOperation
  | .pCmd =>
    (if s.held.getLsbD 0 then openStream s else .ok (s.level s.cfg.pinCS s.cfg.csActive)).bind fun s1 =>
      let s2 := s1.level s1.cfg.pinCD s1.cfg.cdData
      toPhase (pushPhase s2) s2
  | .pPixHi => (write8 (hiByte s.pushPixel) s).bind (toPhase .pPixLo)
  | .pPixLo =>
    (write8 (loByte s.pushPixel) s).bind fun s1 =>
      let s2 := { s1 with puIdx := s1.puIdx + 1 }
      toPhase (pushPhase s2) s2
  | .pEnd => .ok (s.level s.cfg.pinCS s.cfg.csIdle).endOperation
  | .iSeq =>
    match s.initSteps[s.inIdx]? with
    | some x =>
      (runInitStep x s).bind fun s1 =>
        let s2 := { s1 with inIdx := s1.inIdx + 1 }
        toPhase (initPhase s2) s2
    | none => toPhase .iWin s
  | .iWin => (setFullWindow (initScreen s)).bind (toPhase .iFlood)
  | .iFlood => toPhase .fCmd s
  | .iEnd => .ok (State.endOperation { s with dstate := .ready })
  | .rsIdle => toPhase .rsByte (idleControlLines s)
  | .rsByte => (resetByte s).bind fun s1 => toPhase .rsPulse { s1 with rsCnt := 2 }
  | .rsPulse =>
    (strobePulse s).bind fun s1 =>
      let s2 := { s1 with rsCnt := s1.rsCnt - 1 }
      toPhase (if s2.rsCnt ≠ 0 then .rsPulse else .rsEnd) s2
  | .rsEnd => .ok (finishReset s).endOperation

/-- LCD.FLOOD begun step by step (R176): its checks, then F_CMD. -/
def startFlood (len : Word) (s : State) : Host.Outcome State Fault Refusal :=
  s.run fun s => afterCheck (floodCheck len.toNat s) (toPhase .fCmd s.hold)

/-- LCD.PUSH begun step by step (R180): its checks, then P_CMD. -/
def startPush (isFirstCall : Bool) (s : State) : Host.Outcome State Fault Refusal :=
  s.run fun s => afterCheck (pushCheck isFirstCall s) (toPhase .pCmd { s.hold with puIdx := 0 })

/-- LCD.RESET begun step by step (R200): its check, then RS_IDLE. -/
def startReset (s : State) : Host.Outcome State Fault Refusal :=
  s.run fun s => afterCheck (resetCheck s) (toPhase .rsIdle s)

/-- LCD.INIT begun step by step (R205): its check and dispatch, then the sequence; the Unknown variant has no phase. -/
def startInit (id : Half) (s : State) : Host.Outcome State Fault Refusal :=
  s.run fun s =>
    afterCheck (initCheck s) <|
      match classify s.cfg id with
      | .unknown => .ok (initUnknown s)
      | .family f =>
        let s1 := { s with variant := .family f, inIdx := 0 }
        toPhase (initPhase s1) s1

/-- A command begun step by step: the multi-event operations of R24 enter their first phase, every other command stays
in IDLE and runs whole. -/
def startExec (i : Instr) (s : State) : Host.Outcome State Fault Refusal :=
  match i with
  | .lcdFlood _ len => startFlood len s
  | .lcdPush _ _ isFirstCall => startPush isFirstCall s
  | .lcdReset => startReset s
  | .lcdInit id => startInit id s
  | .gpioInit pin => exec (.gpioInit pin) s
  | .gpioDirout handle => exec (.gpioDirout handle) s
  | .gpioWrlvl handle level => exec (.gpioWrlvl handle level) s
  | .gpioFset mask => exec (.gpioFset mask) s
  | .gpioFclr mask => exec (.gpioFclr mask) s
  | .lcdWr8 value => exec (.lcdWr8 value) s
  | .lcdWr16 value => exec (.lcdWr16 value) s
  | .lcdWreg32 reg value => exec (.lcdWreg32 reg value) s
  | .lcdSetwin x1 y1 x2 y2 => exec (.lcdSetwin x1 y1 x2 y2) s
  | .lcdSetrot r => exec (.lcdSetrot r) s
  | .mixAdd sfxId volume step separation tic => exec (.mixAdd sfxId volume step separation tic) s
  | .mixTick => exec .mixTick s
  | .pwmPoll => exec .pwmPoll s

end Sys2Proof.Machine
end

