-- ==== Sys2Proof/Machine/Port.lean ====
section
/-! DEFINITION. The command port and the schedule (R3, R23, R70, R101, R310): what one input of the host does, and the
step of the machine. -/

namespace Sys2Proof.Machine

/-- The context that issues a command: A for MIX.TICK and PWM.POLL, R for the others (R103, R310). -/
def contextOf : Instr → Context
  | .gpioInit _ => .R
  | .gpioDirout _ => .R
  | .gpioWrlvl _ _ => .R
  | .gpioFset _ => .R
  | .gpioFclr _ => .R
  | .lcdWr8 _ => .R
  | .lcdWr16 _ => .R
  | .lcdWreg32 _ _ => .R
  | .lcdSetwin _ _ _ _ => .R
  | .lcdFlood _ _ => .R
  | .lcdPush _ _ _ => .R
  | .lcdReset => .R
  | .lcdInit _ => .R
  | .lcdSetrot _ => .R
  | .mixAdd _ _ _ _ _ => .R
  | .mixTick => .A
  | .pwmPoll => .A

/-- A context executes a command: its busy flag is set, or, for context R, a phase is in execution (R23, R176). -/
def State.occupied (s : State) : Context → Bool
  | .R => s.busyR || decide (s.phase ≠ .idle)
  | .A => s.busyA

/-- A command's last event is emitted: its context is free again (R23), unless phases of it are still to run. -/
def State.finish (s : State) (ctx : Context) : State :=
  match ctx with
  | .R => if s.phase = .idle then s.setBusy .R false else s
  | .A => s.setBusy .A false

/-- `CMDW` is "the first word of the command in execution" (R21): when a command of context A ends between two phases of
an operation of context R, in execution in the state `before` it, that is again the word of that operation. `OPR[0]` keeps
what the decoding wrote (R20; log 9). -/
def State.resume (t before : State) (ctx : Context) : State :=
  match ctx with
  | .R => t
  | .A => if before.occupied .R then { t with cmdw := before.cmdw } else t

/-- A context hands a command to the port (R101, R105, R23, R83): decoded, its context checked, accepted, run. -/
def portCommand (exe : Instr → State → Host.Outcome State Fault Refusal) (ctx : Context) (words : List Word)
    (s : State) : Host.Outcome State Fault Refusal :=
  match decode words with
  | .illegal e => .refused (.illegalCommand e)
  | .command i =>
    if contextOf i ≠ ctx then .refused .wrongContext
    else if s.occupied ctx then .refused .contextBusy
    else
      match exe i (s.accept ctx words) with
      | .next t => .next ((t.finish ctx).resume s ctx)
      | .fault f => .fault f
      | .refused r => .refused r

/-- A new value of the monotonic clock (R48); a lower one is refused (U20). -/
def portClock (t : BitVec 64) (s : State) : Host.Outcome State Fault Refusal :=
  if t.toNat < s.env.now.toNat then .refused .clockDecreased
  else .next { s with env := { s.env with now := t } }

/-- The renderer writes a pixel (R73): in context R, so not while that context executes a command. -/
def portPixel (a : Nat) (v : Half) (s : State) : Host.Outcome State Fault Refusal :=
  if s.occupied .R then .refused .contextBusy else .next (s.writePix a v)

/-- What one input of the schedule does. -/
def portInput (x : HostInput) (s : State) : Host.Outcome State Fault Refusal :=
  match x with
  | .issue ctx words => portCommand exec ctx words s
  | .start ctx words => portCommand startExec ctx words s
  | .tick => (seqStep s).outcome
  | .clock t => portClock t s
  | .pixel a v => portPixel a v s

/-- One step of the machine: stuck after HALT (R296, U22), refused under a bad configuration (R8, U18), else the next
input of the schedule, or a turn of the sequencer where no input waits. -/
def machineStep (s : State) : Host.Outcome State Fault Refusal :=
  if s.halted then .fault (.halted s.fault)
  else if ¬ ConfigOk s.cfg then .refused .badConfig
  else
    match s.port with
    | [] => (seqStep s).outcome
    | x :: rest => portInput x { s with port := rest }

/-- The context of the command whose words are given, by the opcode of its first word (R103). -/
def contextOfWords (words : List Word) : Context :=
  match words with
  | [] => .R
  | w0 :: _ => if opcodeOf w0 = 0x21 ∨ opcodeOf w0 = 0x28 then .A else .R

end Sys2Proof.Machine
end

