-- ==== Sys2Proof/Machine/Step.lean ====
section
/-! DEFINITION. The step of the machine, and the placing of a command where the next step takes it. -/

namespace Sys2Proof.Machine

/-- One step (Machine/Port.lean). -/
def step (s : State) : Host.Outcome State Fault Refusal := machineStep s

/-- The state with the command of an opcode-table word as the next input of the host (log 3). -/
def State.withFetchWord (s : State) (nbits w : Nat) : State :=
  { s with port := .issue (contextOfWords (tableWords nbits w)) (tableWords nbits w) :: s.port }

end Sys2Proof.Machine
end

