-- ==== Sys2Proof/Machine/Assembler.lean ====
section
/-! DEFINITION. The assembler's spelling of a command (R107) and the pseudo-commands (R108), each a fixed expansion. -/

namespace Sys2Proof.Machine

/-- The mnemonic of a command (R103). -/
def mnemonicOf : Instr → String
  | .gpioInit _ => "GPIO.INIT"
  | .gpioDirout _ => "GPIO.DIROUT"
  | .gpioWrlvl _ _ => "GPIO.WRLVL"
  | .gpioFset _ => "GPIO.FSET"
  | .gpioFclr _ => "GPIO.FCLR"
  | .lcdWr8 _ => "LCD.WR8"
  | .lcdWr16 _ => "LCD.WR16"
  | .lcdWreg32 _ _ => "LCD.WREG32"
  | .lcdSetwin _ _ _ _ => "LCD.SETWIN"
  | .lcdFlood _ _ => "LCD.FLOOD"
  | .lcdPush _ _ _ => "LCD.PUSH"
  | .lcdReset => "LCD.RESET"
  | .lcdInit _ => "LCD.INIT"
  | .lcdSetrot _ => "LCD.SETROT"
  | .mixAdd _ _ _ _ _ => "MIX.ADD"
  | .mixTick => "MIX.TICK"
  | .pwmPoll => "PWM.POLL"

/-- The operands of a command as numbers, in the order of the assembler (R107). -/
def operandsOf : Instr → List Int
  | .gpioInit pin => [pin]
  | .gpioDirout handle => [handle]
  | .gpioWrlvl handle level => [handle, level.toNat]
  | .gpioFset mask => [mask.toNat]
  | .gpioFclr mask => [mask.toNat]
  | .lcdWr8 value => [value.toNat]
  | .lcdWr16 value => [value.toNat]
  | .lcdWreg32 reg value => [reg.toNat, value.toNat]
  | .lcdSetwin x1 y1 x2 y2 => [x1.toNat, y1.toNat, x2.toNat, y2.toNat]
  | .lcdFlood color len => [color.toNat, len.toNat]
  | .lcdPush buffer count isFirstCall => [buffer.toNat, count.toNat, isFirstCall.toNat]
  | .lcdReset => []
  | .lcdInit id => [id.toNat]
  | .lcdSetrot r => [r]
  | .mixAdd sfxId volume step separation tic => [sfxId.toNat, volume.toInt, step.toNat, separation, tic.toInt]
  | .mixTick => []
  | .pwmPoll => []

/-- A command as the assembler spells it: the mnemonic, then the operands in decimal, separated by commas (R107). -/
def assemblyOf (i : Instr) : String :=
  match operandsOf i with
  | [] => mnemonicOf i
  | ops => mnemonicOf i ++ " " ++ String.intercalate ", " (ops.map toString)

/-- `LCD.BRINGUP id` (R108). -/
def pseudoBringup (id : Half) : List Instr := [.lcdReset, .lcdInit id]

/-- `LCD.CLEAR color` (R108); the assembler is told the current dimensions. -/
def pseudoClear (color : Half) (curW curH : Nat) : List Instr :=
  [.lcdSetwin 0 0 (BitVec.ofNat 16 (curW - 1)) (BitVec.ofNat 16 (curH - 1)),
   .lcdFlood color (BitVec.ofNat 32 (curW * curH))]

/-- The continuing chunks of `LCD.PUSHCHUNKS`: `count` pixels left from `buffer` on, at most `n` in each of at most
`fuel` chunks (R108), the low 32 bits of each address (DESIGN CHOICE, log 27). -/
def pushChunksFrom : Nat → Nat → Nat → Nat → List Instr
  | 0, _, _, _ => []
  | fuel + 1, buffer, count, n =>
    if count = 0 then []
    else
      .lcdPush (BitVec.ofNat 32 buffer) (BitVec.ofNat 32 (min n count)) false ::
        pushChunksFrom fuel (buffer + n) (count - n) n

/-- `LCD.PUSHCHUNKS buffer, count, n` (R108), for `n` at least 1. The rule's addresses are unbounded and an operand has 32
bits: where `buffer + k*n` reaches 2^32 the rule is silent, and the model takes the low 32 bits. DESIGN CHOICE (log 27). -/
def pseudoPushChunks (buffer count n : Nat) : List Instr :=
  .lcdPush (BitVec.ofNat 32 buffer) (BitVec.ofNat 32 (min n count)) true ::
    pushChunksFrom count (buffer + n) (count - n) n

/-- `GPIO.SETUP pin, level` (R108). -/
def pseudoSetup (pin : Nat) (level : Level) : List Instr := [.gpioInit pin, .gpioDirout pin, .gpioWrlvl pin level]

end Sys2Proof.Machine
end

