-- ==== Sys2Proof/Machine/Trace.lean ====
section
/-! DEFINITION. The derived traces: `BUS` (R52), replayed from `EVT`, and `PWMOUT` (R53). -/

namespace Sys2Proof.Machine

/-- Command or data, by the level of command/data select (R52). -/
inductive TransferKind where
  | command
  | data
deriving DecidableEq, Repr

/-- `XF(k, b)`: one byte that the controller latches (R52). -/
structure Transfer where
  kind : TransferKind
  byte : Byte
deriving DecidableEq, Repr

/-- The replay of an event trace: the latch levels it gives, which latches it has given a value (R27: none at its
start), the transfers so far, and whether `BUS` has no value from here on (R52). -/
structure BusView where
  level : List (Nat × Word)
  known : List (Nat × Word)
  transfers : List Transfer
  lost : Bool
deriving DecidableEq, Repr

/-- Before the first event: no latch has a value, no transfer. -/
def BusView.start : BusView where
  level := []
  known := []
  transfers := []
  lost := false

/-- The level the replay gives a pin, if it has given it one. -/
def BusView.pin (v : BusView) (p : Nat) : Option Level := if pinBit v.known p then some (pinBit v.level p) else none

/-- The latches after one event (R27, R30); every event but LV, FS and FC leaves them. -/
def BusView.drive (c : Config) (v : BusView) : Event → BusView
  | .lv p l => { v with level := writePinBit v.level p l, known := writePinBit v.known p true }
  | .fs m =>
    let m' := m &&& validMask c (fastGroup c)
    { v with level := setGroupBits v.level (fastGroup c) m', known := setGroupBits v.known (fastGroup c) m' }
  | .fc m =>
    let m' := m &&& validMask c (fastGroup c)
    { v with level := clearGroupBits v.level (fastGroup c) m', known := setGroupBits v.known (fastGroup c) m' }
  | .aq _ => v
  | .dirOut _ => v
  | .map => v
  | .dl _ => v
  | .pw _ => v
  | .halt _ => v

/-- The pins of the data lines. -/
def dataLines (c : Config) : List Nat := (List.range 8).map (pinD c)

/-- Every data line has a value. -/
def BusView.dataKnown (c : Config) (v : BusView) : Bool := (dataLines c).all fun p => pinBit v.known p

/-- Some data line changes between two views, or gets its first value (log 11). -/
def dataMoved (c : Config) (v w : BusView) : Bool := (dataLines c).any fun p => decide (v.pin p ≠ w.pin p)

/-- The transfer that a latching edge makes in a view (R52). -/
def BusView.transfer (c : Config) (v : BusView) : Transfer where
  kind := if pinBit v.level c.pinCD = c.cdCommand then .command else .data
  byte := dataByte c (pinBit v.level)

/-- What an active-to-idle edge of the write-strobe does to the trace (R52, U12), from the view before it to the view
after it: nothing with chip-select idle; a transfer with chip-select active; no value from there on where a line it
needs has none, or a data line moves in the same event. -/
def BusView.edge (c : Config) (v w : BusView) : BusView :=
  match w.pin c.pinCS with
  | none => { w with lost := true }
  | some l =>
    if l = c.csActive then
      if (w.pin c.pinCD).isSome && w.dataKnown c && !dataMoved c v w then
        { w with transfers := w.transfers ++ [w.transfer c] }
      else { w with lost := true }
    else w

/-- One event of the replay (R52). -/
def busStep (c : Config) (v : BusView) (e : Event) : BusView :=
  let w := v.drive c e
  if v.lost then w
  else if v.pin c.pinWR = some c.wrActive ∧ w.pin c.pinWR = some c.wrIdle then v.edge c w
  else w

/-- The replay of a trace (R52). -/
def busReplay (c : Config) (l : List Event) : BusView := l.foldl (busStep c) BusView.start

/-- The replay of a state's trace. -/
def State.busView (s : State) : BusView := busReplay s.cfg s.evt

/-- `BUS` as far as it has a value: the transfers before the first event from which it has none (R52). -/
def State.bus (s : State) : List Transfer := s.busView.transfers

/-- `BUS` has a value up to the end of the trace (R52). -/
def State.busValid (s : State) : Bool := !s.busView.lost

/-- `PWMOUT`: the strings of the `PW` events, in order (R53). -/
def pwmOut (l : List Event) : List (List Char) :=
  l.filterMap fun e =>
    match e with
    | .pw x => some x
    | .aq _ => none
    | .dirOut _ => none
    | .lv _ _ => none
    | .map => none
    | .fs _ => none
    | .fc _ => none
    | .dl _ => none
    | .halt _ => none

end Sys2Proof.Machine
end

