-- ==== Sys2Proof/Machine/Events.lean ====
section
/-! DEFINITION. What each procedure of the protocol engine emits and transfers, as lists of events and of transfers
(R162, R163, R166, R167, R170 to R173, R180, R200, R207): the terms in which statements about `EVT` and `BUS` are
written. -/

namespace Sys2Proof.Machine

/-- The fast write that takes the write-strobe to a level (R160). -/
def strobeEvent (c : Config) (l : Level) : Event := if l then .fs (wrMask c) else .fc (wrMask c)

/-- The events of `Write8(v)` (R162, R163). -/
def byteEvents (c : Config) (v : Byte) : List Event :=
  match c.strobe with
  | .compliant =>
    [.fs (onesMask c v), .fc (zerosMask c v), strobeEvent c c.wrActive, strobeEvent c c.wrIdle]
  | .merged =>
    if c.wrActive then [.fc (zerosMask c v), .fs (onesMask c v ||| wrMask c), strobeEvent c c.wrIdle]
    else [.fs (onesMask c v), .fc (zerosMask c v ||| wrMask c), strobeEvent c c.wrIdle]

/-- The events of `Write16(w)`, which are those of LCD.WR16 (R165). -/
def halfEvents (c : Config) (v : Half) : List Event := byteEvents c (hiByte v) ++ byteEvents c (loByte v)

/-- The events of `StrobePulse()` (R166). -/
def pulseEvents (c : Config) : List Event := [strobeEvent c c.wrActive, strobeEvent c c.wrIdle]

/-- The events of `StrobePixel()` (R166). -/
def strobePixelEvents (c : Config) : List Event := pulseEvents c ++ pulseEvents c

/-- The events of a byte write for each byte of a list. -/
def bytesEvents (c : Config) (l : List Byte) : List Event := l.flatMap (byteEvents c)

/-- The latches after each event of a list (R27, R30). -/
def latchScan (c : Config) : List (Nat × Word) → List Event → List (List (Nat × Word))
  | _, [] => []
  | f, e :: rest =>
    let f' := ({ BusView.start with level := f }.drive c e).level
    f' :: latchScan c f' rest

/-- The event of the one-time mapping, where the next fast write makes it (R146). -/
def mapEvents (s : State) : List Event := if s.mapped then [] else [.map]

/-- The events of `RegWrite(op, n, value)` with the given data bytes (R167); `mapping` is what its first fast write
emits before itself (R146). -/
def regEvents (c : Config) (mapping : List Event) (op : Byte) (l : List Byte) : List Event :=
  [.lv c.pinCS c.csActive, .lv c.pinCD c.cdCommand] ++ mapping ++ byteEvents c op ++ [.lv c.pinCD c.cdData] ++
    bytesEvents c l ++ [.lv c.pinCS c.csIdle]

/-- The events of the two register writes of a window (R169). -/
def windowEvents (c : Config) (mapping : List Event) (f : Family) (x y : Word) : List Event :=
  regEvents c mapping (familyTable c f).xWin (wordBytes x) ++ regEvents c [] (familyTable c f).yWin (wordBytes y)

/-- The events that open a stream with a memory-write command (R170, R180), up to the data level. -/
def openEvents (c : Config) (mapping : List Event) (op : Byte) : List Event :=
  [.lv c.pinCS c.csActive, .lv c.pinCD c.cdCommand] ++ mapping ++ byteEvents c op ++ [.lv c.pinCD c.cdData]

/-- The events of `n` repetitions of a list of events. -/
def repeatEvents (n : Nat) (l : List Event) : List Event := (List.replicate n l).flatten

/-- The events of the pixels of a flood after the first (R171, R172). -/
def restEvents (c : Config) (color : Half) (n : Nat) : List Event :=
  if hiByte color = loByte color then repeatEvents n (strobePixelEvents c) else repeatEvents n (halfEvents c color)

/-- The events of `Flood(color, len)` (R170). -/
def floodEvents (c : Config) (mapping : List Event) (op : Byte) (color : Half) (len : Nat) : List Event :=
  openEvents c mapping op ++ halfEvents c color ++ restEvents c color (len - 1) ++ [.lv c.pinCS c.csIdle]

/-- The events of LCD.PUSH of the given pixels (R180). -/
def pushEvents (c : Config) (mapping : List Event) (op : Byte) (isFirstCall : Bool) (pixels : List Half) : List Event :=
  (if isFirstCall then openEvents c mapping op
    else [.lv c.pinCS c.csActive, .lv c.pinCD c.cdData] ++ if pixels = [] then [] else mapping) ++
    pixels.flatMap (halfEvents c) ++ [.lv c.pinCS c.csIdle]

/-- The `n` pixels of `PIX` from element address `a` on (R73). -/
def pixelsAt (s : State) (a n : Nat) : List Half := (List.range n).map fun i => s.readPix (a + i)

/-- The events of one step of a bring-up sequence (R207). -/
def initStepEvents (c : Config) : InitStep → List Event
  | .cmd op => regEvents c [] op []
  | .reg op n v => regEvents c [] op (stepBytes n v)
  | .delay d => [.dl (delayMs d)]

/-- The events of LCD.RESET (R200). -/
def resetEvents (c : Config) (mapping : List Event) : List Event :=
  [.lv c.pinCS c.csIdle, .lv c.pinCD c.cdData, .lv c.pinWR c.wrIdle, .lv c.pinRD c.rdIdle,
   .lv c.pinCS c.csActive, .lv c.pinCD c.cdCommand] ++ mapping ++ byteEvents c 0x00 ++ pulseEvents c ++
    pulseEvents c ++ [.lv c.pinCS c.csIdle]

/-- Data transfers of a list of bytes (R173). -/
def dataTransfers (l : List Byte) : List Transfer := l.map fun b => ⟨.data, b⟩

/-- The transfers of `RegWrite(op, n, value)` (R167). -/
def regTransfers (op : Byte) (l : List Byte) : List Transfer := ⟨.command, op⟩ :: dataTransfers l

/-- The transfers of one pixel: high byte, low byte (R76, R173). -/
def pixelTransfers (v : Half) : List Transfer := [⟨.data, hiByte v⟩, ⟨.data, loByte v⟩]

/-- The transfers of a flood of `len` pixels (R173). -/
def floodTransfers (op : Byte) (color : Half) (len : Nat) : List Transfer :=
  ⟨.command, op⟩ :: (List.replicate len (pixelTransfers color)).flatten

/-- The transfers of one step of a bring-up sequence (R207). -/
def initStepTransfers : InitStep → List Transfer
  | .cmd op => regTransfers op []
  | .reg op n v => regTransfers op (stepBytes n v)
  | .delay _ => []

/-- The transfer of one latched byte, by the levels of chip-select and command/data select (R52, R161 e). -/
def xferOf (c : Config) (cs cd : Level) (d : Byte) : List Transfer :=
  if cs = c.csActive then [⟨if cd = c.cdCommand then .command else .data, d⟩] else []

/-- The transfers of the two register writes of a window (R169). -/
def windowTransfers (c : Config) (f : Family) (x y : Word) : List Transfer :=
  regTransfers (familyTable c f).xWin (wordBytes x) ++ regTransfers (familyTable c f).yWin (wordBytes y)

end Sys2Proof.Machine
end

