-- ==== Sys2Proof/Safety.lean ====
section
/-! DEFINITION. What counts as a safe run, and the invariants that every step of the machine keeps, in the terms the
statements use. -/

namespace Sys2Proof.Machine

/-- A row of the opcode map: a word `w` selects it when `w & mask = value` (R103); `extension` is its k (R100). -/
structure OpcodeRow where
  value : Word
  mask : Word
  extension : Nat
deriving DecidableEq, Repr

/-- The opcode map of R103. -/
def opcodeMap : List OpcodeRow :=
  [⟨0x01000000, 0xFFFF0000, 0⟩, ⟨0x02000000, 0xFFFF0000, 0⟩, ⟨0x03000000, 0xFFFE0000, 0⟩,
   ⟨0x04000000, 0xFFFFFFFF, 1⟩, ⟨0x05000000, 0xFFFFFFFF, 1⟩, ⟨0x10000000, 0xFFFFFF00, 0⟩,
   ⟨0x11000000, 0xFFFF0000, 0⟩, ⟨0x12000000, 0xFFFFFF00, 1⟩, ⟨0x13000000, 0xFFFFFFFF, 2⟩,
   ⟨0x14000000, 0xFFFF0000, 1⟩, ⟨0x15000000, 0xFFFFFFFE, 2⟩, ⟨0x18000000, 0xFFFFFFFF, 0⟩,
   ⟨0x19000000, 0xFFFF0000, 0⟩, ⟨0x1A000000, 0xFFFFFFFC, 0⟩, ⟨0x20000000, 0xFFFF0000, 4⟩,
   ⟨0x21000000, 0xFFFFFFFF, 0⟩, ⟨0x28000000, 0xFFFFFFFF, 0⟩]

/-- Words that spell a command: the first matches a row of the map, as many more follow as the row says, and the third
extension word of MIX.ADD has no bit above bit 7 (R105). -/
def spells (w0 : Word) (ext : List Word) : Prop :=
  ∃ row ∈ opcodeMap, w0 &&& row.mask = row.value ∧ ext.length = row.extension ∧
    (row.value = 0x20000000 → ∀ w3 : Word, ext[2]? = some w3 → w3 >>> 8 = 0)

/-- A state of a run that has not ended in a fault: "a final state with `HALTED = 1` is a faulted state" (R296). -/
def State.safe (s : State) : Prop := s.halted = false

/-- The next state of an outcome, if there is one. -/
def nextOf : Host.Outcome State Fault Refusal → Option State
  | .next s => some s
  | .fault _ => none
  | .refused _ => none

/-- The control lines as every LCD operation finds and leaves them after LCD.RESET (R182). -/
def State.linesIdle (s : State) : Prop :=
  s.wr = s.cfg.wrIdle ∧ s.cs = s.cfg.csIdle ∧ s.rd = s.cfg.rdIdle

/-- The fast path can be taken: the resource is mapped, or mapping it succeeds (R146). -/
def State.mappable (s : State) : Prop := s.mapped = true ∨ s.env.mapOk = true

/-- What a byte write needs of a state to run (R161): not halted, a legal configuration, the resource mapped or
mappable, the write-strobe idle. -/
def State.busReady (s : State) : Prop :=
  s.halted = false ∧ ConfigOk s.cfg ∧ s.mappable ∧ s.wr = s.cfg.wrIdle

/-- The state `t` is `s` with the resource bit, the stream bit and the trace as given and the twelve lines so: write and
read as in `s`, chip-select, command/data and the data byte as given. No other pin has moved, and no other field. -/
def State.drove (s t : State) (mapped : Bool) (ev : List Event) (stream : Bool) (cs cd : Level) (d : Byte) : Prop :=
  t = { s with mapped := mapped, latches := t.latches, streamOpen := stream, evt := s.evt ++ ev } ∧
    t.wr = s.wr ∧ t.rd = s.rd ∧ t.cs = cs ∧ t.cd = cd ∧ t.dbus = d ∧ ∀ p, p ∉ twelvePins s.cfg → t.pin p = s.pin p

/-- The bus replay of `EVT` has a value and knows the twelve lines (R52). -/
def State.busSynced (s : State) : Prop :=
  s.busValid = true ∧ ∀ p ∈ twelvePins s.cfg, s.busView.pin p = some (s.pin p)

/-- What one raw write of pins did, from `s` to `t`: at an active-to-idle edge of the write-strobe with chip-select active
the controller latches the byte on the lines (R52), and at command level the stream is ended (R45 as the model reads it,
DEDUCED, log 10); without such an edge neither. -/
def State.rawWrote (s t : State) : Prop :=
  (t.streamOpen =
      if s.wr = s.cfg.wrActive ∧ t.wr = t.cfg.wrIdle ∧ t.cs = t.cfg.csActive ∧ t.cd = t.cfg.cdCommand then false
      else s.streamOpen) ∧
    (s.busSynced → t.busValid = true →
      t.bus = s.bus ++
        if s.wr = s.cfg.wrActive ∧ t.wr = t.cfg.wrIdle ∧ t.cs = t.cfg.csActive then
          [⟨if t.cd = t.cfg.cdCommand then .command else .data, t.dbus⟩]
        else [])

/-- The replay of `t` is that of `s` with the transfers `xs` more, and knows the lines of `t` (R52). -/
def Transferred (s t : State) (xs : List Transfer) : Prop := t.busSynced ∧ t.bus = s.bus ++ xs

/-- What a procedure of the bus did: what it drove, and, from a state whose replay knows the lines, what it
transferred. -/
def State.did (s t : State) (mapped : Bool) (ev : List Event) (stream : Bool) (cs cd : Level) (d : Byte)
    (xs : List Transfer) : Prop := s.drove t mapped ev stream cs cd d ∧ (s.busSynced → Transferred s t xs)

/-- The stream bit after a byte write (R161 f). -/
def streamAfter (s : State) : Bool := if s.cs = s.cfg.csActive ∧ s.cd = s.cfg.cdCommand then false else s.streamOpen

/-- Memories and pin files are in canonical form. -/
def State.tidy (s : State) : Prop :=
  cellsOk s.latches = true ∧ cellsOk s.dirs = true ∧ cellsOk s.owns = true ∧ Memory.wf s.env.pcm = true ∧
    cellsOk s.env.pix = true

/-- The active channels of one sound id. -/
def activeOf (l : List Channel) (id : Half) : List Channel := l.filter fun ch => ch.active && decide (ch.sfxid = id)

/-- How many channels are active. -/
def activeCount (l : List Channel) : Nat := (l.filter fun ch => ch.active).length

/-- The invariant of the channel file (R43), with the ranges of R42 and R44: eight slots, an active channel's pointer
below its end and its handle below 100, at most one active instance of an exclusive id, the counter below 100. -/
def State.channelsOk (s : State) : Prop :=
  s.channels.length = Config.nChannels ∧
    (∀ ch ∈ s.channels, ch.active = true → ch.ptr < ch.stop ∧ ch.handle.toNat < Config.handleMod) ∧
    (∀ id ∈ s.cfg.exclusiveIds, (activeOf s.channels id).length ≤ 1) ∧ s.handleCtr.toNat < Config.handleMod

/-- `HALTED` and `FAULT` are set together (R50), and HALT leaves no command in execution (R296). -/
def State.faultOk (s : State) : Prop :=
  (s.halted = true ↔ s.fault ≠ .none) ∧ (s.halted = true → s.busyR = false ∧ s.busyA = false ∧ s.phase = .idle)

/-- "at most one `MAP` event occurs in any run", and exactly when `MAPPED` is set (R146). -/
def State.mapOnce (s : State) : Prop := s.evt.count .map = if s.mapped then 1 else 0

/-- The bus replay of `EVT` gives every latch it has given a value the level the latch holds (R52). -/
def State.traceAgrees (s : State) : Prop := ∀ p l, s.busView.pin p = some l → s.pin p = l

/-- What a sequence of polls guarantees (R279): no more `PW` events than the last emitted index, that index not above
the clock's, the clock not below its value at reset release. -/
def State.pollsOk (s : State) : Prop :=
  (pwmOut s.evt).length ≤ s.lastIdx.toNat ∧ s.lastIdx.toNat ≤ sampleIndex s.cfg s.t0 s.env.now ∧
    s.t0.toNat ≤ s.env.now.toNat

/-- The current dimensions are those of the rotation (R38). -/
def State.dimsOk (s : State) : Prop :=
  s.curW = BitVec.ofNat 17 (if swapsAxes s.rot then s.cfg.nativeH else s.cfg.nativeW) ∧
    s.curH = BitVec.ofNat 17 (if swapsAxes s.rot then s.cfg.nativeW else s.cfg.nativeH)

/-- A phase of the flood machine (R176). -/
def Phase.ofFlood (p : Phase) : Bool :=
  decide (p = .fCmd) || decide (p = .fFirstHi) || decide (p = .fFirstLo) || decide (p = .fBlock) ||
    decide (p = .fRem) || decide (p = .fPixHi) || decide (p = .fPixLo) || decide (p = .fEnd)

/-- A phase of LCD.PUSH (R180). -/
def Phase.ofPush (p : Phase) : Bool :=
  decide (p = .pCmd) || decide (p = .pPixHi) || decide (p = .pPixLo) || decide (p = .pEnd)

/-- LCD.INIT is between its window and its end (R205): the only place of `Initialized` with a recognised variant. -/
def State.initDrawing (s : State) : Bool :=
  decide (s.phase = .iFlood) || decide (s.phase = .iEnd) || (s.phase.ofFlood && s.inInit)

/-- LCD.INIT is in its sequence or at its window (R205). -/
def State.initSequence (s : State) : Bool := decide (s.phase = .iSeq) || decide (s.phase = .iWin)

/-- LCD.RESET is in execution (R200). -/
def State.inReset (s : State) : Bool :=
  decide (s.phase = .rsIdle) || decide (s.phase = .rsByte) || decide (s.phase = .rsPulse) || decide (s.phase = .rsEnd)

/-- What the rules say of the driver state (R35 to R41, R205, R210, R226, R338): after LCD.RESET the resource is
mapped; `Ready` has a recognised variant, a window and the dimensions of its rotation; `Initialized` is the Unknown
state, degraded and without a window, or LCD.INIT is drawing its first screen; before that there is no window; only
the Unknown state is degraded. -/
def State.displayOk (s : State) : Prop :=
  (s.dstate ≠ .uninitialized → s.mapped = true) ∧
    (s.dstate = .uninitialized → s.winValid = false ∧ s.streamOpen = false) ∧
    (s.dstate = .reset → s.winValid = false) ∧
    (s.dstate = .ready → s.variant ≠ .unknown ∧ s.winValid = true ∧ s.dimsOk) ∧
    (s.dstate = .initialized →
      (s.variant = .unknown ∧ s.degraded = true ∧ s.winValid = false) ∨ s.initDrawing = true) ∧
    (s.degraded = true → s.dstate = .initialized ∧ s.variant = .unknown)

/-- What the rules say of the sequencer (R23, R24, R200, R205, R226): a phase other than IDLE belongs to a command of
context R in execution; those of LCD.FLOOD and LCD.PUSH stand in `Initialized` or `Ready`; those of LCD.RESET in
`Uninitialized`, mapped once the byte is out; those of LCD.INIT's sequence in `Reset` with a recognised variant; those
of its first screen in `Initialized` with that screen's window. -/
def State.sequencerOk (s : State) : Prop :=
  (s.phase ≠ .idle → s.busyR = true ∧ s.halted = false) ∧
    (s.phase.ofFlood = true ∨ s.phase.ofPush = true → s.dstate = .initialized ∨ s.dstate = .ready) ∧
    (s.inReset = true → s.dstate = .uninitialized) ∧
    (s.phase = .rsPulse ∨ s.phase = .rsEnd → s.mapped = true) ∧
    (s.initSequence = true → s.dstate = .reset ∧ s.variant ≠ .unknown ∧ s.inInit = true) ∧
    (s.phase = .iFlood ∨ s.phase = .iEnd → s.inInit = true) ∧
    (s.initDrawing = true →
      s.dstate = .initialized ∧ s.variant ≠ .unknown ∧ s.winValid = true ∧ s.dimsOk ∧ s.rot = 0)

/-- The order of the driver states (R35): `Uninitialized`, `Reset`, `Initialized`, `Ready`. -/
def driverRank : DriverState → Nat
  | .uninitialized => 0
  | .reset => 1
  | .initialized => 2
  | .ready => 3

/-- The sequencer counters of R25, and the operand that the machine holds (log 9), put to 0: what only the machine writes
and nothing reads afterwards, which R177 leaves out of its comparison. -/
def State.withoutCounters (s : State) : State :=
  { s with flBlocks := 0, flInblk := 0, flRem := 0, flLeft := 0, puIdx := 0, inIdx := 0, rsCnt := 0, held := 0 }

/-- `n` turns of the sequencer (R176). -/
def seqRun : Nat → State → Result
  | 0, s => .ok s
  | n + 1, s => (seqStep s).bind (seqRun n)

/-- `n` ticks of the mixer (R245). -/
def ticks : Nat → State → State
  | 0, s => s
  | n + 1, s => ticks n (mixTick s)

/-- The commands of the display half that drive the bus, LCD.RESET apart (R182). -/
def drivesBus : Instr → Bool
  | .lcdWr8 _ => true
  | .lcdWr16 _ => true
  | .lcdWreg32 _ _ => true
  | .lcdSetwin _ _ _ _ => true
  | .lcdFlood _ _ => true
  | .lcdPush _ _ _ => true
  | .lcdInit _ => true
  | .lcdSetrot _ => true
  | .lcdReset => false
  | .gpioInit _ => false
  | .gpioDirout _ => false
  | .gpioWrlvl _ _ => false
  | .gpioFset _ => false
  | .gpioFclr _ => false
  | .mixAdd _ _ _ _ _ => false
  | .mixTick => false
  | .pwmPoll => false

/-- The commands of the display half: components 1 to 3 of R2. -/
def displayHalf : Instr → Bool
  | .gpioInit _ => true
  | .gpioDirout _ => true
  | .gpioWrlvl _ _ => true
  | .gpioFset _ => true
  | .gpioFclr _ => true
  | .lcdWr8 _ => true
  | .lcdWr16 _ => true
  | .lcdWreg32 _ _ => true
  | .lcdSetwin _ _ _ _ => true
  | .lcdFlood _ _ => true
  | .lcdPush _ _ _ => true
  | .lcdReset => true
  | .lcdInit _ => true
  | .lcdSetrot _ => true
  | .mixAdd _ _ _ _ _ => false
  | .mixTick => false
  | .pwmPoll => false

end Sys2Proof.Machine
end

