-- ==== Sys2Proof/Certificates/Slice0/Obligations.lean ====
section
/-! DEFINITION. The statements for the provers. Each formalises a numbered rule of spec/ or is derived from the rules its
docstring names; a choice of the model is named with its entry of the assumption log. -/

open Sys2Proof Sys2Proof.Machine

/-! ## The command encoding (30_encoding.md) -/

/-- Command words of the spec's examples decode to the commands they stand for (R103, R104, 95_test_vectors.md). -/
def Obligations.DecodeSampleWords : Prop :=
  decode [0x01000030] = .command (.gpioInit 48) ∧
    decode [0x03010031] = .command (.gpioWrlvl 49 true) ∧
    decode [0x1100F800] = .command (.lcdWr16 0xF800) ∧
    decode [0x13000000, 0x000A0013, 0x0014001D] = .command (.lcdSetwin 10 20 19 29) ∧
    decode [0x15000001, 0x00000100, 0x00000002] = .command (.lcdPush 0x100 2 true) ∧
    decode [0x20000005, 0x00000064, 0x00018000, 0x00000040, 0x00000007] =
      .command (.mixAdd 5 100 0x00018000 64 7) ∧
    decode [0x28000000] = .command .pwmPoll ∧
    decode [0x00000000] = .illegal (.unknownOpcode 0x00)

/-- Decoding the words of a well-formed command gives the command back, every operand at every value (R100 to R105). -/
def Obligations.DecodeOfEncode : Prop :=
  ∀ i : Instr, WellFormed i = true → decode (encode i) = .command i

/-- Words that decode to a command are that command's words, and the command is well-formed: each word has one meaning
(R100 to R105). -/
def Obligations.EncodeOfDecode : Prop :=
  ∀ (words : List Word) (i : Instr), decode words = .command i → WellFormed i = true ∧ encode i = words

/-- R105, R103, R100: exactly the words that the masks of the opcode map select, in the number the row says, spell a
command; the step that takes any others from the port is refused by name, so it changes no state; the zero word is none.
That a list of too few or too many words is refused like an illegal word is the model's reading of R100 (log 20). -/
def Obligations.IllegalWordsRefused : Prop :=
  ∀ (w0 : Word) (ext : List Word),
    ((∃ i, decode (w0 :: ext) = .command i) ↔ spells w0 ext) ∧
      (¬ spells w0 ext →
        ∀ (s : State) (ctx : Context) (x : HostInput) (rest : List HostInput),
          x = .issue ctx (w0 :: ext) ∨ x = .start ctx (w0 :: ext) →
          s.halted = false → ConfigOk s.cfg → s.port = x :: rest →
          ∃ e, step s = .refused (.illegalCommand e)) ∧
      ¬ spells 0 ext

/-- R101, R104, R20, R21: accepting a command of either context writes the command register, the zero-extended immediate
and the extension words, and sets the busy flag of the context; the registers then hold exactly the operands of the decoded
command. -/
def Obligations.OperandAssembly : Prop :=
  ∀ (s : State) (ctx : Context) (w0 : Word) (ext : List Word) (i : Instr),
    decode (w0 :: ext) = .command i →
    (s.accept ctx (w0 :: ext)).operandInstr = some i ∧
      s.accept ctx (w0 :: ext) =
        { s with
          cmdw := w0
          opr0 := w0 &&& 0x00FFFFFF
          opr1 := ext.getD 0 s.opr1
          opr2 := ext.getD 1 s.opr2
          opr3 := ext.getD 2 s.opr3
          opr4 := ext.getD 3 s.opr4
          busyR := if ctx = .R then true else s.busyR
          busyA := if ctx = .A then true else s.busyA }

/-! ## The step of the machine -/

/-- The step that takes a decoded command from the port runs it: `exec` on the state in which the command is accepted,
after which its context is free; `startExec` instead where the command is begun phase by phase, which differs for the four
operations with phases only (R24; log 7). A command of context A leaves its immediate in `OPR[0]` (R20); `CMDW` holds its word, or,
between two phases of an operation of context R, the word of that operation (R21; log 9). A turn of the sequencer is a step of
its own; so is it without an input waiting, and in `IDLE` it changes nothing (R101, R23, R310; log 3). -/
def Obligations.StepRunsDecodedCommand : Prop :=
  ∀ s : State, s.halted = false → ConfigOk s.cfg →
    (∀ (ctx : Context) (words : List Word) (rest : List HostInput) (i : Instr) (r : State),
      decode words = .command i → contextOf i = ctx → s.occupied ctx = false → r = { s with port := rest } →
      (s.port = .issue ctx words :: rest →
        step s =
          match exec i (r.accept ctx words) with
          | .next t => .next ((t.finish ctx).resume r ctx)
          | .fault f => .fault f
          | .refused x => .refused x) ∧
        (s.port = .start ctx words :: rest →
          step s =
            match startExec i (r.accept ctx words) with
            | .next t => .next ((t.finish ctx).resume r ctx)
            | .fault f => .fault f
            | .refused x => .refused x)) ∧
      (∀ i : Instr, (∀ color len, i ≠ .lcdFlood color len) → (∀ buffer count first, i ≠ .lcdPush buffer count first) →
        i ≠ .lcdReset → (∀ id, i ≠ .lcdInit id) → startExec i s = exec i s) ∧
      (∀ (w0 : Word) (ext : List Word) (rest : List HostInput) (t : State),
        s.port = .issue .A (w0 :: ext) :: rest ∨ s.port = .start .A (w0 :: ext) :: rest → step s = .next t →
        t.opr0 = w0 &&& 0x00FFFFFF ∧ t.cmdw = if s.occupied .R then s.cmdw else w0) ∧
      (∀ rest, s.port = .tick :: rest → step s = (seqStep { s with port := rest }).outcome) ∧
      (s.port = [] → step s = (seqStep s).outcome) ∧ (s.port = [] → s.phase = .idle → step s = .next s)

/-- R296, R298: in a halted state nothing executes, neither a step nor any command. -/
def Obligations.HaltedNeverExecutes : Prop :=
  ∀ s : State, s.halted = true →
    step s = .fault (.halted s.fault) ∧ ∀ i : Instr, exec i s = .fault (.halted s.fault)

/-- The other inputs of the schedule: a command of the wrong context or of an occupied one is refused (R23, R83), the
clock moves forward only (R48), the renderer writes one pixel while context R is free (R73; logs 20 to 22). -/
def Obligations.ScheduleInputs : Prop :=
  ∀ (s : State) (rest : List HostInput), s.halted = false → ConfigOk s.cfg →
    (∀ (ctx : Context) (words : List Word) (i : Instr), decode words = .command i →
      s.port = .issue ctx words :: rest ∨ s.port = .start ctx words :: rest →
      (contextOf i ≠ ctx → step s = .refused .wrongContext) ∧
        (contextOf i = ctx → s.occupied ctx = true → step s = .refused .contextBusy)) ∧
      (∀ now : BitVec 64, s.port = .clock now :: rest →
        (now.toNat < s.env.now.toNat → step s = .refused .clockDecreased) ∧
          (s.env.now.toNat ≤ now.toNat →
            step s = .next { s with port := rest, env := { s.env with now := now } })) ∧
      ∀ (a : Nat) (v : Half), s.port = .pixel a v :: rest →
        (s.occupied .R = true → step s = .refused .contextBusy) ∧
          (s.occupied .R = false →
            ∃ t, step s = .next t ∧ t = { s with port := rest, env := { s.env with pix := t.env.pix } } ∧
              ∀ b, t.readPix b = if b = a then v else s.readPix b)

/-! ## GPIO (40_gpio.md) -/

/-- R141: GPIO.INIT of a valid, granted pin without a handle acquires it and returns its number; nothing else changes. -/
def Obligations.GpioInitAcquires : Prop :=
  ∀ (s : State) (pin : Nat), s.halted = false → validPin s.cfg pin = true → acquireOk s.env pin = true →
    s.owned pin = false →
    ∃ t, exec (.gpioInit pin) s = .next t ∧
      t = { s with owns := t.owns, res := BitVec.ofNat 32 pin, evt := s.evt ++ [.aq pin] } ∧
      ∀ q, t.owned q = if q = pin then true else s.owned q

/-- R291: GPIO.INIT of an invalid or ungranted pin takes `F_PIN` with the pin recorded, before any other change; with
the state of the halt as R296 writes it. -/
def Obligations.GpioInitFaults : Prop :=
  ∀ (s : State) (pin : Nat), s.halted = false → validPin s.cfg pin = false ∨ acquireOk s.env pin = false →
    exec (.gpioInit pin) s =
      .next { s with
        fault := .pin
        faultInfo := BitVec.ofNat 32 pin
        halted := true
        evt := s.evt ++ [.halt 1]
        busyR := false
        busyA := false
        phase := .idle }

/-- R142: GPIO.DIROUT makes the pin of a handle an output; its level and every other pin's direction stay. -/
def Obligations.GpioDiroutMakesOutput : Prop :=
  ∀ (s : State) (handle : Nat), s.halted = false → validPin s.cfg handle = true → s.owned handle = true →
    ∃ t, exec (.gpioDirout handle) s = .next t ∧
      t = { s with dirs := t.dirs, evt := s.evt ++ [.dirOut handle] } ∧
      ∀ q, t.dir q = if q = handle then .output else s.dir q

/-- R143: GPIO.WRLVL drives the one pin of its handle; an edge of the write-strobe that it makes with chip-select active
transfers a byte (R52). That such an edge at command level clears `STREAM_OPEN`, also where U12 leaves the byte open, is the
model's choice, DEDUCED (log 10): R45 reads so, R343 and the flags of R143 ("Flags written: none") read otherwise, and the
spec does not settle it. -/
def Obligations.GpioWrlvlDrivesOnePin : Prop :=
  ∀ (s : State) (handle : Nat) (level : Level), s.halted = false → validPin s.cfg handle = true →
    s.owned handle = true → s.dir handle = .output →
    ∃ t, exec (.gpioWrlvl handle level) s = .next t ∧
      t = { s with latches := t.latches, streamOpen := t.streamOpen, evt := s.evt ++ [.lv handle level] } ∧
      (∀ q, t.pin q = if q = handle then level else s.pin q) ∧ s.rawWrote t

/-- R144, R145, R146: GPIO.FSET and GPIO.FCLR map the resource at the first use and drive exactly the existing pins of
the fast group that the mask selects; no other latch changes. An edge of the write-strobe with chip-select active
transfers a byte (R52). That such an edge at command level clears `STREAM_OPEN`, also where U12 leaves the byte open, is the
model's choice, DEDUCED (log 10): R45 reads so, R343 and the flags of R144 and R145 read otherwise, and the spec does not
settle it. -/
def Obligations.FastWritesDriveTheMask : Prop :=
  ∀ (s : State) (mask : Word), s.halted = false → ConfigOk s.cfg → s.mappable →
    (∃ t, exec (.gpioFset mask) s = .next t ∧
      t = { s with mapped := true, latches := t.latches, streamOpen := t.streamOpen,
                   evt := s.evt ++ mapEvents s ++ [.fs mask] } ∧
      (∀ p, t.pin p =
        if p / 32 = fastGroup s.cfg ∧ mask.getLsbD (p % 32) = true ∧ validPin s.cfg p = true then true
        else s.pin p) ∧ s.rawWrote t) ∧
      ∃ t, exec (.gpioFclr mask) s = .next t ∧
        t = { s with mapped := true, latches := t.latches, streamOpen := t.streamOpen,
                     evt := s.evt ++ mapEvents s ++ [.fc mask] } ∧
        (∀ p, t.pin p =
          if p / 32 = fastGroup s.cfg ∧ mask.getLsbD (p % 32) = true ∧ validPin s.cfg p = true then false
          else s.pin p) ∧ s.rawWrote t

/-- R292, R146: a fast write of a state whose resource is not mapped, where mapping fails, takes `F_MAP` and writes
nothing. -/
def Obligations.FastWriteMapFault : Prop :=
  ∀ (s : State) (mask : Word), s.halted = false → s.mapped = false → s.env.mapOk = false →
    ∀ i : Instr, i = .gpioFset mask ∨ i = .gpioFclr mask →
      exec i s =
        .next { s with
          fault := .map
          faultInfo := 0
          halted := true
          evt := s.evt ++ [.halt 2]
          busyR := false
          busyA := false
          phase := .idle }

/-- R71, R30: for every existing group the set register stands at `SET_OFFSET + 4 g` and the clear register at
`CLR_OFFSET + 4 g`, and a write of a mask drives exactly the existing pins of the group that it selects. -/
def Obligations.RegisterMapDrivesGroups : Prop :=
  ∀ (s : State) (g : Nat) (m : Word), ConfigOk s.cfg → groupExists s.cfg g = true →
    (∃ t, gpioWrite (s.cfg.setOffset + 4 * g) m s = .ok t ∧ t = { s with latches := t.latches } ∧
      ∀ p, t.pin p =
        if p / 32 = g ∧ m.getLsbD (p % 32) = true ∧ validPin s.cfg p = true then true else s.pin p) ∧
      ∃ t, gpioWrite (s.cfg.clrOffset + 4 * g) m s = .ok t ∧ t = { s with latches := t.latches } ∧
        ∀ p, t.pin p =
          if p / 32 = g ∧ m.getLsbD (p % 32) = true ∧ validPin s.cfg p = true then false else s.pin p

/-- What the GPIO commands refuse (R141, R142, R143; U1, U2): a pin that has a handle (after the fault check of R141,
log 16), a number without a handle, a level on a pin that is not an output. -/
def Obligations.GpioRefusals : Prop :=
  ∀ (s : State) (p : Nat) (level : Level), s.halted = false →
    (validPin s.cfg p = true → acquireOk s.env p = true → s.owned p = true →
      exec (.gpioInit p) s = .refused .pinAlreadyAcquired) ∧
      (validPin s.cfg p = false ∨ s.owned p = false →
        exec (.gpioDirout p) s = .refused .noSuchHandle ∧ exec (.gpioWrlvl p level) s = .refused .noSuchHandle) ∧
      (validPin s.cfg p = true → s.owned p = true → s.dir p = .unconfigured →
        exec (.gpioWrlvl p level) s = .refused .notAnOutput)

/-! ## The byte write (41_protocol.md) -/

/-- R123: `ONES` and `ZEROS` split `DATA_MASK` by the bits of the byte, line by line, and after the set write and the
clear write the data lines spell the byte. -/
def Obligations.DataBusPattern : Prop :=
  ∀ (c : Config) (v : Byte),
    (∀ j, (onesMask c v).getLsbD j = true ↔ ∃ i < 8, v.getLsbD i = true ∧ j = pinD c i % 32) ∧
      onesMask c v ||| zerosMask c v = dataMask c ∧ onesMask c v &&& zerosMask c v = 0 ∧
      ∀ s : State, s.cfg = c → ConfigOk c → s.mappable →
        ∃ t, (fastSet (onesMask c v) s).bind (fastClr (zerosMask c v)) = .ok t ∧ t.dbus = v

/-- R161, the byte-write contract, in both strobe variants, for a state whose resource is mapped or mappable (and whose
strobe reads idle, never driven or not: a level before the first write is the model's choice, log 5): (a) the
byte on the lines and the strobe idle at the end; (b) the strobe idle, then active, then idle; (c) the byte on the lines
before and after the idle edge; (d) no pin but the nine moved; (e) one transfer with chip-select active, none with it
idle; (f) the stream ended at command level; refused with the strobe not idle. -/
def Obligations.ByteWriteContract : Prop :=
  ∀ (s : State) (v : Byte), ConfigOk s.cfg → s.mappable →
    (s.wr = s.cfg.wrIdle →
      ∃ t ev, write8 v s = .ok t ∧
        t = { s with mapped := true, latches := t.latches, streamOpen := t.streamOpen,
                     evt := s.evt ++ mapEvents s ++ ev } ∧
        t.dbus = v ∧ t.wr = s.cfg.wrIdle ∧
        (∃ n m,
          (latchScan s.cfg s.latches ev).map (fun f => pinBit f s.cfg.pinWR) =
              List.replicate n s.cfg.wrIdle ++ List.replicate (m + 1) s.cfg.wrActive ++ [s.cfg.wrIdle] ∧
            ∀ f ∈ (latchScan s.cfg s.latches ev).drop (n + m), dataByte s.cfg (pinBit f) = v) ∧
        (∀ p, (∀ i < 8, p ≠ pinD s.cfg i) → p ≠ s.cfg.pinWR → t.pin p = s.pin p) ∧
        (s.busSynced →
          t.busSynced ∧
            t.bus = s.bus ++
              if s.cs = s.cfg.csActive then [⟨if s.cd = s.cfg.cdCommand then .command else .data, v⟩] else []) ∧
        t.streamOpen = if s.cs = s.cfg.csActive ∧ s.cd = s.cfg.cdCommand then false else s.streamOpen) ∧
      (s.wr ≠ s.cfg.wrIdle → write8 v s = .refuse .strobeNotIdle)

/-- R164, R165: LCD.WR8 is one byte write and LCD.WR16 two, high byte first, with chip-select and command/data select
as they are; nothing else changes. -/
def Obligations.ByteAndWordCommands : Prop :=
  ∀ s : State, s.busReady → s.pinsReady = true → s.dstate ≠ .uninitialized →
    (∀ v : Byte, ∃ t, exec (.lcdWr8 v) s = .next t ∧
      s.did t true (mapEvents s ++ byteEvents s.cfg v) (streamAfter s) s.cs s.cd v (xferOf s.cfg s.cs s.cd v)) ∧
      ∀ v : Half, ∃ t, exec (.lcdWr16 v) s = .next t ∧
        s.did t true (mapEvents s ++ byteEvents s.cfg (v.extractLsb' 8 8) ++ byteEvents s.cfg (v.extractLsb' 0 8))
          (streamAfter s) s.cs s.cd (v.extractLsb' 0 8)
          (xferOf s.cfg s.cs s.cd (v.extractLsb' 8 8) ++ xferOf s.cfg s.cs s.cd (v.extractLsb' 0 8))

/-- R167, R168: LCD.WREG32 frames the command byte and the four data bytes, most significant first, with chip-select;
it ends any stream and leaves the window registers as they are. -/
def Obligations.RegisterWriteCommand : Prop :=
  ∀ (s : State) (reg : Byte) (value : Word), s.busReady → s.pinsReady = true → s.dstate ≠ .uninitialized →
    ∃ t, exec (.lcdWreg32 reg value) s = .next t ∧
      s.did t true
        ([.lv s.cfg.pinCS s.cfg.csActive, .lv s.cfg.pinCD s.cfg.cdCommand] ++ mapEvents s ++ byteEvents s.cfg reg ++
          [.lv s.cfg.pinCD s.cfg.cdData] ++ byteEvents s.cfg (value.extractLsb' 24 8) ++
          byteEvents s.cfg (value.extractLsb' 16 8) ++ byteEvents s.cfg (value.extractLsb' 8 8) ++
          byteEvents s.cfg (value.extractLsb' 0 8) ++ [.lv s.cfg.pinCS s.cfg.csIdle])
        false s.cfg.csIdle s.cfg.cdData (value.extractLsb' 0 8)
        [⟨.command, reg⟩, ⟨.data, value.extractLsb' 24 8⟩, ⟨.data, value.extractLsb' 16 8⟩,
         ⟨.data, value.extractLsb' 8 8⟩, ⟨.data, value.extractLsb' 0 8⟩]

/-- R169: LCD.SETWIN in a recognised variant makes the two register writes, X before Y, of the packed coordinates, and
keeps them in `WINX` and `WINY`. -/
def Obligations.WindowCommand : Prop :=
  ∀ (s : State) (f : Family) (x1 y1 x2 y2 : Half), s.busReady → s.pinsReady = true →
    s.dstate = .initialized ∨ s.dstate = .ready → s.variant = .family f →
    x1.toNat ≤ x2.toNat → y1.toNat ≤ y2.toNat →
    ∃ (t : State) (x y : Word),
      x = (x1.setWidth 32 <<< 16) ||| x2.setWidth 32 ∧ y = (y1.setWidth 32 <<< 16) ||| y2.setWidth 32 ∧
        exec (.lcdSetwin x1 y1 x2 y2) s = .next { t with winx := x, winy := y, winValid := true } ∧
        s.did t true (windowEvents s.cfg (mapEvents s) f x y) false s.cfg.csIdle s.cfg.cdData
          (y2.extractLsb' 0 8) (windowTransfers s.cfg f x y)

/-! ## The flood (41_protocol.md section 3) -/

/-- R170: LCD.FLOOD of at least one pixel, with the bus ready, the pins set up, in a drawing state, with a window or in the
Unknown variant, completes: it emits the events and makes the transfers of a memory-write command and of `len` pixels,
leaves the stream open, chip-select idle, the data level and the colour's low byte on the lines, and changes nothing
else. -/
def Obligations.FloodResult : Prop :=
  ∀ (s : State) (color : Half) (len : Word), s.busReady → s.pinsReady = true →
    s.dstate = .initialized ∨ s.dstate = .ready → s.variant = .unknown ∨ s.winValid = true → 0 < len.toNat →
    ∃ t, exec (.lcdFlood color len) s = .next t ∧
      s.did t true (floodEvents s.cfg (mapEvents s) (memWriteOp s) color len.toNat) true s.cfg.csIdle s.cfg.cdData
        (color.extractLsb' 0 8) (floodTransfers (memWriteOp s) color len.toNat)

/-- R171, R172: with equal bytes the flood is one full pixel and then `len - 1` strobe-only pixels, in blocks of 64 with
a remainder loop, the same list as that many in a row, whose events carry no data bit; with unequal bytes it is `len`
pixels, each the events of a direct LCD.WR16 of the colour. -/
def Obligations.FloodPaths : Prop :=
  ∀ (s : State) (color : Half) (len : Word), s.busReady → s.pinsReady = true →
    s.dstate = .initialized ∨ s.dstate = .ready → s.variant = .unknown ∨ s.winValid = true → 0 < len.toNat →
    ∃ t, exec (.lcdFlood color len) s = .next t ∧
      (hiByte color = loByte color →
        t.evt = s.evt ++ openEvents s.cfg (mapEvents s) (memWriteOp s) ++ halfEvents s.cfg color ++
          repeatEvents ((len.toNat - 1) / 64) (repeatEvents 64 (strobePixelEvents s.cfg)) ++
          repeatEvents ((len.toNat - 1) % 64) (strobePixelEvents s.cfg) ++ [.lv s.cfg.pinCS s.cfg.csIdle] ∧
        t.evt = s.evt ++ openEvents s.cfg (mapEvents s) (memWriteOp s) ++ halfEvents s.cfg color ++
          repeatEvents (len.toNat - 1) (strobePixelEvents s.cfg) ++ [.lv s.cfg.pinCS s.cfg.csIdle]) ∧
      (∀ e ∈ strobePixelEvents s.cfg, e = .fs (wrMask s.cfg) ∨ e = .fc (wrMask s.cfg)) ∧
      wrMask s.cfg &&& dataMask s.cfg = 0 ∧
      (hiByte color ≠ loByte color →
        t.evt = s.evt ++ openEvents s.cfg (mapEvents s) (memWriteOp s) ++
          repeatEvents len.toNat (halfEvents s.cfg color) ++ [.lv s.cfg.pinCS s.cfg.csIdle]) ∧
      ∀ r r' : State, r.cfg = s.cfg → r.mapped = true → exec (.lcdWr16 color) r = .next r' →
        r'.evt = r.evt ++ halfEvents s.cfg color

/-- R173: what LCD.FLOOD adds to `BUS`, in both paths and both strobe variants: the memory-write command, or the generic
opcode in the Unknown variant (R160), then `len` times the two bytes of the colour; `1 + 2 len` transfers; the data
lines still hold the low byte at the end. -/
def Obligations.FloodBusTrace : Prop :=
  ∀ (s : State) (color : Half) (len : Word), s.busReady → s.pinsReady = true →
    s.dstate = .initialized ∨ s.dstate = .ready → s.variant = .unknown ∨ s.winValid = true → 0 < len.toNat →
    s.busSynced →
    ∃ t op, exec (.lcdFlood color len) s = .next t ∧
      (∀ f, s.variant = .family f → op = (familyTable s.cfg f).memWrite) ∧
      (s.variant = .unknown → op = s.cfg.opcGeneric) ∧ t.busValid = true ∧
      t.bus = s.bus ++ ⟨.command, op⟩ ::
        (List.replicate len.toNat
          [(⟨.data, color.extractLsb' 8 8⟩ : Transfer), ⟨.data, color.extractLsb' 0 8⟩]).flatten ∧
      t.bus.length = s.bus.length + (1 + 2 * len.toNat) ∧ t.dbus = color.extractLsb' 0 8

/-- R174: the event counts of LCD.FLOOD once the resource is mapped, by the events of a byte write in each strobe
variant, with the counts of the reference screen. -/
def Obligations.FloodEventCounts : Prop :=
  (∀ (s : State) (color : Half) (len : Word), s.busReady → s.mapped = true → s.pinsReady = true →
    s.dstate = .initialized ∨ s.dstate = .ready → s.variant = .unknown ∨ s.winValid = true → 0 < len.toNat →
    ∃ t w, exec (.lcdFlood color len) s = .next t ∧
      (s.cfg.strobe = .merged → w = 3) ∧ (s.cfg.strobe = .compliant → w = 4) ∧
      t.evt.length = s.evt.length +
        if hiByte color = loByte color then 4 + 3 * w + 4 * (len.toNat - 1) else 4 + w + 2 * w * len.toNat) ∧
    4 + 3 * 3 + 4 * (240 * 320 - 1) = 307209 ∧ 4 + 3 + 2 * 3 * (240 * 320) = 460807

/-! ## The pixel stream (41_protocol.md section 4) -/

/-- R180: LCD.PUSH sends the memory-write command on a first call only, then the pixels of `PIX` in order, each two full
byte writes, and idles chip-select; a call of no pixel moves the control lines alone (R181). -/
def Obligations.PushResult : Prop :=
  ∀ (s : State) (buffer count : Word) (isFirstCall : Bool), s.busReady → s.pinsReady = true →
    s.dstate = .initialized ∨ s.dstate = .ready →
    (isFirstCall = true → s.variant = .unknown ∨ s.winValid = true) → (isFirstCall = false → s.streamOpen = true) →
    ∃ t pixels, exec (.lcdPush buffer count isFirstCall) s = .next t ∧
      pixels = (List.range count.toNat).map (fun k => s.readPix (buffer.toNat + k)) ∧
      s.did t (s.mapped || isFirstCall || decide (0 < count.toNat))
        (pushEvents s.cfg (mapEvents s) (memWriteOp s) isFirstCall pixels) true s.cfg.csIdle s.cfg.cdData
        ((pixels.map loByte).getLastD (if isFirstCall then memWriteOp s else s.dbus))
        ((if isFirstCall then [(⟨.command, memWriteOp s⟩ : Transfer)] else []) ++ pixels.flatMap pixelTransfers)

/-- R181: what `BUS` gains from two chunks is what it gains from one LCD.PUSH of both. -/
def Obligations.PushChunks : Prop :=
  ∀ (s : State) (buffer n m : Word), s.busReady → s.pinsReady = true → s.busSynced →
    s.dstate = .initialized ∨ s.dstate = .ready → s.variant = .unknown ∨ s.winValid = true →
    buffer.toNat + n.toNat < 4294967296 → n.toNat + m.toNat < 4294967296 →
    ∃ t u w, exec (.lcdPush buffer n true) s = .next t ∧ exec (.lcdPush (buffer + n) m false) t = .next u ∧
      exec (.lcdPush buffer (n + m) true) s = .next w ∧ u.busValid = true ∧ w.busValid = true ∧ u.bus = w.bus

/-! ## The engine as a whole -/

/-- R183: the only fault an LCD command can end in is `F_MAP`, of a resource that is not mapped and cannot be; it stops
at its first fast write, after slow writes and delays only, and nothing follows but the halt. In LCD.RESET that is after
its six slow writes (R292). -/
def Obligations.LcdFaultsOnlyMap : Prop :=
  ∀ s : State, s.halted = false → ConfigOk s.cfg →
    (∀ (i : Instr) (t : State), drivesBus i = true ∨ i = .lcdReset → exec i s = .next t → t.halted = true →
      s.mapped = false ∧ s.env.mapOk = false ∧ t.fault = .map ∧ t.faultInfo = 0 ∧ t.mapped = false ∧
        ∃ pre, t.evt = s.evt ++ pre ++ [.halt 2] ∧ ∀ e ∈ pre, (∃ p l, e = .lv p l) ∨ ∃ d, e = .dl d) ∧
      (s.mapped = false → s.env.mapOk = false → s.pinsReady = true → s.dstate = .uninitialized →
        ∃ t, exec .lcdReset s = .next t ∧ t.fault = .map ∧ t.halted = true ∧ t.dstate = .uninitialized ∧
          t.evt = s.evt ++
            [.lv s.cfg.pinCS s.cfg.csIdle, .lv s.cfg.pinCD s.cfg.cdData, .lv s.cfg.pinWR s.cfg.wrIdle,
             .lv s.cfg.pinRD s.cfg.rdIdle, .lv s.cfg.pinCS s.cfg.csActive, .lv s.cfg.pinCD s.cfg.cdCommand,
             .halt 2])

/-- R148, R226: the pins are set up exactly when each of the twelve has a handle and is an output; an LCD command without
its pins set up, or in a driver state that the table of R226 does not list for it, is refused. -/
def Obligations.LcdRefusedOutOfState : Prop :=
  ∀ s : State, s.halted = false →
    (s.pinsReady = true ↔
      ∀ p, (∃ i < 8, p = pinD s.cfg i) ∨ p = s.cfg.pinWR ∨ p = s.cfg.pinCS ∨ p = s.cfg.pinCD ∨ p = s.cfg.pinRD →
        s.owned p = true ∧ s.dir p = .output) ∧
    (s.pinsReady = false →
      ∀ i : Instr, drivesBus i = true ∨ i = .lcdReset → exec i s = .refused .pinsNotReady) ∧
      (s.pinsReady = true →
        (s.dstate ≠ .uninitialized → exec .lcdReset s = .refused .wrongDriverState) ∧
          (∀ id, s.dstate ≠ .reset → exec (.lcdInit id) s = .refused .wrongDriverState) ∧
          (∀ b h r w, s.dstate = .uninitialized →
            exec (.lcdWr8 b) s = .refused .wrongDriverState ∧ exec (.lcdWr16 h) s = .refused .wrongDriverState ∧
              exec (.lcdWreg32 r w) s = .refused .wrongDriverState) ∧
          (∀ x1 y1 x2 y2 color len buffer count first, s.dstate ≠ .initialized → s.dstate ≠ .ready →
            exec (.lcdSetwin x1 y1 x2 y2) s = .refused .wrongDriverState ∧
              exec (.lcdFlood color len) s = .refused .wrongDriverState ∧
              exec (.lcdPush buffer count first) s = .refused .wrongDriverState) ∧
          ∀ r, s.dstate ≠ .ready → ¬(s.dstate = .initialized ∧ s.variant = .unknown) →
            exec (.lcdSetrot r) s = .refused .wrongDriverState)

/-- What the drawing and mixer commands refuse of their operands (R169, R170, R175, R180, R181, R215, R230, R231): an
unsorted window, no window, a flood of no pixel, a continued stream where none is open, rotation of the third family, an
absent or empty sound, a negative volume. -/
def Obligations.OperandRefusals : Prop :=
  ∀ s : State, s.halted = false →
    (s.pinsReady = true → s.dstate = .initialized ∨ s.dstate = .ready →
      (∀ x1 y1 x2 y2 : Half, x2.toNat < x1.toNat ∨ y2.toNat < y1.toNat →
        exec (.lcdSetwin x1 y1 x2 y2) s = .refused .windowNotSorted) ∧
        (∀ color len buffer count, s.variant ≠ .unknown → s.winValid = false →
          exec (.lcdFlood color len) s = .refused .noWindow ∧
            exec (.lcdPush buffer count true) s = .refused .noWindow) ∧
        (∀ color, s.variant = .unknown ∨ s.winValid = true → exec (.lcdFlood color 0) s = .refused .emptyFlood) ∧
        (∀ buffer count, s.streamOpen = false → exec (.lcdPush buffer count false) s = .refused .noOpenStream) ∧
        ∀ r, s.dstate = .ready → s.variant = .family .C → exec (.lcdSetrot r) s = .refused .rotationUndefined) ∧
      ∀ id volume step separation tic,
        (soundOf s.env id = none → exec (.mixAdd id volume step separation tic) s = .refused .emptySound) ∧
          ∀ x, soundOf s.env id = some x →
            (x.length = 0 → exec (.mixAdd id volume step separation tic) s = .refused .emptySound) ∧
              (0 < x.length → volume.toInt < 0 →
                exec (.mixAdd id volume step separation tic) s = .refused .negativeVolume)

/-- R182: from write-strobe, chip-select and read-strobe idle, every bus-driving LCD command that does not halt ends
with them idle, and drives no level on the read-strobe; LCD.RESET brings that state about. -/
def Obligations.ControlLinesIdle : Prop :=
  ∀ (s t : State) (i : Instr), ConfigOk s.cfg → s.displayOk → exec i s = .next t → t.halted = false →
    (drivesBus i = true → s.linesIdle →
      t.linesIdle ∧ ∃ ev, t.evt = s.evt ++ ev ∧ ∀ l, Event.lv s.cfg.pinRD l ∉ ev) ∧
      (i = .lcdReset → t.linesIdle)

/-- R163: the two strobe variants differ in `EVT` only: from states that differ in the variant alone, a bus-driving
command gives the same `BUS`, the same pins and the same rest of the state. -/
def Obligations.StrobeVariantsSameBus : Prop :=
  ∀ (s t : State) (i : Instr) (v : StrobeVariant), s.busReady → s.displayOk → s.busSynced → drivesBus i = true →
    exec i s = .next t →
    ∃ t', exec i { s with cfg := { s.cfg with strobe := v } } = .next t' ∧
      t' = { t with cfg := { s.cfg with strobe := v }, latches := t'.latches, evt := t'.evt } ∧
      (∀ p, t'.pin p = t.pin p) ∧ t.busValid = true ∧ t'.busValid = true ∧ t'.bus = t.bus

/-! ## The display controller (42_controller.md) -/

/-- R200, R201: LCD.RESET idles the four control lines, strobes a zero command byte three times and leaves the driver in
`Reset`: its events, the lines at its end, three transfers of a command byte 0, and no other change. -/
def Obligations.ResetCommand : Prop :=
  ∀ s : State, s.halted = false → ConfigOk s.cfg → s.mappable → s.pinsReady = true → s.dstate = .uninitialized →
    ∃ t, exec .lcdReset s = .next t ∧
      t = { s with
            mapped := true
            latches := t.latches
            winValid := false
            streamOpen := false
            dstate := .reset
            evt := s.evt ++
              [.lv s.cfg.pinCS s.cfg.csIdle, .lv s.cfg.pinCD s.cfg.cdData, .lv s.cfg.pinWR s.cfg.wrIdle,
               .lv s.cfg.pinRD s.cfg.rdIdle, .lv s.cfg.pinCS s.cfg.csActive,
               .lv s.cfg.pinCD s.cfg.cdCommand] ++ mapEvents s ++ byteEvents s.cfg 0x00 ++ pulseEvents s.cfg ++
              pulseEvents s.cfg ++ [.lv s.cfg.pinCS s.cfg.csIdle] } ∧
      t.cs = s.cfg.csIdle ∧ t.wr = s.cfg.wrIdle ∧ t.rd = s.cfg.rdIdle ∧ t.cd = s.cfg.cdCommand ∧ t.dbus = 0x00 ∧
      (∀ p, p ∉ twelvePins s.cfg → t.pin p = s.pin p) ∧
      (s.busValid = true →
        t.busSynced ∧ t.bus = s.bus ++ [⟨.command, 0x00⟩, ⟨.command, 0x00⟩, ⟨.command, 0x00⟩])

/-- R205, R206, R207: LCD.INIT of an identifier that the configuration lists for a family recognises that family, runs its
sequence, programs the full-screen window and floods the screen with black, and ends `Ready` in rotation 0. -/
def Obligations.InitCommand : Prop :=
  ∀ (s : State) (id : Half) (f : Family), s.busReady → s.mapped = true → s.pinsReady = true → s.dstate = .reset →
    (f = .A ∧ id ∈ s.cfg.idsA) ∨ (f = .B ∧ id ∈ s.cfg.idsB) ∨ (f = .C ∧ id ∈ s.cfg.idsC) →
    ∃ (t : State) (x y : Word), classify s.cfg id = .family f ∧
      x = BitVec.ofNat 32 (s.cfg.nativeW - 1) ∧ y = BitVec.ofNat 32 (s.cfg.nativeH - 1) ∧
        exec (.lcdInit id) s =
          .next { t with
            variant := .family f
            dstate := .ready
            rot := 0
            curW := BitVec.ofNat 17 s.cfg.nativeW
            curH := BitVec.ofNat 17 s.cfg.nativeH
            winx := x
            winy := y
            winValid := true } ∧
        s.did t true
          ((familyTable s.cfg f).initSeq.flatMap (initStepEvents s.cfg) ++ windowEvents s.cfg [] f x y ++
            floodEvents s.cfg [] (familyTable s.cfg f).memWrite 0x0000 (s.cfg.nativeW * s.cfg.nativeH))
          true s.cfg.csIdle s.cfg.cdData 0x00
          ((familyTable s.cfg f).initSeq.flatMap initStepTransfers ++ windowTransfers s.cfg f x y ++
            floodTransfers (familyTable s.cfg f).memWrite 0x0000 (s.cfg.nativeW * s.cfg.nativeH))

/-- R206, R210, R169, R215: an identifier that no family lists is unrecognised and leaves the driver degraded in the
Unknown state, with no event; there LCD.SETWIN and LCD.SETROT are accepted and do nothing. -/
def Obligations.UnknownVariant : Prop :=
  ∀ s : State, s.halted = false → s.pinsReady = true →
    (∀ id, s.dstate = .reset → id ∉ s.cfg.idsA → id ∉ s.cfg.idsB → id ∉ s.cfg.idsC →
      classify s.cfg id = .unknown ∧
        exec (.lcdInit id) s = .next { s with variant := .unknown, dstate := .initialized, degraded := true }) ∧
      (s.dstate = .initialized → s.variant = .unknown →
        (∀ x1 y1 x2 y2 : Half, x1.toNat ≤ x2.toNat → y1.toNat ≤ y2.toNat →
          exec (.lcdSetwin x1 y1 x2 y2) s = .next s) ∧
          ∀ r, exec (.lcdSetrot r) s = .next s)

/-- R215: LCD.SETROT in family A or B writes the memory-access-control value of the rotation, takes over the rotated
dimensions and reprograms the full-screen window. -/
def Obligations.RotationCommand : Prop :=
  ∀ (s : State) (f : Family) (tab : RotationTable) (r : Nat), s.busReady → s.mapped = true → s.pinsReady = true →
    s.dstate = .ready → s.variant = .family f → (f = .A ∧ tab = s.cfg.rotA) ∨ (f = .B ∧ tab = s.cfg.rotB) → r < 4 →
    ∃ (t : State) (w h : Nat) (b : Byte),
      (w = if r = 0 ∨ r = 2 then s.cfg.nativeW else s.cfg.nativeH) ∧
        (h = if r = 0 ∨ r = 2 then s.cfg.nativeH else s.cfg.nativeW) ∧
        [tab.r0, tab.r1, tab.r2, tab.r3][r]? = some b ∧
        exec (.lcdSetrot r) s =
          .next { t with
            rot := BitVec.ofNat 2 r
            curW := BitVec.ofNat 17 w
            curH := BitVec.ofNat 17 h
            winx := BitVec.ofNat 32 (w - 1)
            winy := BitVec.ofNat 32 (h - 1)
            winValid := true } ∧
        s.did t true
          (regEvents s.cfg [] (familyTable s.cfg f).madctl [b] ++
            windowEvents s.cfg [] f (BitVec.ofNat 32 (w - 1)) (BitVec.ofNat 32 (h - 1)))
          false s.cfg.csIdle s.cfg.cdData (BitVec.ofNat 8 (h - 1))
          ([⟨.command, (familyTable s.cfg f).madctl⟩, ⟨.data, b⟩] ++
            windowTransfers s.cfg f (BitVec.ofNat 32 (w - 1)) (BitVec.ofNat 32 (h - 1)))

/-- R338: bring-up with a recognised identifier, from a block whose pins are set up and whose `BUS` is still empty:
LCD.RESET and LCD.INIT both complete, and everything R338 lists holds at their end. -/
def Obligations.BringUpEndToEnd : Prop :=
  ∀ (s : State) (id : Half) (f : Family), s.halted = false → ConfigOk s.cfg → s.mappable → s.pinsReady = true →
    s.dstate = .uninitialized → s.busValid = true → s.bus = [] →
    (f = .A ∧ id ∈ s.cfg.idsA) ∨ (f = .B ∧ id ∈ s.cfg.idsB) ∨ (f = .C ∧ id ∈ s.cfg.idsC) →
    ∃ t u, exec .lcdReset s = .next t ∧ exec (.lcdInit id) t = .next u ∧
      u.dstate = .ready ∧ u.rot = 0 ∧ u.curW.toNat = s.cfg.nativeW ∧ u.curH.toNat = s.cfg.nativeH ∧
      u.winx.toNat = u.curW.toNat - 1 ∧ u.winy.toNat = u.curH.toNat - 1 ∧ u.winValid = true ∧ u.streamOpen = true ∧
      u.mapped = true ∧ u.wr = s.cfg.wrIdle ∧ u.cs = s.cfg.csIdle ∧ u.rd = s.cfg.rdIdle ∧ u.cd = s.cfg.cdData ∧
      u.dbus = 0x00 ∧ u.busValid = true ∧
      u.bus =
        List.replicate 3 ⟨.command, 0x00⟩ ++ (familyTable s.cfg f).initSeq.flatMap initStepTransfers ++
          regTransfers (familyTable s.cfg f).xWin (wordBytes u.winx) ++
          regTransfers (familyTable s.cfg f).yWin (wordBytes u.winy) ++
          ⟨.command, (familyTable s.cfg f).memWrite⟩ ::
            List.replicate (2 * s.cfg.nativeW * s.cfg.nativeH) ⟨.data, 0x00⟩

/-- R227: the transitions of the driver state, all of them; a command that halts leaves it, except that LCD.INIT may
have passed from `Reset` to `Initialized` before its fault. -/
def Obligations.DriverStateTransitions : Prop :=
  ∀ (s t : State) (i : Instr), ConfigOk s.cfg → exec i s = .next t →
    t.dstate = s.dstate ∨ (i = .lcdReset ∧ s.dstate = .uninitialized ∧ t.dstate = .reset) ∨
      ∃ id, i = .lcdInit id ∧ s.dstate = .reset ∧
        ((t.dstate = .initialized ∧ (classify s.cfg id = .unknown ∨ t.halted = true)) ∨
          (t.dstate = .ready ∧ classify s.cfg id ≠ .unknown ∧ t.rot = 0))

/-! ## The mixer (43_mixer.md) -/

/-- R230, R236, R243: MIX.ADD of a supplied sound whose pan results are legal silences the active instances of an exclusive
id and of no other, fills the selected slot with the record of R243, returns the handle and advances the counter; nothing
else changes. -/
def Obligations.AddSoundRecords : Prop :=
  ∀ (s : State) (id : Half) (volume step : Word) (separation : Nat) (tic : Word) (x : Sound) (left right : Int),
    s.halted = false → s.channels.length = 8 → soundOf s.env id = some x → 1 ≤ x.length → 0 ≤ volume.toInt →
    left = volume.toInt - volume.toInt * (separation + 1) * (separation + 1) / 65536 →
    right = volume.toInt - volume.toInt * (separation + 1 - 257) * (separation + 1 - 257) / 65536 →
    0 ≤ left → left ≤ 127 → 0 ≤ right → right ≤ 127 →
    ∃ (t : State) (slot : Nat) (ch : Channel),
      exec (.mixAdd id volume step separation tic) s = .next t ∧
        slot = selectSlot (silence s.cfg id s.channels) ∧ slot < 8 ∧
        t = { s with
              channels := (silence s.cfg id s.channels).set slot ch
              res := BitVec.ofNat 32 s.handleCtr.toNat
              handleCtr := BitVec.ofNat 7 ((s.handleCtr.toNat + 1) % 100) } ∧
        ch.active = true ∧ ch.ptr = x.start ∧ ch.frac = 0 ∧ ch.stop = x.start + x.length ∧ ch.step = step ∧
        ch.startTic = tic ∧ (ch.lvol.toNat : Int) = left ∧ (ch.rvol.toNat : Int) = right ∧ ch.sfxid = id ∧
        ch.handle = s.handleCtr ∧
        ∀ (c : Nat) (old : Channel), c ≠ slot → s.channels[c]? = some old →
          t.channels[c]? = some
            (if id ∈ s.cfg.exclusiveIds ∧ old.active = true ∧ old.sfxid = id then { old with active := false } else old)

/-- R239 a and b: a volume of 0..127 pans to results of 0..127 at every separation; separation 0 gives all to the left,
separation 255 all to the right. -/
def Obligations.PanStaysInRange : Prop :=
  ∀ (volume : Int), 0 ≤ volume →
    (volume ≤ 127 → ∀ separation : Nat, separation < 256 →
      0 ≤ panLeft volume separation ∧ panLeft volume separation ≤ 127 ∧
        0 ≤ panRight volume separation ∧ panRight volume separation ≤ 127) ∧
      (volume < 65536 → panLeft volume 0 = volume ∧ panRight volume 0 = 0 ∧
        panLeft volume 255 = 0 ∧ panRight volume 255 = volume)

/-- R238, R293, R297: a pan result outside 0..127 takes `F_PAN` with the offending value, left tested first; the
silencing of step 1 stays, nothing is recorded. With a volume of 0..127 it cannot occur. -/
def Obligations.PanFault : Prop :=
  ∀ (s : State) (id : Half) (volume step : Word) (separation : Nat) (tic : Word) (x : Sound) (left right : Int),
    s.halted = false → soundOf s.env id = some x → 1 ≤ x.length → 0 ≤ volume.toInt → separation < 256 →
    left = volume.toInt - volume.toInt * (separation + 1) * (separation + 1) / 65536 →
    right = volume.toInt - volume.toInt * (separation + 1 - 257) * (separation + 1 - 257) / 65536 →
    (¬(0 ≤ left ∧ left ≤ 127) ∨ ¬(0 ≤ right ∧ right ≤ 127) →
      exec (.mixAdd id volume step separation tic) s =
        .next { s with
          channels := silence s.cfg id s.channels
          fault := .pan
          faultInfo := BitVec.ofInt 32 (if 0 ≤ left ∧ left ≤ 127 then right else left)
          halted := true
          evt := s.evt ++ [.halt 3]
          busyR := false
          busyA := false
          phase := .idle }) ∧
      (volume.toInt ≤ 127 → ∀ t, exec (.mixAdd id volume step separation tic) s = .next t → t.halted = false)

/-- R236, R244: re-triggering an exclusive sound while an instance is active frees its slot first: the number of active
slots stays, and no other sound is evicted. A sound that is not exclusive silences none, not even another instance of
itself: every slot but the selected one keeps its channel, so one slot more is active where one was free, and all eight
stay active where none was. -/
def Obligations.ExclusiveRetrigger : Prop :=
  ∀ (s t : State) (id : Half) (volume step : Word) (separation : Nat) (tic : Word),
    s.channelsOk → exec (.mixAdd id volume step separation tic) s = .next t → t.halted = false →
    (id ∈ s.cfg.exclusiveIds → (∃ ch ∈ s.channels, ch.active = true ∧ ch.sfxid = id) →
      activeCount t.channels = activeCount s.channels ∧ (activeOf t.channels id).length = 1 ∧
        ∀ (c : Nat) (ch : Channel), s.channels[c]? = some ch → ch.active = true → ch.sfxid ≠ id →
          t.channels[c]? = some ch) ∧
      (id ∉ s.cfg.exclusiveIds →
        (∀ c, c ≠ selectSlot s.channels → t.channels[c]? = s.channels[c]?) ∧
          ((∃ ch ∈ s.channels, ch.active = false) → activeCount t.channels = activeCount s.channels + 1) ∧
          ((∀ ch ∈ s.channels, ch.active = true) → activeCount t.channels = 8))

/-- R237: the least free slot if there is one, else the least among those of the smallest start-tic, compared signed. -/
def Obligations.SlotSelection : Prop :=
  ∀ l : List Channel, l ≠ [] →
    ∃ (c : Nat) (ch : Channel), selectSlot l = c ∧ l[c]? = some ch ∧
      ((∃ x ∈ l, x.active = false) →
        ch.active = false ∧ ∀ k x, k < c → l[k]? = some x → x.active = true) ∧
      ((∀ x ∈ l, x.active = true) →
        (∀ x ∈ l, ch.startTic.toInt ≤ x.startTic.toInt) ∧
          ∀ k x, k < c → l[k]? = some x → ch.startTic.toInt < x.startTic.toInt)

/-- R245 to R248, R252: MIX.TICK leaves the clamped sum of the active channels' contributions in `RES_A`, advances each
active channel by its step and frees it at its end; nothing else changes. A contribution is looked up in the configured
volume table, entry `vol * 256 + s`, and has the reference value of R7 beyond the table's end (the model's layout of the
table, log 14). -/
def Obligations.TickMixesAndAdvances : Prop :=
  ∀ s : State, s.halted = false →
    ∃ t sum, exec .mixTick s = .next t ∧ t = { s with resA := t.resA, channels := t.channels } ∧
      sum = ((s.channels.filter fun ch => ch.active).map fun ch =>
        volLookup s.cfg ch.lvol (s.readPcm ch.ptr) + volLookup s.cfg ch.rvol (s.readPcm ch.ptr)).sum ∧
      t.resA.toInt = max (-32768) (min 32767 sum) ∧ t.channels.length = s.channels.length ∧
      (∀ (vol : BitVec 7) (b : Byte),
        (∀ v, s.cfg.volTable[vol.toNat * 256 + b.toNat]? = some v → volLookup s.cfg vol b = v) ∧
          (s.cfg.volTable.length ≤ vol.toNat * 256 + b.toNat →
            volLookup s.cfg vol b = Int.tdiv ((vol.toNat : Int) * ((b.toNat : Int) - 128) * 256) 127)) ∧
      ∀ (c : Nat) (ch : Channel), s.channels[c]? = some ch →
        (ch.active = false → t.channels[c]? = some ch) ∧
          (ch.active = true →
            t.channels[c]? = some { ch with
              ptr := ch.ptr + (ch.frac.toNat + ch.step.toNat) / 65536
              frac := BitVec.ofNat 16 ((ch.frac.toNat + ch.step.toNat) % 65536)
              active := decide (ch.ptr + (ch.frac.toNat + ch.step.toNat) / 65536 < ch.stop) })

/-- R253: a channel with no fraction left over, `L` samples before its end, not evicted or silenced, is active for exactly
`ceil(L * 65536 / step)` ticks, the least `k` with `(k * step) >> 16 >= L`; that is `ceil(L / S)` for a step of
`S << 16`, where it moves by `S` a tick; with step 0 it never ends (R255). -/
def Obligations.ChannelLifetime : Prop :=
  ∀ (s : State) (c : Nat) (ch : Channel) (L : Nat), s.channels[c]? = some ch → ch.active = true → ch.frac = 0 →
    1 ≤ L → ch.stop = ch.ptr + L →
    ∀ k, ∃ ch', (ticks k s).channels[c]? = some ch' ∧
      (0 < ch.step.toNat →
        (ch'.active = true ↔ k < (L * 65536 + ch.step.toNat - 1) / ch.step.toNat) ∧
          (ch'.active = true ↔ k * ch.step.toNat / 65536 < L)) ∧
      (∀ S, 1 ≤ S → ch.step.toNat = S * 65536 →
        (ch'.active = true ↔ k < (L + S - 1) / S) ∧ (k ≤ (L + S - 1) / S → ch'.ptr = ch.ptr + k * S)) ∧
      (ch.step = 0 → ch'.active = true)

/-! ## The PWM driver (44_pwm.md) -/

/-- R270, R271, R272: PWM.POLL at a clock whose index has advanced makes one tick, writes one duty value and keeps the
index, however far it has advanced; else it does nothing. An index of 2^64 or more does not fit `LAST_IDX` (R47) and
leaves a free value there, everything else as before (log 15). -/
def Obligations.PollEmitsOnce : Prop :=
  ∀ (s : State) (n : Nat), s.halted = false → n = (s.env.now.toNat - s.t0.toNat) * s.cfg.sampleRate / 1000000000 →
    (n ≤ s.lastIdx.toNat → exec .pwmPoll s = .next s) ∧
      (s.lastIdx.toNat < n →
        ∃ t u duty, exec .mixTick s = .next t ∧ exec .pwmPoll s = .next u ∧
          duty = ((t.resA.toInt + 32768) * s.cfg.pwmPeriodNs / 65536).toNat ∧
          u = { t with
                dutyNs := duty
                evt := s.evt ++ [.pw (decimal duty)]
                lastIdx := u.lastIdx
                freeCount := u.freeCount } ∧
          (n < 18446744073709551616 → u.lastIdx.toNat = n ∧ u.freeCount = s.freeCount))

/-- R249: the duty mapping on a 16-bit sample: a fraction of 0..65535 of 65536, a duty value within one period, half the
period at silence, and exactly the floor of `(sample + 32768) * PWM_PERIOD_NS / 65536`. -/
def Obligations.DutyMapping : Prop :=
  ∀ (c : Config) (sample : Int), 0 < c.pwmPeriodNs → -32768 ≤ sample → sample ≤ 32767 →
    dutyNumerator sample = sample + 32768 ∧ 0 ≤ dutyNumerator sample ∧ dutyNumerator sample ≤ 65535 ∧
    (dutyNs c sample : Int) * 65536 ≤ (sample + 32768) * c.pwmPeriodNs ∧
      (sample + 32768) * c.pwmPeriodNs < ((dutyNs c sample : Int) + 1) * 65536 ∧
      dutyNs c sample ≤ c.pwmPeriodNs - 1 ∧ dutyNs c 0 = c.pwmPeriodNs / 2

/-- R126: the string that PWM.POLL writes is the shortest decimal spelling of `DUTY_NS`: digits only, their decimal value
the number, no leading zero but for 0 itself. -/
def Obligations.DecimalSpelling : Prop :=
  (∀ s t : State, exec .pwmPoll s = .next t → t.evt = s.evt ∨ t.evt = s.evt ++ [.pw (decimal t.dutyNs)]) ∧
  ∀ v : Nat,
    (∀ ch ∈ decimal v, ∃ d < 10, ch = Char.ofNat (48 + d)) ∧
      (decimal v).foldl (fun acc ch => acc * 10 + (ch.toNat - 48)) 0 = v ∧
      (decimal v).head? ≠ none ∧ (0 < v → (decimal v).head? ≠ some '0') ∧ decimal 0 = ['0']

/-- R279: over the steps of a run, the `PW` events are never more than the index of the clock, and each emission
raises `LAST_IDX`; for a sample rate of at most one per nanosecond, below which every index fits `LAST_IDX` (log 15). -/
def Obligations.StepKeepsPollCount : Prop :=
  ∀ s t : State, s.cfg.sampleRate ≤ 1000000000 → s.pollsOk → step s = .next t →
    t.pollsOk ∧
      ((pwmOut t.evt = pwmOut s.evt ∧ t.lastIdx = s.lastIdx) ∨
        ((pwmOut t.evt).length = (pwmOut s.evt).length + 1 ∧ s.lastIdx.toNat < t.lastIdx.toNat))

/-! ## What no command does -/

/-- R20, R46, R54, R72, R73, R82, R146: no command, run whole, writes an operand register, the command register, a
sequencer counter, `T0`, the configuration, the environment (its memories among it) or the schedule, or unmaps the resource,
and the trace only grows. Run whole is the model's one-step form (log 7): the phases of an operation that is begun step by
step write its counters (R25, R176). -/
def Obligations.CommandFrame : Prop :=
  ∀ (s t : State) (i : Instr), ConfigOk s.cfg → exec i s = .next t →
    (∃ ev, t.evt = s.evt ++ ev) ∧ t.opr0 = s.opr0 ∧ t.opr1 = s.opr1 ∧ t.opr2 = s.opr2 ∧ t.opr3 = s.opr3 ∧
      t.opr4 = s.opr4 ∧ t.cmdw = s.cmdw ∧ t.flBlocks = s.flBlocks ∧
      t.flInblk = s.flInblk ∧ t.flRem = s.flRem ∧ t.flLeft = s.flLeft ∧ t.puIdx = s.puIdx ∧ t.inIdx = s.inIdx ∧
      t.rsCnt = s.rsCnt ∧ t.held = s.held ∧ t.t0 = s.t0 ∧ t.cfg = s.cfg ∧ t.env = s.env ∧ t.port = s.port ∧
      (s.mapped = true → t.mapped = true) ∧ (∀ a, t.readPcm a = s.readPcm a) ∧ ∀ a, t.readPix a = s.readPix a

/-- R2, R22, R311: the two halves share no state: a display command leaves the mixer and the PWM driver as they are; a
mixer or PWM command leaves the GPIO and display state; a command of context A never halts and leaves all of context R's. -/
def Obligations.HalvesAreIndependent : Prop :=
  ∀ (s t : State) (i : Instr), ConfigOk s.cfg → exec i s = .next t →
    (displayHalf i = true →
      t.channels = s.channels ∧ t.handleCtr = s.handleCtr ∧ t.resA = s.resA ∧ t.lastIdx = s.lastIdx ∧
        t.dutyNs = s.dutyNs ∧ t.freeCount = s.freeCount ∧ pwmOut t.evt = pwmOut s.evt) ∧
      (displayHalf i = false →
        t.mapped = s.mapped ∧ t.latches = s.latches ∧ t.dirs = s.dirs ∧ t.owns = s.owns ∧ t.dstate = s.dstate ∧
          t.variant = s.variant ∧ t.rot = s.rot ∧ t.curW = s.curW ∧ t.curH = s.curH ∧ t.winx = s.winx ∧
          t.winy = s.winy ∧ t.winValid = s.winValid ∧ t.streamOpen = s.streamOpen ∧ t.degraded = s.degraded ∧
          t.busView = s.busView) ∧
      (contextOf i = .A →
        t.halted = s.halted ∧ t.fault = s.fault ∧ t.faultInfo = s.faultInfo ∧ t.res = s.res ∧
          t.handleCtr = s.handleCtr ∧ t.busyR = s.busyR ∧ t.phase = s.phase)

/-! ## Invariants that every step keeps -/

/-- Every step keeps the memories and the pin files in canonical form (log 12: what an unlisted address reads as is the
model's choice). -/
def Obligations.StepKeepsTidy : Prop :=
  ∀ s t : State, s.tidy → step s = .next t → t.tidy

/-- R43: every step keeps the invariant of the channel file. -/
def Obligations.StepKeepsChannels : Prop :=
  ∀ s t : State, s.channelsOk → step s = .next t → t.channelsOk

/-- R35 to R41, R205, R210, R226, R338: every step, a step of a phase too, keeps what the rules say of the driver state
and of the sequencer. -/
def Obligations.StepKeepsDisplay : Prop :=
  ∀ s t : State, s.displayOk → s.sequencerOk → step s = .next t → t.displayOk ∧ t.sequencerOk

/-- R50, R296, R146: every step keeps `HALTED` and `FAULT` set together, a halted block without a command in execution,
and at most one `MAP` event, there exactly when `MAPPED` is set. -/
def Obligations.StepKeepsFaultAndMap : Prop :=
  ∀ s t : State, s.faultOk → s.mapOnce → step s = .next t → t.faultOk ∧ t.mapOnce

/-- R52: every step keeps the replay of `EVT` in agreement with the pin latches. -/
def Obligations.StepKeepsReplay : Prop :=
  ∀ s t : State, s.traceAgrees → step s = .next t → t.traceAgrees

/-- The state after power-on meets the invariants, under every configuration and every environment whose memories are
in canonical form, and `State.reset` is one such state under a legal configuration (R330; logs 1 and 2). -/
def Obligations.PowerOnMeetsInvariants : Prop :=
  (∀ (cfg : Config) (env : Env), Memory.wf env.pcm = true → cellsOk env.pix = true →
    ∀ s, s = State.powerOn cfg env →
      s.tidy ∧ s.channelsOk ∧ s.displayOk ∧ s.sequencerOk ∧ s.faultOk ∧ s.mapOnce ∧ s.traceAgrees ∧ s.pollsOk ∧
        s.busValid = true ∧ s.bus = []) ∧
    State.reset = State.powerOn Config.reference Env.reference ∧ ConfigOk Config.reference ∧
    Memory.wf State.reset.env.pcm = true ∧ cellsOk State.reset.env.pix = true

/-- R330, R331: the values of power-on reset that the spec gives. -/
def Obligations.ResetValues : Prop :=
  ∀ (cfg : Config) (env : Env) (s : State), s = State.powerOn cfg env →
    s.busyR = false ∧ s.busyA = false ∧ s.phase = .idle ∧ s.mapped = false ∧ (∀ p, s.dir p = .unconfigured) ∧
      (∀ p, s.owned p = false) ∧ s.dstate = .uninitialized ∧ s.winValid = false ∧ s.streamOpen = false ∧
      s.channels.length = 8 ∧ (∀ ch ∈ s.channels, ch.active = false) ∧ s.handleCtr = 0 ∧ s.lastIdx = 0 ∧
      s.halted = false ∧ s.degraded = false ∧ s.fault = .none ∧ s.evt = [] ∧ s.t0 = env.now

/-! ## The sequencer (R176, R177) -/

/-- R177: the state machine of LCD.FLOOD and the big step append the same events and leave the same state, but for the
sequencer counters. -/
def Obligations.FloodMachineRefines : Prop :=
  ∀ (s t : State) (color : Half) (len : Word), ConfigOk s.cfg → s.phase = .idle →
    s.operandInstr = some (.lcdFlood color len) → exec (.lcdFlood color len) s = .next t →
    ∃ s1 n u, startExec (.lcdFlood color len) s = .next s1 ∧ (seqRun n s1).outcome = .next u ∧ u.phase = .idle ∧
      (u.finish .R).withoutCounters = (t.finish .R).withoutCounters

/-- R180, R200, R205 with the equivalence of R177: the same for LCD.PUSH, LCD.RESET and LCD.INIT (logs 7 and 8). -/
def Obligations.OtherMachinesRefine : Prop :=
  ∀ (s t : State) (i : Instr), ConfigOk s.cfg → s.phase = .idle → s.operandInstr = some i →
    (∃ buffer count first, i = .lcdPush buffer count first) ∨ i = .lcdReset ∨ (∃ id, i = .lcdInit id) →
    exec i s = .next t →
    ∃ s1 n u, startExec i s = .next s1 ∧ (seqRun n s1).outcome = .next u ∧ u.phase = .idle ∧
      (u.finish .R).withoutCounters = (t.finish .R).withoutCounters
end

