-- ==== Sys2Proof/Laws/Cells.lean ====
section
/-! SUPPORT. The laws of the canonical lists (Machine/Cells.lean): reading after a write, keeping the canonical form,
equal readings mean equal lists; and of the pin files over them. -/

namespace Sys2Proof.Machine

variable {w : Nat}

@[simp] theorem readCells_nil (a : Nat) : readCells ([] : List (Nat × BitVec w)) a = 0 := rfl

theorem readCells_dropCell_same (l : List (Nat × BitVec w)) (a : Nat) : readCells (dropCell a l) a = 0 := by
  induction l with
  | nil => rfl
  | cons x rest ih =>
    obtain ⟨k, v⟩ := x
    by_cases h : k = a
    · simp [dropCell, h, ih]
    · simp [dropCell, h, readCells, ih]

theorem readCells_dropCell_other (l : List (Nat × BitVec w)) {a b : Nat} (hb : b ≠ a) :
    readCells (dropCell a l) b = readCells l b := by
  induction l with
  | nil => rfl
  | cons x rest ih =>
    obtain ⟨k, v⟩ := x
    by_cases h : k = a
    · subst h
      simp [dropCell, readCells, ih, Ne.symm hb]
    · simp [dropCell, h, readCells, ih]

theorem readCells_insertCell_other (l : List (Nat × BitVec w)) {a b : Nat} (v : BitVec w) (hb : b ≠ a) :
    readCells (insertCell a v l) b = readCells l b := by
  induction l with
  | nil => simp [insertCell, readCells, Ne.symm hb]
  | cons x rest ih =>
    obtain ⟨k, u⟩ := x
    by_cases h : a < k
    · simp [insertCell, h, readCells, Ne.symm hb]
    · simp [insertCell, h, readCells, ih]

/-- No entry of the list has the address. -/
def lacks (a : Nat) (l : List (Nat × BitVec w)) : Prop := ∀ x ∈ l, x.1 ≠ a

theorem lacks_dropCell (l : List (Nat × BitVec w)) (a : Nat) : lacks a (dropCell a l) := by
  induction l with
  | nil => simp [lacks, dropCell]
  | cons x rest ih =>
    obtain ⟨k, v⟩ := x
    by_cases h : k = a
    · simpa [dropCell, h] using ih
    · intro y hy
      rcases (by simpa [dropCell, h] using hy : y = (k, v) ∨ y ∈ dropCell a rest) with rfl | hy'
      · exact h
      · exact ih y hy'

theorem readCells_insertCell_same {l : List (Nat × BitVec w)} {a : Nat} (v : BitVec w) (h : lacks a l) :
    readCells (insertCell a v l) a = v := by
  induction l with
  | nil => simp [insertCell, readCells]
  | cons x rest ih =>
    obtain ⟨k, u⟩ := x
    have hk : k ≠ a := h (k, u) (by simp)
    by_cases hlt : a < k
    · simp [insertCell, hlt, readCells]
    · simp [insertCell, hlt, readCells, hk, ih fun y hy => h y (by simp [hy])]

/-- Reading after a write: the written address gives the value, every other what it gave. -/
theorem readCells_writeCells (l : List (Nat × BitVec w)) (a b : Nat) (v : BitVec w) :
    readCells (writeCells l a v) b = if b = a then v else readCells l b := by
  unfold writeCells
  by_cases hb : b = a
  · subst hb
    by_cases hv : v = 0
    · subst hv
      simp [readCells_dropCell_same]
    · rw [if_neg hv, if_pos rfl]
      exact readCells_insertCell_same v (lacks_dropCell l b)
  · by_cases hv : v = 0
    · rw [if_pos hv, if_neg hb]
      exact readCells_dropCell_other l hb
    · rw [if_neg hv, if_neg hb, readCells_insertCell_other _ v hb, readCells_dropCell_other l hb]

/-- The canonical form as a predicate over pairs: rising addresses, no value 0. -/
theorem cellsOk_iff (l : List (Nat × BitVec w)) :
    cellsOk l = true ↔ l.Pairwise (fun x y => x.1 < y.1) ∧ ∀ x ∈ l, x.2 ≠ 0 := by
  induction l with
  | nil => simp [cellsOk]
  | cons x rest ih =>
    obtain ⟨k, v⟩ := x
    cases rest with
    | nil => simp [cellsOk]
    | cons y more =>
      obtain ⟨k', v'⟩ := y
      simp only [cellsOk, Bool.and_eq_true, decide_eq_true_eq, ih, List.pairwise_cons, List.mem_cons,
        forall_eq_or_imp]
      constructor
      · rintro ⟨⟨hv, hk⟩, ⟨h1, h2⟩, h3, h4⟩
        exact ⟨⟨⟨hk, fun z hz => lt_trans hk (h1 z hz)⟩, h1, h2⟩, hv, h3, h4⟩
      · rintro ⟨⟨⟨hk, _⟩, h1, h2⟩, hv, h3, h4⟩
        exact ⟨⟨hv, hk⟩, ⟨h1, h2⟩, h3, h4⟩

theorem dropCell_eq_filter (l : List (Nat × BitVec w)) (a : Nat) :
    dropCell a l = l.filter fun x => decide (x.1 ≠ a) := by
  induction l with
  | nil => rfl
  | cons x rest ih =>
    obtain ⟨k, v⟩ := x
    by_cases h : k = a <;> simp [dropCell, h, ih]

theorem mem_insertCell {l : List (Nat × BitVec w)} {a : Nat} {v : BitVec w} {x : Nat × BitVec w} :
    x ∈ insertCell a v l ↔ x = (a, v) ∨ x ∈ l := by
  induction l with
  | nil => simp [insertCell]
  | cons y rest ih =>
    obtain ⟨k, u⟩ := y
    by_cases h : a < k
    · simp [insertCell, h]
    · simp [insertCell, h, ih]
      tauto

theorem pairwise_insertCell {l : List (Nat × BitVec w)} {a : Nat} (v : BitVec w)
    (h : l.Pairwise fun x y => x.1 < y.1) (ha : lacks a l) :
    (insertCell a v l).Pairwise fun x y => x.1 < y.1 := by
  induction l with
  | nil => simp [insertCell]
  | cons y rest ih =>
    obtain ⟨k, u⟩ := y
    obtain ⟨h1, h2⟩ := List.pairwise_cons.mp h
    have hk : k ≠ a := ha (k, u) (by simp)
    by_cases hlt : a < k
    · simp only [insertCell, if_pos hlt, List.pairwise_cons, List.mem_cons, forall_eq_or_imp]
      exact ⟨⟨hlt, fun z hz => lt_trans hlt (h1 z hz)⟩, h1, h2⟩
    · simp only [insertCell, hlt, if_false, List.pairwise_cons]
      refine ⟨fun z hz => ?_, ih h2 fun z hz => ha z (by simp [hz])⟩
      rcases mem_insertCell.mp hz with rfl | hz
      · exact lt_of_le_of_ne (not_lt.mp hlt) hk
      · exact h1 z hz

/-- A write keeps the canonical form. -/
theorem cellsOk_writeCells {l : List (Nat × BitVec w)} (a : Nat) (v : BitVec w) (h : cellsOk l = true) :
    cellsOk (writeCells l a v) = true := by
  rw [cellsOk_iff] at h ⊢
  obtain ⟨hp, hz⟩ := h
  have hp' : (dropCell a l).Pairwise fun x y => x.1 < y.1 := by
    rw [dropCell_eq_filter]
    exact hp.filter _
  have hz' : ∀ x ∈ dropCell a l, x.2 ≠ 0 := by
    intro x hx
    rw [dropCell_eq_filter] at hx
    exact hz x (List.mem_filter.mp hx).1
  unfold writeCells
  by_cases hv : v = 0
  · simp only [hv, if_true]
    exact ⟨hp', hz'⟩
  · simp only [hv, if_false]
    refine ⟨pairwise_insertCell v hp' (lacks_dropCell l a), fun x hx => ?_⟩
    rcases mem_insertCell.mp hx with rfl | hx
    · exact hv
    · exact hz' x hx

/-- Every write to the sample memory keeps its canonical form. -/
theorem Memory.wf_write {m : Memory} (a : Nat) (v : Byte) (h : m.wf = true) : Memory.wf (writeCells m a v) = true :=
  cellsOk_writeCells a v h

/-- The sample memory after reset is in canonical form. -/
theorem Memory.wf_reset : Memory.wf State.reset.env.pcm = true := rfl

theorem cellsOk_setGroupBits {f : List (Nat × Word)} (g : Nat) (m : Word) (h : cellsOk f = true) :
    cellsOk (setGroupBits f g m) = true := cellsOk_writeCells _ _ h

theorem cellsOk_clearGroupBits {f : List (Nat × Word)} (g : Nat) (m : Word) (h : cellsOk f = true) :
    cellsOk (clearGroupBits f g m) = true := cellsOk_writeCells _ _ h

theorem cellsOk_writePinBit {f : List (Nat × Word)} (p : Nat) (b : Bool) (h : cellsOk f = true) :
    cellsOk (writePinBit f p b) = true := by
  cases b
  · exact cellsOk_clearGroupBits _ _ h
  · exact cellsOk_setGroupBits _ _ h

@[simp] theorem pinBit_nil (p : Nat) : pinBit [] p = false := by simp [pinBit]

/-- A pin after a set write: 1 where the mask selects it in the group, else as before. -/
theorem pinBit_setGroupBits (f : List (Nat × Word)) (g : Nat) (m : Word) (p : Nat) :
    pinBit (setGroupBits f g m) p = (pinBit f p || (decide (p / 32 = g) && m.getLsbD (p % 32))) := by
  simp only [pinBit, setGroupBits, readCells_writeCells]
  by_cases h : p / 32 = g <;> simp [h]

/-- A pin after a clear write: 0 where the mask selects it in the group, else as before. -/
theorem pinBit_clearGroupBits (f : List (Nat × Word)) (g : Nat) (m : Word) (p : Nat) :
    pinBit (clearGroupBits f g m) p = (pinBit f p && !(decide (p / 32 = g) && m.getLsbD (p % 32))) := by
  have hp : p % 32 < 32 := Nat.mod_lt _ (by decide)
  simp only [pinBit, clearGroupBits, readCells_writeCells]
  by_cases h : p / 32 = g <;> simp [h, hp]

theorem getLsbD_pinMask (p j : Nat) : (pinMask p).getLsbD j = decide (j = p % 32) := by
  have hp : p % 32 < 32 := Nat.mod_lt _ (by decide)
  simp only [pinMask, BitVec.getLsbD_twoPow]
  by_cases h : j = p % 32
  · simp [h, hp]
  · simp [h, Ne.symm h]

theorem same_pin_iff (p q : Nat) : (q / 32 = p / 32 ∧ q % 32 = p % 32) ↔ q = p := by omega

/-- A pin after the write of one pin. -/
theorem pinBit_writePinBit (f : List (Nat × Word)) (p : Nat) (b : Bool) (q : Nat) :
    pinBit (writePinBit f p b) q = if q = p then b else pinBit f q := by
  have hq := same_pin_iff p q
  cases b
  · simp only [writePinBit, pinBit_clearGroupBits, getLsbD_pinMask, Bool.false_eq_true, if_false]
    by_cases h : q = p
    · simp [h]
    · have : ¬(q / 32 = p / 32 ∧ q % 32 = p % 32) := fun hh => h (hq.mp hh)
      simp only [h, if_false]
      by_cases h1 : q / 32 = p / 32
      · have h2 : ¬ q % 32 = p % 32 := fun h2 => this ⟨h1, h2⟩
        simp [h2]
      · simp [h1]
  · simp only [writePinBit, pinBit_setGroupBits, getLsbD_pinMask, if_true]
    by_cases h : q = p
    · simp [h]
    · have : ¬(q / 32 = p / 32 ∧ q % 32 = p % 32) := fun hh => h (hq.mp hh)
      simp only [h, if_false]
      by_cases h1 : q / 32 = p / 32
      · have h2 : ¬ q % 32 = p % 32 := fun h2 => this ⟨h1, h2⟩
        simp [h2]
      · simp [h1]

end Sys2Proof.Machine
end

