-- ==== Sys2Proof/Laws/Params.lean ====
section
/-! SUPPORT. The laws of the pins and masks of a legal configuration (R8, R11, R71, R123). -/

namespace Sys2Proof.Machine

variable {c : Config}

/-- A bit of an or of masks. -/
theorem getLsbD_orAll (l : List Word) (j : Nat) : (orAll l).getLsbD j = l.any fun m => m.getLsbD j := by
  induction l with
  | nil => simp [orAll]
  | cons m rest ih => simp [orAll, ih]

/-- The bits of `ONES(v)`: a data line of the value's 1 bits. -/
theorem getLsbD_onesMask (c : Config) (v : Byte) (j : Nat) :
    (onesMask c v).getLsbD j = true ↔ ∃ i < 8, v.getLsbD i = true ∧ j = pinD c i % 32 := by
  simp only [onesMask, getLsbD_orAll, List.any_map, List.any_eq_true, List.mem_range, Function.comp]
  constructor
  · rintro ⟨i, hi, h⟩
    cases hv : v.getLsbD i with
    | false => simp [hv] at h
    | true =>
      simp only [hv, if_true, getLsbD_pinMask, decide_eq_true_eq] at h
      exact ⟨i, hi, hv, h⟩
  · rintro ⟨i, hi, hv, rfl⟩
    exact ⟨i, hi, by simp [hv, getLsbD_pinMask]⟩

/-- The bits of `DATA_MASK`: the data lines. -/
theorem getLsbD_dataMask (c : Config) (j : Nat) :
    (dataMask c).getLsbD j = true ↔ ∃ i < 8, j = pinD c i % 32 := by
  simp only [dataMask, getLsbD_orAll, List.any_map, List.any_eq_true, List.mem_range, Function.comp,
    getLsbD_pinMask, decide_eq_true_eq]

/-- A bit of the mask of the existing pins of a group. -/
theorem getLsbD_validMask (c : Config) (g j : Nat) (hj : j < 32) :
    (validMask c g).getLsbD j = validPin c (32 * g + j) := by
  simp only [validMask, getLsbD_orAll, List.any_map, Function.comp_def]
  cases hv : validPin c (32 * g + j) with
  | true =>
    rw [List.any_eq_true]
    exact ⟨j, List.mem_range.mpr hj, by simp [hv, hj]⟩
  | false =>
    rw [List.any_eq_false]
    intro i hi
    cases hi' : validPin c (32 * g + i) with
    | false => simp
    | true =>
      have : i ≠ j := by
        rintro rfl
        simp [hv] at hi'
      simp [BitVec.getLsbD_twoPow, this]

/-- The write-strobe is one of the twelve pins, as are the other control lines and the data lines. -/
theorem mem_twelvePins (c : Config) (p : Nat) :
    p ∈ twelvePins c ↔ (∃ i < 8, p = pinD c i) ∨ p = c.pinWR ∨ p = c.pinCS ∨ p = c.pinCD ∨ p = c.pinRD := by
  simp [twelvePins, eq_comm]

theorem twelvePins_eq (c : Config) :
    twelvePins c = [pinD c 0, pinD c 1, pinD c 2, pinD c 3, pinD c 4, pinD c 5, pinD c 6, pinD c 7,
      c.pinWR, c.pinCS, c.pinCD, c.pinRD] := rfl

/-- Two data lines with the same pin are the same line. -/
theorem pinD_inj (h : PinsOk c) {i j : Nat} (hi : i < 8) (hj : j < 8) (e : pinD c i = pinD c j) : i = j := by
  have hn := h.2.1
  simp only [twelvePins] at hn
  have hn' := (List.nodup_append.mp hn).1
  have := List.inj_on_of_nodup_map hn' (List.mem_range.mpr hi) (List.mem_range.mpr hj) e
  exact this

/-- A data line is no control line. -/
theorem pinD_ne_control (h : PinsOk c) {i : Nat} (hi : i < 8) :
    pinD c i ≠ c.pinWR ∧ pinD c i ≠ c.pinCS ∧ pinD c i ≠ c.pinCD ∧ pinD c i ≠ c.pinRD := by
  have hn := h.2.1
  simp only [twelvePins] at hn
  have hd := (List.nodup_append.mp hn).2.2
  have hm : pinD c i ∈ (List.range 8).map (pinD c) := List.mem_map.mpr ⟨i, List.mem_range.mpr hi, rfl⟩
  exact ⟨hd _ hm _ (by simp), hd _ hm _ (by simp), hd _ hm _ (by simp), hd _ hm _ (by simp)⟩

/-- The four control lines are four pins. -/
theorem controls_distinct (h : PinsOk c) :
    c.pinWR ≠ c.pinCS ∧ c.pinWR ≠ c.pinCD ∧ c.pinWR ≠ c.pinRD ∧ c.pinCS ≠ c.pinCD ∧ c.pinCS ≠ c.pinRD ∧
      c.pinCD ≠ c.pinRD := by
  have hn := h.2.1
  simp only [twelvePins] at hn
  have hn' := (List.nodup_append.mp hn).2.1
  simp at hn'
  tauto

theorem twelvePins_valid (h : PinsOk c) {p : Nat} (hp : p ∈ twelvePins c) : validPin c p = true := h.2.2.1 p hp

theorem pinD_valid (h : PinsOk c) {i : Nat} (hi : i < 8) : validPin c (pinD c i) = true :=
  twelvePins_valid h ((mem_twelvePins c _).mpr (.inl ⟨i, hi, rfl⟩))

theorem pinWR_valid (h : PinsOk c) : validPin c c.pinWR = true :=
  twelvePins_valid h ((mem_twelvePins c _).mpr (.inr (.inl rfl)))

theorem pinD_group (h : PinsOk c) {i : Nat} (hi : i < 8) : pinD c i / 32 = fastGroup c :=
  h.2.2.2 i (List.mem_range.mpr hi)

/-- Inside the fast group a data line is known by its bit. -/
theorem pinD_bit_inj (h : PinsOk c) {i j : Nat} (hi : i < 8) (hj : j < 8) (e : pinD c i % 32 = pinD c j % 32) :
    i = j := by
  have h1 := pinD_group h hi
  have h2 := pinD_group h hj
  exact pinD_inj h hi hj (by omega)

/-- The write-strobe's bit is no data line's bit. -/
theorem pinD_bit_ne_wr (h : PinsOk c) {i : Nat} (hi : i < 8) : pinD c i % 32 ≠ c.pinWR % 32 := by
  have h1 := pinD_group h hi
  have h2 := (pinD_ne_control h hi).1
  unfold fastGroup at h1
  omega

/-- `ONES(v)` on a data line is the bit of the value. -/
theorem onesMask_line (h : PinsOk c) (v : Byte) {i : Nat} (hi : i < 8) :
    (onesMask c v).getLsbD (pinD c i % 32) = v.getLsbD i := by
  rw [Bool.eq_iff_iff, getLsbD_onesMask]
  constructor
  · rintro ⟨j, hj, hv, e⟩
    rwa [pinD_bit_inj h hi hj e]
  · exact fun hv => ⟨i, hi, hv, rfl⟩

/-- `ZEROS(v)` on a data line is the complement of the bit of the value. -/
theorem zerosMask_line (h : PinsOk c) (v : Byte) {i : Nat} (hi : i < 8) :
    (zerosMask c v).getLsbD (pinD c i % 32) = !v.getLsbD i := by
  have hd : (dataMask c).getLsbD (pinD c i % 32) = true := (getLsbD_dataMask c _).mpr ⟨i, hi, rfl⟩
  have hlt : pinD c i % 32 < 32 := Nat.mod_lt _ (by decide)
  simp only [zerosMask, BitVec.getLsbD_and, BitVec.getLsbD_not, hd, hlt, decide_true, Bool.true_and,
    onesMask_line h v hi]

/-- Neither mask has a bit that is no data line. -/
theorem masks_elsewhere (v : Byte) {j : Nat} (hj : ∀ i < 8, j ≠ pinD c i % 32) :
    (onesMask c v).getLsbD j = false ∧ (zerosMask c v).getLsbD j = false := by
  constructor
  · rw [Bool.eq_false_iff]
    intro hh
    obtain ⟨i, hi, _, e⟩ := (getLsbD_onesMask c v j).mp hh
    exact hj i hi e
  · rw [Bool.eq_false_iff]
    intro hh
    simp only [zerosMask, BitVec.getLsbD_and, Bool.and_eq_true] at hh
    obtain ⟨i, hi, e⟩ := (getLsbD_dataMask c j).mp hh.1
    exact hj i hi e

/-- `ONES(v)` and `ZEROS(v)` share no bit and together are `DATA_MASK` (R123). -/
theorem ones_zeros_split (c : Config) (v : Byte) :
    onesMask c v ||| zerosMask c v = dataMask c ∧ onesMask c v &&& zerosMask c v = 0 := by
  have hsub : ∀ j, (onesMask c v).getLsbD j = true → (dataMask c).getLsbD j = true := by
    intro j hj
    obtain ⟨i, hi, _, e⟩ := (getLsbD_onesMask c v j).mp hj
    exact (getLsbD_dataMask c j).mpr ⟨i, hi, e⟩
  constructor
  · apply BitVec.eq_of_getLsbD_eq
    intro j hj
    have := hsub j
    simp only [zerosMask, BitVec.getLsbD_or, BitVec.getLsbD_and, BitVec.getLsbD_not, hj, decide_true, Bool.true_and]
    cases h1 : (onesMask c v).getLsbD j <;> cases h2 : (dataMask c).getLsbD j <;> simp_all
  · apply BitVec.eq_of_getLsbD_eq
    intro j hj
    simp only [zerosMask, BitVec.getLsbD_and, BitVec.getLsbD_not, hj, decide_true, Bool.true_and]
    cases (onesMask c v).getLsbD j <;> simp

/-- Bit `i` of `DBUS` is the level of line `Di` (R11). -/
theorem getLsbD_dataByte (c : Config) (level : Nat → Level) {i : Nat} (hi : i < 8) :
    (dataByte c level).getLsbD i = level (pinD c i) := by
  unfold dataByte
  rw [BitVec.getLsbD_ofBoolListLE]
  interval_cases i <;> rfl

/-- `DBUS` is a byte when each line is a bit of it. -/
theorem dataByte_eq {level : Nat → Level} {v : Byte} (h : ∀ i < 8, level (pinD c i) = v.getLsbD i) :
    dataByte c level = v := by
  apply BitVec.eq_of_getLsbD_eq
  intro i hi
  rw [getLsbD_dataByte c level hi, h i hi]

theorem dataByte_congr {level level' : Nat → Level} (h : ∀ i < 8, level (pinD c i) = level' (pinD c i)) :
    dataByte c level = dataByte c level' :=
  dataByte_eq fun i hi => by rw [getLsbD_dataByte c level' hi, h i hi]

/-- The groups that exist are those with a valid pin. -/
theorem groupExists_iff (c : Config) (g : Nat) : groupExists c g = true ↔ g ∈ validGroups c := by
  simp only [groupExists, validGroups, validPin, inRanges, List.any_eq_true, List.mem_range, List.mem_flatMap,
    Bool.and_eq_true, decide_eq_true_eq]
  constructor
  · rintro ⟨i, hi, r, hr, h1, h2⟩
    refine ⟨r, hr, ?_⟩
    have h0 : r.count ≠ 0 := by omega
    rw [if_neg h0, List.mem_range'_1]
    omega
  · rintro ⟨r, hr, hg⟩
    by_cases h0 : r.count = 0
    · simp [h0] at hg
    · rw [if_neg h0, List.mem_range'_1] at hg
      by_cases hlow : 32 * g < r.first
      · exact ⟨r.first - 32 * g, by omega, r, hr, by omega, by omega⟩
      · exact ⟨0, by omega, r, hr, by omega, by omega⟩

/-- A valid pin's group exists. -/
theorem groupExists_of_valid {p : Nat} (h : validPin c p = true) : groupExists c (p / 32) = true := by
  rw [groupExists, List.any_eq_true]
  refine ⟨p % 32, List.mem_range.mpr (Nat.mod_lt _ (by decide)), ?_⟩
  rwa [show 32 * (p / 32) + p % 32 = p by omega]

theorem fastGroup_exists (h : PinsOk c) : groupExists c (fastGroup c) = true := groupExists_of_valid (pinWR_valid h)

/-- The set register's offset decodes to the set register (R71). -/
theorem gpioRegAt_set {g : Nat} (hg : groupExists c g = true) : gpioRegAt c (setRegOffset c g) = some (.set g) := by
  have h1 : (setRegOffset c g - c.setOffset) / Config.groupStride = g := by
    simp only [setRegOffset, Config.groupStride]
    omega
  have h2 : groupAt c c.setOffset (setRegOffset c g) = some g := by
    unfold groupAt
    rw [h1]
    simp [setRegOffset, hg]
  simp [gpioRegAt, h2]

/-- The clear register's offset decodes to the clear register (R71): no set register lies there (R8). -/
theorem gpioRegAt_clr (h : RegistersOk c) {g : Nat} (hg : groupExists c g = true) :
    gpioRegAt c (clrRegOffset c g) = some (.clr g) := by
  have h1 : (clrRegOffset c g - c.clrOffset) / Config.groupStride = g := by
    simp only [clrRegOffset, Config.groupStride]
    omega
  have h2 : groupAt c c.clrOffset (clrRegOffset c g) = some g := by
    unfold groupAt
    rw [h1]
    simp [clrRegOffset, hg]
  have h3 : groupAt c c.setOffset (clrRegOffset c g) = none := by
    unfold groupAt
    simp only [ite_eq_right_iff, reduceCtorEq, imp_false, not_and]
    intro e he
    have hm := (groupExists_iff c _).mp he
    have hg' := (groupExists_iff c g).mp hg
    exact h.2.2.2.2 _ hm g hg' e
  simp [gpioRegAt, h2, h3]

end Sys2Proof.Machine
end

