-- ==== Sys2Proof/Laws/Results.lean ====
section
/-! SUPPORT. The laws of results: sequencing, repetition, the outcome of an operation. -/

namespace Sys2Proof.Machine

@[simp] theorem Result.ok_bind (s : State) (f : State → Result) : (Result.ok s).bind f = f s := rfl

@[simp] theorem Result.stop_bind (s : State) (f : State → Result) : (Result.stop s).bind f = .stop s := rfl

@[simp] theorem Result.refuse_bind (r : Refusal) (f : State → Result) : (Result.refuse r).bind f = .refuse r := rfl

@[simp] theorem Result.bind_ok (x : Result) : x.bind .ok = x := by cases x <;> rfl

theorem Result.bind_assoc (x : Result) (f g : State → Result) :
    (x.bind f).bind g = x.bind fun s => (f s).bind g := by cases x <;> rfl

@[simp] theorem Result.outcome_ok (s : State) : (Result.ok s).outcome = .next s := rfl

@[simp] theorem Result.outcome_stop (s : State) : (Result.stop s).outcome = .next s := rfl

@[simp] theorem Result.outcome_refuse (r : Refusal) : (Result.refuse r).outcome = .refused r := rfl

/-- A sequence comes to its end exactly when both parts do. -/
theorem Result.bind_eq_ok {x : Result} {f : State → Result} {t : State} :
    x.bind f = .ok t ↔ ∃ s, x = .ok s ∧ f s = .ok t := by
  cases x <;> simp [Result.bind]

/-- A sequence is stopped by a fault in its first part, or in its second after the first came to its end. -/
theorem Result.bind_eq_stop {x : Result} {f : State → Result} {t : State} :
    x.bind f = .stop t ↔ x = .stop t ∨ ∃ s, x = .ok s ∧ f s = .stop t := by
  cases x <;> simp [Result.bind]

/-- An outcome is a next state exactly when the operation came to its end or its fault was taken. -/
theorem Result.outcome_eq_next {x : Result} {t : State} :
    x.outcome = .next t ↔ x = .ok t ∨ x = .stop t := by
  cases x <;> simp [Result.outcome]

/-- An operation of a state that is not halted runs its body. -/
theorem run_of_not_halted {s : State} (h : s.halted = false) (body : State → Result) :
    s.run body = (body s).outcome := by simp [State.run, h]

/-- An operation of a halted state is stuck (R296). -/
theorem run_of_halted {s : State} (h : s.halted = true) (body : State → Result) :
    s.run body = .fault (.halted s.fault) := by simp [State.run, h]

/-- What an operation that answers a next state did: it was not halted, and its body ended or took a fault. -/
theorem run_eq_next {s t : State} {body : State → Result} (h : s.run body = .next t) :
    s.halted = false ∧ (body s = .ok t ∨ body s = .stop t) := by
  cases hh : s.halted with
  | true => simp [State.run, hh] at h
  | false =>
    rw [run_of_not_halted hh] at h
    exact ⟨rfl, Result.outcome_eq_next.mp h⟩

@[simp] theorem afterCheck_none (x : Result) : afterCheck none x = x := rfl

@[simp] theorem afterCheck_some (r : Refusal) (x : Result) : afterCheck (some r) x = .refuse r := rfl

theorem afterCheck_eq_ok {check : Option Refusal} {x : Result} {t : State} :
    afterCheck check x = .ok t ↔ check = none ∧ x = .ok t := by
  cases check <;> simp [afterCheck]

theorem afterCheck_eq_stop {check : Option Refusal} {x : Result} {t : State} :
    afterCheck check x = .stop t ↔ check = none ∧ x = .stop t := by
  cases check <;> simp [afterCheck]

@[simp] theorem repeatOp_zero (f : State → Result) (s : State) : repeatOp 0 f s = .ok s := rfl

@[simp] theorem repeatOp_succ (n : Nat) (f : State → Result) (s : State) :
    repeatOp (n + 1) f s = (f s).bind (repeatOp n f) := rfl

/-- Repetitions add up. -/
theorem repeatOp_add (m n : Nat) (f : State → Result) (s : State) :
    repeatOp (m + n) f s = (repeatOp m f s).bind (repeatOp n f) := by
  induction m generalizing s with
  | zero => simp
  | succ m ih =>
    rw [Nat.succ_add, repeatOp_succ, repeatOp_succ, Result.bind_assoc]
    congr 1
    funext t
    exact ih t

/-- Repetitions of repetitions multiply: the batches of the flood change nothing (R171). -/
theorem repeatOp_mul (m n : Nat) (f : State → Result) (s : State) :
    repeatOp m (repeatOp n f) s = repeatOp (n * m) f s := by
  induction m generalizing s with
  | zero => simp
  | succ m ih =>
    rw [repeatOp_succ, Nat.mul_succ, Nat.add_comm, repeatOp_add]
    congr 1
    funext t
    exact ih t

/-- `FloodFast(n)` is `n` strobe-only pixels (R171). -/
theorem floodFast_eq_repeat (n : Nat) (s : State) : floodFast n s = repeatOp n strobePixel s := by
  unfold floodFast
  rw [repeatOp_mul, ← repeatOp_add, Nat.div_add_mod]

end Sys2Proof.Machine
end

