-- ==== Sys2Proof/Laws/State.lean ====
section
/-! SUPPORT. The fields of a state after each named update, one lemma a field, so that no proof unfolds a record
update; and the pins and views after the updates that move latches. -/

namespace Sys2Proof.Machine

@[simp] theorem State.emit_opr0 (s : State) (e : Event) : (s.emit e).opr0 = s.opr0 := rfl
@[simp] theorem State.emit_opr1 (s : State) (e : Event) : (s.emit e).opr1 = s.opr1 := rfl
@[simp] theorem State.emit_opr2 (s : State) (e : Event) : (s.emit e).opr2 = s.opr2 := rfl
@[simp] theorem State.emit_opr3 (s : State) (e : Event) : (s.emit e).opr3 = s.opr3 := rfl
@[simp] theorem State.emit_opr4 (s : State) (e : Event) : (s.emit e).opr4 = s.opr4 := rfl
@[simp] theorem State.emit_cmdw (s : State) (e : Event) : (s.emit e).cmdw = s.cmdw := rfl
@[simp] theorem State.emit_res (s : State) (e : Event) : (s.emit e).res = s.res := rfl
@[simp] theorem State.emit_resA (s : State) (e : Event) : (s.emit e).resA = s.resA := rfl
@[simp] theorem State.emit_busyR (s : State) (e : Event) : (s.emit e).busyR = s.busyR := rfl
@[simp] theorem State.emit_busyA (s : State) (e : Event) : (s.emit e).busyA = s.busyA := rfl
@[simp] theorem State.emit_phase (s : State) (e : Event) : (s.emit e).phase = s.phase := rfl
@[simp] theorem State.emit_flBlocks (s : State) (e : Event) : (s.emit e).flBlocks = s.flBlocks := rfl
@[simp] theorem State.emit_flInblk (s : State) (e : Event) : (s.emit e).flInblk = s.flInblk := rfl
@[simp] theorem State.emit_flRem (s : State) (e : Event) : (s.emit e).flRem = s.flRem := rfl
@[simp] theorem State.emit_flLeft (s : State) (e : Event) : (s.emit e).flLeft = s.flLeft := rfl
@[simp] theorem State.emit_puIdx (s : State) (e : Event) : (s.emit e).puIdx = s.puIdx := rfl
@[simp] theorem State.emit_inIdx (s : State) (e : Event) : (s.emit e).inIdx = s.inIdx := rfl
@[simp] theorem State.emit_rsCnt (s : State) (e : Event) : (s.emit e).rsCnt = s.rsCnt := rfl
@[simp] theorem State.emit_held (s : State) (e : Event) : (s.emit e).held = s.held := rfl
@[simp] theorem State.emit_mapped (s : State) (e : Event) : (s.emit e).mapped = s.mapped := rfl
@[simp] theorem State.emit_latches (s : State) (e : Event) : (s.emit e).latches = s.latches := rfl
@[simp] theorem State.emit_dirs (s : State) (e : Event) : (s.emit e).dirs = s.dirs := rfl
@[simp] theorem State.emit_owns (s : State) (e : Event) : (s.emit e).owns = s.owns := rfl
@[simp] theorem State.emit_dstate (s : State) (e : Event) : (s.emit e).dstate = s.dstate := rfl
@[simp] theorem State.emit_variant (s : State) (e : Event) : (s.emit e).variant = s.variant := rfl
@[simp] theorem State.emit_rot (s : State) (e : Event) : (s.emit e).rot = s.rot := rfl
@[simp] theorem State.emit_curW (s : State) (e : Event) : (s.emit e).curW = s.curW := rfl
@[simp] theorem State.emit_curH (s : State) (e : Event) : (s.emit e).curH = s.curH := rfl
@[simp] theorem State.emit_winx (s : State) (e : Event) : (s.emit e).winx = s.winx := rfl
@[simp] theorem State.emit_winy (s : State) (e : Event) : (s.emit e).winy = s.winy := rfl
@[simp] theorem State.emit_winValid (s : State) (e : Event) : (s.emit e).winValid = s.winValid := rfl
@[simp] theorem State.emit_streamOpen (s : State) (e : Event) : (s.emit e).streamOpen = s.streamOpen := rfl
@[simp] theorem State.emit_channels (s : State) (e : Event) : (s.emit e).channels = s.channels := rfl
@[simp] theorem State.emit_handleCtr (s : State) (e : Event) : (s.emit e).handleCtr = s.handleCtr := rfl
@[simp] theorem State.emit_t0 (s : State) (e : Event) : (s.emit e).t0 = s.t0 := rfl
@[simp] theorem State.emit_lastIdx (s : State) (e : Event) : (s.emit e).lastIdx = s.lastIdx := rfl
@[simp] theorem State.emit_dutyNs (s : State) (e : Event) : (s.emit e).dutyNs = s.dutyNs := rfl
@[simp] theorem State.emit_halted (s : State) (e : Event) : (s.emit e).halted = s.halted := rfl
@[simp] theorem State.emit_fault (s : State) (e : Event) : (s.emit e).fault = s.fault := rfl
@[simp] theorem State.emit_faultInfo (s : State) (e : Event) : (s.emit e).faultInfo = s.faultInfo := rfl
@[simp] theorem State.emit_degraded (s : State) (e : Event) : (s.emit e).degraded = s.degraded := rfl
@[simp] theorem State.emit_evt (s : State) (e : Event) : (s.emit e).evt = s.evt ++ [e] := rfl
@[simp] theorem State.emit_cfg (s : State) (e : Event) : (s.emit e).cfg = s.cfg := rfl
@[simp] theorem State.emit_env (s : State) (e : Event) : (s.emit e).env = s.env := rfl
@[simp] theorem State.emit_port (s : State) (e : Event) : (s.emit e).port = s.port := rfl
@[simp] theorem State.emit_freeCount (s : State) (e : Event) : (s.emit e).freeCount = s.freeCount := rfl

@[simp] theorem State.level_opr0 (s : State) (p : Nat) (l : Level) : (s.level p l).opr0 = s.opr0 := rfl
@[simp] theorem State.level_opr1 (s : State) (p : Nat) (l : Level) : (s.level p l).opr1 = s.opr1 := rfl
@[simp] theorem State.level_opr2 (s : State) (p : Nat) (l : Level) : (s.level p l).opr2 = s.opr2 := rfl
@[simp] theorem State.level_opr3 (s : State) (p : Nat) (l : Level) : (s.level p l).opr3 = s.opr3 := rfl
@[simp] theorem State.level_opr4 (s : State) (p : Nat) (l : Level) : (s.level p l).opr4 = s.opr4 := rfl
@[simp] theorem State.level_cmdw (s : State) (p : Nat) (l : Level) : (s.level p l).cmdw = s.cmdw := rfl
@[simp] theorem State.level_res (s : State) (p : Nat) (l : Level) : (s.level p l).res = s.res := rfl
@[simp] theorem State.level_resA (s : State) (p : Nat) (l : Level) : (s.level p l).resA = s.resA := rfl
@[simp] theorem State.level_busyR (s : State) (p : Nat) (l : Level) : (s.level p l).busyR = s.busyR := rfl
@[simp] theorem State.level_busyA (s : State) (p : Nat) (l : Level) : (s.level p l).busyA = s.busyA := rfl
@[simp] theorem State.level_phase (s : State) (p : Nat) (l : Level) : (s.level p l).phase = s.phase := rfl
@[simp] theorem State.level_flBlocks (s : State) (p : Nat) (l : Level) : (s.level p l).flBlocks = s.flBlocks := rfl
@[simp] theorem State.level_flInblk (s : State) (p : Nat) (l : Level) : (s.level p l).flInblk = s.flInblk := rfl
@[simp] theorem State.level_flRem (s : State) (p : Nat) (l : Level) : (s.level p l).flRem = s.flRem := rfl
@[simp] theorem State.level_flLeft (s : State) (p : Nat) (l : Level) : (s.level p l).flLeft = s.flLeft := rfl
@[simp] theorem State.level_puIdx (s : State) (p : Nat) (l : Level) : (s.level p l).puIdx = s.puIdx := rfl
@[simp] theorem State.level_inIdx (s : State) (p : Nat) (l : Level) : (s.level p l).inIdx = s.inIdx := rfl
@[simp] theorem State.level_rsCnt (s : State) (p : Nat) (l : Level) : (s.level p l).rsCnt = s.rsCnt := rfl
@[simp] theorem State.level_held (s : State) (p : Nat) (l : Level) : (s.level p l).held = s.held := rfl
@[simp] theorem State.level_mapped (s : State) (p : Nat) (l : Level) : (s.level p l).mapped = s.mapped := rfl
@[simp] theorem State.level_latches (s : State) (p : Nat) (l : Level) :
    (s.level p l).latches = writePinBit s.latches p l := rfl
@[simp] theorem State.level_dirs (s : State) (p : Nat) (l : Level) : (s.level p l).dirs = s.dirs := rfl
@[simp] theorem State.level_owns (s : State) (p : Nat) (l : Level) : (s.level p l).owns = s.owns := rfl
@[simp] theorem State.level_dstate (s : State) (p : Nat) (l : Level) : (s.level p l).dstate = s.dstate := rfl
@[simp] theorem State.level_variant (s : State) (p : Nat) (l : Level) : (s.level p l).variant = s.variant := rfl
@[simp] theorem State.level_rot (s : State) (p : Nat) (l : Level) : (s.level p l).rot = s.rot := rfl
@[simp] theorem State.level_curW (s : State) (p : Nat) (l : Level) : (s.level p l).curW = s.curW := rfl
@[simp] theorem State.level_curH (s : State) (p : Nat) (l : Level) : (s.level p l).curH = s.curH := rfl
@[simp] theorem State.level_winx (s : State) (p : Nat) (l : Level) : (s.level p l).winx = s.winx := rfl
@[simp] theorem State.level_winy (s : State) (p : Nat) (l : Level) : (s.level p l).winy = s.winy := rfl
@[simp] theorem State.level_winValid (s : State) (p : Nat) (l : Level) : (s.level p l).winValid = s.winValid := rfl
@[simp] theorem State.level_streamOpen (s : State) (p : Nat) (l : Level) :
    (s.level p l).streamOpen = s.streamOpen := rfl
@[simp] theorem State.level_channels (s : State) (p : Nat) (l : Level) : (s.level p l).channels = s.channels := rfl
@[simp] theorem State.level_handleCtr (s : State) (p : Nat) (l : Level) : (s.level p l).handleCtr = s.handleCtr := rfl
@[simp] theorem State.level_t0 (s : State) (p : Nat) (l : Level) : (s.level p l).t0 = s.t0 := rfl
@[simp] theorem State.level_lastIdx (s : State) (p : Nat) (l : Level) : (s.level p l).lastIdx = s.lastIdx := rfl
@[simp] theorem State.level_dutyNs (s : State) (p : Nat) (l : Level) : (s.level p l).dutyNs = s.dutyNs := rfl
@[simp] theorem State.level_halted (s : State) (p : Nat) (l : Level) : (s.level p l).halted = s.halted := rfl
@[simp] theorem State.level_fault (s : State) (p : Nat) (l : Level) : (s.level p l).fault = s.fault := rfl
@[simp] theorem State.level_faultInfo (s : State) (p : Nat) (l : Level) : (s.level p l).faultInfo = s.faultInfo := rfl
@[simp] theorem State.level_degraded (s : State) (p : Nat) (l : Level) : (s.level p l).degraded = s.degraded := rfl
@[simp] theorem State.level_evt (s : State) (p : Nat) (l : Level) : (s.level p l).evt = s.evt ++ [.lv p l] := rfl
@[simp] theorem State.level_cfg (s : State) (p : Nat) (l : Level) : (s.level p l).cfg = s.cfg := rfl
@[simp] theorem State.level_env (s : State) (p : Nat) (l : Level) : (s.level p l).env = s.env := rfl
@[simp] theorem State.level_port (s : State) (p : Nat) (l : Level) : (s.level p l).port = s.port := rfl
@[simp] theorem State.level_freeCount (s : State) (p : Nat) (l : Level) : (s.level p l).freeCount = s.freeCount := rfl

@[simp] theorem State.writeReg_opr0 (s : State) (r : GpioReg) (m : Word) :
    (s.writeReg r m).opr0 = s.opr0 := by cases r <;> rfl
@[simp] theorem State.writeReg_opr1 (s : State) (r : GpioReg) (m : Word) :
    (s.writeReg r m).opr1 = s.opr1 := by cases r <;> rfl
@[simp] theorem State.writeReg_opr2 (s : State) (r : GpioReg) (m : Word) :
    (s.writeReg r m).opr2 = s.opr2 := by cases r <;> rfl
@[simp] theorem State.writeReg_opr3 (s : State) (r : GpioReg) (m : Word) :
    (s.writeReg r m).opr3 = s.opr3 := by cases r <;> rfl
@[simp] theorem State.writeReg_opr4 (s : State) (r : GpioReg) (m : Word) :
    (s.writeReg r m).opr4 = s.opr4 := by cases r <;> rfl
@[simp] theorem State.writeReg_cmdw (s : State) (r : GpioReg) (m : Word) :
    (s.writeReg r m).cmdw = s.cmdw := by cases r <;> rfl
@[simp] theorem State.writeReg_res (s : State) (r : GpioReg) (m : Word) :
    (s.writeReg r m).res = s.res := by cases r <;> rfl
@[simp] theorem State.writeReg_resA (s : State) (r : GpioReg) (m : Word) :
    (s.writeReg r m).resA = s.resA := by cases r <;> rfl
@[simp] theorem State.writeReg_busyR (s : State) (r : GpioReg) (m : Word) :
    (s.writeReg r m).busyR = s.busyR := by cases r <;> rfl
@[simp] theorem State.writeReg_busyA (s : State) (r : GpioReg) (m : Word) :
    (s.writeReg r m).busyA = s.busyA := by cases r <;> rfl
@[simp] theorem State.writeReg_phase (s : State) (r : GpioReg) (m : Word) :
    (s.writeReg r m).phase = s.phase := by cases r <;> rfl
@[simp] theorem State.writeReg_flBlocks (s : State) (r : GpioReg) (m : Word) :
    (s.writeReg r m).flBlocks = s.flBlocks := by cases r <;> rfl
@[simp] theorem State.writeReg_flInblk (s : State) (r : GpioReg) (m : Word) :
    (s.writeReg r m).flInblk = s.flInblk := by cases r <;> rfl
@[simp] theorem State.writeReg_flRem (s : State) (r : GpioReg) (m : Word) :
    (s.writeReg r m).flRem = s.flRem := by cases r <;> rfl
@[simp] theorem State.writeReg_flLeft (s : State) (r : GpioReg) (m : Word) :
    (s.writeReg r m).flLeft = s.flLeft := by cases r <;> rfl
@[simp] theorem State.writeReg_puIdx (s : State) (r : GpioReg) (m : Word) :
    (s.writeReg r m).puIdx = s.puIdx := by cases r <;> rfl
@[simp] theorem State.writeReg_inIdx (s : State) (r : GpioReg) (m : Word) :
    (s.writeReg r m).inIdx = s.inIdx := by cases r <;> rfl
@[simp] theorem State.writeReg_rsCnt (s : State) (r : GpioReg) (m : Word) :
    (s.writeReg r m).rsCnt = s.rsCnt := by cases r <;> rfl
@[simp] theorem State.writeReg_held (s : State) (r : GpioReg) (m : Word) :
    (s.writeReg r m).held = s.held := by cases r <;> rfl
@[simp] theorem State.writeReg_mapped (s : State) (r : GpioReg) (m : Word) :
    (s.writeReg r m).mapped = s.mapped := by cases r <;> rfl
@[simp] theorem State.writeReg_dirs (s : State) (r : GpioReg) (m : Word) :
    (s.writeReg r m).dirs = s.dirs := by cases r <;> rfl
@[simp] theorem State.writeReg_owns (s : State) (r : GpioReg) (m : Word) :
    (s.writeReg r m).owns = s.owns := by cases r <;> rfl
@[simp] theorem State.writeReg_dstate (s : State) (r : GpioReg) (m : Word) :
    (s.writeReg r m).dstate = s.dstate := by cases r <;> rfl
@[simp] theorem State.writeReg_variant (s : State) (r : GpioReg) (m : Word) :
    (s.writeReg r m).variant = s.variant := by cases r <;> rfl
@[simp] theorem State.writeReg_rot (s : State) (r : GpioReg) (m : Word) :
    (s.writeReg r m).rot = s.rot := by cases r <;> rfl
@[simp] theorem State.writeReg_curW (s : State) (r : GpioReg) (m : Word) :
    (s.writeReg r m).curW = s.curW := by cases r <;> rfl
@[simp] theorem State.writeReg_curH (s : State) (r : GpioReg) (m : Word) :
    (s.writeReg r m).curH = s.curH := by cases r <;> rfl
@[simp] theorem State.writeReg_winx (s : State) (r : GpioReg) (m : Word) :
    (s.writeReg r m).winx = s.winx := by cases r <;> rfl
@[simp] theorem State.writeReg_winy (s : State) (r : GpioReg) (m : Word) :
    (s.writeReg r m).winy = s.winy := by cases r <;> rfl
@[simp] theorem State.writeReg_winValid (s : State) (r : GpioReg) (m : Word) :
    (s.writeReg r m).winValid = s.winValid := by cases r <;> rfl
@[simp] theorem State.writeReg_streamOpen (s : State) (r : GpioReg) (m : Word) :
    (s.writeReg r m).streamOpen = s.streamOpen := by cases r <;> rfl
@[simp] theorem State.writeReg_channels (s : State) (r : GpioReg) (m : Word) :
    (s.writeReg r m).channels = s.channels := by cases r <;> rfl
@[simp] theorem State.writeReg_handleCtr (s : State) (r : GpioReg) (m : Word) :
    (s.writeReg r m).handleCtr = s.handleCtr := by cases r <;> rfl
@[simp] theorem State.writeReg_t0 (s : State) (r : GpioReg) (m : Word) :
    (s.writeReg r m).t0 = s.t0 := by cases r <;> rfl
@[simp] theorem State.writeReg_lastIdx (s : State) (r : GpioReg) (m : Word) :
    (s.writeReg r m).lastIdx = s.lastIdx := by cases r <;> rfl
@[simp] theorem State.writeReg_dutyNs (s : State) (r : GpioReg) (m : Word) :
    (s.writeReg r m).dutyNs = s.dutyNs := by cases r <;> rfl
@[simp] theorem State.writeReg_halted (s : State) (r : GpioReg) (m : Word) :
    (s.writeReg r m).halted = s.halted := by cases r <;> rfl
@[simp] theorem State.writeReg_fault (s : State) (r : GpioReg) (m : Word) :
    (s.writeReg r m).fault = s.fault := by cases r <;> rfl
@[simp] theorem State.writeReg_faultInfo (s : State) (r : GpioReg) (m : Word) :
    (s.writeReg r m).faultInfo = s.faultInfo := by cases r <;> rfl
@[simp] theorem State.writeReg_degraded (s : State) (r : GpioReg) (m : Word) :
    (s.writeReg r m).degraded = s.degraded := by cases r <;> rfl
@[simp] theorem State.writeReg_evt (s : State) (r : GpioReg) (m : Word) :
    (s.writeReg r m).evt = s.evt := by cases r <;> rfl
@[simp] theorem State.writeReg_cfg (s : State) (r : GpioReg) (m : Word) :
    (s.writeReg r m).cfg = s.cfg := by cases r <;> rfl
@[simp] theorem State.writeReg_env (s : State) (r : GpioReg) (m : Word) :
    (s.writeReg r m).env = s.env := by cases r <;> rfl
@[simp] theorem State.writeReg_port (s : State) (r : GpioReg) (m : Word) :
    (s.writeReg r m).port = s.port := by cases r <;> rfl
@[simp] theorem State.writeReg_freeCount (s : State) (r : GpioReg) (m : Word) :
    (s.writeReg r m).freeCount = s.freeCount := by cases r <;> rfl

@[simp] theorem State.closeStream_opr0 (s : State) :
    s.closeStream.opr0 = s.opr0 := by unfold State.closeStream; split <;> rfl
@[simp] theorem State.closeStream_opr1 (s : State) :
    s.closeStream.opr1 = s.opr1 := by unfold State.closeStream; split <;> rfl
@[simp] theorem State.closeStream_opr2 (s : State) :
    s.closeStream.opr2 = s.opr2 := by unfold State.closeStream; split <;> rfl
@[simp] theorem State.closeStream_opr3 (s : State) :
    s.closeStream.opr3 = s.opr3 := by unfold State.closeStream; split <;> rfl
@[simp] theorem State.closeStream_opr4 (s : State) :
    s.closeStream.opr4 = s.opr4 := by unfold State.closeStream; split <;> rfl
@[simp] theorem State.closeStream_cmdw (s : State) :
    s.closeStream.cmdw = s.cmdw := by unfold State.closeStream; split <;> rfl
@[simp] theorem State.closeStream_res (s : State) :
    s.closeStream.res = s.res := by unfold State.closeStream; split <;> rfl
@[simp] theorem State.closeStream_resA (s : State) :
    s.closeStream.resA = s.resA := by unfold State.closeStream; split <;> rfl
@[simp] theorem State.closeStream_busyR (s : State) :
    s.closeStream.busyR = s.busyR := by unfold State.closeStream; split <;> rfl
@[simp] theorem State.closeStream_busyA (s : State) :
    s.closeStream.busyA = s.busyA := by unfold State.closeStream; split <;> rfl
@[simp] theorem State.closeStream_phase (s : State) :
    s.closeStream.phase = s.phase := by unfold State.closeStream; split <;> rfl
@[simp] theorem State.closeStream_flBlocks (s : State) :
    s.closeStream.flBlocks = s.flBlocks := by unfold State.closeStream; split <;> rfl
@[simp] theorem State.closeStream_flInblk (s : State) :
    s.closeStream.flInblk = s.flInblk := by unfold State.closeStream; split <;> rfl
@[simp] theorem State.closeStream_flRem (s : State) :
    s.closeStream.flRem = s.flRem := by unfold State.closeStream; split <;> rfl
@[simp] theorem State.closeStream_flLeft (s : State) :
    s.closeStream.flLeft = s.flLeft := by unfold State.closeStream; split <;> rfl
@[simp] theorem State.closeStream_puIdx (s : State) :
    s.closeStream.puIdx = s.puIdx := by unfold State.closeStream; split <;> rfl
@[simp] theorem State.closeStream_inIdx (s : State) :
    s.closeStream.inIdx = s.inIdx := by unfold State.closeStream; split <;> rfl
@[simp] theorem State.closeStream_rsCnt (s : State) :
    s.closeStream.rsCnt = s.rsCnt := by unfold State.closeStream; split <;> rfl
@[simp] theorem State.closeStream_held (s : State) :
    s.closeStream.held = s.held := by unfold State.closeStream; split <;> rfl
@[simp] theorem State.closeStream_mapped (s : State) :
    s.closeStream.mapped = s.mapped := by unfold State.closeStream; split <;> rfl
@[simp] theorem State.closeStream_latches (s : State) :
    s.closeStream.latches = s.latches := by unfold State.closeStream; split <;> rfl
@[simp] theorem State.closeStream_dirs (s : State) :
    s.closeStream.dirs = s.dirs := by unfold State.closeStream; split <;> rfl
@[simp] theorem State.closeStream_owns (s : State) :
    s.closeStream.owns = s.owns := by unfold State.closeStream; split <;> rfl
@[simp] theorem State.closeStream_dstate (s : State) :
    s.closeStream.dstate = s.dstate := by unfold State.closeStream; split <;> rfl
@[simp] theorem State.closeStream_variant (s : State) :
    s.closeStream.variant = s.variant := by unfold State.closeStream; split <;> rfl
@[simp] theorem State.closeStream_rot (s : State) :
    s.closeStream.rot = s.rot := by unfold State.closeStream; split <;> rfl
@[simp] theorem State.closeStream_curW (s : State) :
    s.closeStream.curW = s.curW := by unfold State.closeStream; split <;> rfl
@[simp] theorem State.closeStream_curH (s : State) :
    s.closeStream.curH = s.curH := by unfold State.closeStream; split <;> rfl
@[simp] theorem State.closeStream_winx (s : State) :
    s.closeStream.winx = s.winx := by unfold State.closeStream; split <;> rfl
@[simp] theorem State.closeStream_winy (s : State) :
    s.closeStream.winy = s.winy := by unfold State.closeStream; split <;> rfl
@[simp] theorem State.closeStream_winValid (s : State) :
    s.closeStream.winValid = s.winValid := by unfold State.closeStream; split <;> rfl
@[simp] theorem State.closeStream_channels (s : State) :
    s.closeStream.channels = s.channels := by unfold State.closeStream; split <;> rfl
@[simp] theorem State.closeStream_handleCtr (s : State) :
    s.closeStream.handleCtr = s.handleCtr := by unfold State.closeStream; split <;> rfl
@[simp] theorem State.closeStream_t0 (s : State) : s.closeStream.t0 = s.t0 := by unfold State.closeStream; split <;> rfl
@[simp] theorem State.closeStream_lastIdx (s : State) :
    s.closeStream.lastIdx = s.lastIdx := by unfold State.closeStream; split <;> rfl
@[simp] theorem State.closeStream_dutyNs (s : State) :
    s.closeStream.dutyNs = s.dutyNs := by unfold State.closeStream; split <;> rfl
@[simp] theorem State.closeStream_halted (s : State) :
    s.closeStream.halted = s.halted := by unfold State.closeStream; split <;> rfl
@[simp] theorem State.closeStream_fault (s : State) :
    s.closeStream.fault = s.fault := by unfold State.closeStream; split <;> rfl
@[simp] theorem State.closeStream_faultInfo (s : State) :
    s.closeStream.faultInfo = s.faultInfo := by unfold State.closeStream; split <;> rfl
@[simp] theorem State.closeStream_degraded (s : State) :
    s.closeStream.degraded = s.degraded := by unfold State.closeStream; split <;> rfl
@[simp] theorem State.closeStream_evt (s : State) :
    s.closeStream.evt = s.evt := by unfold State.closeStream; split <;> rfl
@[simp] theorem State.closeStream_cfg (s : State) :
    s.closeStream.cfg = s.cfg := by unfold State.closeStream; split <;> rfl
@[simp] theorem State.closeStream_env (s : State) :
    s.closeStream.env = s.env := by unfold State.closeStream; split <;> rfl
@[simp] theorem State.closeStream_port (s : State) :
    s.closeStream.port = s.port := by unfold State.closeStream; split <;> rfl
@[simp] theorem State.closeStream_freeCount (s : State) :
    s.closeStream.freeCount = s.freeCount := by unfold State.closeStream; split <;> rfl

@[simp] theorem State.halt_opr0 (s : State) (k : FaultKind) (x : Word) : (s.halt k x).opr0 = s.opr0 := rfl
@[simp] theorem State.halt_opr1 (s : State) (k : FaultKind) (x : Word) : (s.halt k x).opr1 = s.opr1 := rfl
@[simp] theorem State.halt_opr2 (s : State) (k : FaultKind) (x : Word) : (s.halt k x).opr2 = s.opr2 := rfl
@[simp] theorem State.halt_opr3 (s : State) (k : FaultKind) (x : Word) : (s.halt k x).opr3 = s.opr3 := rfl
@[simp] theorem State.halt_opr4 (s : State) (k : FaultKind) (x : Word) : (s.halt k x).opr4 = s.opr4 := rfl
@[simp] theorem State.halt_cmdw (s : State) (k : FaultKind) (x : Word) : (s.halt k x).cmdw = s.cmdw := rfl
@[simp] theorem State.halt_res (s : State) (k : FaultKind) (x : Word) : (s.halt k x).res = s.res := rfl
@[simp] theorem State.halt_resA (s : State) (k : FaultKind) (x : Word) : (s.halt k x).resA = s.resA := rfl
@[simp] theorem State.halt_busyR (s : State) (k : FaultKind) (x : Word) : (s.halt k x).busyR = false := rfl
@[simp] theorem State.halt_busyA (s : State) (k : FaultKind) (x : Word) : (s.halt k x).busyA = false := rfl
@[simp] theorem State.halt_phase (s : State) (k : FaultKind) (x : Word) : (s.halt k x).phase = .idle := rfl
@[simp] theorem State.halt_flBlocks (s : State) (k : FaultKind) (x : Word) : (s.halt k x).flBlocks = s.flBlocks := rfl
@[simp] theorem State.halt_flInblk (s : State) (k : FaultKind) (x : Word) : (s.halt k x).flInblk = s.flInblk := rfl
@[simp] theorem State.halt_flRem (s : State) (k : FaultKind) (x : Word) : (s.halt k x).flRem = s.flRem := rfl
@[simp] theorem State.halt_flLeft (s : State) (k : FaultKind) (x : Word) : (s.halt k x).flLeft = s.flLeft := rfl
@[simp] theorem State.halt_puIdx (s : State) (k : FaultKind) (x : Word) : (s.halt k x).puIdx = s.puIdx := rfl
@[simp] theorem State.halt_inIdx (s : State) (k : FaultKind) (x : Word) : (s.halt k x).inIdx = s.inIdx := rfl
@[simp] theorem State.halt_rsCnt (s : State) (k : FaultKind) (x : Word) : (s.halt k x).rsCnt = s.rsCnt := rfl
@[simp] theorem State.halt_held (s : State) (k : FaultKind) (x : Word) : (s.halt k x).held = s.held := rfl
@[simp] theorem State.halt_mapped (s : State) (k : FaultKind) (x : Word) : (s.halt k x).mapped = s.mapped := rfl
@[simp] theorem State.halt_latches (s : State) (k : FaultKind) (x : Word) : (s.halt k x).latches = s.latches := rfl
@[simp] theorem State.halt_dirs (s : State) (k : FaultKind) (x : Word) : (s.halt k x).dirs = s.dirs := rfl
@[simp] theorem State.halt_owns (s : State) (k : FaultKind) (x : Word) : (s.halt k x).owns = s.owns := rfl
@[simp] theorem State.halt_dstate (s : State) (k : FaultKind) (x : Word) : (s.halt k x).dstate = s.dstate := rfl
@[simp] theorem State.halt_variant (s : State) (k : FaultKind) (x : Word) : (s.halt k x).variant = s.variant := rfl
@[simp] theorem State.halt_rot (s : State) (k : FaultKind) (x : Word) : (s.halt k x).rot = s.rot := rfl
@[simp] theorem State.halt_curW (s : State) (k : FaultKind) (x : Word) : (s.halt k x).curW = s.curW := rfl
@[simp] theorem State.halt_curH (s : State) (k : FaultKind) (x : Word) : (s.halt k x).curH = s.curH := rfl
@[simp] theorem State.halt_winx (s : State) (k : FaultKind) (x : Word) : (s.halt k x).winx = s.winx := rfl
@[simp] theorem State.halt_winy (s : State) (k : FaultKind) (x : Word) : (s.halt k x).winy = s.winy := rfl
@[simp] theorem State.halt_winValid (s : State) (k : FaultKind) (x : Word) : (s.halt k x).winValid = s.winValid := rfl
@[simp] theorem State.halt_streamOpen (s : State) (k : FaultKind) (x : Word) :
    (s.halt k x).streamOpen = s.streamOpen := rfl
@[simp] theorem State.halt_channels (s : State) (k : FaultKind) (x : Word) : (s.halt k x).channels = s.channels := rfl
@[simp] theorem State.halt_handleCtr (s : State) (k : FaultKind) (x : Word) :
    (s.halt k x).handleCtr = s.handleCtr := rfl
@[simp] theorem State.halt_t0 (s : State) (k : FaultKind) (x : Word) : (s.halt k x).t0 = s.t0 := rfl
@[simp] theorem State.halt_lastIdx (s : State) (k : FaultKind) (x : Word) : (s.halt k x).lastIdx = s.lastIdx := rfl
@[simp] theorem State.halt_dutyNs (s : State) (k : FaultKind) (x : Word) : (s.halt k x).dutyNs = s.dutyNs := rfl
@[simp] theorem State.halt_halted (s : State) (k : FaultKind) (x : Word) : (s.halt k x).halted = true := rfl
@[simp] theorem State.halt_fault (s : State) (k : FaultKind) (x : Word) : (s.halt k x).fault = k := rfl
@[simp] theorem State.halt_faultInfo (s : State) (k : FaultKind) (x : Word) : (s.halt k x).faultInfo = x := rfl
@[simp] theorem State.halt_degraded (s : State) (k : FaultKind) (x : Word) : (s.halt k x).degraded = s.degraded := rfl
@[simp] theorem State.halt_evt (s : State) (k : FaultKind) (x : Word) :
    (s.halt k x).evt = s.evt ++ [.halt (faultCode k)] := rfl
@[simp] theorem State.halt_cfg (s : State) (k : FaultKind) (x : Word) : (s.halt k x).cfg = s.cfg := rfl
@[simp] theorem State.halt_env (s : State) (k : FaultKind) (x : Word) : (s.halt k x).env = s.env := rfl
@[simp] theorem State.halt_port (s : State) (k : FaultKind) (x : Word) : (s.halt k x).port = s.port := rfl
@[simp] theorem State.halt_freeCount (s : State) (k : FaultKind) (x : Word) :
    (s.halt k x).freeCount = s.freeCount := rfl

@[simp] theorem State.setRotation_opr0 (s : State) (r : BitVec 2) : (s.setRotation r).opr0 = s.opr0 := rfl
@[simp] theorem State.setRotation_opr1 (s : State) (r : BitVec 2) : (s.setRotation r).opr1 = s.opr1 := rfl
@[simp] theorem State.setRotation_opr2 (s : State) (r : BitVec 2) : (s.setRotation r).opr2 = s.opr2 := rfl
@[simp] theorem State.setRotation_opr3 (s : State) (r : BitVec 2) : (s.setRotation r).opr3 = s.opr3 := rfl
@[simp] theorem State.setRotation_opr4 (s : State) (r : BitVec 2) : (s.setRotation r).opr4 = s.opr4 := rfl
@[simp] theorem State.setRotation_cmdw (s : State) (r : BitVec 2) : (s.setRotation r).cmdw = s.cmdw := rfl
@[simp] theorem State.setRotation_res (s : State) (r : BitVec 2) : (s.setRotation r).res = s.res := rfl
@[simp] theorem State.setRotation_resA (s : State) (r : BitVec 2) : (s.setRotation r).resA = s.resA := rfl
@[simp] theorem State.setRotation_busyR (s : State) (r : BitVec 2) : (s.setRotation r).busyR = s.busyR := rfl
@[simp] theorem State.setRotation_busyA (s : State) (r : BitVec 2) : (s.setRotation r).busyA = s.busyA := rfl
@[simp] theorem State.setRotation_phase (s : State) (r : BitVec 2) : (s.setRotation r).phase = s.phase := rfl
@[simp] theorem State.setRotation_flBlocks (s : State) (r : BitVec 2) : (s.setRotation r).flBlocks = s.flBlocks := rfl
@[simp] theorem State.setRotation_flInblk (s : State) (r : BitVec 2) : (s.setRotation r).flInblk = s.flInblk := rfl
@[simp] theorem State.setRotation_flRem (s : State) (r : BitVec 2) : (s.setRotation r).flRem = s.flRem := rfl
@[simp] theorem State.setRotation_flLeft (s : State) (r : BitVec 2) : (s.setRotation r).flLeft = s.flLeft := rfl
@[simp] theorem State.setRotation_puIdx (s : State) (r : BitVec 2) : (s.setRotation r).puIdx = s.puIdx := rfl
@[simp] theorem State.setRotation_inIdx (s : State) (r : BitVec 2) : (s.setRotation r).inIdx = s.inIdx := rfl
@[simp] theorem State.setRotation_rsCnt (s : State) (r : BitVec 2) : (s.setRotation r).rsCnt = s.rsCnt := rfl
@[simp] theorem State.setRotation_held (s : State) (r : BitVec 2) : (s.setRotation r).held = s.held := rfl
@[simp] theorem State.setRotation_mapped (s : State) (r : BitVec 2) : (s.setRotation r).mapped = s.mapped := rfl
@[simp] theorem State.setRotation_latches (s : State) (r : BitVec 2) : (s.setRotation r).latches = s.latches := rfl
@[simp] theorem State.setRotation_dirs (s : State) (r : BitVec 2) : (s.setRotation r).dirs = s.dirs := rfl
@[simp] theorem State.setRotation_owns (s : State) (r : BitVec 2) : (s.setRotation r).owns = s.owns := rfl
@[simp] theorem State.setRotation_dstate (s : State) (r : BitVec 2) : (s.setRotation r).dstate = s.dstate := rfl
@[simp] theorem State.setRotation_variant (s : State) (r : BitVec 2) : (s.setRotation r).variant = s.variant := rfl
@[simp] theorem State.setRotation_rot (s : State) (r : BitVec 2) : (s.setRotation r).rot = r := rfl
@[simp] theorem State.setRotation_curW (s : State) (r : BitVec 2) :
    (s.setRotation r).curW = BitVec.ofNat 17 (if swapsAxes r then s.cfg.nativeH else s.cfg.nativeW) := rfl
@[simp] theorem State.setRotation_curH (s : State) (r : BitVec 2) :
    (s.setRotation r).curH = BitVec.ofNat 17 (if swapsAxes r then s.cfg.nativeW else s.cfg.nativeH) := rfl
@[simp] theorem State.setRotation_winx (s : State) (r : BitVec 2) : (s.setRotation r).winx = s.winx := rfl
@[simp] theorem State.setRotation_winy (s : State) (r : BitVec 2) : (s.setRotation r).winy = s.winy := rfl
@[simp] theorem State.setRotation_winValid (s : State) (r : BitVec 2) : (s.setRotation r).winValid = s.winValid := rfl
@[simp] theorem State.setRotation_streamOpen (s : State) (r : BitVec 2) :
    (s.setRotation r).streamOpen = s.streamOpen := rfl
@[simp] theorem State.setRotation_channels (s : State) (r : BitVec 2) : (s.setRotation r).channels = s.channels := rfl
@[simp] theorem State.setRotation_handleCtr (s : State) (r : BitVec 2) :
    (s.setRotation r).handleCtr = s.handleCtr := rfl
@[simp] theorem State.setRotation_t0 (s : State) (r : BitVec 2) : (s.setRotation r).t0 = s.t0 := rfl
@[simp] theorem State.setRotation_lastIdx (s : State) (r : BitVec 2) : (s.setRotation r).lastIdx = s.lastIdx := rfl
@[simp] theorem State.setRotation_dutyNs (s : State) (r : BitVec 2) : (s.setRotation r).dutyNs = s.dutyNs := rfl
@[simp] theorem State.setRotation_halted (s : State) (r : BitVec 2) : (s.setRotation r).halted = s.halted := rfl
@[simp] theorem State.setRotation_fault (s : State) (r : BitVec 2) : (s.setRotation r).fault = s.fault := rfl
@[simp] theorem State.setRotation_faultInfo (s : State) (r : BitVec 2) :
    (s.setRotation r).faultInfo = s.faultInfo := rfl
@[simp] theorem State.setRotation_degraded (s : State) (r : BitVec 2) : (s.setRotation r).degraded = s.degraded := rfl
@[simp] theorem State.setRotation_evt (s : State) (r : BitVec 2) : (s.setRotation r).evt = s.evt := rfl
@[simp] theorem State.setRotation_cfg (s : State) (r : BitVec 2) : (s.setRotation r).cfg = s.cfg := rfl
@[simp] theorem State.setRotation_env (s : State) (r : BitVec 2) : (s.setRotation r).env = s.env := rfl
@[simp] theorem State.setRotation_port (s : State) (r : BitVec 2) : (s.setRotation r).port = s.port := rfl
@[simp] theorem State.setRotation_freeCount (s : State) (r : BitVec 2) :
    (s.setRotation r).freeCount = s.freeCount := rfl

@[simp] theorem State.writePix_opr0 (s : State) (a : Nat) (v : Half) : (s.writePix a v).opr0 = s.opr0 := rfl
@[simp] theorem State.writePix_opr1 (s : State) (a : Nat) (v : Half) : (s.writePix a v).opr1 = s.opr1 := rfl
@[simp] theorem State.writePix_opr2 (s : State) (a : Nat) (v : Half) : (s.writePix a v).opr2 = s.opr2 := rfl
@[simp] theorem State.writePix_opr3 (s : State) (a : Nat) (v : Half) : (s.writePix a v).opr3 = s.opr3 := rfl
@[simp] theorem State.writePix_opr4 (s : State) (a : Nat) (v : Half) : (s.writePix a v).opr4 = s.opr4 := rfl
@[simp] theorem State.writePix_cmdw (s : State) (a : Nat) (v : Half) : (s.writePix a v).cmdw = s.cmdw := rfl
@[simp] theorem State.writePix_res (s : State) (a : Nat) (v : Half) : (s.writePix a v).res = s.res := rfl
@[simp] theorem State.writePix_resA (s : State) (a : Nat) (v : Half) : (s.writePix a v).resA = s.resA := rfl
@[simp] theorem State.writePix_busyR (s : State) (a : Nat) (v : Half) : (s.writePix a v).busyR = s.busyR := rfl
@[simp] theorem State.writePix_busyA (s : State) (a : Nat) (v : Half) : (s.writePix a v).busyA = s.busyA := rfl
@[simp] theorem State.writePix_phase (s : State) (a : Nat) (v : Half) : (s.writePix a v).phase = s.phase := rfl
@[simp] theorem State.writePix_flBlocks (s : State) (a : Nat) (v : Half) : (s.writePix a v).flBlocks = s.flBlocks := rfl
@[simp] theorem State.writePix_flInblk (s : State) (a : Nat) (v : Half) : (s.writePix a v).flInblk = s.flInblk := rfl
@[simp] theorem State.writePix_flRem (s : State) (a : Nat) (v : Half) : (s.writePix a v).flRem = s.flRem := rfl
@[simp] theorem State.writePix_flLeft (s : State) (a : Nat) (v : Half) : (s.writePix a v).flLeft = s.flLeft := rfl
@[simp] theorem State.writePix_puIdx (s : State) (a : Nat) (v : Half) : (s.writePix a v).puIdx = s.puIdx := rfl
@[simp] theorem State.writePix_inIdx (s : State) (a : Nat) (v : Half) : (s.writePix a v).inIdx = s.inIdx := rfl
@[simp] theorem State.writePix_rsCnt (s : State) (a : Nat) (v : Half) : (s.writePix a v).rsCnt = s.rsCnt := rfl
@[simp] theorem State.writePix_held (s : State) (a : Nat) (v : Half) : (s.writePix a v).held = s.held := rfl
@[simp] theorem State.writePix_mapped (s : State) (a : Nat) (v : Half) : (s.writePix a v).mapped = s.mapped := rfl
@[simp] theorem State.writePix_latches (s : State) (a : Nat) (v : Half) : (s.writePix a v).latches = s.latches := rfl
@[simp] theorem State.writePix_dirs (s : State) (a : Nat) (v : Half) : (s.writePix a v).dirs = s.dirs := rfl
@[simp] theorem State.writePix_owns (s : State) (a : Nat) (v : Half) : (s.writePix a v).owns = s.owns := rfl
@[simp] theorem State.writePix_dstate (s : State) (a : Nat) (v : Half) : (s.writePix a v).dstate = s.dstate := rfl
@[simp] theorem State.writePix_variant (s : State) (a : Nat) (v : Half) : (s.writePix a v).variant = s.variant := rfl
@[simp] theorem State.writePix_rot (s : State) (a : Nat) (v : Half) : (s.writePix a v).rot = s.rot := rfl
@[simp] theorem State.writePix_curW (s : State) (a : Nat) (v : Half) : (s.writePix a v).curW = s.curW := rfl
@[simp] theorem State.writePix_curH (s : State) (a : Nat) (v : Half) : (s.writePix a v).curH = s.curH := rfl
@[simp] theorem State.writePix_winx (s : State) (a : Nat) (v : Half) : (s.writePix a v).winx = s.winx := rfl
@[simp] theorem State.writePix_winy (s : State) (a : Nat) (v : Half) : (s.writePix a v).winy = s.winy := rfl
@[simp] theorem State.writePix_winValid (s : State) (a : Nat) (v : Half) : (s.writePix a v).winValid = s.winValid := rfl
@[simp] theorem State.writePix_streamOpen (s : State) (a : Nat) (v : Half) :
    (s.writePix a v).streamOpen = s.streamOpen := rfl
@[simp] theorem State.writePix_channels (s : State) (a : Nat) (v : Half) : (s.writePix a v).channels = s.channels := rfl
@[simp] theorem State.writePix_handleCtr (s : State) (a : Nat) (v : Half) :
    (s.writePix a v).handleCtr = s.handleCtr := rfl
@[simp] theorem State.writePix_t0 (s : State) (a : Nat) (v : Half) : (s.writePix a v).t0 = s.t0 := rfl
@[simp] theorem State.writePix_lastIdx (s : State) (a : Nat) (v : Half) : (s.writePix a v).lastIdx = s.lastIdx := rfl
@[simp] theorem State.writePix_dutyNs (s : State) (a : Nat) (v : Half) : (s.writePix a v).dutyNs = s.dutyNs := rfl
@[simp] theorem State.writePix_halted (s : State) (a : Nat) (v : Half) : (s.writePix a v).halted = s.halted := rfl
@[simp] theorem State.writePix_fault (s : State) (a : Nat) (v : Half) : (s.writePix a v).fault = s.fault := rfl
@[simp] theorem State.writePix_faultInfo (s : State) (a : Nat) (v : Half) :
    (s.writePix a v).faultInfo = s.faultInfo := rfl
@[simp] theorem State.writePix_degraded (s : State) (a : Nat) (v : Half) : (s.writePix a v).degraded = s.degraded := rfl
@[simp] theorem State.writePix_evt (s : State) (a : Nat) (v : Half) : (s.writePix a v).evt = s.evt := rfl
@[simp] theorem State.writePix_cfg (s : State) (a : Nat) (v : Half) : (s.writePix a v).cfg = s.cfg := rfl
@[simp] theorem State.writePix_env (s : State) (a : Nat) (v : Half) :
    (s.writePix a v).env = { s.env with pix := writeCells s.env.pix a v } := rfl
@[simp] theorem State.writePix_port (s : State) (a : Nat) (v : Half) : (s.writePix a v).port = s.port := rfl
@[simp] theorem State.writePix_freeCount (s : State) (a : Nat) (v : Half) :
    (s.writePix a v).freeCount = s.freeCount := rfl

@[simp] theorem State.endOperation_opr0 (s : State) : s.endOperation.opr0 = s.opr0 := rfl
@[simp] theorem State.endOperation_opr1 (s : State) : s.endOperation.opr1 = s.opr1 := rfl
@[simp] theorem State.endOperation_opr2 (s : State) : s.endOperation.opr2 = s.opr2 := rfl
@[simp] theorem State.endOperation_opr3 (s : State) : s.endOperation.opr3 = s.opr3 := rfl
@[simp] theorem State.endOperation_opr4 (s : State) : s.endOperation.opr4 = s.opr4 := rfl
@[simp] theorem State.endOperation_cmdw (s : State) : s.endOperation.cmdw = s.cmdw := rfl
@[simp] theorem State.endOperation_res (s : State) : s.endOperation.res = s.res := rfl
@[simp] theorem State.endOperation_resA (s : State) : s.endOperation.resA = s.resA := rfl
@[simp] theorem State.endOperation_busyR (s : State) : s.endOperation.busyR = false := rfl
@[simp] theorem State.endOperation_busyA (s : State) : s.endOperation.busyA = s.busyA := rfl
@[simp] theorem State.endOperation_phase (s : State) : s.endOperation.phase = .idle := rfl
@[simp] theorem State.endOperation_flBlocks (s : State) : s.endOperation.flBlocks = s.flBlocks := rfl
@[simp] theorem State.endOperation_flInblk (s : State) : s.endOperation.flInblk = s.flInblk := rfl
@[simp] theorem State.endOperation_flRem (s : State) : s.endOperation.flRem = s.flRem := rfl
@[simp] theorem State.endOperation_flLeft (s : State) : s.endOperation.flLeft = s.flLeft := rfl
@[simp] theorem State.endOperation_puIdx (s : State) : s.endOperation.puIdx = s.puIdx := rfl
@[simp] theorem State.endOperation_inIdx (s : State) : s.endOperation.inIdx = s.inIdx := rfl
@[simp] theorem State.endOperation_rsCnt (s : State) : s.endOperation.rsCnt = s.rsCnt := rfl
@[simp] theorem State.endOperation_held (s : State) : s.endOperation.held = s.held := rfl
@[simp] theorem State.endOperation_mapped (s : State) : s.endOperation.mapped = s.mapped := rfl
@[simp] theorem State.endOperation_latches (s : State) : s.endOperation.latches = s.latches := rfl
@[simp] theorem State.endOperation_dirs (s : State) : s.endOperation.dirs = s.dirs := rfl
@[simp] theorem State.endOperation_owns (s : State) : s.endOperation.owns = s.owns := rfl
@[simp] theorem State.endOperation_dstate (s : State) : s.endOperation.dstate = s.dstate := rfl
@[simp] theorem State.endOperation_variant (s : State) : s.endOperation.variant = s.variant := rfl
@[simp] theorem State.endOperation_rot (s : State) : s.endOperation.rot = s.rot := rfl
@[simp] theorem State.endOperation_curW (s : State) : s.endOperation.curW = s.curW := rfl
@[simp] theorem State.endOperation_curH (s : State) : s.endOperation.curH = s.curH := rfl
@[simp] theorem State.endOperation_winx (s : State) : s.endOperation.winx = s.winx := rfl
@[simp] theorem State.endOperation_winy (s : State) : s.endOperation.winy = s.winy := rfl
@[simp] theorem State.endOperation_winValid (s : State) : s.endOperation.winValid = s.winValid := rfl
@[simp] theorem State.endOperation_streamOpen (s : State) : s.endOperation.streamOpen = s.streamOpen := rfl
@[simp] theorem State.endOperation_channels (s : State) : s.endOperation.channels = s.channels := rfl
@[simp] theorem State.endOperation_handleCtr (s : State) : s.endOperation.handleCtr = s.handleCtr := rfl
@[simp] theorem State.endOperation_t0 (s : State) : s.endOperation.t0 = s.t0 := rfl
@[simp] theorem State.endOperation_lastIdx (s : State) : s.endOperation.lastIdx = s.lastIdx := rfl
@[simp] theorem State.endOperation_dutyNs (s : State) : s.endOperation.dutyNs = s.dutyNs := rfl
@[simp] theorem State.endOperation_halted (s : State) : s.endOperation.halted = s.halted := rfl
@[simp] theorem State.endOperation_fault (s : State) : s.endOperation.fault = s.fault := rfl
@[simp] theorem State.endOperation_faultInfo (s : State) : s.endOperation.faultInfo = s.faultInfo := rfl
@[simp] theorem State.endOperation_degraded (s : State) : s.endOperation.degraded = s.degraded := rfl
@[simp] theorem State.endOperation_evt (s : State) : s.endOperation.evt = s.evt := rfl
@[simp] theorem State.endOperation_cfg (s : State) : s.endOperation.cfg = s.cfg := rfl
@[simp] theorem State.endOperation_env (s : State) : s.endOperation.env = s.env := rfl
@[simp] theorem State.endOperation_port (s : State) : s.endOperation.port = s.port := rfl
@[simp] theorem State.endOperation_freeCount (s : State) : s.endOperation.freeCount = s.freeCount := rfl

@[simp] theorem State.recordSound_opr0 (s : State) (i : Nat) (x : Sound) (st tic : Word) (l r : Int) :
    (s.recordSound i x st tic l r).opr0 = s.opr0 := rfl
@[simp] theorem State.recordSound_opr1 (s : State) (i : Nat) (x : Sound) (st tic : Word) (l r : Int) :
    (s.recordSound i x st tic l r).opr1 = s.opr1 := rfl
@[simp] theorem State.recordSound_opr2 (s : State) (i : Nat) (x : Sound) (st tic : Word) (l r : Int) :
    (s.recordSound i x st tic l r).opr2 = s.opr2 := rfl
@[simp] theorem State.recordSound_opr3 (s : State) (i : Nat) (x : Sound) (st tic : Word) (l r : Int) :
    (s.recordSound i x st tic l r).opr3 = s.opr3 := rfl
@[simp] theorem State.recordSound_opr4 (s : State) (i : Nat) (x : Sound) (st tic : Word) (l r : Int) :
    (s.recordSound i x st tic l r).opr4 = s.opr4 := rfl
@[simp] theorem State.recordSound_cmdw (s : State) (i : Nat) (x : Sound) (st tic : Word) (l r : Int) :
    (s.recordSound i x st tic l r).cmdw = s.cmdw := rfl
@[simp] theorem State.recordSound_res (s : State) (i : Nat) (x : Sound) (st tic : Word) (l r : Int) :
    (s.recordSound i x st tic l r).res = s.handleCtr.setWidth 32 := rfl
@[simp] theorem State.recordSound_resA (s : State) (i : Nat) (x : Sound) (st tic : Word) (l r : Int) :
    (s.recordSound i x st tic l r).resA = s.resA := rfl
@[simp] theorem State.recordSound_busyR (s : State) (i : Nat) (x : Sound) (st tic : Word) (l r : Int) :
    (s.recordSound i x st tic l r).busyR = s.busyR := rfl
@[simp] theorem State.recordSound_busyA (s : State) (i : Nat) (x : Sound) (st tic : Word) (l r : Int) :
    (s.recordSound i x st tic l r).busyA = s.busyA := rfl
@[simp] theorem State.recordSound_phase (s : State) (i : Nat) (x : Sound) (st tic : Word) (l r : Int) :
    (s.recordSound i x st tic l r).phase = s.phase := rfl
@[simp] theorem State.recordSound_flBlocks (s : State) (i : Nat) (x : Sound) (st tic : Word) (l r : Int) :
    (s.recordSound i x st tic l r).flBlocks = s.flBlocks := rfl
@[simp] theorem State.recordSound_flInblk (s : State) (i : Nat) (x : Sound) (st tic : Word) (l r : Int) :
    (s.recordSound i x st tic l r).flInblk = s.flInblk := rfl
@[simp] theorem State.recordSound_flRem (s : State) (i : Nat) (x : Sound) (st tic : Word) (l r : Int) :
    (s.recordSound i x st tic l r).flRem = s.flRem := rfl
@[simp] theorem State.recordSound_flLeft (s : State) (i : Nat) (x : Sound) (st tic : Word) (l r : Int) :
    (s.recordSound i x st tic l r).flLeft = s.flLeft := rfl
@[simp] theorem State.recordSound_puIdx (s : State) (i : Nat) (x : Sound) (st tic : Word) (l r : Int) :
    (s.recordSound i x st tic l r).puIdx = s.puIdx := rfl
@[simp] theorem State.recordSound_inIdx (s : State) (i : Nat) (x : Sound) (st tic : Word) (l r : Int) :
    (s.recordSound i x st tic l r).inIdx = s.inIdx := rfl
@[simp] theorem State.recordSound_rsCnt (s : State) (i : Nat) (x : Sound) (st tic : Word) (l r : Int) :
    (s.recordSound i x st tic l r).rsCnt = s.rsCnt := rfl
@[simp] theorem State.recordSound_held (s : State) (i : Nat) (x : Sound) (st tic : Word) (l r : Int) :
    (s.recordSound i x st tic l r).held = s.held := rfl
@[simp] theorem State.recordSound_mapped (s : State) (i : Nat) (x : Sound) (st tic : Word) (l r : Int) :
    (s.recordSound i x st tic l r).mapped = s.mapped := rfl
@[simp] theorem State.recordSound_latches (s : State) (i : Nat) (x : Sound) (st tic : Word) (l r : Int) :
    (s.recordSound i x st tic l r).latches = s.latches := rfl
@[simp] theorem State.recordSound_dirs (s : State) (i : Nat) (x : Sound) (st tic : Word) (l r : Int) :
    (s.recordSound i x st tic l r).dirs = s.dirs := rfl
@[simp] theorem State.recordSound_owns (s : State) (i : Nat) (x : Sound) (st tic : Word) (l r : Int) :
    (s.recordSound i x st tic l r).owns = s.owns := rfl
@[simp] theorem State.recordSound_dstate (s : State) (i : Nat) (x : Sound) (st tic : Word) (l r : Int) :
    (s.recordSound i x st tic l r).dstate = s.dstate := rfl
@[simp] theorem State.recordSound_variant (s : State) (i : Nat) (x : Sound) (st tic : Word) (l r : Int) :
    (s.recordSound i x st tic l r).variant = s.variant := rfl
@[simp] theorem State.recordSound_rot (s : State) (i : Nat) (x : Sound) (st tic : Word) (l r : Int) :
    (s.recordSound i x st tic l r).rot = s.rot := rfl
@[simp] theorem State.recordSound_curW (s : State) (i : Nat) (x : Sound) (st tic : Word) (l r : Int) :
    (s.recordSound i x st tic l r).curW = s.curW := rfl
@[simp] theorem State.recordSound_curH (s : State) (i : Nat) (x : Sound) (st tic : Word) (l r : Int) :
    (s.recordSound i x st tic l r).curH = s.curH := rfl
@[simp] theorem State.recordSound_winx (s : State) (i : Nat) (x : Sound) (st tic : Word) (l r : Int) :
    (s.recordSound i x st tic l r).winx = s.winx := rfl
@[simp] theorem State.recordSound_winy (s : State) (i : Nat) (x : Sound) (st tic : Word) (l r : Int) :
    (s.recordSound i x st tic l r).winy = s.winy := rfl
@[simp] theorem State.recordSound_winValid (s : State) (i : Nat) (x : Sound) (st tic : Word) (l r : Int) :
    (s.recordSound i x st tic l r).winValid = s.winValid := rfl
@[simp] theorem State.recordSound_streamOpen (s : State) (i : Nat) (x : Sound) (st tic : Word) (l r : Int) :
    (s.recordSound i x st tic l r).streamOpen = s.streamOpen := rfl
@[simp] theorem State.recordSound_channels (s : State) (i : Nat) (x : Sound) (st tic : Word) (l r : Int) :
    (s.recordSound i x st tic l r).channels = s.channels.set i (newChannel x st tic l r s.handleCtr) := rfl
@[simp] theorem State.recordSound_handleCtr (s : State) (i : Nat) (x : Sound) (st tic : Word) (l r : Int) :
    (s.recordSound i x st tic l r).handleCtr = nextHandle s.handleCtr := rfl
@[simp] theorem State.recordSound_t0 (s : State) (i : Nat) (x : Sound) (st tic : Word) (l r : Int) :
    (s.recordSound i x st tic l r).t0 = s.t0 := rfl
@[simp] theorem State.recordSound_lastIdx (s : State) (i : Nat) (x : Sound) (st tic : Word) (l r : Int) :
    (s.recordSound i x st tic l r).lastIdx = s.lastIdx := rfl
@[simp] theorem State.recordSound_dutyNs (s : State) (i : Nat) (x : Sound) (st tic : Word) (l r : Int) :
    (s.recordSound i x st tic l r).dutyNs = s.dutyNs := rfl
@[simp] theorem State.recordSound_halted (s : State) (i : Nat) (x : Sound) (st tic : Word) (l r : Int) :
    (s.recordSound i x st tic l r).halted = s.halted := rfl
@[simp] theorem State.recordSound_fault (s : State) (i : Nat) (x : Sound) (st tic : Word) (l r : Int) :
    (s.recordSound i x st tic l r).fault = s.fault := rfl
@[simp] theorem State.recordSound_faultInfo (s : State) (i : Nat) (x : Sound) (st tic : Word) (l r : Int) :
    (s.recordSound i x st tic l r).faultInfo = s.faultInfo := rfl
@[simp] theorem State.recordSound_degraded (s : State) (i : Nat) (x : Sound) (st tic : Word) (l r : Int) :
    (s.recordSound i x st tic l r).degraded = s.degraded := rfl
@[simp] theorem State.recordSound_evt (s : State) (i : Nat) (x : Sound) (st tic : Word) (l r : Int) :
    (s.recordSound i x st tic l r).evt = s.evt := rfl
@[simp] theorem State.recordSound_cfg (s : State) (i : Nat) (x : Sound) (st tic : Word) (l r : Int) :
    (s.recordSound i x st tic l r).cfg = s.cfg := rfl
@[simp] theorem State.recordSound_env (s : State) (i : Nat) (x : Sound) (st tic : Word) (l r : Int) :
    (s.recordSound i x st tic l r).env = s.env := rfl
@[simp] theorem State.recordSound_port (s : State) (i : Nat) (x : Sound) (st tic : Word) (l r : Int) :
    (s.recordSound i x st tic l r).port = s.port := rfl
@[simp] theorem State.recordSound_freeCount (s : State) (i : Nat) (x : Sound) (st tic : Word) (l r : Int) :
    (s.recordSound i x st tic l r).freeCount = s.freeCount := rfl

@[simp] theorem mixTick_opr0 (s : State) : (mixTick s).opr0 = s.opr0 := rfl
@[simp] theorem mixTick_opr1 (s : State) : (mixTick s).opr1 = s.opr1 := rfl
@[simp] theorem mixTick_opr2 (s : State) : (mixTick s).opr2 = s.opr2 := rfl
@[simp] theorem mixTick_opr3 (s : State) : (mixTick s).opr3 = s.opr3 := rfl
@[simp] theorem mixTick_opr4 (s : State) : (mixTick s).opr4 = s.opr4 := rfl
@[simp] theorem mixTick_cmdw (s : State) : (mixTick s).cmdw = s.cmdw := rfl
@[simp] theorem mixTick_res (s : State) : (mixTick s).res = s.res := rfl
@[simp] theorem mixTick_resA (s : State) : (mixTick s).resA = BitVec.ofInt 32 (mixSample s) := rfl
@[simp] theorem mixTick_busyR (s : State) : (mixTick s).busyR = s.busyR := rfl
@[simp] theorem mixTick_busyA (s : State) : (mixTick s).busyA = s.busyA := rfl
@[simp] theorem mixTick_phase (s : State) : (mixTick s).phase = s.phase := rfl
@[simp] theorem mixTick_flBlocks (s : State) : (mixTick s).flBlocks = s.flBlocks := rfl
@[simp] theorem mixTick_flInblk (s : State) : (mixTick s).flInblk = s.flInblk := rfl
@[simp] theorem mixTick_flRem (s : State) : (mixTick s).flRem = s.flRem := rfl
@[simp] theorem mixTick_flLeft (s : State) : (mixTick s).flLeft = s.flLeft := rfl
@[simp] theorem mixTick_puIdx (s : State) : (mixTick s).puIdx = s.puIdx := rfl
@[simp] theorem mixTick_inIdx (s : State) : (mixTick s).inIdx = s.inIdx := rfl
@[simp] theorem mixTick_rsCnt (s : State) : (mixTick s).rsCnt = s.rsCnt := rfl
@[simp] theorem mixTick_held (s : State) : (mixTick s).held = s.held := rfl
@[simp] theorem mixTick_mapped (s : State) : (mixTick s).mapped = s.mapped := rfl
@[simp] theorem mixTick_latches (s : State) : (mixTick s).latches = s.latches := rfl
@[simp] theorem mixTick_dirs (s : State) : (mixTick s).dirs = s.dirs := rfl
@[simp] theorem mixTick_owns (s : State) : (mixTick s).owns = s.owns := rfl
@[simp] theorem mixTick_dstate (s : State) : (mixTick s).dstate = s.dstate := rfl
@[simp] theorem mixTick_variant (s : State) : (mixTick s).variant = s.variant := rfl
@[simp] theorem mixTick_rot (s : State) : (mixTick s).rot = s.rot := rfl
@[simp] theorem mixTick_curW (s : State) : (mixTick s).curW = s.curW := rfl
@[simp] theorem mixTick_curH (s : State) : (mixTick s).curH = s.curH := rfl
@[simp] theorem mixTick_winx (s : State) : (mixTick s).winx = s.winx := rfl
@[simp] theorem mixTick_winy (s : State) : (mixTick s).winy = s.winy := rfl
@[simp] theorem mixTick_winValid (s : State) : (mixTick s).winValid = s.winValid := rfl
@[simp] theorem mixTick_streamOpen (s : State) : (mixTick s).streamOpen = s.streamOpen := rfl
@[simp] theorem mixTick_channels (s : State) : (mixTick s).channels = s.channels.map tickChannel := rfl
@[simp] theorem mixTick_handleCtr (s : State) : (mixTick s).handleCtr = s.handleCtr := rfl
@[simp] theorem mixTick_t0 (s : State) : (mixTick s).t0 = s.t0 := rfl
@[simp] theorem mixTick_lastIdx (s : State) : (mixTick s).lastIdx = s.lastIdx := rfl
@[simp] theorem mixTick_dutyNs (s : State) : (mixTick s).dutyNs = s.dutyNs := rfl
@[simp] theorem mixTick_halted (s : State) : (mixTick s).halted = s.halted := rfl
@[simp] theorem mixTick_fault (s : State) : (mixTick s).fault = s.fault := rfl
@[simp] theorem mixTick_faultInfo (s : State) : (mixTick s).faultInfo = s.faultInfo := rfl
@[simp] theorem mixTick_degraded (s : State) : (mixTick s).degraded = s.degraded := rfl
@[simp] theorem mixTick_evt (s : State) : (mixTick s).evt = s.evt := rfl
@[simp] theorem mixTick_cfg (s : State) : (mixTick s).cfg = s.cfg := rfl
@[simp] theorem mixTick_env (s : State) : (mixTick s).env = s.env := rfl
@[simp] theorem mixTick_port (s : State) : (mixTick s).port = s.port := rfl
@[simp] theorem mixTick_freeCount (s : State) : (mixTick s).freeCount = s.freeCount := rfl

/-- The stream bit after the close of a command byte (R161 f). -/
theorem State.closeStream_streamOpen (s : State) :
    s.closeStream.streamOpen = if s.cs = s.cfg.csActive ∧ s.cd = s.cfg.cdCommand then false else s.streamOpen := by
  unfold State.closeStream
  split <;> rfl

/-- Closing the stream writes the stream bit and nothing else. -/
theorem State.closeStream_eq (s : State) : s.closeStream = { s with streamOpen := s.closeStream.streamOpen } := by
  unfold State.closeStream
  split <;> rfl

/-- What the end of a stream at a raw edge writes (R45). -/
theorem State.closeOnEdge_streamOpen (s before : State) :
    (s.closeOnEdge before).streamOpen =
      if before.wr = before.cfg.wrActive ∧ s.wr = s.cfg.wrIdle ∧ s.cs = s.cfg.csActive ∧ s.cd = s.cfg.cdCommand then false
      else s.streamOpen := by
  by_cases h : before.wr = before.cfg.wrActive ∧ s.wr = s.cfg.wrIdle
  · simp [State.closeOnEdge, h, State.closeStream_streamOpen]
  · have h' : ¬(before.wr = before.cfg.wrActive ∧ s.wr = s.cfg.wrIdle ∧ s.cs = s.cfg.csActive ∧ s.cd = s.cfg.cdCommand) :=
      fun h' => h ⟨h'.1, h'.2.1⟩
    simp [State.closeOnEdge, h, h']

/-- The end of a stream at a raw edge writes the stream bit and nothing else. -/
theorem State.closeOnEdge_eq (s before : State) :
    s.closeOnEdge before = { s with streamOpen := (s.closeOnEdge before).streamOpen } := by
  unfold State.closeOnEdge
  split
  · exact s.closeStream_eq
  · rfl

@[simp] theorem State.closeOnEdge_opr0 (s before : State) :
    (s.closeOnEdge before).opr0 = s.opr0 := by unfold State.closeOnEdge; split <;> simp
@[simp] theorem State.closeOnEdge_opr1 (s before : State) :
    (s.closeOnEdge before).opr1 = s.opr1 := by unfold State.closeOnEdge; split <;> simp
@[simp] theorem State.closeOnEdge_opr2 (s before : State) :
    (s.closeOnEdge before).opr2 = s.opr2 := by unfold State.closeOnEdge; split <;> simp
@[simp] theorem State.closeOnEdge_opr3 (s before : State) :
    (s.closeOnEdge before).opr3 = s.opr3 := by unfold State.closeOnEdge; split <;> simp
@[simp] theorem State.closeOnEdge_opr4 (s before : State) :
    (s.closeOnEdge before).opr4 = s.opr4 := by unfold State.closeOnEdge; split <;> simp
@[simp] theorem State.closeOnEdge_cmdw (s before : State) :
    (s.closeOnEdge before).cmdw = s.cmdw := by unfold State.closeOnEdge; split <;> simp
@[simp] theorem State.closeOnEdge_res (s before : State) :
    (s.closeOnEdge before).res = s.res := by unfold State.closeOnEdge; split <;> simp
@[simp] theorem State.closeOnEdge_resA (s before : State) :
    (s.closeOnEdge before).resA = s.resA := by unfold State.closeOnEdge; split <;> simp
@[simp] theorem State.closeOnEdge_busyR (s before : State) :
    (s.closeOnEdge before).busyR = s.busyR := by unfold State.closeOnEdge; split <;> simp
@[simp] theorem State.closeOnEdge_busyA (s before : State) :
    (s.closeOnEdge before).busyA = s.busyA := by unfold State.closeOnEdge; split <;> simp
@[simp] theorem State.closeOnEdge_phase (s before : State) :
    (s.closeOnEdge before).phase = s.phase := by unfold State.closeOnEdge; split <;> simp
@[simp] theorem State.closeOnEdge_flBlocks (s before : State) :
    (s.closeOnEdge before).flBlocks = s.flBlocks := by unfold State.closeOnEdge; split <;> simp
@[simp] theorem State.closeOnEdge_flInblk (s before : State) :
    (s.closeOnEdge before).flInblk = s.flInblk := by unfold State.closeOnEdge; split <;> simp
@[simp] theorem State.closeOnEdge_flRem (s before : State) :
    (s.closeOnEdge before).flRem = s.flRem := by unfold State.closeOnEdge; split <;> simp
@[simp] theorem State.closeOnEdge_flLeft (s before : State) :
    (s.closeOnEdge before).flLeft = s.flLeft := by unfold State.closeOnEdge; split <;> simp
@[simp] theorem State.closeOnEdge_puIdx (s before : State) :
    (s.closeOnEdge before).puIdx = s.puIdx := by unfold State.closeOnEdge; split <;> simp
@[simp] theorem State.closeOnEdge_inIdx (s before : State) :
    (s.closeOnEdge before).inIdx = s.inIdx := by unfold State.closeOnEdge; split <;> simp
@[simp] theorem State.closeOnEdge_rsCnt (s before : State) :
    (s.closeOnEdge before).rsCnt = s.rsCnt := by unfold State.closeOnEdge; split <;> simp
@[simp] theorem State.closeOnEdge_held (s before : State) :
    (s.closeOnEdge before).held = s.held := by unfold State.closeOnEdge; split <;> simp
@[simp] theorem State.closeOnEdge_mapped (s before : State) :
    (s.closeOnEdge before).mapped = s.mapped := by unfold State.closeOnEdge; split <;> simp
@[simp] theorem State.closeOnEdge_latches (s before : State) :
    (s.closeOnEdge before).latches = s.latches := by unfold State.closeOnEdge; split <;> simp
@[simp] theorem State.closeOnEdge_dirs (s before : State) :
    (s.closeOnEdge before).dirs = s.dirs := by unfold State.closeOnEdge; split <;> simp
@[simp] theorem State.closeOnEdge_owns (s before : State) :
    (s.closeOnEdge before).owns = s.owns := by unfold State.closeOnEdge; split <;> simp
@[simp] theorem State.closeOnEdge_dstate (s before : State) :
    (s.closeOnEdge before).dstate = s.dstate := by unfold State.closeOnEdge; split <;> simp
@[simp] theorem State.closeOnEdge_variant (s before : State) :
    (s.closeOnEdge before).variant = s.variant := by unfold State.closeOnEdge; split <;> simp
@[simp] theorem State.closeOnEdge_rot (s before : State) :
    (s.closeOnEdge before).rot = s.rot := by unfold State.closeOnEdge; split <;> simp
@[simp] theorem State.closeOnEdge_curW (s before : State) :
    (s.closeOnEdge before).curW = s.curW := by unfold State.closeOnEdge; split <;> simp
@[simp] theorem State.closeOnEdge_curH (s before : State) :
    (s.closeOnEdge before).curH = s.curH := by unfold State.closeOnEdge; split <;> simp
@[simp] theorem State.closeOnEdge_winx (s before : State) :
    (s.closeOnEdge before).winx = s.winx := by unfold State.closeOnEdge; split <;> simp
@[simp] theorem State.closeOnEdge_winy (s before : State) :
    (s.closeOnEdge before).winy = s.winy := by unfold State.closeOnEdge; split <;> simp
@[simp] theorem State.closeOnEdge_winValid (s before : State) :
    (s.closeOnEdge before).winValid = s.winValid := by unfold State.closeOnEdge; split <;> simp
@[simp] theorem State.closeOnEdge_channels (s before : State) :
    (s.closeOnEdge before).channels = s.channels := by unfold State.closeOnEdge; split <;> simp
@[simp] theorem State.closeOnEdge_handleCtr (s before : State) :
    (s.closeOnEdge before).handleCtr = s.handleCtr := by unfold State.closeOnEdge; split <;> simp
@[simp] theorem State.closeOnEdge_lastIdx (s before : State) :
    (s.closeOnEdge before).lastIdx = s.lastIdx := by unfold State.closeOnEdge; split <;> simp
@[simp] theorem State.closeOnEdge_dutyNs (s before : State) :
    (s.closeOnEdge before).dutyNs = s.dutyNs := by unfold State.closeOnEdge; split <;> simp
@[simp] theorem State.closeOnEdge_halted (s before : State) :
    (s.closeOnEdge before).halted = s.halted := by unfold State.closeOnEdge; split <;> simp
@[simp] theorem State.closeOnEdge_fault (s before : State) :
    (s.closeOnEdge before).fault = s.fault := by unfold State.closeOnEdge; split <;> simp
@[simp] theorem State.closeOnEdge_faultInfo (s before : State) :
    (s.closeOnEdge before).faultInfo = s.faultInfo := by unfold State.closeOnEdge; split <;> simp
@[simp] theorem State.closeOnEdge_degraded (s before : State) :
    (s.closeOnEdge before).degraded = s.degraded := by unfold State.closeOnEdge; split <;> simp
@[simp] theorem State.closeOnEdge_evt (s before : State) :
    (s.closeOnEdge before).evt = s.evt := by unfold State.closeOnEdge; split <;> simp
@[simp] theorem State.closeOnEdge_cfg (s before : State) :
    (s.closeOnEdge before).cfg = s.cfg := by unfold State.closeOnEdge; split <;> simp
@[simp] theorem State.closeOnEdge_env (s before : State) :
    (s.closeOnEdge before).env = s.env := by unfold State.closeOnEdge; split <;> simp
@[simp] theorem State.closeOnEdge_port (s before : State) :
    (s.closeOnEdge before).port = s.port := by unfold State.closeOnEdge; split <;> simp
@[simp] theorem State.closeOnEdge_freeCount (s before : State) :
    (s.closeOnEdge before).freeCount = s.freeCount := by unfold State.closeOnEdge; split <;> simp

/-- A register write moves latches and nothing else (R30). -/
theorem State.writeReg_eq (s : State) (r : GpioReg) (m : Word) :
    s.writeReg r m = { s with latches := (s.writeReg r m).latches } := by cases r <;> rfl

/-- The views of the pins depend on the latches and the configuration alone. -/
theorem State.pin_of_latches {s t : State} (h : t.latches = s.latches) (p : Nat) : t.pin p = s.pin p := by
  simp [State.pin, h]

@[simp] theorem State.emit_pin (s : State) (e : Event) (p : Nat) : (s.emit e).pin p = s.pin p := rfl

@[simp] theorem State.closeStream_pin (s : State) (p : Nat) : s.closeStream.pin p = s.pin p := by simp [State.pin]

@[simp] theorem State.halt_pin (s : State) (k : FaultKind) (x : Word) (p : Nat) : (s.halt k x).pin p = s.pin p := rfl

end Sys2Proof.Machine
end

