-- ==== Sys2Proof/Laws/Ops.lean ====
section
/-! SUPPORT. What the shared operations of the bus can do, once for each: the exact result of the fast path, of the
byte write and of the strobe pulse where they run, and for every operation that drives the bus the moves it is made
of (`Drives`), from which the invariants follow. -/

namespace Sys2Proof.Machine

variable {s t u : State}

/-- The event of a fast write that drives its pins to a level (R51). -/
def fastEvent (l : Level) (m : Word) : Event := if l then .fs m else .fc m

/-- The pin file after a fast write (R30, R144, R145). -/
def fastLatches (c : Config) (f : List (Nat × Word)) (l : Level) (m : Word) : List (Nat × Word) :=
  if l then setGroupBits f (fastGroup c) (m &&& validMask c (fastGroup c))
  else clearGroupBits f (fastGroup c) (m &&& validMask c (fastGroup c))

/-- The state after a fast write that maps first where it has to. -/
def fastState (l : Level) (m : Word) (s : State) : State :=
  { s with
    mapped := true
    latches := fastLatches s.cfg s.latches l m
    evt := s.evt ++ (mapEvents s ++ [fastEvent l m]) }

@[simp] theorem fastState_cfg (l : Level) (m : Word) (s : State) : (fastState l m s).cfg = s.cfg := rfl

@[simp] theorem fastState_mapped (l : Level) (m : Word) (s : State) : (fastState l m s).mapped = true := rfl

@[simp] theorem fastState_latches (l : Level) (m : Word) (s : State) :
    (fastState l m s).latches = fastLatches s.cfg s.latches l m := rfl

@[simp] theorem fastState_evt (l : Level) (m : Word) (s : State) :
    (fastState l m s).evt = s.evt ++ (mapEvents s ++ [fastEvent l m]) := rfl

@[simp] theorem fastState_streamOpen (l : Level) (m : Word) (s : State) :
    (fastState l m s).streamOpen = s.streamOpen := rfl

@[simp] theorem mapEvents_of_mapped (h : s.mapped = true) : mapEvents s = [] := by simp [mapEvents, h]

@[simp] theorem fastState_mapEvents (l : Level) (m : Word) (s : State) : mapEvents (fastState l m s) = [] :=
  mapEvents_of_mapped rfl

theorem strobeEvent_eq (c : Config) (l : Level) : strobeEvent c l = fastEvent l (wrMask c) := rfl

/-- EnsureMapped where the resource is mapped or can be (R146). -/
theorem ensureMapped_ok (h : s.mappable) :
    ensureMapped s = .ok { s with mapped := true, evt := s.evt ++ mapEvents s } := by
  unfold ensureMapped
  by_cases hm : s.mapped = true
  · rw [if_pos hm, mapEvents_of_mapped hm, List.append_nil, ← hm]
  · rw [if_neg hm, if_pos (h.resolve_left hm)]
    simp [mapEvents, hm, State.emit]

/-- EnsureMapped where it fails (R292). -/
theorem ensureMapped_fault (hm : s.mapped = false) (he : s.env.mapOk = false) :
    ensureMapped s = .stop (s.halt .map 0) := by simp [ensureMapped, hm, he, State.raise]

/-- A fast write where it can be made. -/
theorem fastDrive_ok (hc : ConfigOk s.cfg) (h : s.mappable) (l : Level) (m : Word) :
    fastDrive l m s = .ok (fastState l m s) := by
  have hg := fastGroup_exists hc.1
  cases l
  · simp [fastDrive, fastClr, ensureMapped_ok h, gpioWrite, gpioRegAt_clr hc.2.1 hg, State.writeReg, State.emit,
      fastState, fastLatches, fastEvent]
  · simp [fastDrive, fastSet, ensureMapped_ok h, gpioWrite, gpioRegAt_set hg, State.writeReg, State.emit,
      fastState, fastLatches, fastEvent]

/-- A fast write where mapping fails (R292): it halts before the register is written. -/
theorem fastDrive_fault (hm : s.mapped = false) (he : s.env.mapOk = false) (l : Level) (m : Word) :
    fastDrive l m s = .stop (s.halt .map 0) := by
  cases l <;> simp [fastDrive, fastSet, fastClr, ensureMapped_fault hm he]

/-- The strobe made active where it can be (R160). -/
theorem wrActiveOp_ok (hc : ConfigOk s.cfg) (h : s.mappable) :
    wrActiveOp s = .ok (fastState s.cfg.wrActive (wrMask s.cfg) s) := fastDrive_ok hc h _ _

/-- The strobe made idle where it can be (R160). -/
theorem wrIdleOp_ok (hc : ConfigOk s.cfg) (h : s.mappable) :
    wrIdleOp s = .ok (fastState s.cfg.wrIdle (wrMask s.cfg) s) := fastDrive_ok hc h _ _

/-- A pin after a fast write: the level where the mask selects an existing pin of the group, else as before. -/
theorem pinBit_fastLatches (c : Config) (f : List (Nat × Word)) (l : Level) (m : Word) (p : Nat) :
    pinBit (fastLatches c f l m) p =
      if p / 32 = fastGroup c ∧ m.getLsbD (p % 32) = true ∧ validPin c p = true then l else pinBit f p := by
  have hp : p % 32 < 32 := Nat.mod_lt _ (by decide)
  have hv : p / 32 = fastGroup c → (validMask c (fastGroup c)).getLsbD (p % 32) = validPin c p := by
    intro h
    rw [getLsbD_validMask c _ _ hp, ← h, show 32 * (p / 32) + p % 32 = p by omega]
  cases l
  · simp only [fastLatches, Bool.false_eq_true, if_false, pinBit_clearGroupBits]
    by_cases h : p / 32 = fastGroup c
    · rw [BitVec.getLsbD_and, hv h]
      cases m.getLsbD (p % 32) <;> cases validPin c p <;> simp [h]
    · simp [h]
  · simp only [fastLatches, if_true, pinBit_setGroupBits]
    by_cases h : p / 32 = fastGroup c
    · rw [BitVec.getLsbD_and, hv h]
      cases m.getLsbD (p % 32) <;> cases validPin c p <;> simp [h]
    · simp [h]

theorem cellsOk_fastLatches {c : Config} {f : List (Nat × Word)} (l : Level) (m : Word) (h : cellsOk f = true) :
    cellsOk (fastLatches c f l m) = true := by
  cases l
  · exact cellsOk_clearGroupBits _ _ h
  · exact cellsOk_setGroupBits _ _ h

theorem fastState_pin (l : Level) (m : Word) (s : State) (p : Nat) :
    (fastState l m s).pin p =
      if p / 32 = fastGroup s.cfg ∧ m.getLsbD (p % 32) = true ∧ validPin s.cfg p = true then l else s.pin p :=
  pinBit_fastLatches _ _ _ _ _

/-- A strobe write moves the write-strobe and no other pin (R166). -/
theorem fastState_wrMask_pin (h : PinsOk s.cfg) (l : Level) (p : Nat) :
    (fastState l (wrMask s.cfg) s).pin p = if p = s.cfg.pinWR then l else s.pin p := by
  rw [fastState_pin]
  have e : (p / 32 = fastGroup s.cfg ∧ (wrMask s.cfg).getLsbD (p % 32) = true ∧ validPin s.cfg p = true) ↔
      p = s.cfg.pinWR := by
    simp only [wrMask, getLsbD_pinMask, decide_eq_true_eq, fastGroup]
    constructor
    · rintro ⟨h1, h2, -⟩
      omega
    · rintro rfl
      exact ⟨rfl, rfl, pinWR_valid h⟩
  by_cases hp : p = s.cfg.pinWR
  · rw [if_pos (e.mpr hp), if_pos hp]
  · rw [if_neg (fun hh => hp (e.mp hh)), if_neg hp]

/-- A pin that is no data line is in no data mask. -/
theorem dataMask_other (c : Config) (v : Byte) {p : Nat} (hp : ∀ i < 8, p ≠ pinD c i) (h : PinsOk c) :
    ¬ (p / 32 = fastGroup c ∧ (onesMask c v).getLsbD (p % 32) = true) ∧
      ¬ (p / 32 = fastGroup c ∧ (zerosMask c v).getLsbD (p % 32) = true) := by
  by_cases hg : p / 32 = fastGroup c
  · have hne : ∀ i < 8, p % 32 ≠ pinD c i % 32 := by
      intro i hi e
      have := pinD_group h hi
      exact hp i hi (by omega)
    have hm := masks_elsewhere (c := c) v hne
    simp [hm.1, hm.2]
  · simp [hg]

/-- A byte write up to the strobe made active, one fast write after another (R162, R163). -/
def byteActive (v : Byte) (s : State) : State :=
  let c := s.cfg
  match c.strobe with
  | .compliant => fastState c.wrActive (wrMask c) (fastState false (zerosMask c v) (fastState true (onesMask c v) s))
  | .merged =>
    if c.wrActive then fastState true (onesMask c v ||| wrMask c) (fastState false (zerosMask c v) s)
    else fastState false (zerosMask c v ||| wrMask c) (fastState true (onesMask c v) s)

/-- A byte write: then the strobe made idle, and the stream bit last (R161 f). -/
def byteState (v : Byte) (s : State) : State := (fastState s.cfg.wrIdle (wrMask s.cfg) (byteActive v s)).closeStream

theorem byteActive_cases (v : Byte) (s : State) {P : State → Prop}
    (h1 : s.cfg.strobe = .compliant → P (fastState s.cfg.wrActive (wrMask s.cfg)
      (fastState false (zerosMask s.cfg v) (fastState true (onesMask s.cfg v) s))))
    (h2 : s.cfg.strobe = .merged → s.cfg.wrActive = true →
      P (fastState true (onesMask s.cfg v ||| wrMask s.cfg) (fastState false (zerosMask s.cfg v) s)))
    (h3 : s.cfg.strobe = .merged → s.cfg.wrActive = false →
      P (fastState false (zerosMask s.cfg v ||| wrMask s.cfg) (fastState true (onesMask s.cfg v) s))) :
    P (byteActive v s) := by
  unfold byteActive
  cases hs : s.cfg.strobe with
  | compliant => simpa [hs] using h1 hs
  | merged =>
    cases ha : s.cfg.wrActive
    · simpa [hs, ha] using h3 hs ha
    · simpa [hs, ha] using h2 hs ha

@[simp] theorem byteActive_cfg (v : Byte) (s : State) : (byteActive v s).cfg = s.cfg :=
  byteActive_cases v s (P := fun r => r.cfg = s.cfg) (fun _ => rfl) (fun _ _ => rfl) fun _ _ => rfl

@[simp] theorem byteActive_mapped (v : Byte) (s : State) : (byteActive v s).mapped = true :=
  byteActive_cases v s (P := fun r => r.mapped = true) (fun _ => rfl) (fun _ _ => rfl) fun _ _ => rfl

/-- `Write8(v)` where it runs: a legal configuration, the resource mapped or mappable, the strobe idle. -/
theorem write8_ok (hc : ConfigOk s.cfg) (h : s.mappable) (hw : s.wr = s.cfg.wrIdle) (v : Byte) :
    write8 v s = .ok (byteState v s) := by
  have hm : ∀ (l : Level) (m : Word) (r : State), (fastState l m r).mappable := fun l m r => .inl rfl
  have hfs : ∀ m (r : State), fastSet m r = fastDrive true m r := fun _ _ => rfl
  have hfc : ∀ m (r : State), fastClr m r = fastDrive false m r := fun _ _ => rfl
  unfold write8
  rw [if_neg (not_not.mpr hw)]
  cases hs : s.cfg.strobe with
  | compliant =>
    simp only [writeCompliant, hfs, hfc]
    rw [fastDrive_ok hc h, Result.ok_bind, fastDrive_ok (by exact hc) (hm _ _ _), Result.ok_bind,
      wrActiveOp_ok (by exact hc) (hm _ _ _), Result.ok_bind, wrIdleOp_ok (by exact hc) (hm _ _ _), Result.ok_bind]
    simp [byteState, byteActive, hs]
  | merged =>
    simp only [writeMerged, hfs, hfc]
    cases ha : s.cfg.wrActive
    · simp only [Bool.false_eq_true, if_false]
      rw [fastDrive_ok hc h, Result.ok_bind, fastDrive_ok (by exact hc) (hm _ _ _), Result.ok_bind,
        wrIdleOp_ok (by exact hc) (hm _ _ _), Result.ok_bind]
      simp [byteState, byteActive, hs, ha]
    · simp only [if_true]
      rw [fastDrive_ok hc h, Result.ok_bind, fastDrive_ok (by exact hc) (hm _ _ _), Result.ok_bind,
        wrIdleOp_ok (by exact hc) (hm _ _ _), Result.ok_bind]
      simp [byteState, byteActive, hs, ha]

/-- `Write8(v)` entered with the strobe not idle is refused (R161). -/
theorem write8_refused (hw : s.wr ≠ s.cfg.wrIdle) (v : Byte) : write8 v s = .refuse .strobeNotIdle := by
  unfold write8
  rw [if_pos hw]

/-- `Write8(v)` where mapping fails halts at its first fast write (R183, R292). -/
theorem write8_fault (hw : s.wr = s.cfg.wrIdle) (hm : s.mapped = false) (he : s.env.mapOk = false) (v : Byte) :
    write8 v s = .stop (s.halt .map 0) := by
  have hfs : ∀ m (r : State), fastSet m r = fastDrive true m r := fun _ _ => rfl
  have hfc : ∀ m (r : State), fastClr m r = fastDrive false m r := fun _ _ => rfl
  unfold write8
  rw [if_neg (not_not.mpr hw)]
  cases hs : s.cfg.strobe
  · simp [writeCompliant, hfs, fastDrive_fault hm he]
  · cases ha : s.cfg.wrActive <;> simp [writeMerged, ha, hfs, hfc, fastDrive_fault hm he]

/-- What a byte write leaves (R161): everything but the resource bit, the latches, the stream bit and its events. -/
theorem byteState_frame (v : Byte) (s : State) :
    byteState v s =
      { s with
        mapped := true
        latches := (byteState v s).latches
        streamOpen := (byteState v s).streamOpen
        evt := s.evt ++ (mapEvents s ++ byteEvents s.cfg v) } := by
  unfold byteState byteActive
  rw [State.closeStream_eq]
  cases hs : s.cfg.strobe with
  | compliant => simp [fastState, hs, byteEvents, strobeEvent_eq, mapEvents, fastEvent, List.append_assoc]
  | merged =>
    cases ha : s.cfg.wrActive <;>
      simp [fastState, hs, ha, byteEvents, strobeEvent_eq, mapEvents, fastEvent, List.append_assoc]

@[simp] theorem byteState_cfg (v : Byte) (s : State) : (byteState v s).cfg = s.cfg := by rw [byteState_frame]

@[simp] theorem byteState_mapped (v : Byte) (s : State) : (byteState v s).mapped = true := by rw [byteState_frame]

theorem byteState_evt (v : Byte) (s : State) :
    (byteState v s).evt = s.evt ++ (mapEvents s ++ byteEvents s.cfg v) := by rw [byteState_frame]

/-- The pins when a byte write has made the strobe active: the data lines spell the byte, the strobe is active, no other
pin has moved. -/
theorem byteActive_pin (hc : ConfigOk s.cfg) (v : Byte) :
    (∀ i < 8, (byteActive v s).pin (pinD s.cfg i) = v.getLsbD i) ∧
      (byteActive v s).pin s.cfg.pinWR = s.cfg.wrActive ∧
      ∀ p, (∀ i < 8, p ≠ pinD s.cfg i) → p ≠ s.cfg.pinWR → (byteActive v s).pin p = s.pin p := by
  have hp := hc.1
  have hactive : ∀ (r : State) (p : Nat), r.cfg = s.cfg →
      (fastState s.cfg.wrActive (wrMask s.cfg) r).pin p = if p = s.cfg.pinWR then s.cfg.wrActive else r.pin p := by
    intro r p hr
    have := fastState_wrMask_pin (s := r) (by rw [hr]; exact hp) s.cfg.wrActive p
    rwa [hr] at this
  have hwr : ∀ i < 8, (wrMask s.cfg).getLsbD (pinD s.cfg i % 32) = false := by
    intro i hi
    simp [wrMask, getLsbD_pinMask, pinD_bit_ne_wr hp hi]
  have hww : (wrMask s.cfg).getLsbD (s.cfg.pinWR % 32) = true := by simp [wrMask, getLsbD_pinMask]
  refine ⟨fun i hi => ?_, ?_, fun p hpd hpw => ?_⟩
  · have hg := pinD_group hp hi
    have hv := pinD_valid hp hi
    have hne := (pinD_ne_control hp hi).1
    have h1 := onesMask_line hp v hi
    have h0 := zerosMask_line hp v hi
    have hx := hwr i hi
    refine byteActive_cases v s (P := fun r => r.pin (pinD s.cfg i) = v.getLsbD i) (fun _ => ?_) (fun _ _ => ?_)
      fun _ _ => ?_
    · rw [hactive _ _ (by rfl), if_neg hne, fastState_pin, fastState_pin]
      simp only [fastState_cfg, hg, hv, h1, h0, true_and, and_true]
      cases v.getLsbD i <;> simp
    · rw [fastState_pin, fastState_pin]
      simp only [fastState_cfg, hg, hv, h1, h0, hx, BitVec.getLsbD_or, Bool.or_false, true_and, and_true]
      cases v.getLsbD i <;> simp
    · rw [fastState_pin, fastState_pin]
      simp only [fastState_cfg, hg, hv, h1, h0, hx, BitVec.getLsbD_or, Bool.or_false, true_and, and_true]
      cases v.getLsbD i <;> simp
  · refine byteActive_cases v s (P := fun r => r.pin s.cfg.pinWR = s.cfg.wrActive) (fun _ => ?_) (fun _ ha => ?_)
      fun _ ha => ?_
    · rw [hactive _ _ (by rfl), if_pos rfl]
    · rw [fastState_pin, if_pos, ha]
      exact ⟨rfl, by simp [hww], pinWR_valid hp⟩
    · rw [fastState_pin, if_pos, ha]
      exact ⟨rfl, by simp [hww], pinWR_valid hp⟩
  · obtain ⟨h1, h0⟩ := dataMask_other s.cfg v hpd hp
    have hw' : ¬ (p / 32 = fastGroup s.cfg ∧ (wrMask s.cfg).getLsbD (p % 32) = true) := by
      simp only [wrMask, getLsbD_pinMask, decide_eq_true_eq, fastGroup]
      omega
    refine byteActive_cases v s (P := fun r => r.pin p = s.pin p) (fun _ => ?_) (fun _ _ => ?_) fun _ _ => ?_
    · rw [hactive _ _ (by rfl), if_neg hpw, fastState_pin, fastState_pin, if_neg (fun hh => h0 ⟨hh.1, hh.2.1⟩),
        if_neg (fun hh => h1 ⟨hh.1, hh.2.1⟩)]
    · rw [fastState_pin, fastState_pin, if_neg, if_neg (fun hh => h0 ⟨hh.1, hh.2.1⟩)]
      rintro ⟨hg, hm, -⟩
      simp only [BitVec.getLsbD_or, Bool.or_eq_true] at hm
      exact hm.elim (fun hm => h1 ⟨hg, hm⟩) fun hm => hw' ⟨hg, hm⟩
    · rw [fastState_pin, fastState_pin, if_neg, if_neg (fun hh => h1 ⟨hh.1, hh.2.1⟩)]
      rintro ⟨hg, hm, -⟩
      simp only [BitVec.getLsbD_or, Bool.or_eq_true] at hm
      exact hm.elim (fun hm => h0 ⟨hg, hm⟩) fun hm => hw' ⟨hg, hm⟩

/-- The pins after a byte write entered with the strobe idle (R161 a, d): the data lines spell the byte, no other pin
has moved. -/
theorem byteState_pin (hc : ConfigOk s.cfg) (hw : s.wr = s.cfg.wrIdle) (v : Byte) :
    (∀ i < 8, (byteState v s).pin (pinD s.cfg i) = v.getLsbD i) ∧
      ∀ p, (∀ i < 8, p ≠ pinD s.cfg i) → (byteState v s).pin p = s.pin p := by
  obtain ⟨h1, -, h3⟩ := byteActive_pin hc v
  have hidle : ∀ p, (byteState v s).pin p = if p = s.cfg.pinWR then s.cfg.wrIdle else (byteActive v s).pin p := by
    intro p
    have := fastState_wrMask_pin (s := byteActive v s) (by rw [byteActive_cfg]; exact hc.1) s.cfg.wrIdle p
    rw [byteActive_cfg] at this
    rw [byteState, State.closeStream_pin, this]
  constructor
  · intro i hi
    rw [hidle, if_neg (pinD_ne_control hc.1 hi).1, h1 i hi]
  · intro p hp
    rw [hidle]
    by_cases hpw : p = s.cfg.pinWR
    · rw [if_pos hpw, hpw]
      exact hw.symm
    · rw [if_neg hpw, h3 p hp hpw]

/-- The stream bit after a byte write (R161 f). -/
theorem byteState_streamOpen (hc : ConfigOk s.cfg) (hw : s.wr = s.cfg.wrIdle) (v : Byte) :
    (byteState v s).streamOpen = if s.cs = s.cfg.csActive ∧ s.cd = s.cfg.cdCommand then false else s.streamOpen := by
  have hpin := (byteState_pin hc hw v).2
  have hcs : (byteState v s).pin s.cfg.pinCS = s.cs := hpin _ fun i hi => (pinD_ne_control hc.1 hi).2.1.symm
  have hcd : (byteState v s).pin s.cfg.pinCD = s.cd := hpin _ fun i hi => (pinD_ne_control hc.1 hi).2.2.1.symm
  have key : ∀ r : State, r.cfg = s.cfg → r.streamOpen = s.streamOpen → r.closeStream.pin s.cfg.pinCS = s.cs →
      r.closeStream.pin s.cfg.pinCD = s.cd → r.closeStream.streamOpen =
        if s.cs = s.cfg.csActive ∧ s.cd = s.cfg.cdCommand then false else s.streamOpen := by
    intro r h1 h2 h3 h4
    rw [State.closeStream_pin] at h3 h4
    have h5 : r.cs = s.cs := by rw [← h3, State.cs, h1]
    have h6 : r.cd = s.cd := by rw [← h4, State.cd, h1]
    rw [State.closeStream_streamOpen, h1, h2, h5, h6]
  unfold byteState at hcs hcd ⊢
  refine key _ (by simp) ?_ hcs hcd
  exact byteActive_cases v s (P := fun r => r.streamOpen = s.streamOpen) (fun _ => rfl) (fun _ _ => rfl) fun _ _ => rfl

theorem cellsOk_fastState (l : Level) (m : Word) (h : cellsOk s.latches = true) :
    cellsOk (fastState l m s).latches = true := cellsOk_fastLatches l m h

theorem cellsOk_byteState (v : Byte) (h : cellsOk s.latches = true) : cellsOk (byteState v s).latches = true := by
  unfold byteState
  rw [State.closeStream_latches]
  refine cellsOk_fastState _ _ ?_
  exact byteActive_cases v s (P := fun r => cellsOk r.latches = true)
    (fun _ => cellsOk_fastState _ _ (cellsOk_fastState _ _ (cellsOk_fastState _ _ h)))
    (fun _ _ => cellsOk_fastState _ _ (cellsOk_fastState _ _ h))
    fun _ _ => cellsOk_fastState _ _ (cellsOk_fastState _ _ h)

/-- The state after a strobe pulse (R166). -/
def pulseState (s : State) : State :=
  fastState s.cfg.wrIdle (wrMask s.cfg) (fastState s.cfg.wrActive (wrMask s.cfg) s)

/-- `StrobePulse()` where it runs (R166). -/
theorem strobePulse_ok (hc : ConfigOk s.cfg) (h : s.mappable) (hw : s.wr = s.cfg.wrIdle) :
    strobePulse s = .ok (pulseState s) := by
  unfold strobePulse wrActiveOp wrIdleOp
  rw [if_neg (not_not.mpr hw), fastDrive_ok hc h, Result.ok_bind, fastDrive_ok (by exact hc) (.inl rfl)]
  rfl

theorem pulseState_frame (s : State) :
    pulseState s =
      { s with
        mapped := true
        latches := (pulseState s).latches
        evt := s.evt ++ (mapEvents s ++ pulseEvents s.cfg) } := by
  simp [pulseState, fastState, pulseEvents, strobeEvent_eq, mapEvents, List.append_assoc]

/-- A pulse entered with the strobe idle leaves every pin as it was (R166). -/
theorem pulseState_pin (hc : ConfigOk s.cfg) (hw : s.wr = s.cfg.wrIdle) (p : Nat) : (pulseState s).pin p = s.pin p := by
  unfold pulseState
  have h := fastState_wrMask_pin (s := fastState s.cfg.wrActive (wrMask s.cfg) s) (by exact hc.1) s.cfg.wrIdle p
  rw [fastState_cfg] at h
  rw [h, fastState_wrMask_pin hc.1]
  by_cases hp : p = s.cfg.pinWR
  · rw [if_pos hp, hp]
    exact hw.symm
  · rw [if_neg hp, if_neg hp]

theorem State.pin_level (s : State) (p : Nat) (l : Level) (q : Nat) :
    (s.level p l).pin q = if q = p then l else s.pin q := pinBit_writePinBit _ _ _ _

theorem mem_dataLine (c : Config) {i : Nat} (hi : i < 8) : pinD c i ∈ twelvePins c :=
  (mem_twelvePins c _).mpr (.inl ⟨i, hi, rfl⟩)

/-- The primitive moves of the operations that drive the bus. -/
inductive BusMove : State → State → Prop
  | map (s : State) (h : s.mapped = false) : BusMove s (State.emit { s with mapped := true } .map)
  | fast (s : State) (l : Level) (m : Word) (h : s.mapped = true) : BusMove s (fastState l m s)
  | slow (s : State) (p : Nat) (l : Level) : BusMove s (s.level p l)
  | stream (s : State) (b : Bool) : BusMove s { s with streamOpen := b }

/-- Any number of moves. -/
abbrev BusMoves : State → State → Prop := Relation.ReflTransGen BusMove

/-- What a result may be of an operation that only drives the bus, from a state: moves, then perhaps the mapping fault
(R183). -/
def Drives (s : State) (x : Result) : Prop :=
  match x with
  | .ok t => BusMoves s t
  | .stop t => ∃ u, BusMoves s u ∧ u.mapped = false ∧ u.env.mapOk = false ∧ t = u.halt .map 0
  | .refuse _ => True

theorem Drives.pure (s : State) : Drives s (.ok s) := Relation.ReflTransGen.refl

theorem Drives.of_moves (h : BusMoves s t) : Drives s (.ok t) := h

theorem Drives.move (h : BusMove s t) : Drives s (.ok t) := Relation.ReflTransGen.single h

theorem Drives.refused (s : State) (r : Refusal) : Drives s (.refuse r) := trivial

/-- Moves first, then a result of moves. -/
theorem Drives.after {x : Result} (h : BusMoves s t) (hx : Drives t x) : Drives s x := by
  cases x with
  | ok v => exact h.trans hx
  | stop v =>
    obtain ⟨u, hu, hm, he, rfl⟩ := hx
    exact ⟨u, h.trans hu, hm, he, rfl⟩
  | refuse r => trivial

/-- A sequence of operations that drive the bus drives the bus. -/
theorem Drives.bind {x : Result} {f : State → Result} (hx : Drives s x) (hf : ∀ t, BusMoves s t → Drives t (f t)) :
    Drives s (x.bind f) := by
  cases x with
  | ok t => exact Drives.after hx (hf t hx)
  | stop t => exact hx
  | refuse r => trivial

/-- Moves leave all but four fields: put back, those give the state before. -/
theorem BusMoves.restore (h : BusMoves s t) :
    { t with mapped := s.mapped, latches := s.latches, streamOpen := s.streamOpen, evt := s.evt } = s := by
  induction h with
  | refl => rfl
  | tail _ hm ih => cases hm <;> exact ih

/-- Moves leave all but four fields. -/
theorem BusMoves.frame (h : BusMoves s t) :
    t = { s with mapped := t.mapped, latches := t.latches, streamOpen := t.streamOpen, evt := t.evt } := by
  conv_rhs => rw [← h.restore]

/-- Moves only append to the trace. -/
theorem BusMoves.evt (h : BusMoves s t) : ∃ ev, t.evt = s.evt ++ ev := by
  induction h with
  | refl => exact ⟨[], by simp⟩
  | tail _ hm ih =>
    obtain ⟨ev, h2⟩ := ih
    cases hm with
    | map h => exact ⟨ev ++ [.map], by simp [h2]⟩
    | fast l m h => exact ⟨ev ++ [fastEvent l m], by simp [h2, h]⟩
    | slow p l => exact ⟨ev ++ [.lv p l], by simp [h2]⟩
    | stream b => exact ⟨ev, h2⟩

/-- Moves never unmap (R146). -/
theorem BusMoves.mapped (h : BusMoves s t) (hs : s.mapped = true) : t.mapped = true := by
  induction h with
  | refl => exact hs
  | tail _ hm ih => cases hm <;> first | rfl | exact ih

theorem BusMoves.cfg (h : BusMoves s t) : t.cfg = s.cfg := by rw [h.frame]

/-- Moves keep the pin file's canonical form. -/
theorem BusMoves.cellsOk (h : BusMoves s t) (hs : cellsOk s.latches = true) : cellsOk t.latches = true := by
  induction h with
  | refl => exact hs
  | tail _ hm ih =>
    cases hm with
    | map h => exact ih
    | fast l m h => exact cellsOk_fastLatches l m ih
    | slow p l => exact cellsOk_writePinBit p l ih
    | stream b => exact ih

theorem level_drives (s : State) (p : Nat) (l : Level) : BusMoves s (s.level p l) := .single (.slow s p l)

theorem closeStream_drives (s : State) : BusMoves s s.closeStream := by
  rw [State.closeStream_eq]
  exact .single (.stream s _)

theorem closeOnEdge_drives (s before : State) : BusMoves s (s.closeOnEdge before) := by
  rw [State.closeOnEdge_eq]
  exact .single (.stream s _)

/-- A fast write drives the bus: it maps, halts or writes. -/
theorem fastDrive_drives (hc : ConfigOk s.cfg) (l : Level) (m : Word) : Drives s (fastDrive l m s) := by
  cases hm : s.mapped with
  | true =>
    rw [fastDrive_ok hc (.inl hm)]
    exact Drives.move (.fast s l m hm)
  | false =>
    cases he : s.env.mapOk with
    | true =>
      have e : fastState l m s = fastState l m (State.emit { s with mapped := true } .map) := by
        simp [fastState, State.emit, mapEvents, hm]
      rw [fastDrive_ok hc (.inr he), e]
      exact (Relation.ReflTransGen.single (BusMove.map s hm)).tail (.fast _ l m rfl)
    | false =>
      rw [fastDrive_fault hm he]
      exact ⟨s, .refl, hm, he, rfl⟩

/-- A raw fast write, exactly (R144, R145, R45). -/
theorem rawDrive_ok (hc : ConfigOk s.cfg) (hm : s.mappable) (l : Level) (m : Word) :
    rawDrive l m s = .ok ((fastState l m s).closeOnEdge s) := by
  rw [rawDrive, fastDrive_ok hc hm, Result.ok_bind]

theorem rawDrive_fault (h : s.mapped = false) (he : s.env.mapOk = false) (l : Level) (m : Word) :
    rawDrive l m s = .stop (s.halt .map 0) := by
  rw [rawDrive, fastDrive_fault h he]
  rfl

theorem rawDrive_drives (hc : ConfigOk s.cfg) (l : Level) (m : Word) : Drives s (rawDrive l m s) :=
  (fastDrive_drives hc l m).bind fun t _ => Drives.of_moves (closeOnEdge_drives t s)

theorem fastSet_drives (hc : ConfigOk s.cfg) (m : Word) : Drives s (fastSet m s) := fastDrive_drives hc true m

theorem fastClr_drives (hc : ConfigOk s.cfg) (m : Word) : Drives s (fastClr m s) := fastDrive_drives hc false m

theorem wrActiveOp_drives (hc : ConfigOk s.cfg) : Drives s (wrActiveOp s) := fastDrive_drives hc _ _

theorem wrIdleOp_drives (hc : ConfigOk s.cfg) : Drives s (wrIdleOp s) := fastDrive_drives hc _ _

theorem ConfigOk.moved (hc : ConfigOk s.cfg) (h : BusMoves s t) : ConfigOk t.cfg := by rw [h.cfg]; exact hc

theorem write8_drives (hc : ConfigOk s.cfg) (v : Byte) : Drives s (write8 v s) := by
  unfold write8
  split
  · trivial
  · refine Drives.bind ?_ fun t _ => Drives.of_moves (closeStream_drives t)
    cases s.cfg.strobe
    · exact (fastSet_drives hc _).bind fun t ht => (fastClr_drives (hc.moved ht) _).bind fun u hu =>
        (wrActiveOp_drives ((hc.moved ht).moved hu)).bind fun w hw => wrIdleOp_drives (((hc.moved ht).moved hu).moved hw)
    · simp only [writeMerged]
      split
      · exact (fastClr_drives hc _).bind fun t ht => (fastSet_drives (hc.moved ht) _).bind fun u hu =>
          wrIdleOp_drives ((hc.moved ht).moved hu)
      · exact (fastSet_drives hc _).bind fun t ht => (fastClr_drives (hc.moved ht) _).bind fun u hu =>
          wrIdleOp_drives ((hc.moved ht).moved hu)

theorem write16_drives (hc : ConfigOk s.cfg) (v : Half) : Drives s (write16 v s) :=
  (write8_drives hc _).bind fun _ ht => write8_drives (hc.moved ht) _

theorem writeBytes_drives (l : List Byte) (hc : ConfigOk s.cfg) : Drives s (writeBytes l s) := by
  induction l generalizing s with
  | nil => exact Drives.pure s
  | cons b rest ih => exact (write8_drives hc b).bind fun _ ht => ih (hc.moved ht)

theorem strobePulse_drives (hc : ConfigOk s.cfg) : Drives s (strobePulse s) := by
  unfold strobePulse
  split
  · trivial
  · exact (wrActiveOp_drives hc).bind fun _ ht => wrIdleOp_drives (hc.moved ht)

theorem strobePixel_drives (hc : ConfigOk s.cfg) : Drives s (strobePixel s) :=
  (strobePulse_drives hc).bind fun _ ht => strobePulse_drives (hc.moved ht)

/-- A repeated operation that drives the bus drives the bus. -/
theorem repeatOp_drives {f : State → Result} (hf : ∀ r : State, ConfigOk r.cfg → Drives r (f r)) (n : Nat)
    (hc : ConfigOk s.cfg) : Drives s (repeatOp n f s) := by
  induction n generalizing s with
  | zero => exact Drives.pure s
  | succ n ih => exact (hf s hc).bind fun _ ht => ih (hc.moved ht)

theorem regWrite_drives (hc : ConfigOk s.cfg) (op : Byte) (l : List Byte) : Drives s (regWrite op l s) := by
  unfold regWrite
  have h0 : BusMoves s ((s.level s.cfg.pinCS s.cfg.csActive).level s.cfg.pinCD s.cfg.cdCommand) :=
    (level_drives s _ _).trans (level_drives _ _ _)
  refine Drives.after h0 ?_
  refine (write8_drives (hc.moved h0) op).bind fun t ht => ?_
  have hct := (hc.moved h0).moved ht
  have h1 := level_drives t t.cfg.pinCD t.cfg.cdData
  refine Drives.after h1 ?_
  exact (writeBytes_drives l (hct.moved h1)).bind fun u _ => Drives.of_moves (level_drives u _ _)

theorem openStream_drives (hc : ConfigOk s.cfg) : Drives s (openStream s) := by
  unfold openStream
  have h0 : BusMoves s ((s.level s.cfg.pinCS s.cfg.csActive).level s.cfg.pinCD s.cfg.cdCommand) :=
    (level_drives s _ _).trans (level_drives _ _ _)
  exact Drives.after h0 ((write8_drives (hc.moved h0) _).bind fun t _ => Drives.move (.stream t true))

theorem floodFast_drives (n : Nat) (hc : ConfigOk s.cfg) : Drives s (floodFast n s) := by
  rw [floodFast_eq_repeat]
  exact repeatOp_drives (fun _ h => strobePixel_drives h) n hc

theorem floodRest_drives (color : Half) (n : Nat) (hc : ConfigOk s.cfg) : Drives s (floodRest color n s) := by
  unfold floodRest
  split
  · exact floodFast_drives n hc
  · exact repeatOp_drives (fun _ h => write16_drives h color) n hc

theorem flood_drives (color : Half) (len : Nat) (hc : ConfigOk s.cfg) : Drives s (flood color len s) := by
  unfold flood
  refine (openStream_drives hc).bind fun t ht => ?_
  have h1 := level_drives t t.cfg.pinCD t.cfg.cdData
  have hct := (hc.moved ht).moved h1
  refine Drives.after h1 ((write16_drives hct color).bind fun u hu => ?_)
  exact (floodRest_drives color (len - 1) (hct.moved hu)).bind fun w _ => Drives.of_moves (level_drives w _ _)

theorem pushPixels_drives (a n : Nat) (hc : ConfigOk s.cfg) : Drives s (pushPixels a n s) := by
  induction n generalizing s a with
  | zero => exact Drives.pure s
  | succ n ih => exact (write16_drives hc _).bind fun _ ht => ih (a + 1) (hc.moved ht)

theorem runInitStep_drives (hc : ConfigOk s.cfg) (x : InitStep) :
    (∃ op l, runInitStep x s = regWrite op l s ∧ Drives s (regWrite op l s)) ∨
      ∃ d, x = .delay d ∧ runInitStep x s = .ok (s.emit (.dl (delayMs d))) := by
  cases x with
  | cmd op => exact .inl ⟨op, [], rfl, regWrite_drives hc _ _⟩
  | reg op n v => exact .inl ⟨op, stepBytes n v, rfl, regWrite_drives hc _ _⟩
  | delay d => exact .inr ⟨d, rfl, rfl⟩

end Sys2Proof.Machine
end

