-- ==== Sys2Proof/Laws/Bus.lean ====
section
/-! SUPPORT. The bus trace (R52): what each event does to the replay of a trace, and what each procedure of the
protocol engine transfers, from a state whose replay knows the twelve lines (`State.busSynced`). -/

namespace Sys2Proof.Machine

variable {s t : State} {c : Config}

theorem BusView.pin_eq (v w : BusView) (p : Nat) (hk : pinBit w.known p = pinBit v.known p)
    (hl : pinBit v.known p = true → pinBit w.level p = pinBit v.level p) : w.pin p = v.pin p := by
  unfold BusView.pin
  cases h : pinBit v.known p
  · simp [hk, h]
  · simp [hk, h, hl h]

/-- What a slow write does to the replay. -/
theorem drive_lv_pin (c : Config) (v : BusView) (p : Nat) (l : Level) (q : Nat) :
    (v.drive c (.lv p l)).pin q = if q = p then some l else v.pin q := by
  simp only [BusView.pin, BusView.drive, pinBit_writePinBit]
  by_cases h : q = p <;> simp [h]

/-- What a fast write does to the replay. -/
theorem drive_fast_pin (c : Config) (v : BusView) (l : Level) (m : Word) (q : Nat) :
    (v.drive c (fastEvent l m)).pin q =
      if q / 32 = fastGroup c ∧ m.getLsbD (q % 32) = true ∧ validPin c q = true then some l else v.pin q := by
  have hlev : pinBit (v.drive c (fastEvent l m)).level q =
      if q / 32 = fastGroup c ∧ m.getLsbD (q % 32) = true ∧ validPin c q = true then l else pinBit v.level q := by
    rw [← pinBit_fastLatches]
    cases l <;> rfl
  have hkn : pinBit (v.drive c (fastEvent l m)).known q =
      if q / 32 = fastGroup c ∧ m.getLsbD (q % 32) = true ∧ validPin c q = true then true else pinBit v.known q := by
    rw [← pinBit_fastLatches]
    cases l <;> rfl
  unfold BusView.pin
  rw [hlev, hkn]
  split <;> simp

@[simp] theorem drive_transfers (c : Config) (v : BusView) (e : Event) : (v.drive c e).transfers = v.transfers := by
  cases e <;> rfl

@[simp] theorem drive_lost (c : Config) (v : BusView) (e : Event) : (v.drive c e).lost = v.lost := by cases e <;> rfl

/-- An event that makes no latching edge only drives. -/
theorem busStep_quiet (c : Config) (v : BusView) (e : Event)
    (h : ¬(v.pin c.pinWR = some c.wrActive ∧ (v.drive c e).pin c.pinWR = some c.wrIdle)) :
    busStep c v e = v.drive c e := by
  simp only [busStep, if_neg h]
  split <;> rfl

/-- A latching edge is a transfer or nothing, by chip-select, where the replay knows the lines and no data line
moves. -/
theorem busStep_edge (c : Config) (v : BusView) (e : Event) (hl : v.lost = false)
    (h : v.pin c.pinWR = some c.wrActive ∧ (v.drive c e).pin c.pinWR = some c.wrIdle) {cs cd : Level} {d : Byte}
    (hcs : (v.drive c e).pin c.pinCS = some cs) (hcd : (v.drive c e).pin c.pinCD = some cd)
    (hd : ∀ i < 8, v.pin (pinD c i) = some (d.getLsbD i) ∧ (v.drive c e).pin (pinD c i) = some (d.getLsbD i)) :
    busStep c v e =
      { v.drive c e with
        transfers := v.transfers ++
          if cs = c.csActive then [⟨if cd = c.cdCommand then .command else .data, d⟩] else [] } := by
  have some_level : ∀ {w : BusView} {p : Nat} {l : Level}, w.pin p = some l →
      pinBit w.known p = true ∧ pinBit w.level p = l := by
    intro w p l hw
    unfold BusView.pin at hw
    cases hk : pinBit w.known p <;> simp_all
  simp only [busStep, hl, Bool.false_eq_true, if_false, if_pos h, BusView.edge, hcs]
  by_cases hact : cs = c.csActive
  · have hknown : (v.drive c e).dataKnown c = true := by
      simp only [BusView.dataKnown, dataLines, List.all_map, List.all_eq_true, List.mem_range, Function.comp]
      exact fun i hi => (some_level (hd i hi).2).1
    have hmoved : dataMoved c v (v.drive c e) = false := by
      simp only [dataMoved, dataLines, List.any_map, List.any_eq_false, List.mem_range, Function.comp]
      intro i hi
      simp [(hd i hi).1, (hd i hi).2]
    have hx : (v.drive c e).transfer c = ⟨if cd = c.cdCommand then .command else .data, d⟩ := by
      simp only [BusView.transfer, (some_level hcd).2]
      rw [dataByte_eq fun i hi => (some_level (hd i hi).2).2]
    simp [hact, hcd, hknown, hmoved, hx]
  · simp only [if_neg hact, List.append_nil]
    rw [← drive_transfers c v e]

theorem busReplay_append (c : Config) (l l' : List Event) :
    busReplay c (l ++ l') = l'.foldl (busStep c) (busReplay c l) := by simp [busReplay, List.foldl_append]

/-- The replay after one more event. -/
theorem busView_snoc {e : Event} (hc : t.cfg = s.cfg) (he : t.evt = s.evt ++ [e]) :
    t.busView = busStep s.cfg s.busView e := by
  simp [State.busView, hc, he, busReplay_append]

/-- The replay depends on the configuration and the trace alone. -/
theorem busView_congr (hc : t.cfg = s.cfg) (he : t.evt = s.evt) : t.busView = s.busView := by
  simp [State.busView, hc, he]

theorem Transferred.refl (h : s.busSynced) : Transferred s s [] := ⟨h, by simp⟩

theorem Transferred.trans {u : State} {l l' : List Transfer} (h : Transferred s t l) (h' : Transferred t u l') :
    Transferred s u (l ++ l') := ⟨h'.1, by rw [h'.2, h.2, List.append_assoc]⟩

/-- States with the same pins, trace and configuration have the same replay. -/
theorem Transferred.congr {u : State} {l : List Transfer} (h : Transferred s t l) (hc : u.cfg = t.cfg)
    (he : u.evt = t.evt) (hp : ∀ p, u.pin p = t.pin p) : Transferred s u l := by
  have hv := busView_congr hc he
  obtain ⟨⟨h1, h2⟩, h3⟩ := h
  refine ⟨⟨?_, fun p hpn => ?_⟩, ?_⟩
  · rwa [State.busValid, hv]
  · rw [hc] at hpn
    rw [hv, hp p]
    exact h2 p hpn
  · rw [← h3]
    simp [State.bus, hv]

/-- One quiet event. -/
theorem transferred_quiet {e : Event} (h : s.busSynced) (hc : t.cfg = s.cfg) (he : t.evt = s.evt ++ [e])
    (hp : ∀ p ∈ twelvePins s.cfg, (s.busView.drive s.cfg e).pin p = some (t.pin p))
    (hq : ¬(s.wr = s.cfg.wrActive ∧ t.wr = t.cfg.wrIdle)) : Transferred s t [] := by
  have hmem : s.cfg.pinWR ∈ twelvePins s.cfg := (mem_twelvePins _ _).mpr (by simp)
  have hq' : ¬(s.busView.pin s.cfg.pinWR = some s.cfg.wrActive ∧
      (s.busView.drive s.cfg e).pin s.cfg.pinWR = some s.cfg.wrIdle) := by
    rw [h.2 _ hmem, hp _ hmem]
    rintro ⟨h1, h2⟩
    exact hq ⟨Option.some.inj h1, by rw [State.wr, hc]; exact Option.some.inj h2⟩
  have hv : t.busView = s.busView.drive s.cfg e := by rw [busView_snoc hc he, busStep_quiet _ _ _ hq']
  refine ⟨⟨?_, fun p hpn => ?_⟩, ?_⟩
  · have := h.1
    simpa [State.busValid, hv] using this
  · rw [hc] at hpn
    rw [hv, hp p hpn]
  · simp [State.bus, hv]

/-- A slow write of a line other than the write-strobe transfers nothing. -/
theorem level_transferred (h : s.busSynced) (p : Nat) (l : Level) (hp : p ≠ s.cfg.pinWR)
    (hne : s.cfg.wrActive ≠ s.cfg.wrIdle) : Transferred s (s.level p l) [] := by
  refine transferred_quiet h rfl rfl (fun q hq => ?_) ?_
  · rw [drive_lv_pin, State.pin_level]
    split
    · rfl
    · exact h.2 q hq
  · rintro ⟨h1, h2⟩
    apply hne
    rw [← h1, ← State.level_cfg s p l, ← h2, State.wr, State.wr, State.level_cfg, State.pin_level,
      if_neg (Ne.symm hp)]

/-- The mapping event transfers nothing (R146). -/
theorem map_transferred (h : s.busSynced) (hne : s.cfg.wrActive ≠ s.cfg.wrIdle) :
    Transferred s { s with mapped := true, evt := s.evt ++ mapEvents s } [] := by
  unfold mapEvents
  split
  · exact (Transferred.refl h).congr rfl (by simp) fun _ => rfl
  · refine transferred_quiet h rfl rfl (fun q hq => h.2 q hq) ?_
    rintro ⟨h1, h2⟩
    exact hne (h1.symm.trans h2)

/-- A fast write that does not make the strobe idle transfers nothing. -/
theorem fastState_transferred (h : s.busSynced) (l : Level) (m : Word) (hne : s.cfg.wrActive ≠ s.cfg.wrIdle)
    (hq : ¬(s.wr = s.cfg.wrActive ∧ (fastState l m s).wr = s.cfg.wrIdle)) : Transferred s (fastState l m s) [] := by
  have h0 := map_transferred h hne
  generalize hr : ({ s with mapped := true, evt := s.evt ++ mapEvents s } : State) = r at h0
  have hrc : r.cfg = s.cfg := by rw [← hr]
  have hrp : ∀ p, r.pin p = s.pin p := fun p => by rw [← hr]; rfl
  have he : (fastState l m s).evt = r.evt ++ [fastEvent l m] := by rw [← hr]; simp
  refine h0.trans (transferred_quiet h0.1 (by rw [hrc]; rfl) he (fun q hq => ?_) ?_)
  · rw [drive_fast_pin, fastState_pin, hrc]
    split
    · rfl
    · rw [h0.1.2 q hq, hrp]
  · rw [State.wr, hrc, hrp]
    exact hq

/-- The strobe made idle from active latches the byte on the lines, with chip-select active (R52, R166). -/
theorem fastIdle_transferred (h : s.busSynced) (hc : ConfigOk s.cfg) (hm : s.mapped = true)
    (hw : s.wr = s.cfg.wrActive) :
    Transferred s (fastState s.cfg.wrIdle (wrMask s.cfg) s) (xferOf s.cfg s.cs s.cd s.dbus) := by
  have hpin := fastState_wrMask_pin hc.1 (s := s) s.cfg.wrIdle
  have hcfg : (fastState s.cfg.wrIdle (wrMask s.cfg) s).cfg = s.cfg := rfl
  have he : (fastState s.cfg.wrIdle (wrMask s.cfg) s).evt = s.evt ++ [fastEvent s.cfg.wrIdle (wrMask s.cfg)] := by
    simp [hm]
  have hdr : ∀ q ∈ twelvePins s.cfg, (s.busView.drive s.cfg (fastEvent s.cfg.wrIdle (wrMask s.cfg))).pin q =
      some ((fastState s.cfg.wrIdle (wrMask s.cfg) s).pin q) := by
    intro q hq
    rw [drive_fast_pin, fastState_pin]
    split
    · rfl
    · exact h.2 q hq
  have mWR : s.cfg.pinWR ∈ twelvePins s.cfg := (mem_twelvePins _ _).mpr (by simp)
  have mCS : s.cfg.pinCS ∈ twelvePins s.cfg := (mem_twelvePins _ _).mpr (by simp)
  have mCD : s.cfg.pinCD ∈ twelvePins s.cfg := (mem_twelvePins _ _).mpr (by simp)
  obtain ⟨n1, n2, -⟩ := controls_distinct hc.1
  have hl : s.busView.lost = false := by
    have := h.1
    simpa [State.busValid] using this
  have hv := busView_snoc hcfg he
  rw [busStep_edge s.cfg s.busView _ hl (cs := s.cs) (cd := s.cd) (d := s.dbus)
    ⟨by rw [h.2 _ mWR, ← hw, State.wr], by rw [hdr _ mWR, hpin, if_pos rfl]⟩
    (by rw [hdr _ mCS, hpin, if_neg (Ne.symm n1), State.cs])
    (by rw [hdr _ mCD, hpin, if_neg (Ne.symm n2), State.cd])
    (fun i hi => by
      have mD := mem_dataLine s.cfg hi
      rw [State.dbus, getLsbD_dataByte s.cfg s.pin hi]
      exact ⟨h.2 _ mD, by rw [hdr _ mD, hpin, if_neg (pinD_ne_control hc.1 hi).1]⟩)] at hv
  refine ⟨⟨?_, fun q hq => ?_⟩, ?_⟩
  · simp [State.busValid, hv, hl]
  · rw [hv]
    exact hdr q hq
  · simp [State.bus, hv, xferOf]

/-- The replay knows the level of a pin. -/
def State.agrees (s : State) (q : Nat) : Prop := s.busView.pin q = some (s.pin q)

/-- An event that makes no latching edge in the replay leaves its transfers. -/
theorem busValid_quiet {e : Event} (hb : s.busValid = true) (hc : t.cfg = s.cfg) (he : t.evt = s.evt ++ [e])
    (hq : ¬(s.busView.pin s.cfg.pinWR = some s.cfg.wrActive ∧
      (s.busView.drive s.cfg e).pin s.cfg.pinWR = some s.cfg.wrIdle)) :
    t.busValid = true ∧ t.bus = s.bus ∧ t.busView = s.busView.drive s.cfg e := by
  have hv : t.busView = s.busView.drive s.cfg e := by rw [busView_snoc hc he, busStep_quiet _ _ _ hq]
  exact ⟨by simpa [State.busValid, hv] using hb, by simp [State.bus, hv], hv⟩

/-- A fast write with the strobe known idle transfers nothing, and the replay then knows the pins it hits as well. -/
theorem fastState_quiet (hb : s.busValid = true) (hw : s.agrees s.cfg.pinWR) (hi : s.wr = s.cfg.wrIdle)
    (hne : s.cfg.wrActive ≠ s.cfg.wrIdle) (l : Level) (m : Word) :
    (fastState l m s).busValid = true ∧ (fastState l m s).bus = s.bus ∧
      ∀ q, s.agrees q ∨ (q / 32 = fastGroup s.cfg ∧ m.getLsbD (q % 32) = true ∧ validPin s.cfg q = true) →
        (fastState l m s).agrees q := by
  have hn : ∀ w : BusView, w.pin s.cfg.pinWR = s.busView.pin s.cfg.pinWR → w.pin s.cfg.pinWR ≠ some s.cfg.wrActive := by
    intro w h1 h2
    rw [h1, hw] at h2
    exact hne ((Option.some.inj h2).symm.trans hi)
  obtain ⟨r, hr, hrc, hrb, hre, hrp⟩ : ∃ r : State, (fastState l m s).evt = r.evt ++ [fastEvent l m] ∧ r.cfg = s.cfg ∧
      r.busValid = true ∧ r.bus = s.bus ∧ ∀ q, r.busView.pin q = s.busView.pin q := by
    by_cases hm : s.mapped = true
    · exact ⟨s, by simp [hm], rfl, hb, rfl, fun _ => rfl⟩
    · refine ⟨s.emit .map, by simp [mapEvents, hm], rfl, ?_⟩
      obtain ⟨h1, h2, h3⟩ := busValid_quiet (t := s.emit .map) (e := .map) hb rfl rfl (fun hh => hn _ rfl hh.1)
      exact ⟨h1, h2, fun q => by rw [h3]; rfl⟩
  obtain ⟨h1, h2, h3⟩ := busValid_quiet (s := r) (t := fastState l m s) hrb (by rw [hrc]; rfl) hr
    (fun hh => hn _ (hrp _) (by rw [hrc] at hh; exact hh.1))
  refine ⟨h1, h2.trans hre, fun q hq => ?_⟩
  rw [State.agrees, h3, hrc, drive_fast_pin, fastState_pin]
  split
  · rfl
  · rename_i hnot
    rw [hrp]
    exact hq.resolve_right hnot

/-- Up to the strobe made active, a byte write transfers nothing; from known control lines, the replay then knows the
twelve lines. -/
theorem byteActive_transferred (hb : s.busValid = true) (hc : ConfigOk s.cfg)
    (hk : ∀ q ∈ [s.cfg.pinWR, s.cfg.pinCS, s.cfg.pinCD, s.cfg.pinRD], s.agrees q) (hw : s.wr = s.cfg.wrIdle)
    (v : Byte) : Transferred s (byteActive v s) [] := by
  have hne := hc.2.2.2.2.1.1
  have hp := hc.1
  have hdata : ∀ (l : Level) (r : State), r.wr = s.cfg.wrIdle → r.cfg = s.cfg → ∀ m : Word,
      m.getLsbD (s.cfg.pinWR % 32) = false → (fastState l m r).wr = s.cfg.wrIdle := by
    intro l r hr hrc m hm
    rw [State.wr, fastState_cfg, hrc, fastState_pin, if_neg, ← hr, State.wr, hrc]
    simp [hm]
  have hmask : (onesMask s.cfg v).getLsbD (s.cfg.pinWR % 32) = false ∧
      (zerosMask s.cfg v).getLsbD (s.cfg.pinWR % 32) = false :=
    masks_elsewhere v fun i hi => Ne.symm (pinD_bit_ne_wr hp hi)
  have hwr : s.agrees s.cfg.pinWR := hk _ (by simp)
  -- the result, from a state that knows what it knew before and the lines that the two data masks hit
  have fin : ∀ t : State, t.cfg = s.cfg → t.busValid = true → t.bus = s.bus →
      (∀ q, (s.agrees q ∨ ∃ i < 8, q = pinD s.cfg i) → t.agrees q) → Transferred s t [] := by
    intro t htc h1 h2 h3
    refine ⟨⟨h1, fun q hq => ?_⟩, by rw [h2, List.append_nil]⟩
    rw [htc, mem_twelvePins] at hq
    rcases hq with hq | hq
    · exact h3 q (.inr hq)
    · exact h3 q (.inl (hk q (by simpa using hq)))
  have hit : ∀ (w : Level) (m : Word) (i : Nat), i < 8 → m.getLsbD (pinD s.cfg i % 32) = true →
      pinD s.cfg i / 32 = fastGroup s.cfg ∧ m.getLsbD (pinD s.cfg i % 32) = true ∧
        validPin s.cfg (pinD s.cfg i) = true := fun _ _ i hi hm => ⟨pinD_group hp hi, hm, pinD_valid hp hi⟩
  refine byteActive_cases v s (P := fun r => Transferred s r []) (fun _ => ?_) (fun _ _ => ?_) fun _ _ => ?_
  · obtain ⟨a1, b1, c1⟩ := fastState_quiet hb hwr hw hne true (onesMask s.cfg v)
    have w1 := hdata true s hw rfl _ hmask.1
    obtain ⟨a2, b2, c2⟩ := fastState_quiet a1 (c1 _ (.inl hwr)) w1 hne false (zerosMask s.cfg v)
    have w2 := hdata false _ w1 rfl _ hmask.2
    obtain ⟨a3, b3, c3⟩ := fastState_quiet a2 (c2 _ (.inl (c1 _ (.inl hwr)))) w2 hne s.cfg.wrActive (wrMask s.cfg)
    refine fin _ rfl a3 (b3.trans (b2.trans b1)) fun q hq => ?_
    rcases hq with hq | ⟨i, hi, rfl⟩
    · exact c3 q (.inl (c2 q (.inl (c1 q (.inl hq)))))
    · cases hv : v.getLsbD i
      · exact c3 _ (.inl (c2 _ (.inr (hit false _ i hi (by rw [zerosMask_line hp v hi, hv]; rfl)))))
      · exact c3 _ (.inl (c2 _ (.inl (c1 _ (.inr (hit true _ i hi (by rw [onesMask_line hp v hi, hv])))))))
  · obtain ⟨a1, b1, c1⟩ := fastState_quiet hb hwr hw hne false (zerosMask s.cfg v)
    have w1 := hdata false s hw rfl _ hmask.2
    obtain ⟨a2, b2, c2⟩ := fastState_quiet a1 (c1 _ (.inl hwr)) w1 hne true (onesMask s.cfg v ||| wrMask s.cfg)
    refine fin _ rfl a2 (b2.trans b1) fun q hq => ?_
    rcases hq with hq | ⟨i, hi, rfl⟩
    · exact c2 q (.inl (c1 q (.inl hq)))
    · cases hv : v.getLsbD i
      · exact c2 _ (.inl (c1 _ (.inr (hit false _ i hi (by rw [zerosMask_line hp v hi, hv]; rfl)))))
      · exact c2 _ (.inr (hit true _ i hi (by rw [BitVec.getLsbD_or, onesMask_line hp v hi, hv]; rfl)))
  · obtain ⟨a1, b1, c1⟩ := fastState_quiet hb hwr hw hne true (onesMask s.cfg v)
    have w1 := hdata true s hw rfl _ hmask.1
    obtain ⟨a2, b2, c2⟩ := fastState_quiet a1 (c1 _ (.inl hwr)) w1 hne false (zerosMask s.cfg v ||| wrMask s.cfg)
    refine fin _ rfl a2 (b2.trans b1) fun q hq => ?_
    rcases hq with hq | ⟨i, hi, rfl⟩
    · exact c2 q (.inl (c1 q (.inl hq)))
    · cases hv : v.getLsbD i
      · exact c2 _ (.inr (hit false _ i hi (by rw [BitVec.getLsbD_or, zerosMask_line hp v hi, hv]; rfl)))
      · exact c2 _ (.inl (c1 _ (.inr (hit true _ i hi (by rw [onesMask_line hp v hi, hv])))))

/-- A byte write transfers the byte, with chip-select active (R161 e): from known control lines, whether or not the
replay knew the data lines. -/
theorem byteState_transferred_of_controls (hb : s.busValid = true) (hc : ConfigOk s.cfg)
    (hk : ∀ q ∈ [s.cfg.pinWR, s.cfg.pinCS, s.cfg.pinCD, s.cfg.pinRD], s.agrees q) (hw : s.wr = s.cfg.wrIdle)
    (v : Byte) : Transferred s (byteState v s) (xferOf s.cfg s.cs s.cd v) := by
  have hact := byteActive_transferred hb hc hk hw v
  obtain ⟨p1, p2, p3⟩ := byteActive_pin hc v
  have hn := fun i hi => pinD_ne_control hc.1 (i := i) hi
  obtain ⟨n1, n2, -⟩ := controls_distinct hc.1
  have hidle := fastIdle_transferred hact.1 (by rw [byteActive_cfg]; exact hc) (byteActive_mapped v s)
    (by rw [State.wr, byteActive_cfg, p2])
  have e1 : (byteActive v s).cs = s.cs := by
    rw [State.cs, byteActive_cfg, p3 _ (fun i hi => (hn i hi).2.1.symm) (Ne.symm n1), State.cs]
  have e2 : (byteActive v s).cd = s.cd := by
    rw [State.cd, byteActive_cfg, p3 _ (fun i hi => (hn i hi).2.2.1.symm) (Ne.symm n2), State.cd]
  have e3 : (byteActive v s).dbus = v := by
    rw [State.dbus, byteActive_cfg]
    exact dataByte_eq p1
  rw [e1, e2, e3, byteActive_cfg] at hidle
  exact (hact.trans hidle).congr (by simp [byteState]) (by simp [byteState]) fun p => by simp [byteState]

/-- A byte write transfers the byte, with chip-select active (R161 e). -/
theorem byteState_transferred (h : s.busSynced) (hc : ConfigOk s.cfg) (hw : s.wr = s.cfg.wrIdle) (v : Byte) :
    Transferred s (byteState v s) (xferOf s.cfg s.cs s.cd v) :=
  byteState_transferred_of_controls h.1 hc
    (fun q hq => h.2 q ((mem_twelvePins _ _).mpr (.inr (by simpa using hq)))) hw v

/-- A strobe pulse transfers what the lines hold, with chip-select active (R166). -/
theorem pulseState_transferred (h : s.busSynced) (hc : ConfigOk s.cfg) (hw : s.wr = s.cfg.wrIdle) :
    Transferred s (pulseState s) (xferOf s.cfg s.cs s.cd s.dbus) := by
  have hne := hc.2.2.2.2.1.1
  have h1 := fastState_transferred h s.cfg.wrActive (wrMask s.cfg) hne (fun hh => hne (hh.1.symm.trans hw))
  have hp := fastState_wrMask_pin hc.1 (s := s) s.cfg.wrActive
  obtain ⟨n1, n2, -⟩ := controls_distinct hc.1
  have h2 := fastIdle_transferred h1.1 hc rfl (by rw [State.wr, fastState_cfg, hp, if_pos rfl])
  have e1 : (fastState s.cfg.wrActive (wrMask s.cfg) s).cs = s.cs := by
    rw [State.cs, fastState_cfg, hp, if_neg (Ne.symm n1), State.cs]
  have e2 : (fastState s.cfg.wrActive (wrMask s.cfg) s).cd = s.cd := by
    rw [State.cd, fastState_cfg, hp, if_neg (Ne.symm n2), State.cd]
  have e3 : (fastState s.cfg.wrActive (wrMask s.cfg) s).dbus = s.dbus := by
    rw [State.dbus, fastState_cfg]
    exact dataByte_congr fun i hi => by rw [hp, if_neg (pinD_ne_control hc.1 hi).1]
  rw [e1, e2, e3] at h2
  exact h1.trans h2

end Sys2Proof.Machine
end

