-- ==== Sys2Proof/Laws/Checks.lean ====
section
/-! SUPPORT. What the `require` and `refuse` lines of each command ask (R299), once for each check: the command is
accepted exactly in these states. -/

namespace Sys2Proof.Machine

variable {s : State}

/-- An operation after its checks answers as its body does, when it is not refused. -/
theorem afterCheck_next {check : Option Refusal} {x : Result} {t : State}
    (h : afterCheck check x = .ok t ∨ afterCheck check x = .stop t) : check = none ∧ (x = .ok t ∨ x = .stop t) := by
  cases check <;> simp_all [afterCheck]

theorem drawingState_iff : s.drawingState = true ↔ s.dstate = .initialized ∨ s.dstate = .ready := by
  simp [State.drawingState]

theorem rotationState_iff :
    s.rotationState = true ↔ s.dstate = .ready ∨ (s.dstate = .initialized ∧ s.variant = .unknown) := by
  simp [State.rotationState]

theorem windowReady_iff : s.windowReady = true ↔ s.variant = .unknown ∨ s.winValid = true := by
  simp [State.windowReady]

/-- LCD.WR8, LCD.WR16 and LCD.WREG32 (R164, R165, R168). -/
theorem protocolCheck_eq_none : protocolCheck s = none ↔ s.pinsReady = true ∧ s.dstate ≠ .uninitialized := by
  unfold protocolCheck State.protocolState
  cases s.pinsReady <;> by_cases h : s.dstate = .uninitialized <;> simp [h]

/-- LCD.SETWIN (R169). -/
theorem windowCheck_eq_none {x1 y1 x2 y2 : Half} :
    windowCheck x1 y1 x2 y2 s = none ↔ s.pinsReady = true ∧ (s.dstate = .initialized ∨ s.dstate = .ready) ∧
      x1.toNat ≤ x2.toNat ∧ y1.toNat ≤ y2.toNat := by
  unfold windowCheck
  rw [← drawingState_iff]
  cases s.pinsReady <;> cases s.drawingState <;>
    by_cases h : x2.toNat < x1.toNat ∨ y2.toNat < y1.toNat <;> simp [h] <;> omega

/-- LCD.FLOOD (R170). -/
theorem floodCheck_eq_none {len : Nat} :
    floodCheck len s = none ↔ s.pinsReady = true ∧ (s.dstate = .initialized ∨ s.dstate = .ready) ∧
      (s.variant = .unknown ∨ s.winValid = true) ∧ 0 < len := by
  unfold floodCheck
  rw [← drawingState_iff, ← windowReady_iff]
  cases s.pinsReady <;> cases s.drawingState <;> cases s.windowReady <;> by_cases h : len = 0 <;> simp [h]
  omega

/-- LCD.PUSH (R180). -/
theorem pushCheck_eq_none {first : Bool} :
    pushCheck first s = none ↔ s.pinsReady = true ∧ (s.dstate = .initialized ∨ s.dstate = .ready) ∧
      (first = true → s.variant = .unknown ∨ s.winValid = true) ∧ (first = false → s.streamOpen = true) := by
  unfold pushCheck
  rw [← drawingState_iff, ← windowReady_iff]
  cases s.pinsReady <;> cases s.drawingState <;> cases s.windowReady <;> cases first <;> cases s.streamOpen <;> simp

/-- LCD.RESET (R200). -/
theorem resetCheck_eq_none : resetCheck s = none ↔ s.pinsReady = true ∧ s.dstate = .uninitialized := by
  unfold resetCheck
  cases s.pinsReady <;> by_cases h : s.dstate = .uninitialized <;> simp [h]

/-- LCD.INIT (R205). -/
theorem initCheck_eq_none : initCheck s = none ↔ s.pinsReady = true ∧ s.dstate = .reset := by
  unfold initCheck
  cases s.pinsReady <;> by_cases h : s.dstate = .reset <;> simp [h]

/-- LCD.SETROT (R215). -/
theorem rotationCheck_eq_none :
    rotationCheck s = none ↔
      s.pinsReady = true ∧ (s.dstate = .ready ∨ (s.dstate = .initialized ∧ s.variant = .unknown)) := by
  unfold rotationCheck
  rw [← rotationState_iff]
  cases s.pinsReady <;> cases s.rotationState <;> simp

end Sys2Proof.Machine
end

