-- ==== Sys2Proof/Laws/Protocol.lean ====
section
/-! SUPPORT. The exact result of each procedure of the protocol engine where it runs: what it drove (`State.drove`,
Safety.lean) and, from a state whose replay knows the twelve lines, what it transferred (R52). Register writes, the
window, opening a stream, the flood, pixel streams, the bring-up sequence. -/

namespace Sys2Proof.Machine

variable {s t u : State} {m m' b b' : Bool} {ev ev' : List Event} {l₁ l₁' l₂ l₂' : Level} {d d' : Byte}
  {xs xs' : List Transfer}

theorem State.did.cfg (h : s.did t m ev b l₁ l₂ d xs) : t.cfg = s.cfg := by rw [h.1.1]

theorem State.did.env (h : s.did t m ev b l₁ l₂ d xs) : t.env = s.env := by rw [h.1.1]

theorem State.did.mapped (h : s.did t m ev b l₁ l₂ d xs) : t.mapped = m := by rw [h.1.1]

theorem State.did.streamOpen (h : s.did t m ev b l₁ l₂ d xs) : t.streamOpen = b := by rw [h.1.1]

theorem State.did.wr (h : s.did t m ev b l₁ l₂ d xs) : t.wr = s.wr := h.1.2.1

theorem State.did.cs (h : s.did t m ev b l₁ l₂ d xs) : t.cs = l₁ := h.1.2.2.2.1

theorem State.did.cd (h : s.did t m ev b l₁ l₂ d xs) : t.cd = l₂ := h.1.2.2.2.2.1

theorem State.did.dbus (h : s.did t m ev b l₁ l₂ d xs) : t.dbus = d := h.1.2.2.2.2.2.1

/-- The strobe stays idle. -/
theorem State.did.idle (h : s.did t m ev b l₁ l₂ d xs) (hw : s.wr = s.cfg.wrIdle) : t.wr = t.cfg.wrIdle := by
  rw [h.wr, h.cfg, hw]

theorem State.did.configOk (h : s.did t m ev b l₁ l₂ d xs) (hc : ConfigOk s.cfg) : ConfigOk t.cfg := by
  rw [h.cfg]
  exact hc

theorem State.did.refl (s : State) : s.did s s.mapped [] s.streamOpen s.cs s.cd s.dbus [] :=
  ⟨⟨by simp, rfl, rfl, rfl, rfl, rfl, fun _ _ => rfl⟩, Transferred.refl⟩

/-- One drive after another. -/
theorem State.drove.trans (h : s.drove t m ev b l₁ l₂ d) (h' : t.drove u m' ev' b' l₁' l₂' d') :
    s.drove u m' (ev ++ ev') b' l₁' l₂' d' := by
  obtain ⟨f, hw, hr, -, -, -, hp⟩ := h
  obtain ⟨f', hw', hr', hcs, hcd, hd, hp'⟩ := h'
  have hcfg : t.cfg = s.cfg := by rw [f]
  refine ⟨?_, hw'.trans hw, hr'.trans hr, hcs, hcd, hd, fun p hn => ?_⟩
  · conv_lhs => rw [f']
    rw [f]
    simp
  · rw [hp' p (by rw [hcfg]; exact hn), hp p hn]

theorem State.did.trans (h : s.did t m ev b l₁ l₂ d xs) (h' : t.did u m' ev' b' l₁' l₂' d' xs') :
    s.did u m' (ev ++ ev') b' l₁' l₂' d' (xs ++ xs') :=
  ⟨h.1.trans h'.1, fun hs => (h.2 hs).trans (h'.2 (h.2 hs).1)⟩

/-- `Level(PIN_CS, l)`. -/
theorem level_cs_did {c : Config} (e : s.cfg = c) (hc : ConfigOk c) (l : Level) :
    s.did (s.level c.pinCS l) s.mapped [.lv c.pinCS l] s.streamOpen l s.cd s.dbus [] := by
  subst e
  obtain ⟨h1, h2, h3, h4, h5, h6⟩ := controls_distinct hc.1
  refine ⟨⟨rfl, ?_, ?_, ?_, ?_, ?_, fun p hp => ?_⟩, fun hs => level_transferred hs _ l (Ne.symm h1) hc.2.2.2.2.1.1⟩
  · simp [State.wr, State.pin_level, h1]
  · simp [State.rd, State.pin_level, Ne.symm h5]
  · simp [State.cs, State.pin_level]
  · simp [State.cd, State.pin_level, Ne.symm h4]
  · exact dataByte_congr fun i hi => by simp [State.pin_level, (pinD_ne_control hc.1 hi).2.1]
  · rw [State.pin_level, if_neg]
    rintro rfl
    exact hp ((mem_twelvePins _ _).mpr (by simp))

/-- `Level(PIN_CD, l)`. -/
theorem level_cd_did {c : Config} (e : s.cfg = c) (hc : ConfigOk c) (l : Level) :
    s.did (s.level c.pinCD l) s.mapped [.lv c.pinCD l] s.streamOpen s.cs l s.dbus [] := by
  subst e
  obtain ⟨h1, h2, h3, h4, h5, h6⟩ := controls_distinct hc.1
  refine ⟨⟨rfl, ?_, ?_, ?_, ?_, ?_, fun p hp => ?_⟩, fun hs => level_transferred hs _ l (Ne.symm h2) hc.2.2.2.2.1.1⟩
  · simp [State.wr, State.pin_level, h2]
  · simp [State.rd, State.pin_level, Ne.symm h6]
  · simp [State.cs, State.pin_level, h4]
  · simp [State.cd, State.pin_level]
  · exact dataByte_congr fun i hi => by simp [State.pin_level, (pinD_ne_control hc.1 hi).2.2.1]
  · rw [State.pin_level, if_neg]
    rintro rfl
    exact hp ((mem_twelvePins _ _).mpr (by simp))

/-- `Write8(v)` (R161). -/
theorem write8_did (hc : ConfigOk s.cfg) (h : s.mappable) (hw : s.wr = s.cfg.wrIdle) (v : Byte) :
    ∃ t, write8 v s = .ok t ∧
      s.did t true (mapEvents s ++ byteEvents s.cfg v) (streamAfter s) s.cs s.cd v (xferOf s.cfg s.cs s.cd v) := by
  refine ⟨byteState v s, write8_ok hc h hw v, ⟨?_, ?_⟩, fun hs => byteState_transferred hs hc hw v⟩
  · conv_lhs => rw [byteState_frame]
    rw [byteState_streamOpen hc hw]
    rfl
  obtain ⟨hd, hp⟩ := byteState_pin hc hw v
  have hctl : ∀ p, (∀ i < 8, pinD s.cfg i ≠ p) → (byteState v s).pin p = s.pin p := fun p hh =>
    hp p fun i hi e => hh i hi e.symm
  have hn := fun i hi => pinD_ne_control hc.1 (i := i) hi
  refine ⟨?_, ?_, ?_, ?_, ?_, fun p hpn => hp p fun i hi e => hpn (e ▸ mem_dataLine _ hi)⟩
  · rw [State.wr, byteState_cfg, hctl _ fun i hi => (hn i hi).1, State.wr]
  · rw [State.rd, byteState_cfg, hctl _ fun i hi => (hn i hi).2.2.2, State.rd]
  · rw [State.cs, byteState_cfg, hctl _ fun i hi => (hn i hi).2.1, State.cs]
  · rw [State.cd, byteState_cfg, hctl _ fun i hi => (hn i hi).2.2.1, State.cd]
  · rw [State.dbus, byteState_cfg]
    exact dataByte_eq hd

/-- `StrobePulse()` (R166). -/
theorem strobePulse_did (hc : ConfigOk s.cfg) (h : s.mappable) (hw : s.wr = s.cfg.wrIdle) :
    ∃ t, strobePulse s = .ok t ∧
      s.did t true (mapEvents s ++ pulseEvents s.cfg) s.streamOpen s.cs s.cd s.dbus
        (xferOf s.cfg s.cs s.cd s.dbus) := by
  have hp := pulseState_pin hc hw
  have hcfg : (pulseState s).cfg = s.cfg := rfl
  refine ⟨pulseState s, strobePulse_ok hc h hw, ⟨pulseState_frame s, ?_, ?_, ?_, ?_, ?_, fun p _ => hp p⟩,
    fun hs => pulseState_transferred hs hc hw⟩
  · rw [State.wr, hcfg, hp, State.wr]
  · rw [State.rd, hcfg, hp, State.rd]
  · rw [State.cs, hcfg, hp, State.cs]
  · rw [State.cd, hcfg, hp, State.cd]
  · rw [State.dbus, hcfg]
    exact dataByte_congr fun i _ => hp _

/-- A byte at data level is a data transfer, with chip-select active. -/
theorem xferOf_data {c : Config} (hc : ConfigOk c) (d : Byte) : xferOf c c.csActive c.cdData d = [⟨.data, d⟩] := by
  have := hc.2.2.2.2.1.2.2.2
  simp [xferOf, Ne.symm this]

/-- A byte at command level is a command transfer, with chip-select active. -/
theorem xferOf_command (c : Config) (d : Byte) : xferOf c c.csActive c.cdCommand d = [⟨.command, d⟩] := by
  simp [xferOf]

/-- A byte write away from the command level leaves the stream bit (R161 f). -/
theorem streamAfter_data (hc : ConfigOk s.cfg) (h : s.cd = s.cfg.cdData) : streamAfter s = s.streamOpen := by
  have := hc.2.2.2.2.1.2.2.2
  simp [streamAfter, h, Ne.symm this]

/-- `Write16(w)` (R165). -/
theorem write16_did (hc : ConfigOk s.cfg) (h : s.mappable) (hw : s.wr = s.cfg.wrIdle) (v : Half) :
    ∃ t, write16 v s = .ok t ∧
      s.did t true (mapEvents s ++ halfEvents s.cfg v) (streamAfter s) s.cs s.cd (loByte v)
        (xferOf s.cfg s.cs s.cd (hiByte v) ++ xferOf s.cfg s.cs s.cd (loByte v)) := by
  obtain ⟨t, e1, h1⟩ := write8_did hc h hw (hiByte v)
  obtain ⟨u, e2, h2⟩ := write8_did (h1.configOk hc) (.inl h1.mapped) (h1.idle hw) (loByte v)
  refine ⟨u, by rw [write16, e1, Result.ok_bind, e2], ?_⟩
  have h3 := h1.trans h2
  have h4 : streamAfter t = streamAfter s := by
    simp only [streamAfter, h1.cs, h1.cd, h1.cfg, h1.streamOpen]
    by_cases h : s.cs = s.cfg.csActive ∧ s.cd = s.cfg.cdCommand <;> simp [h]
  rw [h4, mapEvents_of_mapped h1.mapped, h1.cfg, h1.cs, h1.cd] at h3
  simpa [halfEvents, List.append_assoc] using h3

/-- Byte writes at data level with the resource mapped. -/
theorem writeBytes_did (l : List Byte) (hc : ConfigOk s.cfg) (h : s.mapped = true) (hw : s.wr = s.cfg.wrIdle)
    (hd : s.cd = s.cfg.cdData) :
    ∃ t, writeBytes l s = .ok t ∧
      s.did t true (bytesEvents s.cfg l) s.streamOpen s.cs s.cd (l.getLastD s.dbus)
        (l.flatMap (xferOf s.cfg s.cs s.cd)) := by
  induction l generalizing s with
  | nil => exact ⟨s, rfl, by simpa [bytesEvents, h] using State.did.refl s⟩
  | cons x rest ih =>
    obtain ⟨t, e1, h1⟩ := write8_did hc (.inl h) hw x
    obtain ⟨u, e2, h2⟩ := ih (h1.configOk hc) h1.mapped (h1.idle hw) (by rw [h1.cd, h1.cfg, hd])
    refine ⟨u, by rw [writeBytes, e1, Result.ok_bind, e2], ?_⟩
    have h3 := h1.trans h2
    rw [h1.streamOpen, streamAfter_data hc hd, mapEvents_of_mapped h, h1.cfg, h1.cs, h1.cd, h1.dbus] at h3
    simpa [bytesEvents, List.getLast?_cons] using h3

/-- The opening of a register write or of a stream: chip-select active, command level (R167, R170). -/
theorem command_did (hc : ConfigOk s.cfg) :
    s.did ((s.level s.cfg.pinCS s.cfg.csActive).level s.cfg.pinCD s.cfg.cdCommand) s.mapped
      [.lv s.cfg.pinCS s.cfg.csActive, .lv s.cfg.pinCD s.cfg.cdCommand] s.streamOpen s.cfg.csActive
      s.cfg.cdCommand s.dbus [] := by
  have h1 := level_cs_did rfl hc s.cfg.csActive
  have h3 := h1.trans (level_cd_did (s := s.level s.cfg.pinCS s.cfg.csActive) h1.cfg hc s.cfg.cdCommand)
  simp only [State.level_mapped, State.level_streamOpen, h1.cs, h1.dbus] at h3
  exact h3

/-- The command byte of a register write or of a stream. -/
theorem commandByte_did (hc : ConfigOk s.cfg) (h : s.mappable) (hw : s.wr = s.cfg.wrIdle) (op : Byte) :
    ∃ t, write8 op ((s.level s.cfg.pinCS s.cfg.csActive).level s.cfg.pinCD s.cfg.cdCommand) = .ok t ∧
      s.did t true ([.lv s.cfg.pinCS s.cfg.csActive, .lv s.cfg.pinCD s.cfg.cdCommand] ++ mapEvents s ++
        byteEvents s.cfg op) false s.cfg.csActive s.cfg.cdCommand op [⟨.command, op⟩] := by
  have h0 := command_did hc
  obtain ⟨t, e1, h1⟩ := write8_did (h0.configOk hc) (by simpa [State.mappable] using h) (h0.idle hw) op
  refine ⟨t, e1, ?_⟩
  have h2 := h0.trans h1
  have hb : streamAfter ((s.level s.cfg.pinCS s.cfg.csActive).level s.cfg.pinCD s.cfg.cdCommand) = false := by
    simp [streamAfter, h0.cs, h0.cd]
  have hm : mapEvents ((s.level s.cfg.pinCS s.cfg.csActive).level s.cfg.pinCD s.cfg.cdCommand) = mapEvents s := rfl
  rw [hb, hm, h0.cs, h0.cd, h0.cfg, xferOf_command] at h2
  simpa [List.append_assoc] using h2

/-- `RegWrite(op, n, value)` (R167). -/
theorem regWrite_did (hc : ConfigOk s.cfg) (h : s.mappable) (hw : s.wr = s.cfg.wrIdle) (op : Byte) (l : List Byte) :
    ∃ t, regWrite op l s = .ok t ∧
      s.did t true (regEvents s.cfg (mapEvents s) op l) false s.cfg.csIdle s.cfg.cdData (l.getLastD op)
        (regTransfers op l) := by
  obtain ⟨t, e1, h1⟩ := commandByte_did hc h hw op
  have h12 := h1.trans (level_cd_did h1.cfg hc s.cfg.cdData)
  obtain ⟨u, e3, h3⟩ := writeBytes_did (s := t.level s.cfg.pinCD s.cfg.cdData) l (h12.configOk hc)
    (h12.mapped.trans h1.mapped) (h12.idle hw) (by rw [h12.cd, h12.cfg])
  have h123 := h12.trans h3
  have h5 := h123.trans (level_cs_did h123.cfg hc s.cfg.csIdle)
  refine ⟨u.level s.cfg.pinCS s.cfg.csIdle, ?_, ?_⟩
  · simp only [regWrite, e1, Result.ok_bind, h1.cfg, e3, h123.cfg]
  · have hx : l.flatMap (xferOf s.cfg s.cfg.csActive s.cfg.cdData) = dataTransfers l := by
      clear * - hc
      induction l with
      | nil => rfl
      | cons x l ih => simp only [List.flatMap_cons, ih, xferOf_data hc, dataTransfers, List.map_cons]; rfl
    rw [h123.mapped, h123.streamOpen, h12.streamOpen, h1.streamOpen, h123.cd, h12.cd, h123.dbus, h12.dbus, h1.dbus,
      h12.cfg, h12.cs, h1.cs, hx] at h5
    simpa [regEvents, regTransfers, List.append_assoc] using h5

/-- The low byte of a word of two halves is the low byte of the low half. -/
theorem wordBytes_last (hi lo : Half) (x : Byte) : (wordBytes (packPair hi lo)).getLastD x = loByte lo := by
  have hg : ∀ j, (hi ++ lo : Word).getLsbD j = if j < 16 then lo.getLsbD j else hi.getLsbD (j - 16) :=
    fun j => BitVec.getLsbD_append (x := hi) (y := lo)
  simp only [wordBytes, packPair, loByte, List.getLastD_cons, List.getLastD_nil]
  apply BitVec.eq_of_getLsbD_eq
  intro i hi
  have : i < 16 := by omega
  simp only [BitVec.getLsbD_extractLsb', hg, Nat.zero_add, hi, decide_true, Bool.true_and, this, if_true]

/-- The window's two register writes (R169), in a recognised variant. -/
theorem setWindow_did (hc : ConfigOk s.cfg) (h : s.mappable) (hw : s.wr = s.cfg.wrIdle) {f : Family}
    (hv : s.variant = .family f) (x1 y1 x2 y2 : Half) :
    ∃ t, setWindow x1 y1 x2 y2 s =
        .ok { t with winx := packPair x1 x2, winy := packPair y1 y2, winValid := true } ∧
      s.did t true (windowEvents s.cfg (mapEvents s) f (packPair x1 x2) (packPair y1 y2)) false s.cfg.csIdle
        s.cfg.cdData (loByte y2) (windowTransfers s.cfg f (packPair x1 x2) (packPair y1 y2)) := by
  obtain ⟨t, e1, h1⟩ := regWrite_did hc h hw (familyTable s.cfg f).xWin (wordBytes (packPair x1 x2))
  obtain ⟨u, e2, h2⟩ := regWrite_did (s := t) (h1.configOk hc) (.inl h1.mapped) (h1.idle hw)
    (familyTable t.cfg f).yWin (wordBytes (packPair y1 y2))
  refine ⟨u, by simp only [setWindow, hv, e1, Result.ok_bind, e2], ?_⟩
  have h3 := h1.trans h2
  rw [wordBytes_last, mapEvents_of_mapped h1.mapped, h1.cfg] at h3
  exact h3

/-- Writing the stream bit is a drive of no event. -/
theorem State.did.openWith (h : s.did t m ev b l₁ l₂ d xs) (b' : Bool) :
    s.did { t with streamOpen := b' } m ev b' l₁ l₂ d xs := by
  obtain ⟨⟨f, h2, h3, h4, h5, h6, h7⟩, h8⟩ := h
  refine ⟨⟨?_, h2, h3, h4, h5, h6, h7⟩, fun hs => (h8 hs).congr rfl rfl fun _ => rfl⟩
  rw [f]

/-- A stream opened and the data level set (R170, R180). -/
theorem openData_did (hc : ConfigOk s.cfg) (h : s.mappable) (hw : s.wr = s.cfg.wrIdle) :
    ∃ t, openStream s = .ok t ∧
      s.did (t.level t.cfg.pinCD t.cfg.cdData) true (openEvents s.cfg (mapEvents s) (memWriteOp s)) true
        s.cfg.csActive s.cfg.cdData (memWriteOp s) [⟨.command, memWriteOp s⟩] := by
  obtain ⟨t, e1, h1⟩ := commandByte_did hc h hw (memWriteOp s)
  have e : memWriteOp ((s.level s.cfg.pinCS s.cfg.csActive).level s.cfg.pinCD s.cfg.cdCommand) = memWriteOp s := rfl
  obtain ⟨r, e2, h2⟩ : ∃ r, openStream s = .ok r ∧ s.did r true _ true _ _ _ _ :=
    ⟨{ t with streamOpen := true }, by simp only [openStream, e, e1, Result.ok_bind], h1.openWith true⟩
  refine ⟨r, e2, ?_⟩
  have h3 := h2.trans (level_cd_did h2.cfg hc s.cfg.cdData)
  rw [h2.mapped, h2.streamOpen, h2.cs, h2.dbus] at h3
  rw [h2.cfg]
  simpa [openEvents, List.append_assoc] using h3

/-- Strobe-only pixels (R166, R171). -/
theorem strobePixel_did (hc : ConfigOk s.cfg) (h : s.mapped = true) (hw : s.wr = s.cfg.wrIdle) :
    ∃ t, strobePixel s = .ok t ∧
      s.did t true (strobePixelEvents s.cfg) s.streamOpen s.cs s.cd s.dbus
        (xferOf s.cfg s.cs s.cd s.dbus ++ xferOf s.cfg s.cs s.cd s.dbus) := by
  obtain ⟨t, e1, h1⟩ := strobePulse_did hc (.inl h) hw
  obtain ⟨u, e2, h2⟩ := strobePulse_did (h1.configOk hc) (.inl h1.mapped) (h1.idle hw)
  refine ⟨u, by rw [strobePixel, e1, Result.ok_bind, e2], ?_⟩
  have h3 := h1.trans h2
  rw [mapEvents_of_mapped h, mapEvents_of_mapped h1.mapped, h1.cfg, h1.cs, h1.cd, h1.dbus, h1.streamOpen] at h3
  simpa [strobePixelEvents] using h3

/-- A repeated procedure that leaves the lines and the stream bit as they are. -/
theorem repeat_did {f : State → Result} {e : Config → List Event} {x : Config → Level → Level → List Transfer} {d : Byte}
    (hf : ∀ r : State, ConfigOk r.cfg → r.mapped = true → r.wr = r.cfg.wrIdle → r.cd = r.cfg.cdData → r.dbus = d →
      ∃ t, f r = .ok t ∧ r.did t true (e r.cfg) r.streamOpen r.cs r.cd d (x r.cfg r.cs r.cd))
    (n : Nat) (hc : ConfigOk s.cfg) (h : s.mapped = true) (hw : s.wr = s.cfg.wrIdle) (hd : s.cd = s.cfg.cdData)
    (hb : s.dbus = d) :
    ∃ t, repeatOp n f s = .ok t ∧
      s.did t true (repeatEvents n (e s.cfg)) s.streamOpen s.cs s.cd d
        (List.replicate n (x s.cfg s.cs s.cd)).flatten := by
  induction n generalizing s with
  | zero =>
    refine ⟨s, rfl, ?_⟩
    have := State.did.refl s
    rwa [h, hb] at this
  | succ n ih =>
    obtain ⟨t, e1, h1⟩ := hf s hc h hw hd hb
    obtain ⟨u, e2, h2⟩ := ih (h1.configOk hc) h1.mapped (h1.idle hw) (by rw [h1.cd, h1.cfg, hd]) h1.dbus
    refine ⟨u, by rw [repeatOp_succ, e1, Result.ok_bind, e2], ?_⟩
    have h3 := h1.trans h2
    rw [h1.cfg, h1.cs, h1.cd, h1.streamOpen] at h3
    simpa [repeatEvents, List.replicate_succ] using h3

/-- The pixels of a flood after the first (R171, R172). -/
theorem floodRest_did (color : Half) (n : Nat) (hc : ConfigOk s.cfg) (h : s.mapped = true) (hw : s.wr = s.cfg.wrIdle)
    (hd : s.cd = s.cfg.cdData) (hb : s.dbus = loByte color) :
    ∃ t, floodRest color n s = .ok t ∧
      s.did t true (restEvents s.cfg color n) s.streamOpen s.cs s.cd (loByte color)
        (List.replicate n
          (xferOf s.cfg s.cs s.cd (hiByte color) ++ xferOf s.cfg s.cs s.cd (loByte color))).flatten := by
  unfold floodRest restEvents
  split
  · rename_i he
    rw [floodFast_eq_repeat, he]
    refine repeat_did (e := strobePixelEvents) (x := fun c l l' => xferOf c l l' (loByte color) ++ xferOf c l l' (loByte color))
      (fun r h1 h2 h3 _ h5 => ?_) n hc h hw hd hb
    have := strobePixel_did h1 h2 h3
    rwa [h5] at this
  · refine repeat_did (e := fun c => halfEvents c color)
      (x := fun c l l' => xferOf c l l' (hiByte color) ++ xferOf c l l' (loByte color))
      (fun r h1 h2 h3 h4 _ => ?_) n hc h hw hd hb
    obtain ⟨t, e1, h5⟩ := write16_did h1 (.inl h2) h3 color
    rw [mapEvents_of_mapped h2, List.nil_append, streamAfter_data h1 h4] at h5
    exact ⟨t, e1, h5⟩

/-- `Flood(color, len)` of at least one pixel (R170, R173). -/
theorem flood_did (hc : ConfigOk s.cfg) (h : s.mappable) (hw : s.wr = s.cfg.wrIdle) (color : Half) {len : Nat}
    (hlen : 0 < len) :
    ∃ t, flood color len s = .ok t ∧
      s.did t true (floodEvents s.cfg (mapEvents s) (memWriteOp s) color len) true s.cfg.csIdle s.cfg.cdData
        (loByte color) (floodTransfers (memWriteOp s) color len) := by
  obtain ⟨t, e1, h1⟩ := openData_did hc h hw
  generalize hr : t.level t.cfg.pinCD t.cfg.cdData = r at h1
  have hcd : r.cd = r.cfg.cdData := by rw [h1.cd, h1.cfg]
  obtain ⟨u, e2, h2⟩ := write16_did (s := r) (h1.configOk hc) (.inl h1.mapped) (h1.idle hw) color
  rw [streamAfter_data (h1.configOk hc) hcd] at h2
  have h12 := h1.trans h2
  obtain ⟨w, e3, h3⟩ := floodRest_did color (len - 1) (h12.configOk hc) h2.mapped (h12.idle hw)
    (by rw [h2.cd, hcd, h2.cfg]) h2.dbus
  have h123 := h12.trans h3
  have h4 := h123.trans (level_cs_did h123.cfg hc s.cfg.csIdle)
  refine ⟨w.level s.cfg.pinCS s.cfg.csIdle, ?_, ?_⟩
  · simp only [flood, e1, Result.ok_bind, hr, e2, e3, h123.cfg]
  · have hx : xferOf s.cfg s.cfg.csActive s.cfg.cdData (hiByte color) ++
        xferOf s.cfg s.cfg.csActive s.cfg.cdData (loByte color) = pixelTransfers color := by
      simp [xferOf_data hc, pixelTransfers]
    rw [mapEvents_of_mapped h1.mapped, h123.mapped, h123.streamOpen, h2.streamOpen, h1.streamOpen, h123.cd, h2.cs,
      h2.cd, h1.cs, h1.cd, h123.dbus, h12.cfg, h1.cfg, hx] at h4
    obtain ⟨n, rfl⟩ : ∃ n, len = n + 1 := ⟨len - 1, by omega⟩
    simpa [floodEvents, floodTransfers, List.append_assoc, List.replicate_succ] using h4

/-- The pixels of LCD.PUSH, at data level with the resource mapped (R180). -/
theorem pushPixels_did (a n : Nat) (hc : ConfigOk s.cfg) (h : s.mapped = true) (hw : s.wr = s.cfg.wrIdle)
    (hd : s.cd = s.cfg.cdData) :
    ∃ t, pushPixels a n s = .ok t ∧
      s.did t true ((pixelsAt s a n).flatMap (halfEvents s.cfg)) s.streamOpen s.cs s.cd
        (((pixelsAt s a n).map loByte).getLastD s.dbus)
        ((pixelsAt s a n).flatMap fun v => xferOf s.cfg s.cs s.cd (hiByte v) ++ xferOf s.cfg s.cs s.cd (loByte v)) := by
  induction n generalizing s a with
  | zero =>
    refine ⟨s, rfl, ?_⟩
    have := State.did.refl s
    rwa [h] at this
  | succ n ih =>
    obtain ⟨t, e1, h1⟩ := write16_did hc (.inl h) hw (s.readPix a)
    rw [streamAfter_data hc hd] at h1
    obtain ⟨u, e2, h2⟩ := ih (s := t) (a + 1) (h1.configOk hc) h1.mapped (h1.idle hw) (by rw [h1.cd, h1.cfg, hd])
    refine ⟨u, by rw [pushPixels, e1, Result.ok_bind, e2], ?_⟩
    have hp : pixelsAt s a (n + 1) = s.readPix a :: pixelsAt t (a + 1) n := by
      simp only [pixelsAt, List.range_succ_eq_map, List.map_cons, List.map_map, Nat.add_zero, State.readPix, h1.env]
      congr 1
      apply List.map_congr_left
      intro i _
      simp only [Function.comp]
      rw [show a + i.succ = a + 1 + i by omega]
    have h3 := h1.trans h2
    rw [mapEvents_of_mapped h, h1.cfg, h1.cs, h1.cd, h1.dbus, h1.streamOpen] at h3
    rw [hp]
    simpa [List.getLast?_cons] using h3

/-- One step of a bring-up sequence, with the resource mapped (R207): the lines of a register write are those it
leaves; a delay moves no line. -/
theorem runInitStep_did (x : InitStep) (hc : ConfigOk s.cfg) (h : s.mapped = true) (hw : s.wr = s.cfg.wrIdle) :
    ∃ t b cs cd d, runInitStep x s = .ok t ∧ s.did t true (initStepEvents s.cfg x) b cs cd d (initStepTransfers x) ∧
      (s.cs = s.cfg.csIdle → cs = s.cfg.csIdle) := by
  cases x with
  | cmd op =>
    obtain ⟨t, e1, h1⟩ := regWrite_did hc (.inl h) hw op []
    rw [mapEvents_of_mapped h] at h1
    exact ⟨t, _, _, _, _, e1, h1, fun _ => rfl⟩
  | reg op n v =>
    obtain ⟨t, e1, h1⟩ := regWrite_did hc (.inl h) hw op (stepBytes n v)
    rw [mapEvents_of_mapped h] at h1
    exact ⟨t, _, _, _, _, e1, h1, fun _ => rfl⟩
  | delay d =>
    refine ⟨s.emit (.dl (delayMs d)), s.streamOpen, s.cs, s.cd, s.dbus, rfl,
      ⟨⟨?_, rfl, rfl, rfl, rfl, rfl, fun _ _ => rfl⟩, fun hs => ?_⟩, id⟩
    · simp [State.emit, initStepEvents, h]
    · refine transferred_quiet hs rfl rfl (fun q hq => hs.2 q hq) ?_
      rintro ⟨h1, -⟩
      exact hc.2.2.2.2.1.1 (h1.symm.trans hw)

/-- A bring-up sequence, with the resource mapped (R207). -/
theorem runSeq_did (l : List InitStep) (hc : ConfigOk s.cfg) (h : s.mapped = true) (hw : s.wr = s.cfg.wrIdle) :
    ∃ t b cs cd d, runSeq l s = .ok t ∧
      s.did t true (l.flatMap (initStepEvents s.cfg)) b cs cd d (l.flatMap initStepTransfers) ∧
      (s.cs = s.cfg.csIdle → cs = s.cfg.csIdle) := by
  induction l generalizing s with
  | nil =>
    have := State.did.refl s
    rw [h] at this
    exact ⟨s, _, _, _, _, rfl, this, id⟩
  | cons x rest ih =>
    obtain ⟨t, b1, cs1, cd1, d1, e1, h1, k1⟩ := runInitStep_did x hc h hw
    obtain ⟨u, b2, cs2, cd2, d2, e2, h2, k2⟩ := ih (h1.configOk hc) h1.mapped (h1.idle hw)
    refine ⟨u, b2, cs2, cd2, d2, by rw [runSeq, e1, Result.ok_bind, e2], ?_, fun hcs => ?_⟩
    · have h3 := h1.trans h2
      rw [h1.cfg] at h3
      simpa using h3
    · rw [← h1.cfg]
      exact k2 (by rw [h1.cs, h1.cfg]; exact k1 hcs)

end Sys2Proof.Machine
end

