-- ==== Sys2Proof/Laws/Controller.lean ====
section
/-! SUPPORT. The exact result of the controller's procedures where they run: the bus resynchronisation of LCD.RESET
(R200, R201), from any trace whose replay has a value, and the full-screen window (R205, R215). -/

namespace Sys2Proof.Machine

variable {s t : State}

/-- A slow write that makes no latching edge transfers nothing, and the replay then knows that line as well. -/
theorem level_quiet (hb : s.busValid = true) (p : Nat) (l : Level)
    (hq : ¬(s.busView.pin s.cfg.pinWR = some s.cfg.wrActive ∧
      (s.busView.drive s.cfg (.lv p l)).pin s.cfg.pinWR = some s.cfg.wrIdle)) :
    (s.level p l).busValid = true ∧ (s.level p l).bus = s.bus ∧
      ∀ q, q = p ∨ s.agrees q → (s.level p l).agrees q := by
  obtain ⟨h1, h2, h3⟩ := busValid_quiet (t := s.level p l) hb rfl rfl hq
  refine ⟨h1, h2, fun q hq => ?_⟩
  rw [State.agrees, h3, drive_lv_pin, State.pin_level]
  split
  · rfl
  · exact hq.resolve_left (by assumption)

/-- The same for a line that is not the write-strobe. -/
theorem level_quiet_other (hb : s.busValid = true) (hne : s.cfg.wrActive ≠ s.cfg.wrIdle) {p : Nat}
    (hp : p ≠ s.cfg.pinWR) (l : Level) :
    (s.level p l).busValid = true ∧ (s.level p l).bus = s.bus ∧
      ∀ q, q = p ∨ s.agrees q → (s.level p l).agrees q := by
  refine level_quiet hb p l ?_
  rw [drive_lv_pin, if_neg (Ne.symm hp)]
  rintro ⟨h1, h2⟩
  exact hne (Option.some.inj (h1.symm.trans h2))

/-- The write-strobe idled by the slow path with chip-select known idle transfers nothing (R52, R200). -/
theorem level_wr_quiet (hb : s.busValid = true) (hlv : s.cfg.csActive ≠ s.cfg.csIdle)
    (hd : s.cfg.pinWR ≠ s.cfg.pinCS) (hcs : s.agrees s.cfg.pinCS) (hi : s.cs = s.cfg.csIdle) (l : Level) :
    (s.level s.cfg.pinWR l).busValid = true ∧ (s.level s.cfg.pinWR l).bus = s.bus ∧
      ∀ q, q = s.cfg.pinWR ∨ s.agrees q → (s.level s.cfg.pinWR l).agrees q := by
  have hv : (s.level s.cfg.pinWR l).busView = s.busView.drive s.cfg (.lv s.cfg.pinWR l) := by
    rw [busView_snoc (s := s) (t := s.level s.cfg.pinWR l) (e := .lv s.cfg.pinWR l) rfl rfl]
    have hw : (s.busView.drive s.cfg (.lv s.cfg.pinWR l)).pin s.cfg.pinCS = some s.cfg.csIdle := by
      rw [drive_lv_pin, if_neg (Ne.symm hd), hcs, ← hi, State.cs]
    simp only [busStep]
    split
    · rfl
    · split
      · simp only [BusView.edge, hw]
        rw [if_neg (Ne.symm hlv)]
      · rfl
  refine ⟨by simpa [State.busValid, hv] using hb, by simp [State.bus, hv], fun q hq => ?_⟩
  rw [State.agrees, hv, drive_lv_pin, State.pin_level]
  split
  · rfl
  · exact hq.resolve_left (by assumption)

/-- Slow writes of a list of lines, in order. -/
def levels : List (Nat × Level) → State → State
  | [], s => s
  | x :: rest, s => levels rest (s.level x.1 x.2)

/-- The state of LCD.RESET after its six slow writes (R200). -/
def resetLines (s : State) : State :=
  levels [(s.cfg.pinCS, s.cfg.csIdle), (s.cfg.pinCD, s.cfg.cdData), (s.cfg.pinWR, s.cfg.wrIdle),
    (s.cfg.pinRD, s.cfg.rdIdle), (s.cfg.pinCS, s.cfg.csActive), (s.cfg.pinCD, s.cfg.cdCommand)] s

theorem resetByte_eq (s : State) : resetByte (idleControlLines s) = write8 0x00 (resetLines s) := by
  simp only [resetByte, idleControlLines, resetLines, levels, State.level_cfg]

/-- Only bus fields differ, and the trace has grown by the given events. -/
def State.framed (s t : State) (ev : List Event) : Prop :=
  t = { s with mapped := t.mapped, latches := t.latches, streamOpen := t.streamOpen, evt := s.evt ++ ev }

theorem State.framed.trans {u : State} {ev ev' : List Event} (h : s.framed t ev) (h' : t.framed u ev') :
    s.framed u (ev ++ ev') := by
  unfold State.framed at *
  conv_lhs => rw [h', h]
  rw [List.append_assoc]

theorem level_framed (s : State) (p : Nat) (l : Level) : s.framed (s.level p l) [.lv p l] := rfl

theorem State.did.framed {m b : Bool} {ev : List Event} {l₁ l₂ : Level} {d : Byte} {xs : List Transfer}
    (h : s.did t m ev b l₁ l₂ d xs) : s.framed t ev := by
  unfold State.framed
  rw [h.mapped, h.streamOpen]
  exact h.1.1

theorem levels_framed (l : List (Nat × Level)) (s : State) : s.framed (levels l s) (l.map fun x => .lv x.1 x.2) := by
  induction l generalizing s with
  | nil =>
    unfold State.framed
    simp [levels]
  | cons x rest ih => exact (level_framed s x.1 x.2).trans (ih _)

theorem levels_cfg (l : List (Nat × Level)) (s : State) : (levels l s).cfg = s.cfg := by rw [levels_framed]

theorem levels_mapped (l : List (Nat × Level)) (s : State) : (levels l s).mapped = s.mapped := by
  induction l generalizing s with
  | nil => rfl
  | cons x rest ih => exact ih _

@[simp] theorem resetLines_cfg (s : State) : (resetLines s).cfg = s.cfg := levels_cfg _ s

/-- The pins after the six slow writes: the four control lines at their levels, no other pin moved. -/
theorem resetLines_pin (hc : ConfigOk s.cfg) :
    (resetLines s).wr = s.cfg.wrIdle ∧ (resetLines s).rd = s.cfg.rdIdle ∧ (resetLines s).cs = s.cfg.csActive ∧
      (resetLines s).cd = s.cfg.cdCommand ∧
      ∀ p, p ≠ s.cfg.pinWR → p ≠ s.cfg.pinCS → p ≠ s.cfg.pinCD → p ≠ s.cfg.pinRD →
        (resetLines s).pin p = s.pin p := by
  obtain ⟨h1, h2, h3, h4, h5, h6⟩ := controls_distinct hc.1
  refine ⟨?_, ?_, ?_, ?_, fun p p1 p2 p3 p4 => ?_⟩ <;>
    simp [State.wr, State.rd, State.cs, State.cd, resetLines, levels, State.pin_level, *, Ne.symm h5, Ne.symm h6]

/-- The six slow writes transfer nothing, and leave a replay that knows the four control lines. -/
theorem resetLines_transferred (hc : ConfigOk s.cfg) (hb : s.busValid = true) :
    (resetLines s).busValid = true ∧ (resetLines s).bus = s.bus ∧
      ∀ q ∈ [s.cfg.pinWR, s.cfg.pinCS, s.cfg.pinCD, s.cfg.pinRD], (resetLines s).agrees q := by
  obtain ⟨h1, h2, h3, h4, h5, h6⟩ := controls_distinct hc.1
  have hne := hc.2.2.2.2.1.1
  obtain ⟨a1, b1, c1⟩ := level_quiet_other hb hne (Ne.symm h1) s.cfg.csIdle
  obtain ⟨a2, b2, c2⟩ := level_quiet_other a1 hne (Ne.symm h2) s.cfg.cdData
  have hcs : ((s.level s.cfg.pinCS s.cfg.csIdle).level s.cfg.pinCD s.cfg.cdData).cs = s.cfg.csIdle := by
    simp [State.cs, State.pin_level, h4]
  obtain ⟨a3, b3, c3⟩ := level_wr_quiet a2 hc.2.2.2.2.1.2.1 h1 (c2 _ (.inr (c1 _ (.inl rfl)))) hcs s.cfg.wrIdle
  obtain ⟨a4, b4, c4⟩ := level_quiet_other a3 hne (Ne.symm h3) s.cfg.rdIdle
  obtain ⟨a5, b5, c5⟩ := level_quiet_other a4 hne (Ne.symm h1) s.cfg.csActive
  obtain ⟨a6, b6, c6⟩ := level_quiet_other a5 hne (Ne.symm h2) s.cfg.cdCommand
  refine ⟨a6, b6.trans (b5.trans (b4.trans (b3.trans (b2.trans b1)))), fun q hq => ?_⟩
  simp only [List.mem_cons, List.not_mem_nil, or_false] at hq
  rcases hq with rfl | rfl | rfl | rfl
  · exact c6 _ (.inr (c5 _ (.inr (c4 _ (.inr (c3 _ (.inl rfl)))))))
  · exact c6 _ (.inr (c5 _ (.inl rfl)))
  · exact c6 _ (.inl rfl)
  · exact c6 _ (.inr (c5 _ (.inr (c4 _ (.inl rfl)))))

/-- The three strobes of LCD.RESET with the zero byte on the bus (R200), from lines that stand ready for them: the
events, the lines they leave, and three transfers, from known control lines. -/
theorem resync_result {c : Config} (e : s.cfg = c) (hc : ConfigOk c) (h : s.mappable) (hw : s.wr = c.wrIdle)
    (hs : s.cs = c.csActive) (hd : s.cd = c.cdCommand) :
    ∃ t u, ((write8 0x00 s).bind fun s1 => (strobePulse s1).bind fun s2 => strobePulse s2) = .ok t ∧
      u = t.level c.pinCS c.csIdle ∧ t.cfg = c ∧ u.mapped = true ∧
      s.framed u (mapEvents s ++ byteEvents c 0x00 ++ pulseEvents c ++ pulseEvents c ++ [.lv c.pinCS c.csIdle]) ∧
      u.wr = c.wrIdle ∧ u.rd = s.rd ∧ u.cs = c.csIdle ∧ u.cd = c.cdCommand ∧ u.dbus = 0x00 ∧
      (∀ p, p ∉ twelvePins c → u.pin p = s.pin p) ∧
      (s.busValid = true → (∀ q ∈ [c.pinWR, c.pinCS, c.pinCD, c.pinRD], s.agrees q) →
        Transferred s u [⟨.command, 0x00⟩, ⟨.command, 0x00⟩, ⟨.command, 0x00⟩]) := by
  subst e
  obtain ⟨t1, e1, d1⟩ := write8_did hc h hw 0x00
  have et : t1 = byteState 0x00 s := by
    have := (write8_ok hc h hw 0x00).symm.trans e1
    injection this with this
    exact this.symm
  obtain ⟨t2, e2, d2⟩ := strobePulse_did (d1.configOk hc) (.inl d1.mapped) (d1.idle hw)
  have d12 := d1.trans d2
  obtain ⟨t3, e3, d3⟩ := strobePulse_did (d12.configOk hc) (.inl d2.mapped) (d12.idle hw)
  have d23 := d2.trans d3
  have d123 := d12.trans d3
  have d4 := level_cs_did d123.cfg hc s.cfg.csIdle
  have d := d123.trans d4
  rw [mapEvents_of_mapped d1.mapped, mapEvents_of_mapped d2.mapped, d1.cfg, d12.cfg, List.nil_append] at d
  refine ⟨t3, _, by rw [e1, Result.ok_bind, e2, Result.ok_bind, e3], rfl, d123.cfg, d.mapped.trans d3.mapped, d.framed,
    d.wr.trans hw, d.1.2.2.1, d.cs, ?_, ?_, d.1.2.2.2.2.2.2, fun hb hk => ?_⟩
  · rw [d.cd, d3.cd, d2.cd, d1.cd, hd]
  · rw [d.dbus, d3.dbus, d2.dbus, d1.dbus]
  · have x1 := byteState_transferred_of_controls hb hc hk hw 0x00
    rw [← et] at x1
    have x2 := d23.2 x1.1
    have x := (x1.trans x2).trans (d4.2 x2.1)
    rw [d1.cs, d1.cd, d1.dbus, d2.cs, d2.cd, d2.dbus, d1.cs, d1.cd, d1.dbus, d1.cfg, d12.cfg, hs, hd,
      xferOf_command] at x
    exact x

/-- The procedure of LCD.RESET after its checks (R200), where it runs: its events, the lines it leaves (R201), and
three transfers of a zero command byte. -/
theorem reset_result (hc : ConfigOk s.cfg) (h : s.mappable) :
    ∃ t, ((resetByte (idleControlLines s)).bind fun s1 =>
        (strobePulse s1).bind fun s2 => (strobePulse s2).bind fun s3 => .ok (finishReset s3)) =
        .ok { t with winValid := false, streamOpen := false, dstate := .reset } ∧
      t = { s with mapped := true, latches := t.latches, streamOpen := t.streamOpen,
                   evt := s.evt ++ resetEvents s.cfg (mapEvents s) } ∧
      t.wr = s.cfg.wrIdle ∧ t.rd = s.cfg.rdIdle ∧ t.cs = s.cfg.csIdle ∧ t.cd = s.cfg.cdCommand ∧ t.dbus = 0x00 ∧
      (∀ p, p ∉ twelvePins s.cfg → t.pin p = s.pin p) ∧
      (s.busValid = true →
        Transferred s t [⟨.command, 0x00⟩, ⟨.command, 0x00⟩, ⟨.command, 0x00⟩]) := by
  obtain ⟨w1, w2, w3, w4, w5⟩ := resetLines_pin hc
  have hbus := fun hb => resetLines_transferred hc hb (s := s)
  have hfr := levels_framed [(s.cfg.pinCS, s.cfg.csIdle), (s.cfg.pinCD, s.cfg.cdData), (s.cfg.pinWR, s.cfg.wrIdle),
    (s.cfg.pinRD, s.cfg.rdIdle), (s.cfg.pinCS, s.cfg.csActive), (s.cfg.pinCD, s.cfg.cdCommand)] s
  have hmapped : (resetLines s).mapped = s.mapped := levels_mapped _ s
  have hcfg := resetLines_cfg s
  rw [resetByte_eq]
  change s.framed (resetLines s) _ at hfr
  generalize resetLines s = r at *
  have henv : r.env = s.env := by rw [hfr]
  obtain ⟨t, u, e1, rfl, htc, hm, hf, k1, k2, k3, k4, k5, k6, k7⟩ :=
    resync_result hcfg hc (by rw [State.mappable, hmapped, henv]; exact h) w1 w3 w4
  have hmap : mapEvents r = mapEvents s := by rw [mapEvents, hmapped, mapEvents]
  have hall := hfr.trans hf
  rw [State.framed, hm, hmap] at hall
  refine ⟨t.level s.cfg.pinCS s.cfg.csIdle, ?_, ?_, k1, k2.trans w2, k3, k4, k5, fun p hp => ?_, fun hb => ?_⟩
  · have : ((write8 0x00 r).bind fun s1 => (strobePulse s1).bind fun s2 => strobePulse s2).bind
        (fun s3 => Result.ok (finishReset s3)) = .ok (finishReset t) := by rw [e1, Result.ok_bind]
    simp only [Result.bind_assoc] at this
    rw [this, finishReset, htc]
  · conv_lhs => rw [hall]
    simp only [resetEvents, List.map_cons, List.map_nil, List.append_assoc, List.cons_append, List.nil_append]
  · rw [k6 p hp]
    rw [mem_twelvePins] at hp
    push Not at hp
    exact w5 p hp.2.1 hp.2.2.1 hp.2.2.2.1 hp.2.2.2.2
  · obtain ⟨a, b, c⟩ := hbus hb
    have x := k7 a c
    exact ⟨x.1, by rw [x.2, b]⟩

end Sys2Proof.Machine
end

