-- ==== Sys2Proof/Laws/Decode.lean ====
section
/-! SUPPORT. The laws of the command words: the fields of a first word, and what each shape of the decoder answers. -/

namespace Sys2Proof

/-- A bit of a first word: of the immediate below bit 24, of the opcode from there on (R101). -/
theorem getLsbD_firstWord (op : Byte) (imm : BitVec 24) (i : Nat) :
    (firstWord op imm).getLsbD i = if i < 24 then imm.getLsbD i else op.getLsbD (i - 24) :=
  BitVec.getLsbD_append (x := op) (y := imm)

@[simp] theorem opcodeOf_firstWord (op : Byte) (imm : BitVec 24) : opcodeOf (firstWord op imm) = op := by
  apply BitVec.eq_of_getLsbD_eq
  intro i hi
  have h : ¬ 24 + i < 24 := by omega
  have h' : 24 + i - 24 = i := by omega
  simp only [opcodeOf, BitVec.getLsbD_extractLsb', getLsbD_firstWord, hi, h, h', decide_true, Bool.true_and, if_false]

@[simp] theorem imm24Of_firstWord (op : Byte) (imm : BitVec 24) : imm24Of (firstWord op imm) = imm := by
  apply BitVec.eq_of_getLsbD_eq
  intro i hi
  simp only [imm24Of, BitVec.getLsbD_extractLsb', getLsbD_firstWord, Nat.zero_add, hi, decide_true, Bool.true_and,
    if_true]

/-- A first word is its opcode and its immediate. -/
theorem firstWord_fields (w : Word) : firstWord (opcodeOf w) (imm24Of w) = w := by
  apply BitVec.eq_of_getLsbD_eq
  intro i hi
  simp only [firstWord, opcodeOf, imm24Of, BitVec.getLsbD_append, BitVec.getLsbD_extractLsb']
  by_cases h : i < 24
  · simp [h]
  · have h1 : i - 24 < 8 := by omega
    have h2 : 24 + (i - 24) = i := by omega
    simp [h, h1, h2]

@[simp] theorem decode_cons (w : Word) (ext : List Word) :
    decode (w :: ext) = decodeFields (opcodeOf w) (imm24Of w) ext := rfl

/-- A command without extension words is decoded from no extension word and clear reserved bits. -/
theorem withNone_eq_command {ext : List Word} {clear : Bool} {i j : Instr} :
    withNone ext clear i = .command j ↔ ext = [] ∧ clear = true ∧ i = j := by
  unfold withNone
  split
  · cases clear <;> simp
  · simp_all

theorem withOne_eq_command {ext : List Word} {clear : Bool} {f : Word → Instr} {j : Instr} :
    withOne ext clear f = .command j ↔ ∃ w1, ext = [w1] ∧ clear = true ∧ f w1 = j := by
  unfold withOne
  split
  · cases clear <;> simp
  · rename_i h
    simp only [reduceCtorEq, false_iff, not_exists, not_and]
    intro w1 e
    exact absurd e (h w1)

theorem withTwo_eq_command {ext : List Word} {clear : Bool} {f : Word → Word → Instr} {j : Instr} :
    withTwo ext clear f = .command j ↔ ∃ w1 w2, ext = [w1, w2] ∧ clear = true ∧ f w1 w2 = j := by
  unfold withTwo
  split
  · cases clear <;> simp
  · rename_i h
    simp only [reduceCtorEq, false_iff, not_exists, not_and]
    intro w1 w2 e
    exact absurd e (h w1 w2)

theorem withFour_eq_command {ext : List Word} {clear : Bool} {f : Word → Word → Byte → Word → Instr} {j : Instr} :
    withFour ext clear f = .command j ↔
      ∃ w1 w2 w3 w4, ext = [w1, w2, w3, w4] ∧ clear = true ∧ w3 >>> 8 = 0 ∧ f w1 w2 (w3.extractLsb' 0 8) w4 = j := by
  unfold withFour
  split
  · rename_i w1 w2 w3 w4
    cases clear
    · simp
    · by_cases h : w3 >>> 8 = 0
      · simp [h]
      · have h' : (w3 >>> 8 == 0) = false := beq_eq_false_iff_ne.mpr h
        simp only [h', Bool.and_false, Bool.false_eq_true, if_false, reduceCtorEq, List.cons.injEq, and_true,
          false_iff, not_exists, not_and]
        rintro _ _ _ _ ⟨-, -, rfl, -⟩ - h3
        exact absurd h3 h
  · rename_i h
    simp only [reduceCtorEq, false_iff, not_exists, not_and]
    intro w1 w2 w3 w4 e
    exact absurd e (h w1 w2 w3 w4)

/-- The reserved bits of an immediate that carries a field of `n` bits are clear. -/
theorem reservedClear_setWidth {n : Nat} (v : BitVec n) : reservedClear n (v.setWidth 24) = true := by
  simp only [reservedClear, beq_iff_eq]
  apply BitVec.eq_of_getLsbD_eq
  intro i hi
  simp only [BitVec.getLsbD_ushiftRight, BitVec.getLsbD_setWidth]
  rw [BitVec.getLsbD_of_ge v (n + i) (by omega)]
  simp

/-- An immediate with clear reserved bits is its field. -/
theorem setWidth_extract_of_clear {n : Nat} {imm : BitVec 24} (h : reservedClear n imm = true) :
    (imm.extractLsb' 0 n).setWidth 24 = imm := by
  simp only [reservedClear, beq_iff_eq] at h
  apply BitVec.eq_of_getLsbD_eq
  intro i hi
  simp only [BitVec.getLsbD_setWidth, BitVec.getLsbD_extractLsb', hi, decide_true, Bool.true_and, Nat.zero_add]
  by_cases hin : i < n
  · simp [hin]
  · have := congrArg (fun v : BitVec 24 => v.getLsbD (i - n)) h
    simp only [BitVec.getLsbD_ushiftRight] at this
    rw [show n + (i - n) = i by omega] at this
    simp [hin, this]

/-- The field of an immediate that carries it is the field. -/
theorem extract_setWidth {n : Nat} (v : BitVec n) (hn : n ≤ 24) : (v.setWidth 24).extractLsb' 0 n = v := by
  apply BitVec.eq_of_getLsbD_eq
  intro i hi
  have : i < 24 := by omega
  simp [hi, this]

/-- Two halves joined give each half back. -/
theorem extract_append (x y : Half) : (x ++ y).extractLsb' 16 16 = x ∧ (x ++ y).extractLsb' 0 16 = y := by
  have hg : ∀ j, (x ++ y : Word).getLsbD j = if j < 16 then y.getLsbD j else x.getLsbD (j - 16) :=
    fun j => BitVec.getLsbD_append (x := x) (y := y)
  constructor <;> apply BitVec.eq_of_getLsbD_eq <;> intro i hi
  · have h : ¬ 16 + i < 16 := by omega
    have h' : 16 + i - 16 = i := by omega
    simp only [BitVec.getLsbD_extractLsb', hg, hi, h, h', decide_true, Bool.true_and, if_false]
  · simp only [BitVec.getLsbD_extractLsb', hg, Nat.zero_add, hi, decide_true, Bool.true_and, if_true]

/-- A word is its two halves joined. -/
theorem append_extract (w : Word) : (w.extractLsb' 16 16 : Half) ++ (w.extractLsb' 0 16 : Half) = w := by
  apply BitVec.eq_of_getLsbD_eq
  intro i hi
  simp only [BitVec.getLsbD_append, BitVec.getLsbD_extractLsb']
  by_cases h : i < 16
  · simp [h]
  · have h1 : i - 16 < 16 := by omega
    have h2 : 16 + (i - 16) = i := by omega
    simp [h, h1, h2]

end Sys2Proof
end

