-- ==== Sys2Proof/Laws/Exec.lean ====
section
/-! SUPPORT. What a command can do, said once: the moves of the LCD commands, and from them what every LCD command
leaves, what it can halt with, and what its trace holds. -/

namespace Sys2Proof.Machine

variable {s t u : State}

/-- The primitive moves of the LCD commands: those of the bus, a delay, a write of the display registers. -/
inductive LcdMove : State → State → Prop
  | bus {s t : State} (h : BusMove s t) : LcdMove s t
  | wait (s : State) (ms : Nat) : LcdMove s (s.emit (.dl ms))
  | display (s : State) (v : Variant) (d : DriverState) (r : BitVec 2) (w h : BitVec 17) (x y : Word) (b g : Bool) :
      LcdMove s
        { s with
          variant := v
          dstate := d
          rot := r
          curW := w
          curH := h
          winx := x
          winy := y
          winValid := b
          degraded := g }

/-- Any number of moves. -/
abbrev LcdMoves : State → State → Prop := Relation.ReflTransGen LcdMove

theorem BusMoves.lcd (h : BusMoves s t) : LcdMoves s t := by
  induction h with
  | refl => exact .refl
  | tail _ hm ih => exact ih.tail (.bus hm)

/-- What a result may be of an LCD operation, from a state: moves, then perhaps the mapping fault (R183). -/
def Conducts (s : State) (x : Result) : Prop :=
  match x with
  | .ok t => LcdMoves s t
  | .stop t => ∃ u, LcdMoves s u ∧ u.mapped = false ∧ u.env.mapOk = false ∧ t = u.halt .map 0
  | .refuse _ => True

theorem Drives.conducts {x : Result} (h : Drives s x) : Conducts s x := by
  cases x with
  | ok t => exact BusMoves.lcd h
  | stop t =>
    obtain ⟨u, hu, hr⟩ := h
    exact ⟨u, hu.lcd, hr⟩
  | refuse r => trivial

theorem Conducts.after {x : Result} (h : LcdMoves s t) (hx : Conducts t x) : Conducts s x := by
  cases x with
  | ok v => exact h.trans hx
  | stop v =>
    obtain ⟨u, hu, hr⟩ := hx
    exact ⟨u, h.trans hu, hr⟩
  | refuse r => trivial

theorem Conducts.bind {x : Result} {f : State → Result} (hx : Conducts s x)
    (hf : ∀ t, LcdMoves s t → Conducts t (f t)) : Conducts s (x.bind f) := by
  cases x with
  | ok t => exact Conducts.after hx (hf t hx)
  | stop t => exact hx
  | refuse r => trivial

/-- Moves leave all but the fields of the bus and of the display: put back, those give the state before. -/
theorem LcdMoves.restore (h : LcdMoves s t) :
    { t with mapped := s.mapped, latches := s.latches, streamOpen := s.streamOpen, evt := s.evt,
             variant := s.variant, dstate := s.dstate, rot := s.rot, curW := s.curW, curH := s.curH,
             winx := s.winx, winy := s.winy, winValid := s.winValid, degraded := s.degraded } = s := by
  induction h with
  | refl => rfl
  | tail _ hm ih =>
    cases hm with
    | bus hb => cases hb <;> exact ih
    | wait ms => exact ih
    | display v d r w h x y b g => exact ih

/-- Moves leave all but the fields of the bus and of the display. -/
theorem LcdMoves.frame (h : LcdMoves s t) :
    t = { s with mapped := t.mapped, latches := t.latches, streamOpen := t.streamOpen, evt := t.evt,
                 variant := t.variant, dstate := t.dstate, rot := t.rot, curW := t.curW, curH := t.curH,
                 winx := t.winx, winy := t.winy, winValid := t.winValid, degraded := t.degraded } := by
  conv_rhs => rw [← h.restore]

theorem LcdMoves.cfg (h : LcdMoves s t) : t.cfg = s.cfg := by rw [h.frame]

theorem LcdMoves.env (h : LcdMoves s t) : t.env = s.env := by rw [h.frame]

theorem ConfigOk.led (hc : ConfigOk s.cfg) (h : LcdMoves s t) : ConfigOk t.cfg := by
  rw [h.cfg]
  exact hc

/-- Moves never unmap (R146). -/
theorem LcdMoves.mapped (h : LcdMoves s t) (hs : s.mapped = true) : t.mapped = true := by
  induction h with
  | refl => exact hs
  | tail _ hm ih =>
    cases hm with
    | bus hb => exact BusMoves.mapped (.single hb) ih
    | wait ms => exact ih
    | display v d r w h x y b g => exact ih

/-- An induction over the events of moves: what holds of no event, and is kept by an event more of those an LCD command
makes, holds of what the moves append. -/
theorem LcdMoves.trace (h : LcdMoves s t) {P : List Event → Prop} (h0 : P [])
    (hmap : ∀ l, P l → P (l ++ [.map])) (hfs : ∀ l m, P l → P (l ++ [.fs m])) (hfc : ∀ l m, P l → P (l ++ [.fc m]))
    (hlv : ∀ l p b, P l → P (l ++ [.lv p b])) (hdl : ∀ l d, P l → P (l ++ [.dl d])) :
    ∃ ev, t.evt = s.evt ++ ev ∧ P ev := by
  induction h with
  | refl => exact ⟨[], by simp, h0⟩
  | tail _ hm ih =>
    obtain ⟨ev, h2, hp⟩ := ih
    cases hm with
    | bus hb =>
      cases hb with
      | map h => exact ⟨ev ++ [.map], by simp [h2], hmap _ hp⟩
      | fast l m h =>
        refine ⟨ev ++ [fastEvent l m], by simp [h2, h], ?_⟩
        cases l
        · exact hfc _ _ hp
        · exact hfs _ _ hp
      | slow p l => exact ⟨ev ++ [.lv p l], by simp [h2], hlv _ _ _ hp⟩
      | stream b => exact ⟨ev, h2, hp⟩
    | wait ms => exact ⟨ev ++ [.dl ms], by simp [h2], hdl _ _ hp⟩
    | display v d r w h x y b g => exact ⟨ev, h2, hp⟩

theorem LcdMoves.evt (h : LcdMoves s t) : ∃ ev, t.evt = s.evt ++ ev := by
  obtain ⟨ev, h1, -⟩ := h.trace (P := fun _ => True) trivial (fun _ _ => trivial) (fun _ _ _ => trivial)
    (fun _ _ _ => trivial) (fun _ _ _ _ => trivial) fun _ _ _ => trivial
  exact ⟨ev, h1⟩

/-- Moves to a state whose resource is not mapped append slow writes and delays only (R183). -/
theorem LcdMoves.unmapped (h : LcdMoves s t) (ht : t.mapped = false) :
    ∃ ev, t.evt = s.evt ++ ev ∧ ∀ e ∈ ev, (∃ p l, e = .lv p l) ∨ ∃ d, e = .dl d := by
  induction h with
  | refl => exact ⟨[], by simp, by simp⟩
  | @tail v w hst hm ih =>
    have hv : v.mapped = false := by
      cases hvm : v.mapped with
      | false => rfl
      | true => exact absurd (LcdMoves.mapped (.single hm) hvm) (by simp [ht])
    obtain ⟨ev, h2, hp⟩ := ih hv
    cases hm with
    | bus hb =>
      cases hb with
      | map h => simp [State.emit] at ht
      | fast l m h => simp [hv] at h
      | slow p l =>
        refine ⟨ev ++ [.lv p l], by simp [h2], fun e he => ?_⟩
        rcases List.mem_append.mp he with he | he
        · exact hp e he
        · exact .inl ⟨p, l, by simpa using he⟩
      | stream b => exact ⟨ev, h2, hp⟩
    | wait ms =>
      refine ⟨ev ++ [.dl ms], by simp [h2], fun e he => ?_⟩
      rcases List.mem_append.mp he with he | he
      · exact hp e he
      · exact .inr ⟨ms, by simpa using he⟩
    | display v d r w h x y b g => exact ⟨ev, h2, hp⟩

/-- Moves keep the pin file's canonical form. -/
theorem LcdMoves.cellsOk (h : LcdMoves s t) (hs : cellsOk s.latches = true) : cellsOk t.latches = true := by
  induction h with
  | refl => exact hs
  | tail _ hm ih =>
    cases hm with
    | bus hb => exact BusMoves.cellsOk (.single hb) ih
    | wait ms => exact ih
    | display v d r w h x y b g => exact ih

/-- The latching edge of the replay leaves the levels it knows. -/
theorem busStep_pin (c : Config) (v : BusView) (e : Event) (p : Nat) : (busStep c v e).pin p = (v.drive c e).pin p := by
  simp only [busStep]
  split
  · rfl
  · split
    · simp only [BusView.edge]
      split
      · rfl
      · split
        · split <;> rfl
        · rfl
    · rfl

/-- An event that drives no line leaves what the replay knows. -/
theorem traceAgrees_quiet (h : s.traceAgrees) {e : Event} (hc : t.cfg = s.cfg) (he : t.evt = s.evt ++ [e])
    (hd : ∀ v, BusView.drive s.cfg v e = v) (hp : ∀ p, t.pin p = s.pin p) : t.traceAgrees := by
  intro p l hv
  rw [busView_snoc hc he, busStep_pin, hd] at hv
  rw [hp]
  exact h p l hv

/-- Moves keep the replay in agreement with the latches (R52). -/
theorem LcdMoves.traceAgrees (h : LcdMoves s t) (hs : s.traceAgrees) : t.traceAgrees := by
  induction h with
  | refl => exact hs
  | @tail v w _ hm ih =>
    cases hm with
    | bus hb =>
      cases hb with
      | map h => exact traceAgrees_quiet ih (e := .map) rfl rfl (fun _ => rfl) fun _ => rfl
      | fast l m h =>
        intro p b hv
        rw [busView_snoc (s := v) (t := fastState l m v) (e := fastEvent l m) rfl (by simp [h]), busStep_pin,
          drive_fast_pin] at hv
        rw [fastState_pin]
        split at hv
        · rename_i hh
          rw [if_pos hh]
          exact Option.some.inj hv
        · rename_i hh
          rw [if_neg hh]
          exact ih p b hv
      | slow p l =>
        intro q b hv
        rw [busView_snoc (s := v) (t := v.level p l) (e := .lv p l) rfl rfl, busStep_pin, drive_lv_pin] at hv
        rw [State.pin_level]
        split at hv
        · rename_i hh
          rw [if_pos hh]
          exact Option.some.inj hv
        · rename_i hh
          rw [if_neg hh]
          exact ih q b hv
      | stream b => exact ih
    | wait ms => exact traceAgrees_quiet ih (e := .dl ms) rfl rfl (fun _ => rfl) fun _ => rfl
    | display v d r w h x y b g => exact ih

/-- Moves keep at most one mapping event, there exactly when the resource is mapped (R146). -/
theorem LcdMoves.mapOnce (h : LcdMoves s t) (hs : s.mapOnce) : t.mapOnce := by
  induction h with
  | refl => exact hs
  | @tail v w _ hm ih =>
    unfold State.mapOnce at *
    cases hm with
    | bus hb =>
      cases hb with
      | map h => simp [State.emit, List.count_append, ih, h]
      | fast l m h =>
        rw [h] at ih
        cases l <;> simp [fastState, fastEvent, List.count_append, ih, h]
      | slow p l =>
        have e : (v.level p l).evt.count .map = v.evt.count .map := by simp
        rw [e]
        exact ih
      | stream b => exact ih
    | wait ms =>
      have e : (v.emit (.dl ms)).evt.count .map = v.evt.count .map := by simp
      rw [e]
      exact ih
    | display v d r w h x y b g => exact ih

theorem setWindow_conducts (hc : ConfigOk s.cfg) (x1 y1 x2 y2 : Half) : Conducts s (setWindow x1 y1 x2 y2 s) := by
  unfold setWindow
  split
  · exact .refl
  · rename_i f hf
    refine (regWrite_drives hc _ _).conducts.bind fun t ht => ?_
    refine (regWrite_drives (hc.led ht) _ _).conducts.bind fun u _ => ?_
    exact .single (.display u u.variant u.dstate u.rot u.curW u.curH _ _ _ u.degraded)

theorem runSeq_conducts (l : List InitStep) (hc : ConfigOk s.cfg) : Conducts s (runSeq l s) := by
  induction l generalizing s with
  | nil => exact .refl
  | cons x rest ih =>
    refine Conducts.bind ?_ fun t ht => ih (hc.led ht)
    rcases runInitStep_drives hc x with ⟨op, l, e, h⟩ | ⟨d, -, e⟩
    · rw [e]
      exact h.conducts
    · rw [e]
      exact .single (.wait s _)

theorem reset_conducts (hc : ConfigOk s.cfg) :
    Conducts s ((resetByte (idleControlLines s)).bind fun s1 =>
        (strobePulse s1).bind fun s2 => (strobePulse s2).bind fun s3 => .ok (finishReset s3)) := by
  have h0 : BusMoves s (idleControlLines s) :=
    (((level_drives s _ _).trans (level_drives _ _ _)).trans (level_drives _ _ _)).trans (level_drives _ _ _)
  have hc0 := hc.moved h0
  generalize idleControlLines s = r at h0 hc0
  have h1 : BusMoves r ((r.level r.cfg.pinCS r.cfg.csActive).level r.cfg.pinCD r.cfg.cdCommand) :=
    (level_drives r _ _).trans (level_drives _ _ _)
  refine Conducts.after (h0.lcd.trans h1.lcd) ?_
  have hc1 := hc0.moved h1
  refine (write8_drives hc1 0x00).conducts.bind fun t1 ht1 => ?_
  refine (strobePulse_drives (hc1.led ht1)).conducts.bind fun t2 ht2 => ?_
  refine (strobePulse_drives ((hc1.led ht1).led ht2)).conducts.bind fun t3 _ => ?_
  have m1 := (level_drives t3 t3.cfg.pinCS t3.cfg.csIdle).lcd
  have m2 := m1.tail (.bus (.stream _ false))
  exact m2.tail (.display _ t3.variant .reset t3.rot t3.curW t3.curH t3.winx t3.winy false t3.degraded)

/-- A command of the display engine that answers a next state moved, and either came to its end or took the mapping
fault (R183). -/
theorem exec_lcd {i : Instr} (hi : drivesBus i = true ∨ i = .lcdReset) (hc : ConfigOk s.cfg)
    (h : exec i s = .next t) :
    s.halted = false ∧
      (LcdMoves s t ∨ ∃ u, LcdMoves s u ∧ u.mapped = false ∧ u.env.mapOk = false ∧ t = u.halt .map 0) := by
  have key : ∀ {check : Option Refusal} {body : Result}, Conducts s body →
      (afterCheck check body = .ok t ∨ afterCheck check body = .stop t) →
      LcdMoves s t ∨ ∃ u, LcdMoves s u ∧ u.mapped = false ∧ u.env.mapOk = false ∧ t = u.halt .map 0 := by
    intro check body hb hx
    rcases hx with hx | hx
    · obtain ⟨-, rfl⟩ := afterCheck_eq_ok.mp hx
      exact .inl hb
    · obtain ⟨-, rfl⟩ := afterCheck_eq_stop.mp hx
      exact .inr hb
  cases i <;> simp [drivesBus] at hi
  case lcdWr8 v =>
    simp only [exec, execLcdWr8] at h
    obtain ⟨hh, hx⟩ := run_eq_next h
    exact ⟨hh, key (write8_drives hc v).conducts hx⟩
  case lcdWr16 v =>
    simp only [exec, execLcdWr16] at h
    obtain ⟨hh, hx⟩ := run_eq_next h
    exact ⟨hh, key (write16_drives hc v).conducts hx⟩
  case lcdWreg32 r v =>
    simp only [exec, execLcdWreg32] at h
    obtain ⟨hh, hx⟩ := run_eq_next h
    exact ⟨hh, key (regWrite_drives hc r _).conducts hx⟩
  case lcdSetwin x1 y1 x2 y2 =>
    simp only [exec, execLcdSetwin] at h
    obtain ⟨hh, hx⟩ := run_eq_next h
    exact ⟨hh, key (setWindow_conducts hc _ _ _ _) hx⟩
  case lcdFlood c n =>
    simp only [exec, execLcdFlood] at h
    obtain ⟨hh, hx⟩ := run_eq_next h
    exact ⟨hh, key (flood_drives c _ hc).conducts hx⟩
  case lcdPush b n first =>
    simp only [exec, execLcdPush] at h
    obtain ⟨hh, hx⟩ := run_eq_next h
    refine ⟨hh, key ?_ hx⟩
    refine Conducts.bind (s := s) ?_ fun r hr => ?_
    · split
      · exact (openStream_drives hc).conducts
      · exact (level_drives s _ _).lcd
    · have hl := (level_drives r r.cfg.pinCD r.cfg.cdData).lcd
      refine Conducts.after hl ?_
      refine (pushPixels_drives _ _ ((hc.led hr).led hl)).conducts.bind fun v _ => ?_
      exact (level_drives v _ _).lcd
  case lcdReset =>
    simp only [exec, execLcdReset] at h
    obtain ⟨hh, hx⟩ := run_eq_next h
    exact ⟨hh, key (reset_conducts hc) hx⟩
  case lcdInit id =>
    simp only [exec, execLcdInit] at h
    obtain ⟨hh, hx⟩ := run_eq_next h
    refine ⟨hh, key ?_ hx⟩
    split
    · exact .single (.display s .unknown .initialized s.rot s.curW s.curH s.winx s.winy s.winValid true)
    · rename_i f hf
      have h0 : LcdMoves s { s with variant := .family f } :=
        .single (.display s (.family f) s.dstate s.rot s.curW s.curH s.winx s.winy s.winValid s.degraded)
      refine Conducts.after h0 ?_
      refine (runSeq_conducts _ (hc.led h0)).bind fun r hr => ?_
      have h1 : LcdMoves r (initScreen r) :=
        .single (.display r r.variant .initialized _ _ _ r.winx r.winy r.winValid r.degraded)
      have hcr := (hc.led h0).led hr
      refine Conducts.after h1 ?_
      refine (setWindow_conducts (hcr.led h1) _ _ _ _).bind fun v hv => ?_
      refine (flood_drives _ _ ((hcr.led h1).led hv)).conducts.bind fun w _ => ?_
      exact .single (.display w w.variant .ready w.rot w.curW w.curH w.winx w.winy w.winValid w.degraded)
  case lcdSetrot r =>
    simp only [exec, execLcdSetrot] at h
    obtain ⟨hh, hx⟩ := run_eq_next h
    refine ⟨hh, key ?_ hx⟩
    split
    · exact .refl
    · split
      · trivial
      · refine (regWrite_drives hc _ _).conducts.bind fun v hv => ?_
        have h1 : LcdMoves v (v.setRotation (BitVec.ofNat 2 r)) :=
          .single (.display v v.variant v.dstate _ _ _ v.winx v.winy v.winValid v.degraded)
        exact Conducts.after h1 (setWindow_conducts ((hc.led hv).led h1) _ _ _ _)

end Sys2Proof.Machine
end

