-- ==== Sys2Proof/Laws/PerInstr.lean ====
section
/-! SUPPORT. The families of statements made for every instruction: the shape of its words. -/

namespace Sys2Proof.Laws.EncodeShape

/-- The words of an instruction: the first carries its opcode byte and its immediate, the second to last are as many as
the opcode map gives the opcode (R100, R101, R103). -/
def Statement (i : Instr) : Prop :=
  ∃ w0 ext, encode i = w0 :: ext ∧ opcodeOf w0 = opcodeByte i ∧ imm24Of w0 = immediateOf i ∧
    ext.length = extensionWords (opcodeByte i)

/-- The statement holds when the extension words are as many as the opcode has. -/
theorem of_length {i : Instr} (h : (extensionOf i).length = extensionWords (opcodeByte i)) : Statement i :=
  ⟨_, _, rfl, opcodeOf_firstWord _ _, imm24Of_firstWord _ _, h⟩

theorem gpioInit (pin : Nat) : Statement (.gpioInit pin) := of_length rfl

theorem gpioDirout (handle : Nat) : Statement (.gpioDirout handle) := of_length rfl

theorem gpioWrlvl (handle : Nat) (level : Level) : Statement (.gpioWrlvl handle level) := of_length rfl

theorem gpioFset (mask : Word) : Statement (.gpioFset mask) := of_length rfl

theorem gpioFclr (mask : Word) : Statement (.gpioFclr mask) := of_length rfl

theorem lcdWr8 (value : Byte) : Statement (.lcdWr8 value) := of_length rfl

theorem lcdWr16 (value : Half) : Statement (.lcdWr16 value) := of_length rfl

theorem lcdWreg32 (reg : Byte) (value : Word) : Statement (.lcdWreg32 reg value) := of_length rfl

theorem lcdSetwin (x1 y1 x2 y2 : Half) : Statement (.lcdSetwin x1 y1 x2 y2) := of_length rfl

theorem lcdFlood (color : Half) (len : Word) : Statement (.lcdFlood color len) := of_length rfl

theorem lcdPush (buffer count : Word) (isFirstCall : Bool) : Statement (.lcdPush buffer count isFirstCall) := of_length rfl

theorem lcdReset : Statement .lcdReset := of_length rfl

theorem lcdInit (id : Half) : Statement (.lcdInit id) := of_length rfl

theorem lcdSetrot (r : Nat) : Statement (.lcdSetrot r) := of_length rfl

theorem mixAdd (sfxId : Half) (volume step : Word) (separation : Nat) (tic : Word) : Statement (.mixAdd sfxId volume step separation tic) := of_length rfl

theorem mixTick : Statement .mixTick := of_length rfl

theorem pwmPoll : Statement .pwmPoll := of_length rfl

end Sys2Proof.Laws.EncodeShape
end

