-- ==== Sys2Proof/Laws/Step.lean ====
section
/-! SUPPORT. What a step can do, said once: the GPIO and mixer commands, a turn of the sequencer, and the inputs of the
schedule. -/

namespace Sys2Proof.Machine

variable {s t : State}

/-- What GPIO.INIT can do (R141). -/
theorem gpioInit_cases {pin : Nat} (h : exec (.gpioInit pin) s = .next t) :
    s.halted = false ∧
      ((¬(validPin s.cfg pin = true ∧ acquireOk s.env pin = true) ∧ t = s.halt .pin (BitVec.ofNat 32 pin)) ∨
        (validPin s.cfg pin = true ∧ acquireOk s.env pin = true ∧ s.owned pin = false ∧
          t = State.emit { s with owns := writePinBit s.owns pin true, res := BitVec.ofNat 32 pin } (.aq pin))) := by
  simp only [exec, execGpioInit] at h
  obtain ⟨hh, hx⟩ := run_eq_next h
  refine ⟨hh, ?_⟩
  cases hv : validPin s.cfg pin <;> cases ha : acquireOk s.env pin <;> cases ho : s.owned pin <;>
    simp [hv, ha, ho, State.raise] at hx <;> simp [hx]

/-- What GPIO.DIROUT can do (R142). -/
theorem gpioDirout_cases {p : Nat} (h : exec (.gpioDirout p) s = .next t) :
    s.halted = false ∧ validPin s.cfg p = true ∧ s.owned p = true ∧
      t = State.emit { s with dirs := writePinBit s.dirs p true } (.dirOut p) := by
  simp only [exec, execGpioDirout] at h
  obtain ⟨hh, hx⟩ := run_eq_next h
  refine ⟨hh, ?_⟩
  cases hv : validPin s.cfg p <;> cases ho : s.owned p <;> simp [hv, ho] at hx
  simp [hx]

/-- What GPIO.WRLVL can do (R143). -/
theorem gpioWrlvl_cases {p : Nat} {l : Level} (h : exec (.gpioWrlvl p l) s = .next t) :
    s.halted = false ∧ validPin s.cfg p = true ∧ s.owned p = true ∧ s.dir p = .output ∧ t = (s.level p l).closeOnEdge s := by
  simp only [exec, execGpioWrlvl] at h
  obtain ⟨hh, hx⟩ := run_eq_next h
  refine ⟨hh, ?_⟩
  by_cases hd : s.dir p = .output <;> cases hv : validPin s.cfg p <;> cases ho : s.owned p <;>
    simp [hv, ho, hd] at hx
  simp [hx, hd]

/-- What GPIO.FSET and GPIO.FCLR can do (R144, R145). -/
theorem gpioFast_cases {m : Word} {i : Instr} (hi : i = .gpioFset m ∨ i = .gpioFclr m) (hc : ConfigOk s.cfg)
    (h : exec i s = .next t) :
    s.halted = false ∧
      (BusMoves s t ∨ (s.mapped = false ∧ s.env.mapOk = false ∧ t = s.halt .map 0)) := by
  have key : ∀ (l : Level), s.run (rawDrive l m) = .next t →
      s.halted = false ∧ (BusMoves s t ∨ (s.mapped = false ∧ s.env.mapOk = false ∧ t = s.halt .map 0)) := by
    intro l h
    obtain ⟨hh, hx⟩ := run_eq_next h
    refine ⟨hh, ?_⟩
    have hd := rawDrive_drives hc l m
    rcases hx with hx | hx
    · rw [hx] at hd
      exact .inl hd
    · cases hm : s.mapped with
      | true =>
        rw [rawDrive_ok hc (.inl hm)] at hx
        cases hx
      | false =>
        cases he : s.env.mapOk with
        | true =>
          rw [rawDrive_ok hc (.inr he)] at hx
          cases hx
        | false =>
          rw [rawDrive_fault hm he] at hx
          injection hx with hx
          exact .inr ⟨rfl, rfl, hx.symm⟩
  rcases hi with rfl | rfl
  · exact key true h
  · exact key false h

/-- What MIX.ADD can do (R230): the pan fault after step 1, or the record. -/
theorem mixAdd_cases {id : Half} {volume step : Word} {separation : Nat} {tic : Word}
    (h : exec (.mixAdd id volume step separation tic) s = .next t) :
    s.halted = false ∧ ∃ x, soundOf s.env id = some x ∧ x.id = id ∧ 1 ≤ x.length ∧ 0 ≤ volume.toInt ∧
      ((panLegal (panLeft volume.toInt separation) = false ∧
          t = State.halt { s with channels := silence s.cfg id s.channels } .pan
            (BitVec.ofInt 32 (panLeft volume.toInt separation))) ∨
        (panLegal (panLeft volume.toInt separation) = true ∧ panLegal (panRight volume.toInt separation) = false ∧
          t = State.halt { s with channels := silence s.cfg id s.channels } .pan
            (BitVec.ofInt 32 (panRight volume.toInt separation))) ∨
        (panLegal (panLeft volume.toInt separation) = true ∧ panLegal (panRight volume.toInt separation) = true ∧
          t = State.recordSound { s with channels := silence s.cfg id s.channels }
            (selectSlot (silence s.cfg id s.channels)) x step tic (panLeft volume.toInt separation)
            (panRight volume.toInt separation))) := by
  simp only [exec, execMixAdd] at h
  obtain ⟨hh, hx⟩ := run_eq_next h
  refine ⟨hh, ?_⟩
  cases hs : soundOf s.env id with
  | none => simp [hs] at hx
  | some x =>
    have hid : x.id = id := by
      have := List.find?_some hs
      simpa using this
    simp only [hs] at hx
    by_cases hl : x.length < 1
    · simp [hl] at hx
    · by_cases hv : volume.toInt < 0
      · simp [hl, hv] at hx
      · refine ⟨x, rfl, hid, by omega, by omega, ?_⟩
        simp only [hl, hv, if_false, addSound, hid, State.raise] at hx
        cases h1 : panLegal (panLeft volume.toInt separation) <;>
          cases h2 : panLegal (panRight volume.toInt separation) <;> simp [h1, h2] at hx <;> simp [hx]

/-- What MIX.TICK does (R245). -/
theorem mixTick_cases (h : exec .mixTick s = .next t) : s.halted = false ∧ t = mixTick s := by
  simp only [exec, execMixTick] at h
  obtain ⟨hh, hx⟩ := run_eq_next h
  refine ⟨hh, ?_⟩
  rcases hx with hx | hx
  · injection hx with hx
    exact hx.symm
  · cases hx

/-- What PWM.POLL does (R270). -/
theorem pwmPoll_cases (h : exec .pwmPoll s = .next t) :
    s.halted = false ∧
      ((s.lastIdx.toNat < sampleIndex s.cfg s.t0 s.env.now ∧ t = emitSample (sampleIndex s.cfg s.t0 s.env.now) s) ∨
        (sampleIndex s.cfg s.t0 s.env.now ≤ s.lastIdx.toNat ∧ t = s)) := by
  simp only [exec, execPwmPoll] at h
  obtain ⟨hh, hx⟩ := run_eq_next h
  refine ⟨hh, ?_⟩
  by_cases hn : s.lastIdx.toNat < sampleIndex s.cfg s.t0 s.env.now
  · simp [hn] at hx
    simp [hn, hx]
  · simp [hn] at hx
    subst hx
    exact .inr ⟨by omega, rfl⟩

/-- What a turn of the sequencer may be: moves of the display engine with the counters, the phase and the busy flag
written at their end, or the mapping fault. -/
def Turns (s : State) (x : Result) : Prop :=
  match x with
  | .ok t => ∃ u, LcdMoves s u ∧
      t = { u with flBlocks := t.flBlocks, flInblk := t.flInblk, flRem := t.flRem, flLeft := t.flLeft,
                   puIdx := t.puIdx, inIdx := t.inIdx, rsCnt := t.rsCnt, phase := t.phase, busyR := t.busyR }
  | .stop t => ∃ u, LcdMoves s u ∧ u.mapped = false ∧ u.env.mapOk = false ∧ t = u.halt .map 0
  | .refuse _ => True

/-- A procedure of the display engine, then a result that only writes the sequencer's own fields. -/
theorem Conducts.turn {x : Result} {f : State → Result} (hx : Conducts s x)
    (hf : ∀ u, ∃ w t, f u = .ok t ∧ LcdMoves u w ∧
      t = { w with flBlocks := t.flBlocks, flInblk := t.flInblk, flRem := t.flRem, flLeft := t.flLeft,
                   puIdx := t.puIdx, inIdx := t.inIdx, rsCnt := t.rsCnt, phase := t.phase, busyR := t.busyR }) :
    Turns s (x.bind f) := by
  cases x with
  | ok u =>
    obtain ⟨w, t, e, hm, ht⟩ := hf u
    change Turns s (f u)
    rw [e]
    exact ⟨w, Relation.ReflTransGen.trans hx hm, ht⟩
  | stop t => exact hx
  | refuse r => trivial

theorem countBlock_frame (s : State) :
    countBlock s = { s with flBlocks := (countBlock s).flBlocks, flInblk := (countBlock s).flInblk } := by
  unfold countBlock
  split <;> rfl

theorem loadFlood_frame (s : State) :
    loadFlood s = { s with flBlocks := (loadFlood s).flBlocks, flInblk := (loadFlood s).flInblk,
                           flRem := (loadFlood s).flRem, flLeft := (loadFlood s).flLeft } := by
  unfold loadFlood
  split <;> rfl

/-- What a turn of the sequencer does. -/
theorem seqStep_turns (hc : ConfigOk s.cfg) : Turns s (seqStep s) := by
  have lv : ∀ (r : State) p l, LcdMoves r (r.level p l) := fun r p l => (level_drives r p l).lcd
  unfold seqStep
  cases hp : s.phase <;> simp only
  case idle => exact ⟨s, .refl, rfl⟩
  case fCmd => exact (openStream_drives hc).conducts.turn fun u => ⟨_, _, rfl, lv u _ _, rfl⟩
  case fFirstHi => exact (write8_drives hc _).conducts.turn fun u => ⟨u, _, rfl, .refl, rfl⟩
  case fFirstLo =>
    refine (write8_drives hc _).conducts.turn fun u => ⟨u, _, rfl, .refl, ?_⟩
    rw [loadFlood_frame]
  case fBlock =>
    refine (strobePixel_drives hc).conducts.turn fun u => ⟨u, _, rfl, .refl, ?_⟩
    rw [countBlock_frame]
  case fRem => exact (strobePixel_drives hc).conducts.turn fun u => ⟨u, _, rfl, .refl, rfl⟩
  case fPixHi => exact (write8_drives hc _).conducts.turn fun u => ⟨u, _, rfl, .refl, rfl⟩
  case fPixLo => exact (write8_drives hc _).conducts.turn fun u => ⟨u, _, rfl, .refl, rfl⟩
  case fEnd =>
    split
    · exact ⟨_, lv s _ _, rfl⟩
    · exact ⟨_, lv s _ _, rfl⟩
  case pCmd =>
    refine Conducts.turn ?_ fun u => ⟨_, _, rfl, lv u _ _, rfl⟩
    split
    · exact (openStream_drives hc).conducts
    · exact lv s _ _
  case pPixHi => exact (write8_drives hc _).conducts.turn fun u => ⟨u, _, rfl, .refl, rfl⟩
  case pPixLo => exact (write8_drives hc _).conducts.turn fun u => ⟨u, _, rfl, .refl, rfl⟩
  case pEnd => exact ⟨_, lv s _ _, rfl⟩
  case iSeq =>
    split
    · rename_i x _
      refine Conducts.turn ?_ fun u => ⟨u, _, rfl, .refl, rfl⟩
      rcases runInitStep_drives hc x with ⟨op, l, e, h⟩ | ⟨d, -, e⟩
      · rw [e]
        exact h.conducts
      · rw [e]
        exact .single (.wait s _)
    · exact ⟨s, .refl, rfl⟩
  case iWin =>
    have h1 : LcdMoves s (initScreen s) :=
      .single (.display s s.variant .initialized _ _ _ s.winx s.winy s.winValid s.degraded)
    exact (Conducts.after h1 (setWindow_conducts (hc.led h1) _ _ _ _)).turn fun u => ⟨u, _, rfl, .refl, rfl⟩
  case iFlood => exact ⟨s, .refl, rfl⟩
  case iEnd =>
    exact ⟨_, .single (.display s s.variant .ready s.rot s.curW s.curH s.winx s.winy s.winValid s.degraded), rfl⟩
  case rsIdle =>
    exact ⟨_, (((lv s _ _).trans (lv _ _ _)).trans (lv _ _ _)).trans (lv _ _ _), rfl⟩
  case rsByte =>
    have h1 : LcdMoves s ((s.level s.cfg.pinCS s.cfg.csActive).level s.cfg.pinCD s.cfg.cdCommand) :=
      (lv s _ _).trans (lv _ _ _)
    exact (Conducts.after h1 (write8_drives (hc.led h1) 0x00).conducts).turn fun u => ⟨u, _, rfl, .refl, rfl⟩
  case rsPulse => exact (strobePulse_drives hc).conducts.turn fun u => ⟨u, _, rfl, .refl, rfl⟩
  case rsEnd =>
    have h1 := (lv s s.cfg.pinCS s.cfg.csIdle).tail (.bus (.stream _ false))
    exact ⟨_, h1.tail (.display _ s.variant .reset s.rot s.curW s.curH s.winx s.winy false s.degraded), rfl⟩

/-- What beginning a command step by step can do (R24): the big step of a command without phases; for LCD.FLOOD,
LCD.PUSH, LCD.RESET and LCD.INIT of a recognised identifier their checks and their first phase. -/
theorem start_cases {i : Instr} (h : startExec i s = .next t) :
    exec i s = .next t ∨
      (s.halted = false ∧
        ((∃ color len, i = .lcdFlood color len ∧ floodCheck len.toNat s = none ∧ t = { s with held := s.opr0, phase := .fCmd }) ∨
          (∃ buffer count first, i = .lcdPush buffer count first ∧ pushCheck first s = none ∧
            t = { s with held := s.opr0, puIdx := 0, phase := .pCmd }) ∨
          (i = .lcdReset ∧ resetCheck s = none ∧ t = { s with phase := .rsIdle }) ∨
          ∃ id, i = .lcdInit id ∧ initCheck s = none ∧
            ((classify s.cfg id = .unknown ∧ t = initUnknown s) ∨
              ∃ f r, classify s.cfg id = .family f ∧ r = { s with variant := .family f, inIdx := 0 } ∧
                t = { r with phase := initPhase r }))) := by
  cases i
  case lcdFlood color len =>
    simp only [startExec, startFlood] at h
    obtain ⟨hh, hx⟩ := run_eq_next h
    obtain ⟨hk, hx⟩ := afterCheck_next hx
    simp only [toPhase, Result.ok.injEq, reduceCtorEq, or_false] at hx
    exact .inr ⟨hh, .inl ⟨color, len, rfl, hk, hx.symm⟩⟩
  case lcdPush buffer count first =>
    simp only [startExec, startPush] at h
    obtain ⟨hh, hx⟩ := run_eq_next h
    obtain ⟨hk, hx⟩ := afterCheck_next hx
    simp only [toPhase, Result.ok.injEq, reduceCtorEq, or_false] at hx
    exact .inr ⟨hh, .inr (.inl ⟨buffer, count, first, rfl, hk, hx.symm⟩)⟩
  case lcdReset =>
    simp only [startExec, startReset] at h
    obtain ⟨hh, hx⟩ := run_eq_next h
    obtain ⟨hk, hx⟩ := afterCheck_next hx
    simp only [toPhase, Result.ok.injEq, reduceCtorEq, or_false] at hx
    exact .inr ⟨hh, .inr (.inr (.inl ⟨rfl, hk, hx.symm⟩))⟩
  case lcdInit id =>
    simp only [startExec, startInit] at h
    obtain ⟨hh, hx⟩ := run_eq_next h
    obtain ⟨hk, hx⟩ := afterCheck_next hx
    refine .inr ⟨hh, .inr (.inr (.inr ⟨id, rfl, hk, ?_⟩))⟩
    split at hx
    · rename_i hc
      simp only [Result.ok.injEq, reduceCtorEq, or_false] at hx
      exact .inl ⟨hc, hx.symm⟩
    · rename_i f hc
      simp only [toPhase, Result.ok.injEq, reduceCtorEq, or_false] at hx
      exact .inr ⟨f, _, hc, rfl, hx.symm⟩
  all_goals exact .inl h

/-- What a command of context A can write (R311): the channel file, `RES_A`, the PWM driver's registers and the trace. -/
theorem contextA_frame {i : Instr} (hi : contextOf i = .A) (h : exec i s = .next t) :
    s.halted = false ∧
      t = { s with resA := t.resA, channels := t.channels, lastIdx := t.lastIdx, dutyNs := t.dutyNs, evt := t.evt,
                   freeCount := t.freeCount } := by
  cases i <;> try cases hi
  case mixTick =>
    obtain ⟨hh, rfl⟩ := mixTick_cases h
    exact ⟨hh, rfl⟩
  case pwmPoll =>
    obtain ⟨hh, ⟨-, rfl⟩ | ⟨-, rfl⟩⟩ := pwmPoll_cases h
    · refine ⟨hh, ?_⟩
      unfold emitSample State.setLastIdx
      dsimp only
      split <;> rfl
    · exact ⟨hh, rfl⟩

/-- A command without phases runs whole however it is given (R24). -/
theorem startExec_eq {i : Instr} (h1 : ∀ color len, i ≠ .lcdFlood color len)
    (h2 : ∀ buffer count first, i ≠ .lcdPush buffer count first) (h3 : i ≠ .lcdReset) (h4 : ∀ id, i ≠ .lcdInit id) :
    startExec i s = exec i s := by
  cases i <;> first
    | rfl
    | exact absurd rfl (h1 _ _)
    | exact absurd rfl (h2 _ _ _)
    | exact absurd rfl h3
    | exact absurd rfl (h4 _)

/-- What accepting a command can write (R101): the command register, the operand registers, the busy flags. -/
theorem accept_frame (s : State) (ctx : Context) (w0 : Word) (ext : List Word) :
    ∃ o1 o2 o3 o4,
      s.accept ctx (w0 :: ext) =
        State.setBusy
          { s with cmdw := w0, opr0 := (imm24Of w0).setWidth 32, opr1 := o1, opr2 := o2, opr3 := o3, opr4 := o4 }
          ctx true := by
  rcases ext with _ | ⟨a, _ | ⟨b, _ | ⟨c, _ | ⟨d, rest⟩⟩⟩⟩ <;>
    exact ⟨_, _, _, _, rfl⟩

/-- What freeing a context can write (R23): its busy flag, and that of context R only in `IDLE`. -/
theorem finish_frame (s : State) :
    s.finish .A = { s with busyA := false } ∧ s.finish .R = { s with busyR := s.busyR && decide (s.phase ≠ .idle) } := by
  refine ⟨rfl, ?_⟩
  by_cases h : s.phase = .idle <;> simp [State.finish, State.setBusy, h]

/-- What the end of a command can give back to an operation of context R (R21): `CMDW`. -/
theorem resume_frame (t before : State) (ctx : Context) :
    t.resume before ctx =
      { t with cmdw := if ctx = .A ∧ before.occupied .R = true then before.cmdw else t.cmdw } := by
  cases ctx with
  | R => rfl
  | A => by_cases h : before.occupied .R = true <;> simp [State.resume, h]

@[simp] theorem State.resume_R (t before : State) : t.resume before .R = t := rfl

/-- What a step that answers a next state did: a turn of the sequencer; a command of the port, accepted, run whole or
begun, its context freed, the operation in execution resumed; a new clock; a pixel. -/
theorem step_cases (h : step s = .next t) :
    s.halted = false ∧ ConfigOk s.cfg ∧
      ((s.port = [] ∧ (seqStep s).outcome = .next t) ∨
        ∃ x rest, s.port = x :: rest ∧
          ((x = .tick ∧ (seqStep { s with port := rest }).outcome = .next t) ∨
            (∃ ctx words i v, (x = .issue ctx words ∨ x = .start ctx words) ∧ decode words = .command i ∧
              contextOf i = ctx ∧ s.occupied ctx = false ∧
              ((x = .issue ctx words ∧ exec i (State.accept { s with port := rest } ctx words) = .next v) ∨
                (x = .start ctx words ∧ startExec i (State.accept { s with port := rest } ctx words) = .next v)) ∧
              t = (v.finish ctx).resume { s with port := rest } ctx) ∨
            (∃ now, x = .clock now ∧ s.env.now.toNat ≤ now.toNat ∧
              t = { s with port := rest, env := { s.env with now := now } }) ∨
            ∃ a v, x = .pixel a v ∧ s.occupied .R = false ∧ t = State.writePix { s with port := rest } a v)) := by
  unfold step machineStep at h
  by_cases hh : s.halted = true
  · rw [if_pos hh] at h
    cases h
  · rw [if_neg hh] at h
    by_cases hc : ConfigOk s.cfg
    · rw [if_neg (not_not.mpr hc)] at h
      refine ⟨Bool.not_eq_true _ ▸ hh, hc, ?_⟩
      have cmd : ∀ (exe : Instr → State → Host.Outcome State Fault Refusal) (r : State) (ctx : Context)
          (words : List Word), portCommand exe ctx words r = .next t →
          ∃ i v, decode words = .command i ∧ contextOf i = ctx ∧ r.occupied ctx = false ∧
            exe i (r.accept ctx words) = .next v ∧ t = (v.finish ctx).resume r ctx := by
        intro exe r ctx words hp
        unfold portCommand at hp
        split at hp
        · cases hp
        · rename_i i hd
          by_cases h1 : contextOf i = ctx
          · rw [if_neg (not_not.mpr h1)] at hp
            cases h2 : r.occupied ctx with
            | true => simp [h2] at hp
            | false =>
              simp only [h2, Bool.false_eq_true, if_false] at hp
              split at hp
              · rename_i v hv
                injection hp with hp
                exact ⟨i, v, hd, h1, rfl, hv, hp.symm⟩
              · cases hp
              · cases hp
          · rw [if_pos h1] at hp
            cases hp
      cases hport : s.port with
      | nil =>
        rw [hport] at h
        exact .inl ⟨rfl, h⟩
      | cons x rest =>
        rw [hport] at h
        refine .inr ⟨x, rest, rfl, ?_⟩
        cases x with
        | issue ctx words =>
          obtain ⟨i, v, h1, h2, h3, h4, h5⟩ := cmd exec _ ctx words h
          exact .inr (.inl ⟨ctx, words, i, v, .inl rfl, h1, h2, h3, .inl ⟨rfl, h4⟩, h5⟩)
        | start ctx words =>
          obtain ⟨i, v, h1, h2, h3, h4, h5⟩ := cmd startExec _ ctx words h
          exact .inr (.inl ⟨ctx, words, i, v, .inr rfl, h1, h2, h3, .inr ⟨rfl, h4⟩, h5⟩)
        | tick => exact .inl ⟨rfl, h⟩
        | clock now =>
          simp only [portInput, portClock] at h
          by_cases hn : now.toNat < s.env.now.toNat
          · simp [hn] at h
          · simp only [hn, if_false] at h
            injection h with h
            exact .inr (.inr (.inl ⟨now, rfl, by omega, h.symm⟩))
        | pixel a v =>
          have h : portPixel a v { s with port := rest } = .next t := h
          unfold portPixel at h
          cases ho : State.occupied { s with port := rest } .R with
          | true =>
            rw [if_pos ho] at h
            cases h
          | false =>
            rw [if_neg (by rw [ho]; decide)] at h
            injection h with h
            exact .inr (.inr (.inr ⟨a, v, rfl, ho, h.symm⟩))
    · rw [if_pos hc] at h
      cases h

end Sys2Proof.Machine
end

