-- ==== Sys2Proof/Tests/Slice0.lean ====
section
/-! SUPPORT. The author's tests: ill-formed terms, the words of 95_test_vectors.md section 2.1, one or two steps of each
command with the results that 95_test_vectors.md gives, and for every statement with hypotheses a state and operands
that meet them. -/

namespace Sys2Proof.Tests

open Sys2Proof.Machine

/-! ## Well-formedness: one ill-formed term for each check -/

theorem test_refuses_wide_pin : WellFormed (.gpioInit 65536) = false := by decide

theorem test_refuses_wide_dirout_handle : WellFormed (.gpioDirout 65536) = false := by decide

theorem test_refuses_wide_wrlvl_handle : WellFormed (.gpioWrlvl 65536 true) = false := by decide

theorem test_refuses_fifth_rotation : WellFormed (.lcdSetrot 4) = false := by decide

theorem test_refuses_wide_separation : WellFormed (.mixAdd 5 100 0x00018000 256 7) = false := by decide

/-! ## Decoding: a word of every command, written out in 95_test_vectors.md section 2.1 -/

theorem test_decode_gpioInit :
    decode [0x01000030] = .command (.gpioInit 48) ∧ decode [0x0100FFFF] = .command (.gpioInit 65535) := by decide

theorem test_decode_gpioDirout : decode [0x02000031] = .command (.gpioDirout 49) := by decide

theorem test_decode_gpioWrlvl :
    decode [0x03010031] = .command (.gpioWrlvl 49 true) ∧
      decode [0x03000030] = .command (.gpioWrlvl 48 false) := by decide

theorem test_decode_gpioFset : decode [0x04000000, 0x00010000] = .command (.gpioFset 0x00010000) := by decide

theorem test_decode_gpioFclr : decode [0x05000000, 0x0000FF00] = .command (.gpioFclr 0x0000FF00) := by decide

theorem test_decode_lcdWr8 : decode [0x100000A5] = .command (.lcdWr8 0xA5) := by decide

theorem test_decode_lcdWr16 : decode [0x1100F800] = .command (.lcdWr16 0xF800) := by decide

theorem test_decode_lcdWreg32 : decode [0x1200002A, 0x000A0013] = .command (.lcdWreg32 0x2A 0x000A0013) := by decide

theorem test_decode_lcdSetwin :
    decode [0x13000000, 0x000A0013, 0x0014001D] = .command (.lcdSetwin 10 20 19 29) := by decide

theorem test_decode_lcdFlood : decode [0x1400F800, 0x00000064] = .command (.lcdFlood 0xF800 100) := by decide

theorem test_decode_lcdPush :
    decode [0x15000001, 0x00000100, 0x00000002] = .command (.lcdPush 0x100 2 true) ∧
      decode [0x15000000, 0x00000102, 0x00000003] = .command (.lcdPush 0x102 3 false) := by decide

theorem test_decode_lcdReset : decode [0x18000000] = .command .lcdReset := by decide

theorem test_decode_lcdInit : decode [0x190000A1] = .command (.lcdInit 0x00A1) := by decide

theorem test_decode_lcdSetrot : decode [0x1A000003] = .command (.lcdSetrot 3) := by decide

theorem test_decode_mixAdd :
    decode [0x20000005, 0x00000064, 0x00018000, 0x00000040, 0x00000007] =
        .command (.mixAdd 5 100 0x00018000 64 7) ∧
      decode [0x20000005, 0xFFFFFFFF, 0x00010000, 0x00000000, 0xFFFFFFFF] =
        .command (.mixAdd 5 (-1) 0x00010000 0 (-1)) := by decide

theorem test_decode_mixTick : decode [0x21000000] = .command .mixTick := by decide

theorem test_decode_pwmPoll : decode [0x28000000] = .command .pwmPoll := by decide

theorem test_decode_illegal :
    decode [0x00000000] = .illegal (.unknownOpcode 0x00) ∧ decode [0x06000000] = .illegal (.unknownOpcode 0x06) ∧
      decode [0xFF000000] = .illegal (.unknownOpcode 0xFF) ∧ decode [0x01010030] = .illegal .reservedBits ∧
      decode [0x03020031] = .illegal .reservedBits ∧ decode [0x04000001, 0] = .illegal .reservedBits ∧
      decode [0x10000100] = .illegal .reservedBits ∧ decode [0x13000001, 0, 0] = .illegal .reservedBits ∧
      decode [0x15000002, 0, 0] = .illegal .reservedBits ∧ decode [0x18000001] = .illegal .reservedBits ∧
      decode [0x1A000004] = .illegal .reservedBits ∧
      decode [0x20000005, 0x40, 0x10000, 0x00000100, 0] = .illegal .reservedBits ∧
      decode [0x21000001] = .illegal .reservedBits := by decide

theorem test_table_word :
    decodeTableWord 32 0x04000000 = some (.gpioFset 0) ∧
      decodeTableWord 96 0x0014001D000A001313000000 = some (.lcdSetwin 10 20 19 29) := by decide

/-! ## States -/

/-- The twelve pins acquired and made outputs, nothing else done (95_test_vectors.md P1 before LCD.RESET). -/
def setUp : State := { State.reset with dirs := [(1, 0x000FFF00)], owns := [(1, 0x000FFF00)] }

/-- The bus idle: mapped, the control lines idle, the data lines 0, the trace one that leads there. -/
def idleBus : State :=
  { setUp with
    mapped := true
    latches := [(1, 0x000F0000)]
    evt := [.map, .lv 48 true, .lv 49 true, .lv 50 true, .lv 51 true, .fc 0x0000FF00] }

/-- After LCD.RESET. -/
def resetDone : State := { idleBus with dstate := .reset }

/-- Brought up in variant A (95_test_vectors.md P1). -/
def ready : State :=
  { idleBus with
    dstate := .ready
    variant := .family .A
    curW := 240
    curH := 320
    winx := 0x000000EF
    winy := 0x0000013F
    winValid := true
    streamOpen := true }

/-- After LCD.INIT of an unrecognised identifier (95_test_vectors.md P6). -/
def degradedUp : State := { idleBus with dstate := .initialized, variant := .unknown, degraded := true }

/-- With the pixels of 95_test_vectors.md section 2.3. -/
def withPixels : State :=
  { ready with
    env := { ready.env with
      pix := [(0x100, 0xF800), (0x101, 0x07E0), (0x102, 0x001F), (0x103, 0xFFFF), (0x104, 0x1234)] } }

/-- With the sound of 95_test_vectors.md P4 and an exclusive one; a silent buffer has no sample. -/
def withSounds : State :=
  { State.reset with
    env := { Env.reference with
      sounds := [⟨5, 0x1000, 5⟩, ⟨1, 0x3000, 3⟩, ⟨9, 0x4000, 0⟩]
      pcm := [(0x1000, 128), (0x1001, 255), (0x1003, 200), (0x1004, 64)] } }

/-- The channel of `MIX.ADD 5, 100, 0x00018000, 64, 7` (95_test_vectors.md section 2.5). -/
def sound5 : Channel :=
  { Channel.idle with
    active := true
    ptr := 0x1000
    stop := 0x1005
    step := 0x00018000
    startTic := 7
    lvol := 94
    rvol := 44
    sfxid := 5 }

/-- An instance of the exclusive sound 1 with a start-tic. -/
def sound1 (tic : Word) : Channel :=
  { Channel.idle with
    active := true
    ptr := 0x3000
    stop := 0x3003
    step := 0x00010000
    startTic := tic
    sfxid := 1 }

/-- The P4 sound in slot 0. -/
def playing : State := { withSounds with channels := sound5 :: List.replicate 7 Channel.idle }

/-- The exclusive sound 1 in slot 0. -/
def playing1 : State := { withSounds with channels := sound1 4 :: List.replicate 7 Channel.idle, handleCtr := 1 }

/-- Eight channels with the start-tics 5, 6, 7, -1, 8, 9, 10, 11 (95_test_vectors.md M3). -/
def full : List Channel :=
  [5, 6, 7, -1, 8, 9, 10, 11].map fun tic => { sound5 with startTic := BitVec.ofInt 32 tic }

/-- The state after an instruction. -/
def after (i : Instr) (s : State) : Option State := nextOf (exec i s)

/-- Why an instruction is refused, if it is. -/
def refusal (i : Instr) (s : State) : Option Refusal :=
  match exec i s with
  | .next _ => none
  | .fault _ => none
  | .refused r => some r

/-- What an instruction emits. -/
def emitted (i : Instr) (s : State) : Option (List Event) := (after i s).map fun t => t.evt.drop s.evt.length

/-- What an instruction adds to `BUS`. -/
def transferred (i : Instr) (s : State) : Option (List Transfer) := (after i s).map fun t => t.bus.drop s.bus.length

/-! ## GPIO (95_test_vectors.md section 2.2) -/

theorem test_gpioInit :
    (after (.gpioInit 48) State.reset).map (fun t => (t.owned 48, t.res, t.dir 48, t.evt)) =
      some (true, 48, .unconfigured, [.aq 48]) := by decide

theorem test_gpioInit_invalid :
    (after (.gpioInit 999) State.reset).map (fun t => (t.evt, t.fault, t.faultInfo, t.halted)) =
      some ([.halt 1], .pin, 999, true) := by decide

theorem test_gpioDirout :
    (after (.gpioDirout 48) { State.reset with owns := [(1, 0x00010000)] }).map (fun t => (t.dir 48, t.dir 49, t.evt)) =
      some (.output, .unconfigured, [.dirOut 48]) := by decide

theorem test_gpioDirout_no_handle : refusal (.gpioDirout 47) State.reset = some .noSuchHandle := by decide

theorem test_gpioWrlvl :
    (after (.gpioWrlvl 48 true) setUp).map (fun t => (t.pin 48, t.pin 49, t.mapped, t.evt)) =
      some (true, false, false, [.lv 48 true]) := by decide

theorem test_gpioWrlvl_not_output :
    refusal (.gpioWrlvl 48 true) { State.reset with owns := [(1, 0x00010000)] } = some .notAnOutput := by decide

theorem test_gpioFset :
    (after (.gpioFset 0x0000A500) setUp).map (fun t => (t.mapped, t.evt, t.dbus)) =
      some (true, [.map, .fs 0x0000A500], 0xA5) := by decide

theorem test_gpioFset_map_fault :
    (after (.gpioFset 0x00010000) { setUp with env := { Env.reference with mapOk := false } }).map
      (fun t => (t.evt, t.fault, t.faultInfo, t.mapped, t.pin 48)) = some ([.halt 2], .map, 0, false, false) := by decide

theorem test_gpioFclr :
    (after (.gpioFclr 0x0000FF00) { ready with latches := [(1, 0x000FA500)] }).map
      (fun t => (t.dbus, t.pin 48, t.evt.drop 6)) = some (0x00, true, [.fc 0x0000FF00]) := by decide

/-! ## The protocol engine (95_test_vectors.md section 2.3) -/

theorem test_lcdWr8_merged :
    emitted (.lcdWr8 0xA5) ready = some [.fs 0x0000A500, .fc 0x00015A00, .fs 0x00010000] := by decide

theorem test_lcdWr8_compliant :
    emitted (.lcdWr8 0xA5) { ready with cfg := { Config.reference with strobe := .compliant } } =
      some [.fs 0x0000A500, .fc 0x00005A00, .fc 0x00010000, .fs 0x00010000] := by decide

theorem test_lcdWr16 :
    emitted (.lcdWr16 0xF800) ready =
      some [.fs 0x0000F800, .fc 0x00010700, .fs 0x00010000, .fs 0x00000000, .fc 0x0001FF00, .fs 0x00010000] := by
  decide

theorem test_lcdWreg32 :
    emitted (.lcdWreg32 0x2A 0x000A0013) ready =
      some [.lv 49 false, .lv 50 false, .fs 0x00002A00, .fc 0x0001D500, .fs 0x00010000, .lv 50 true, .fs 0x00000000,
        .fc 0x0001FF00, .fs 0x00010000, .fs 0x00000A00, .fc 0x0001F500, .fs 0x00010000, .fs 0x00000000,
        .fc 0x0001FF00, .fs 0x00010000, .fs 0x00001300, .fc 0x0001EC00, .fs 0x00010000, .lv 49 true] := by decide

theorem test_lcdWreg32_bus :
    transferred (.lcdWreg32 0x2A 0x000A0013) ready =
      some [⟨.command, 0x2A⟩, ⟨.data, 0x00⟩, ⟨.data, 0x0A⟩, ⟨.data, 0x00⟩, ⟨.data, 0x13⟩] := by decide

theorem test_lcdSetwin :
    (after (.lcdSetwin 10 20 19 29) ready).map (fun t => (t.winx, t.winy, t.winValid, t.streamOpen)) =
      some (0x000A0013, 0x0014001D, true, false) := by decide

theorem test_lcdFlood_equal :
    emitted (.lcdFlood 0x0000 3) ready =
      some [.lv 49 false, .lv 50 false, .fs 0x00002C00, .fc 0x0001D300, .fs 0x00010000, .lv 50 true, .fs 0x00000000,
        .fc 0x0001FF00, .fs 0x00010000, .fs 0x00000000, .fc 0x0001FF00, .fs 0x00010000, .fc 0x00010000,
        .fs 0x00010000, .fc 0x00010000, .fs 0x00010000, .fc 0x00010000, .fs 0x00010000, .fc 0x00010000,
        .fs 0x00010000, .lv 49 true] := by decide

theorem test_lcdFlood_unequal_bus :
    transferred (.lcdFlood 0xF800 2) ready =
      some [⟨.command, 0x2C⟩, ⟨.data, 0xF8⟩, ⟨.data, 0x00⟩, ⟨.data, 0xF8⟩, ⟨.data, 0x00⟩] := by decide

theorem test_lcdPush_bus :
    transferred (.lcdPush 0x100 2 true) withPixels =
      some [⟨.command, 0x2C⟩, ⟨.data, 0xF8⟩, ⟨.data, 0x00⟩, ⟨.data, 0x07⟩, ⟨.data, 0xE0⟩] := by decide

theorem test_lcdPush_none :
    emitted (.lcdPush 0x100 0 false) withPixels = some [.lv 49 false, .lv 50 true, .lv 49 true] := by decide

/-! ## The controller (95_test_vectors.md section 2.4) -/

theorem test_lcdReset :
    emitted .lcdReset setUp =
      some [.lv 49 true, .lv 50 true, .lv 48 true, .lv 51 true, .lv 49 false, .lv 50 false, .map, .fs 0x00000000,
        .fc 0x0001FF00, .fs 0x00010000, .fc 0x00010000, .fs 0x00010000, .fc 0x00010000, .fs 0x00010000,
        .lv 49 true] := by decide

theorem test_lcdReset_bus :
    (after .lcdReset setUp).map (fun t => (t.bus, t.dstate, t.cd, t.wr)) =
      some ([⟨.command, 0x00⟩, ⟨.command, 0x00⟩, ⟨.command, 0x00⟩], .reset, false, true) := by decide

theorem test_lcdInit_unknown :
    (after (.lcdInit 0x1234) resetDone).map (fun t => (t.variant, t.dstate, t.degraded, t.evt.length)) =
      some (.unknown, .initialized, true, 6) := by decide

/-- On a panel of 2 by 1 with a sequence of one delay: 38 events of the window and 17 of the flood (R169, R174). -/
theorem test_lcdInit :
    (after (.lcdInit 0x00A1)
      { resetDone with
        cfg := { Config.reference with
          nativeW := 2, nativeH := 1, tableA := { Config.referenceTable with initSeq := [.delay .ms150] } } }).map
      (fun t => (t.dstate, t.rot, t.winx, t.winy, t.evt.length, t.bus.length)) =
      some (.ready, 0, 1, 0, 6 + 1 + 38 + 17, 10 + 5) := by decide +kernel

theorem test_lcdSetrot :
    (after (.lcdSetrot 3) ready).map (fun t => (t.rot, t.curW, t.curH, t.winx, t.winy, t.streamOpen)) =
      some (3, 320, 240, 0x0000013F, 0x000000EF, false) := by decide

theorem test_lcdSetrot_bus :
    (transferred (.lcdSetrot 1) ready).map (fun l => (l.take 2, l.length)) =
      some ([⟨.command, 0x36⟩, ⟨.data, 0x28⟩], 12) := by decide +kernel

/-! ## The mixer and the PWM driver (95_test_vectors.md sections 2.5 and 2.6, P4) -/

theorem test_mixAdd :
    (after (.mixAdd 5 100 0x00018000 64 7) withSounds).map (fun t => (t.channels[0]?, t.res, t.handleCtr)) =
      some (some sound5, 0, 1) := by decide

/-- 95_test_vectors.md X3: the silencing of step 1 stays, nothing is recorded. -/
theorem test_mixAdd_pan :
    (after (.mixAdd 1 128 0x00010000 0 2) playing1).map
      (fun t => (t.fault, t.faultInfo, t.channels[0]?, t.handleCtr)) =
      some (.pan, 128, some { sound1 4 with active := false }, 1) := by decide

/-- 95_test_vectors.md M3: the comparison of start-tics is signed. -/
theorem test_selectSlot : selectSlot full = 3 := by decide

/-- 95_test_vectors.md section 2.5: volumes, left and right. -/
theorem test_pan :
    (panLeft 127 128, panRight 127 128) = (95, 96) ∧ (panLeft 100 64, panRight 100 64) = (94, 44) ∧
      (panLeft 127 254, panRight 127 254) = (1, 127) ∧ (panLeft 300 128, panRight 300 128) = (224, 225) := by decide

theorem test_mixTick :
    (after .mixTick { playing with channels := [{ sound5 with ptr := 0x1001, frac := 0x8000 }] }).map
      (fun t => (t.resA, t.channels[0]?)) = some (32767, some { sound5 with ptr := 0x1003 }) := by decide

theorem test_mixTick_end :
    (after .mixTick { playing with channels := [{ sound5 with ptr := 0x1004, frac := 0x8000 }] }).map
      (fun t => (t.resA.toInt, t.channels[0]?)) =
      some (-17802, some { sound5 with ptr := 0x1006, active := false }) := by decide

theorem test_pwmPoll :
    (after .pwmPoll { playing with t0 := 5000, env := { playing.env with now := 95703 } }).map
      (fun t => (t.evt, t.lastIdx, t.dutyNs)) = some ([.pw ['4', '5', '3', '5', '1']], 1, 45351) := by decide

theorem test_pwmPoll_early :
    (after .pwmPoll { playing with t0 := 5000, env := { playing.env with now := 95702 } }).map
      (fun t => (t.evt, t.lastIdx)) = some ([], 0) := by decide

/-! ## The machine -/

theorem test_first_step_runs_the_word :
    (nextOf (step (State.reset.withFetchWord 32 0x01000030))).map (fun t => (t.res, t.cmdw, t.busyR, t.port)) =
      some (48, 0x01000030, false, []) := by decide

theorem test_phase_step :
    (nextOf (step { ready with port := [.start .R [0x14000000, 0x00000003]] })).map (fun t => (t.phase, t.busyR)) =
      some (.fCmd, true) := by decide

/-- MIX.TICK between two phases of LCD.FLOOD: `OPR[0]` has its immediate (R20), `CMDW` the flood's word (R21), and the
flood goes on with its colour (R177). -/
theorem test_tick_between_phases :
    (nextOf (step { ready with
      phase := .fFirstHi, busyR := true, cmdw := 0x1400F800, opr0 := 0xF800, held := 0xF800, streamOpen := true,
      port := [.issue .A [0x21000000]] })).map
        (fun t => (t.cmdw, t.opr0, t.phase, t.busyA, t.floodColor)) =
      some (0x1400F800, 0, .fFirstHi, false, 0xF800) := by decide

/-- A raw edge at command level, with chip-select active, ends the stream; at data level it does not (R45, R52). -/
theorem test_raw_edge_ends_stream :
    (after (.gpioFset 0x00010000) { ready with streamOpen := true, latches := [(1, 0x00080000)] }).map
        (fun t => (t.wr, t.streamOpen)) = some (true, false) ∧
      (after (.gpioWrlvl 48 true) { ready with streamOpen := true, latches := [(1, 0x000C0000)] }).map
        (fun t => (t.wr, t.streamOpen)) = some (true, true) := by decide

/-! ## For every statement with hypotheses, a state and operands that meet them -/

theorem reference_ok : ConfigOk Config.reference := by decide

/-- An outcome that is a next state with a property. -/
theorem next_of {o : Host.Outcome State Fault Refusal} {p : State → Bool} (h : (nextOf o).any p = true) :
    ∃ t, o = .next t ∧ p t = true := by
  cases o <;> simp_all [nextOf]

theorem ready_busReady : ready.busReady := ⟨rfl, reference_ok, .inl rfl, by decide⟩

theorem ready_synced : ready.busSynced := ⟨by decide, by decide⟩

theorem ready_displayOk : ready.displayOk :=
  ⟨fun _ => rfl, fun h => (by cases h), fun h => (by cases h), fun _ => ⟨by decide, rfl, rfl, rfl⟩,
   fun h => (by cases h), fun h => (by cases h)⟩

theorem ready_sequencerOk : ready.sequencerOk := by
  refine ⟨fun h => absurd rfl h, ?_, ?_, ?_, ?_, ?_, fun h => absurd h (by decide)⟩ <;> decide

theorem witness_DecodeOfEncode :
    WellFormed (.gpioInit 65535) = true ∧ WellFormed (.gpioWrlvl 65535 true) = true ∧
      WellFormed (.lcdSetrot 3) = true ∧ WellFormed (.mixAdd 5 (-1) 0x00018000 255 (-1)) = true := by decide

theorem witness_EncodeOfDecode : decode [0x1A000003] = .command (.lcdSetrot 3) := by decide

/-- Words with a reserved bit, as the next input of a machine that runs. -/
theorem witness_IllegalWordsRefused :
    spells 0x1A000003 [] ∧ ¬ spells 0x1A000004 [] ∧
      ∀ x ∈ [HostInput.issue .R [0x1A000004], .start .R [0x1A000004]],
        { ready with port := [x] }.halted = false ∧ ConfigOk { ready with port := [x] }.cfg := by
  refine ⟨⟨⟨0x1A000000, 0xFFFFFFFC, 0⟩, by decide, by decide, rfl, fun h => absurd h (by decide)⟩, ?_,
    fun x _ => ⟨rfl, reference_ok⟩⟩
  rintro ⟨row, hr, h, -⟩
  have : ∀ row ∈ opcodeMap, ¬ (0x1A000004 &&& row.mask = row.value) := by decide
  exact this row hr h

theorem witness_OperandAssembly :
    decode [0x20000005, 0x00000064, 0x00018000, 0x00000040, 0x00000007] =
        .command (.mixAdd 5 100 0x00018000 64 7) ∧
      decode [0x18000000] = .command .lcdReset ∧ decode [0x21000000] = .command .mixTick := by decide

theorem witness_StepRunsDecodedCommand :
    ready.halted = false ∧ ConfigOk ready.cfg ∧ decode [0x100000A5] = .command (.lcdWr8 0xA5) ∧
      contextOf (.lcdWr8 0xA5) = .R ∧ ready.occupied .R = false ∧ decode [0x21000000] = .command .mixTick ∧
      contextOf .mixTick = .A ∧ ready.occupied .A = false ∧ ready.port = [] ∧ ready.phase = .idle ∧
      { ready with busyR := true }.occupied .R = true ∧
      (∃ t, step { ready with busyR := true, port := [.issue .A [0x21000000]] } = .next t ∧ (!t.halted) = true) ∧
      ∃ t, step { ready with port := [.start .A [0x21000000]] } = .next t ∧ (!t.halted) = true :=
  ⟨rfl, reference_ok, by decide, rfl, rfl, by decide, rfl, rfl, rfl, rfl, rfl,
   next_of (p := fun t => !t.halted) (by decide), next_of (p := fun t => !t.halted) (by decide)⟩

theorem witness_HaltedNeverExecutes : (ready.halt .pan 128).halted = true := rfl

theorem witness_ScheduleInputs :
    ready.halted = false ∧ ConfigOk ready.cfg ∧
      decode [0x21000000] = .command .mixTick ∧ contextOf .mixTick ≠ .R ∧ contextOf .mixTick = .A ∧
      { ready with busyA := true }.occupied .A = true ∧
      (4 : BitVec 64).toNat < { ready with env := { ready.env with now := 5 } }.env.now.toNat ∧
      { ready with env := { ready.env with now := 5 } }.env.now.toNat ≤ (5 : BitVec 64).toNat ∧
      { ready with busyR := true }.occupied .R = true ∧ ready.occupied .R = false :=
  ⟨rfl, reference_ok, by decide, by decide, rfl, rfl, by decide, by decide, rfl, rfl⟩

theorem witness_GpioInitAcquires :
    State.reset.halted = false ∧ validPin State.reset.cfg 191 = true ∧ acquireOk State.reset.env 191 = true ∧
      State.reset.owned 191 = false := by decide

/-- The first pin that does not exist, and one that is not granted. -/
theorem witness_GpioInitFaults :
    State.reset.halted = false ∧ validPin State.reset.cfg 192 = false ∧
      acquireOk { State.reset with env := { Env.reference with denied := [⟨50, 1⟩] } }.env 50 = false := by decide

theorem witness_GpioDiroutMakesOutput :
    ready.halted = false ∧ validPin ready.cfg 48 = true ∧ ready.owned 48 = true := by decide

/-- Raw commands have selected the controller at a command or data level and made the strobe active: an edge is due. -/
def edgeDue (cd : Level) : State :=
  (((ready.level 49 false).level 50 cd).level 48 false)

/-- The same on a board whose strobe is active at 1, where GPIO.FCLR makes the edge. -/
def edgeDueHigh : State :=
  (({ ready with
      cfg := { Config.reference with wrActive := true, wrIdle := false }
      latches := [(1, 0x000E0000)]
      evt := [.lv 48 false, .lv 51 true, .fc 0x0000FF00, .lv 49 false, .lv 50 false] }).level 49 false).level 50 false
    |>.level 48 true

theorem edgeDue_synced : (edgeDue false).busSynced ∧ (edgeDue true).busSynced ∧ edgeDueHigh.busSynced :=
  ⟨⟨by decide, by decide⟩, ⟨by decide, by decide⟩, ⟨by decide, by decide⟩⟩

/-- An edge of GPIO.WRLVL from a synced bus, at command level and at data level, and with a stream open before it. -/
theorem witness_GpioWrlvlDrivesOnePin_edge :
    (edgeDue false).halted = false ∧ (edgeDue false).owned 48 = true ∧ (edgeDue false).dir 48 = .output ∧
      (edgeDue false).streamOpen = true ∧
      (∃ t, exec (.gpioWrlvl 48 true) (edgeDue false) = .next t ∧
        (t.busValid && !t.streamOpen && t.bus == (edgeDue false).bus ++ [⟨.command, 0x00⟩]) = true) ∧
      ∃ t, exec (.gpioWrlvl 48 true) (edgeDue true) = .next t ∧
        (t.busValid && t.streamOpen && t.bus == (edgeDue true).bus ++ [⟨.data, 0x00⟩]) = true :=
  ⟨rfl, by decide, by decide, rfl,
   next_of (p := fun t => t.busValid && !t.streamOpen && t.bus == (edgeDue false).bus ++ [⟨.command, 0x00⟩]) (by decide),
   next_of (p := fun t => t.busValid && t.streamOpen && t.bus == (edgeDue true).bus ++ [⟨.data, 0x00⟩]) (by decide)⟩

/-- An edge of GPIO.FSET and one of GPIO.FCLR from a synced bus, at command level; and one that moves a data line too,
after which the bus trace has no value (U12). -/
theorem witness_FastWritesDriveTheMask_edge :
    ConfigOk (edgeDue false).cfg ∧ (edgeDue false).mappable ∧ ConfigOk edgeDueHigh.cfg ∧ edgeDueHigh.mappable ∧
      (∃ t, exec (.gpioFset 0x00010000) (edgeDue false) = .next t ∧
        (t.busValid && !t.streamOpen && t.bus == (edgeDue false).bus ++ [⟨.command, 0x00⟩]) = true) ∧
      (∃ t, exec (.gpioFclr 0x00010000) edgeDueHigh = .next t ∧
        (t.busValid && !t.streamOpen && t.bus == edgeDueHigh.bus ++ [⟨.command, 0x00⟩]) = true) ∧
      ∃ t, exec (.gpioFset 0x00010100) (edgeDue false) = .next t ∧ (!t.busValid && !t.streamOpen) = true :=
  ⟨reference_ok, .inl rfl, by decide, .inl rfl,
   next_of (p := fun t => t.busValid && !t.streamOpen && t.bus == (edgeDue false).bus ++ [⟨.command, 0x00⟩]) (by decide),
   next_of (p := fun t => t.busValid && !t.streamOpen && t.bus == edgeDueHigh.bus ++ [⟨.command, 0x00⟩]) (by decide),
   next_of (p := fun t => !t.busValid && !t.streamOpen) (by decide)⟩

theorem witness_GpioWrlvlDrivesOnePin :
    ready.halted = false ∧ validPin ready.cfg 48 = true ∧ ready.owned 48 = true ∧ ready.dir 48 = .output ∧
      ready.busSynced ∧ ∃ t, exec (.gpioWrlvl 48 true) ready = .next t ∧ t.busValid = true :=
  ⟨rfl, by decide, by decide, by decide, ready_synced, next_of (p := fun t => t.busValid) (by decide)⟩

theorem witness_FastWritesDriveTheMask :
    ready.halted = false ∧ ConfigOk ready.cfg ∧ ready.mappable ∧ setUp.mappable ∧ ready.busSynced ∧
      (∃ t, exec (.gpioFset 0x00010000) ready = .next t ∧ t.busValid = true) ∧
      ∃ t, exec (.gpioFclr 0x00010000) ready = .next t ∧ t.busValid = true :=
  ⟨rfl, reference_ok, .inl rfl, .inr rfl, ready_synced, next_of (p := fun t => t.busValid) (by decide),
   next_of (p := fun t => t.busValid) (by decide)⟩

theorem witness_FastWriteMapFault :
    { setUp with env := { Env.reference with mapOk := false } }.halted = false ∧
      { setUp with env := { Env.reference with mapOk := false } }.mapped = false ∧
      { setUp with env := { Env.reference with mapOk := false } }.env.mapOk = false := ⟨rfl, rfl, rfl⟩

/-- The first and the last of the six groups. -/
theorem witness_RegisterMapDrivesGroups :
    ConfigOk ready.cfg ∧ groupExists ready.cfg 0 = true ∧ groupExists ready.cfg 5 = true ∧
      groupExists ready.cfg 6 = false := ⟨reference_ok, by decide, by decide, by decide⟩

theorem witness_GpioRefusals :
    ready.halted = false ∧ validPin ready.cfg 48 = true ∧ acquireOk ready.env 48 = true ∧ ready.owned 48 = true ∧
      validPin ready.cfg 192 = false ∧ ready.owned 52 = false ∧
      { State.reset with owns := [(1, 0x00010000)] }.owned 48 = true ∧
      { State.reset with owns := [(1, 0x00010000)] }.dir 48 = .unconfigured := by decide

theorem witness_DataBusPattern : ready.cfg = Config.reference ∧ ConfigOk Config.reference ∧ ready.mappable :=
  ⟨rfl, reference_ok, .inl rfl⟩

/-- With the strobe idle, at both levels of chip-select, and with the strobe active. -/
theorem witness_ByteWriteContract :
    ConfigOk ready.cfg ∧ ready.mappable ∧ ready.wr = ready.cfg.wrIdle ∧ ready.busSynced ∧
      ready.cs ≠ ready.cfg.csActive ∧ { ready with latches := [(1, 0x00090000)] }.cs = ready.cfg.csActive ∧
      { ready with latches := [(1, 0x00090000)] }.cd = ready.cfg.cdCommand ∧
      { ready with latches := [(1, 0x000E0000)] }.wr ≠ ready.cfg.wrIdle :=
  ⟨reference_ok, .inl rfl, by decide, ready_synced, by decide, by decide, by decide, by decide⟩

theorem witness_ByteAndWordCommands :
    ready.busReady ∧ ready.pinsReady = true ∧ ready.dstate ≠ .uninitialized :=
  ⟨ready_busReady, by decide, by decide⟩

theorem witness_RegisterWriteCommand :
    ready.busReady ∧ ready.pinsReady = true ∧ ready.dstate ≠ .uninitialized ∧ ready.busSynced :=
  ⟨ready_busReady, by decide, by decide, ready_synced⟩

/-- A window of one pixel, the smallest. -/
theorem witness_WindowCommand :
    ready.busReady ∧ ready.pinsReady = true ∧ (ready.dstate = .initialized ∨ ready.dstate = .ready) ∧
      ready.variant = .family .A ∧ (5 : Half).toNat ≤ (5 : Half).toNat :=
  ⟨ready_busReady, by decide, .inr rfl, rfl, le_refl _⟩

/-- In a recognised variant with a window and in the Unknown variant without; one pixel, the least. -/
theorem witness_FloodResult :
    ready.busReady ∧ ready.pinsReady = true ∧ (ready.dstate = .initialized ∨ ready.dstate = .ready) ∧
      (ready.variant = .unknown ∨ ready.winValid = true) ∧ 0 < (1 : Word).toNat ∧
      degradedUp.dstate = .initialized ∧ degradedUp.variant = .unknown :=
  ⟨ready_busReady, by decide, .inr rfl, .inr rfl, by decide, rfl, rfl⟩

/-- A colour of each kind; LCD.WR16 of it completes on the same configuration. -/
theorem witness_FloodPaths :
    ready.busReady ∧ ready.pinsReady = true ∧ ready.dstate = .ready ∧ ready.winValid = true ∧
      hiByte 0xABAB = loByte 0xABAB ∧ hiByte 0xF800 ≠ loByte 0xF800 ∧ 0 < (1 : Word).toNat ∧ ready.mapped = true ∧
      ∃ r, exec (.lcdWr16 0xF800) ready = .next r ∧ (r.cfg == ready.cfg) = true :=
  ⟨ready_busReady, by decide, rfl, rfl, by decide, by decide, by decide, rfl,
   next_of (p := fun r => r.cfg == ready.cfg) (by decide)⟩

theorem witness_FloodBusTrace :
    ready.busReady ∧ ready.pinsReady = true ∧ ready.dstate = .ready ∧ ready.variant = .family .A ∧
      ready.winValid = true ∧ ready.busSynced ∧ degradedUp.variant = .unknown :=
  ⟨ready_busReady, by decide, rfl, rfl, rfl, ready_synced, rfl⟩

theorem witness_FloodEventCounts :
    ready.busReady ∧ ready.mapped = true ∧ ready.pinsReady = true ∧ ready.dstate = .ready ∧ ready.winValid = true ∧
      0 < (0xFFFFFFFF : Word).toNat ∧ ready.cfg.strobe = .merged ∧
      { ready with cfg := { ready.cfg with strobe := .compliant } }.cfg.strobe = .compliant :=
  ⟨ready_busReady, rfl, by decide, rfl, rfl, by decide, rfl, rfl⟩

theorem witness_PushResult :
    ready.busReady ∧ ready.pinsReady = true ∧ ready.dstate = .ready ∧ ready.winValid = true ∧
      ready.streamOpen = true := ⟨ready_busReady, by decide, rfl, rfl, rfl⟩

/-- The last pixel address and the largest sum of counts. -/
theorem witness_PushChunks :
    ready.busReady ∧ ready.pinsReady = true ∧ ready.busSynced ∧ ready.dstate = .ready ∧ ready.winValid = true ∧
      (0xFFFFFFFE : Word).toNat + (1 : Word).toNat < 4294967296 ∧
      (1 : Word).toNat + (0xFFFFFFFE : Word).toNat < 4294967296 :=
  ⟨ready_busReady, by decide, ready_synced, rfl, rfl, by decide, by decide⟩

theorem witness_LcdFaultsOnlyMap :
    let s := { setUp with env := { Env.reference with mapOk := false } }
    s.halted = false ∧ ConfigOk s.cfg ∧ s.mapped = false ∧ s.env.mapOk = false ∧ s.pinsReady = true ∧
      s.dstate = .uninitialized ∧ ∃ t, exec .lcdReset s = .next t ∧ t.halted = true :=
  ⟨rfl, reference_ok, rfl, rfl, by decide, rfl, next_of (p := fun t => t.halted) (by decide)⟩

theorem witness_LcdRefusedOutOfState :
    State.reset.halted = false ∧ State.reset.pinsReady = false ∧ setUp.pinsReady = true ∧
      setUp.dstate = .uninitialized ∧ ready.pinsReady = true ∧ ready.dstate ≠ .uninitialized ∧ ready.dstate ≠ .reset ∧
      resetDone.pinsReady = true ∧ resetDone.dstate ≠ .initialized ∧ resetDone.dstate ≠ .ready := by decide

theorem witness_OperandRefusals :
    ready.halted = false ∧ ready.pinsReady = true ∧ ready.dstate = .ready ∧ (9 : Half).toNat < (10 : Half).toNat ∧
      { ready with winValid := false }.variant ≠ .unknown ∧ { ready with winValid := false }.winValid = false ∧
      ready.winValid = true ∧ { ready with streamOpen := false }.streamOpen = false ∧
      { ready with variant := .family .C }.variant = .family .C ∧ soundOf withSounds.env 7 = none ∧
      soundOf withSounds.env 9 = some ⟨9, 0x4000, 0⟩ ∧ soundOf withSounds.env 5 = some ⟨5, 0x1000, 5⟩ ∧
      (-1 : Word).toInt < 0 := by decide

theorem witness_ControlLinesIdle :
    ConfigOk ready.cfg ∧ ready.displayOk ∧ ready.linesIdle ∧ drivesBus (.lcdWr8 0xA5) = true ∧
      (∃ t, exec (.lcdWr8 0xA5) ready = .next t ∧ (!t.halted) = true) ∧ setUp.displayOk ∧
      ∃ t, exec .lcdReset setUp = .next t ∧ (!t.halted) = true :=
  ⟨reference_ok, ready_displayOk, ⟨by decide, by decide, by decide⟩, rfl,
   next_of (p := fun t => !t.halted) (by decide),
   ⟨fun h => absurd rfl h, fun _ => ⟨rfl, rfl⟩, fun h => (by cases h), fun h => (by cases h), fun h => (by cases h),
    fun h => (by cases h)⟩, next_of (p := fun t => !t.halted) (by decide)⟩

theorem witness_StrobeVariantsSameBus :
    ready.busReady ∧ ready.displayOk ∧ ready.busSynced ∧ drivesBus (.lcdWreg32 0x2A 0x000A0013) = true ∧
      ∃ t, exec (.lcdWreg32 0x2A 0x000A0013) ready = .next t ∧ (!t.halted) = true :=
  ⟨ready_busReady, ready_displayOk, ready_synced, rfl, next_of (p := fun t => !t.halted) (by decide)⟩

theorem witness_ResetCommand :
    setUp.halted = false ∧ ConfigOk setUp.cfg ∧ setUp.mappable ∧ setUp.pinsReady = true ∧
      setUp.dstate = .uninitialized ∧ setUp.busValid = true :=
  ⟨rfl, reference_ok, .inr rfl, by decide, rfl, rfl⟩

theorem witness_InitCommand :
    resetDone.busReady ∧ resetDone.mapped = true ∧ resetDone.pinsReady = true ∧ resetDone.dstate = .reset ∧
      0x00C1 ∈ resetDone.cfg.idsC ∧ resetDone.busSynced :=
  ⟨⟨rfl, reference_ok, .inl rfl, by decide⟩, rfl, by decide, rfl, by decide, by decide, by decide⟩

theorem witness_UnknownVariant :
    resetDone.halted = false ∧ resetDone.pinsReady = true ∧ resetDone.dstate = .reset ∧
      0x0000 ∉ resetDone.cfg.idsA ∧ 0x0000 ∉ resetDone.cfg.idsB ∧ 0x0000 ∉ resetDone.cfg.idsC ∧
      degradedUp.halted = false ∧ degradedUp.pinsReady = true ∧
      degradedUp.dstate = .initialized ∧ degradedUp.variant = .unknown ∧ (5 : Half).toNat ≤ (5 : Half).toNat := by
  decide

theorem witness_RotationCommand :
    ready.busReady ∧ ready.mapped = true ∧ ready.pinsReady = true ∧ ready.dstate = .ready ∧
      ready.variant = .family .A ∧ Config.referenceRot = ready.cfg.rotA ∧
      { ready with variant := .family .B }.variant = .family .B ∧ Config.referenceRot = ready.cfg.rotB ∧ 3 < 4 :=
  ⟨ready_busReady, rfl, by decide, rfl, rfl, rfl, rfl, rfl, by decide⟩

theorem witness_BringUpEndToEnd :
    setUp.halted = false ∧ ConfigOk setUp.cfg ∧ setUp.mappable ∧ setUp.pinsReady = true ∧
      setUp.dstate = .uninitialized ∧ setUp.busValid = true ∧ setUp.bus = [] ∧
      0x00A1 ∈ setUp.cfg.idsA :=
  ⟨rfl, reference_ok, .inr rfl, by decide, rfl, rfl, rfl, by decide⟩

theorem witness_DriverStateTransitions :
    ConfigOk setUp.cfg ∧ ConfigOk resetDone.cfg ∧
      (∃ t, exec .lcdReset setUp = .next t ∧ decide (t.dstate = .reset) = true) ∧
      ∃ t, exec (.lcdInit 0x1234) resetDone = .next t ∧ decide (t.dstate = .initialized) = true :=
  ⟨reference_ok, reference_ok, next_of (p := fun t => decide (t.dstate = .reset)) (by decide),
   next_of (p := fun t => decide (t.dstate = .initialized)) (by decide)⟩

theorem witness_AddSoundRecords :
    withSounds.halted = false ∧ withSounds.channels.length = 8 ∧
      soundOf withSounds.env 5 = some ⟨5, 0x1000, 5⟩ ∧ 0 ≤ (127 : Word).toInt ∧
      (127 : Int) = (127 : Word).toInt - (127 : Word).toInt * (0 + 1) * (0 + 1) / 65536 ∧
      (0 : Int) = (127 : Word).toInt - (127 : Word).toInt * (0 + 1 - 257) * (0 + 1 - 257) / 65536 := by decide

/-- The boundaries of the two ranges of volumes and of the separations. -/
theorem witness_PanStaysInRange : (0 : Int) ≤ 127 ∧ (127 : Int) ≤ 127 ∧ (65535 : Int) < 65536 ∧ 255 < 256 := by decide

/-- A volume that faults on the left at separation 0, one that faults on the right at 255, one that cannot fault. -/
theorem witness_PanFault :
    withSounds.halted = false ∧ soundOf withSounds.env 5 = some ⟨5, 0x1000, 5⟩ ∧ 0 ≤ (128 : Word).toInt ∧ 255 < 256 ∧
      ¬ ((128 : Word).toInt - (128 : Word).toInt * (0 + 1) * (0 + 1) / 65536 ≤ 127) ∧
      ¬ ((128 : Word).toInt - (128 : Word).toInt * (255 + 1 - 257) * (255 + 1 - 257) / 65536 ≤ 127) ∧
      (127 : Word).toInt ≤ 127 ∧
      ∃ t, exec (.mixAdd 5 127 0x00010000 0 1) withSounds = .next t ∧ (!t.halted) = true :=
  ⟨rfl, by decide, by decide, by decide, by decide, by decide, by decide,
   next_of (p := fun t => !t.halted) (by decide)⟩

/-- A property of the two exclusive ids of the reference configuration. -/
theorem exclusive_ids {P : Half → Prop} (h1 : P 1) (h2 : P 2) : ∀ id ∈ Config.reference.exclusiveIds, P id := by
  intro id h
  rcases List.mem_cons.mp (show id ∈ ([1, 2] : List Half) from h) with rfl | h
  · exact h1
  · rw [List.mem_singleton.mp h]
    exact h2

theorem playing1_channelsOk : playing1.channelsOk :=
  ⟨rfl, by decide, exclusive_ids (by decide) (by decide), by decide⟩

theorem witness_ExclusiveRetrigger :
    playing1.channelsOk ∧ 1 ∈ playing1.cfg.exclusiveIds ∧
      (∃ ch ∈ playing1.channels, ch.active = true ∧ ch.sfxid = 1) ∧
      ∃ t, exec (.mixAdd 1 100 0x00008000 0 13) playing1 = .next t ∧ (!t.halted) = true :=
  ⟨playing1_channelsOk, by decide, ⟨sound1 4, .head _, rfl, rfl⟩, next_of (p := fun t => !t.halted) (by decide)⟩

/-- The same for a sound that is not exclusive: with free slots, and with all eight active. -/
theorem witness_ExclusiveRetrigger_other :
    playing1.channelsOk ∧ 5 ∉ playing1.cfg.exclusiveIds ∧ (∃ ch ∈ playing1.channels, ch.active = false) ∧
      (∃ t, exec (.mixAdd 5 100 0x00018000 64 7) playing1 = .next t ∧ (!t.halted) = true) ∧
      { playing1 with channels := List.replicate 8 sound5 }.channelsOk ∧
      (∀ ch ∈ List.replicate 8 sound5, ch.active = true) ∧
      ∃ t, exec (.mixAdd 5 100 0x00018000 64 7) { playing1 with channels := List.replicate 8 sound5 } = .next t ∧
        (!t.halted) = true :=
  ⟨playing1_channelsOk, by decide, by decide, next_of (p := fun t => !t.halted) (by decide),
   ⟨rfl, by decide, exclusive_ids (by decide) (by decide), by decide⟩, by decide,
   next_of (p := fun t => !t.halted) (by decide)⟩

/-- A list with a free slot, and one with none. -/
theorem witness_SlotSelection :
    playing.channels ≠ [] ∧ (∃ x ∈ playing.channels, x.active = false) ∧ full ≠ [] ∧
      ∀ x ∈ full, x.active = true := by decide

theorem witness_TickMixesAndAdvances :
    playing.halted = false ∧ playing.channels[0]? = some sound5 ∧ sound5.active = true ∧
      playing.channels[1]? = some Channel.idle ∧ Channel.idle.active = false ∧
      ([7] : List Int)[(0 : BitVec 7).toNat * 256 + (0 : Byte).toNat]? = some 7 ∧
      ([7] : List Int).length ≤ (0 : BitVec 7).toNat * 256 + (1 : Byte).toNat := by decide

/-- A general step, a whole one, and step 0; a buffer of one sample. -/
theorem witness_ChannelLifetime :
    playing.channels[0]? = some sound5 ∧ sound5.active = true ∧ sound5.frac = 0 ∧ sound5.stop = sound5.ptr + 5 ∧
      0 < sound5.step.toNat ∧ (sound1 4).step.toNat = 1 * 65536 ∧ (sound1 4).stop = (sound1 4).ptr + 3 ∧
      { sound1 4 with step := 0 }.step = 0 ∧ { sound1 4 with stop := 0x3001 }.stop = (sound1 4).ptr + 1 := by decide

/-- An index that has not advanced, one that has by one, and one of 2^64 or more. -/
theorem witness_PollEmitsOnce :
    playing.halted = false ∧ (90702 - 0) * playing.cfg.sampleRate / 1000000000 ≤ playing.lastIdx.toNat ∧
      playing.lastIdx.toNat < (90703 - 0) * playing.cfg.sampleRate / 1000000000 ∧
      (90703 - 0) * playing.cfg.sampleRate / 1000000000 < 18446744073709551616 ∧
      ¬ ((1000000000 - 0) * 18446744073709551616 / 1000000000 < 18446744073709551616) := by decide

theorem witness_DutyMapping :
    0 < Config.reference.pwmPeriodNs ∧ (-32768 : Int) ≤ 32767 ∧ (32767 : Int) ≤ 32767 ∧ (-32768 : Int) ≤ -32768 := by
  decide

theorem witness_DecimalSpelling : (∃ t, exec .pwmPoll playing = .next t ∧ t.evt.isEmpty = true) ∧ 0 < 45351 :=
  ⟨next_of (p := fun t => t.evt.isEmpty) (by decide), by decide⟩

theorem playing_pollsOk : playing.pollsOk := by
  refine ⟨?_, ?_, ?_⟩ <;> decide

theorem witness_StepKeepsPollCount :
    playing.cfg.sampleRate ≤ 1000000000 ∧ playing.pollsOk ∧
      ∃ t, step { playing with port := [.issue .A [0x28000000]], env := { playing.env with now := 90703 } } = .next t ∧
        decide (t.evt.length = 1) = true :=
  ⟨by decide, playing_pollsOk, next_of (p := fun t => decide (t.evt.length = 1)) (by decide)⟩

theorem witness_CommandFrame :
    ConfigOk ready.cfg ∧ ∃ t, exec (.lcdWr8 0xA5) ready = .next t ∧ t.mapped = true :=
  ⟨reference_ok, next_of (p := fun t => t.mapped) (by decide)⟩

theorem witness_HalvesAreIndependent :
    ConfigOk ready.cfg ∧ displayHalf (.lcdWr8 0xA5) = true ∧ displayHalf .mixTick = false ∧ contextOf .mixTick = .A ∧
      (∃ t, exec (.lcdWr8 0xA5) ready = .next t ∧ (!t.halted) = true) ∧
      ∃ t, exec .mixTick ready = .next t ∧ (!t.halted) = true :=
  ⟨reference_ok, rfl, rfl, rfl, next_of (p := fun t => !t.halted) (by decide),
   next_of (p := fun t => !t.halted) (by decide)⟩

/-- The input that steps of the invariants take: a command of context R. -/
def stepping : State := { ready with port := [.issue .R [0x100000A5]] }

theorem stepping_next : ∃ t, step stepping = .next t ∧ (!t.halted) = true :=
  next_of (p := fun t => !t.halted) (by decide +kernel)

theorem witness_StepKeepsTidy : stepping.tidy ∧ ∃ t, step stepping = .next t ∧ (!t.halted) = true :=
  ⟨⟨by decide, by decide, by decide, by decide, by decide⟩, stepping_next⟩

theorem witness_StepKeepsChannels : stepping.channelsOk ∧ ∃ t, step stepping = .next t ∧ (!t.halted) = true := by
  exact ⟨⟨rfl, by decide, exclusive_ids (by decide) (by decide), by decide⟩, stepping_next⟩

theorem witness_StepKeepsDisplay :
    stepping.displayOk ∧ stepping.sequencerOk ∧ ∃ t, step stepping = .next t ∧ (!t.halted) = true :=
  ⟨ready_displayOk, ready_sequencerOk, stepping_next⟩

theorem witness_StepKeepsFaultAndMap :
    stepping.faultOk ∧ stepping.mapOnce ∧ ∃ t, step stepping = .next t ∧ (!t.halted) = true := by
  refine ⟨⟨?_, ?_⟩, ?_, stepping_next⟩
  · decide
  · decide
  · unfold State.mapOnce
    decide

theorem witness_StepKeepsReplay : stepping.traceAgrees ∧ ∃ t, step stepping = .next t ∧ (!t.halted) = true := by
  refine ⟨fun p l h => ?_, stepping_next⟩
  have e : stepping.busView.level = stepping.latches := by decide
  unfold BusView.pin at h
  split at h
  · rw [e] at h
    exact Option.some.inj h
  · cases h

theorem witness_PowerOnMeetsInvariants :
    Memory.wf withSounds.env.pcm = true ∧ cellsOk withPixels.env.pix = true := by decide

theorem witness_FloodMachineRefines :
    let s := ready.accept .R [0x14000000, 0x00000002]
    ConfigOk s.cfg ∧ s.phase = .idle ∧ s.operandInstr = some (.lcdFlood 0x0000 2) ∧
      ∃ t, exec (.lcdFlood 0x0000 2) s = .next t ∧ (!t.halted) = true :=
  ⟨reference_ok, rfl, by decide, next_of (p := fun t => !t.halted) (by decide +kernel)⟩

theorem witness_OtherMachinesRefine :
    let s := ready.accept .R [0x15000001, 0x00000100, 0x00000001]
    let r := setUp.accept .R [0x18000000]
    let u := resetDone.accept .R [0x19001234]
    ConfigOk s.cfg ∧ s.phase = .idle ∧ s.operandInstr = some (.lcdPush 0x100 1 true) ∧
      (∃ t, exec (.lcdPush 0x100 1 true) s = .next t ∧ (!t.halted) = true) ∧
      ConfigOk r.cfg ∧ r.phase = .idle ∧ r.operandInstr = some .lcdReset ∧
      (∃ t, exec .lcdReset r = .next t ∧ (!t.halted) = true) ∧
      ConfigOk u.cfg ∧ u.phase = .idle ∧ u.operandInstr = some (.lcdInit 0x1234) ∧
      ∃ t, exec (.lcdInit 0x1234) u = .next t ∧ (!t.halted) = true :=
  ⟨reference_ok, rfl, by decide, next_of (p := fun t => !t.halted) (by decide +kernel), reference_ok, rfl, by decide,
   next_of (p := fun t => !t.halted) (by decide +kernel), reference_ok, rfl, by decide,
   next_of (p := fun t => !t.halted) (by decide +kernel)⟩

end Sys2Proof.Tests
end

section
/-! PROOFS. The pattern of a byte on the data lines (R123) and the decimal spelling of a duty value (R126). -/

namespace Sys2Proof.Machine

variable {s : State}

theorem fastSet_eq_fastDrive (m : Word) (s : State) : fastSet m s = fastDrive true m s := rfl

theorem fastClr_eq_fastDrive (m : Word) (s : State) : fastClr m s = fastDrive false m s := rfl

/-- The set write runs where the resource is mapped or mappable; the clear write then finds it mapped (R144 to R146). -/
theorem fastSet_bind_fastClr_ok (hc : ConfigOk s.cfg) (h : s.mappable) (m m' : Word) :
    (fastSet m s).bind (fastClr m') = .ok (fastState false m' (fastState true m s)) := by
  rw [fastSet_eq_fastDrive, fastDrive_ok hc h, Result.ok_bind, fastClr_eq_fastDrive,
    fastDrive_ok (s := fastState true m s) hc (.inl rfl)]

/-- A data line after a fast write takes the level where the mask has its bit. -/
theorem fastState_pin_dataLine {c : Config} (e : s.cfg = c) (h : PinsOk c) (l : Level) (m : Word) {i : Nat}
    (hi : i < 8) : (fastState l m s).pin (pinD c i) = if m.getLsbD (pinD c i % 32) then l else s.pin (pinD c i) := by
  simp [fastState_pin, e, pinD_group h hi, pinD_valid h hi]

/-- Each data line is in exactly one of the two masks, so the set write or the clear write gives it its bit. -/
theorem dbus_after_ones_zeros (hp : PinsOk s.cfg) (v : Byte) :
    (fastState false (zerosMask s.cfg v) (fastState true (onesMask s.cfg v) s)).dbus = v := by
  rw [State.dbus, fastState_cfg, fastState_cfg]
  refine dataByte_eq fun i hi => ?_
  rw [fastState_pin_dataLine (fastState_cfg _ _ _) hp _ _ hi, fastState_pin_dataLine rfl hp _ _ hi,
    onesMask_line hp v hi, zerosMask_line hp v hi]
  cases v.getLsbD i <;> rfl

/-- Settles O17: the masks by their bits, the data lines by the two fast writes that run in turn. -/
theorem dataBusPattern : Obligations.DataBusPattern := by
  intro c v
  obtain ⟨hor, hand⟩ := ones_zeros_split c v
  refine ⟨getLsbD_onesMask c v, hor, hand, ?_⟩
  rintro s rfl hc hm
  exact ⟨_, fastSet_bind_fastClr_ok hc hm _ _, dbus_after_ones_zeros hc.1 v⟩

/-! ## The decimal spelling -/

theorem decimalDigits_of_lt {v : Nat} (h : v < 10) (fuel : Nat) : decimalDigits (fuel + 1) v = [v] := if_pos h

theorem decimalDigits_of_le {v : Nat} (h : 10 ≤ v) (fuel : Nat) :
    decimalDigits (fuel + 1) v = decimalDigits fuel (v / 10) ++ [v % 10] := if_neg (by omega)

/-- Any fuel above the number gives the same digits: each digit uses up one and divides the number by ten. -/
theorem decimalDigits_eq_of_lt {v fuel fuel' : Nat} (h : v < fuel) (h' : v < fuel') :
    decimalDigits fuel v = decimalDigits fuel' v := by
  induction fuel generalizing v fuel' with
  | zero => omega
  | succ fuel ih =>
    obtain ⟨fuel', rfl⟩ := Nat.exists_eq_add_one_of_ne_zero (Nat.ne_zero_of_lt h')
    rcases Nat.lt_or_ge v 10 with hv | hv
    · rw [decimalDigits_of_lt hv, decimalDigits_of_lt hv]
    · rw [decimalDigits_of_le hv, decimalDigits_of_le hv, ih (v := v / 10) (fuel' := fuel') (by omega) (by omega)]

theorem decimal_of_lt {v : Nat} (h : v < 10) : decimal v = [digitChar v] := by
  rw [decimal, decimalDigits_of_lt h, List.map_singleton]

/-- The spelling of a number of more than one digit: that of its tenth, then its last digit. -/
theorem decimal_of_le {v : Nat} (h : 10 ≤ v) : decimal v = decimal (v / 10) ++ [digitChar (v % 10)] := by
  rw [decimal, decimalDigits_of_le h, decimalDigits_eq_of_lt (fuel' := v / 10 + 1) (by omega) (by omega),
    List.map_append, List.map_singleton, decimal]

/-- Induction along the spelling: a property of the one-digit numbers that passes from the tenth to the number. -/
theorem decimal_induction {P : Nat → Prop} (digit : ∀ v < 10, P v) (more : ∀ v, 10 ≤ v → P (v / 10) → P v)
    (v : Nat) : P v := by
  induction v using Nat.strong_induction_on with
  | _ v ih =>
    rcases Nat.lt_or_ge v 10 with hv | hv
    · exact digit v hv
    · exact more v hv (ih (v / 10) (by omega))

/-- A digit is read back from its character. -/
theorem digitChar_value {d : Nat} (h : d < 10) : (digitChar d).toNat - 48 = d := by
  interval_cases d <;> rfl

theorem digitChar_ne_zero {d : Nat} (h : d < 10) (h0 : 0 < d) : digitChar d ≠ '0' := by
  intro e
  have hv := digitChar_value h
  rw [e] at hv
  exact absurd hv (Nat.ne_of_lt h0)

/-- The spelling has digits only. -/
theorem mem_decimal {v : Nat} {ch : Char} (h : ch ∈ decimal v) : ∃ d < 10, ch = digitChar d := by
  induction v using decimal_induction with
  | digit v hv =>
    rw [decimal_of_lt hv, List.mem_singleton] at h
    exact ⟨v, hv, h⟩
  | more v hv ih =>
    rw [decimal_of_le hv, List.mem_append, List.mem_singleton] at h
    exact h.elim ih fun e => ⟨v % 10, Nat.mod_lt v (by decide), e⟩

/-- The decimal value of the spelling is the number. -/
theorem decimal_value (v : Nat) : (decimal v).foldl (fun acc ch => acc * 10 + (ch.toNat - 48)) 0 = v := by
  induction v using decimal_induction with
  | digit v hv => simp [decimal_of_lt hv, digitChar_value hv]
  | more v hv ih =>
    rw [decimal_of_le hv, List.foldl_append, ih, List.foldl_cons, List.foldl_nil,
      digitChar_value (Nat.mod_lt v (by decide))]
    omega

/-- The spelling begins with a digit, which is 0 only for the number 0. -/
theorem decimal_head (v : Nat) : ∃ d < 10, (decimal v).head? = some (digitChar d) ∧ (0 < v → 0 < d) := by
  induction v using decimal_induction with
  | digit v hv => exact ⟨v, hv, by rw [decimal_of_lt hv, List.head?_cons], id⟩
  | more v hv ih =>
    obtain ⟨d, hd, hhead, hpos⟩ := ih
    exact ⟨d, hd, by rw [decimal_of_le hv, List.head?_append, hhead, Option.some_or], fun _ => hpos (by omega)⟩

theorem decimal_head_ne_zero {v : Nat} (h : 0 < v) : (decimal v).head? ≠ some '0' := by
  obtain ⟨d, hd, hhead, hpos⟩ := decimal_head v
  rw [hhead]
  exact fun e => digitChar_ne_zero hd (hpos h) (Option.some.inj e)

/-! ## The event of PWM.POLL -/

@[simp] theorem State.setLastIdx_evt (s : State) (n : Nat) : (s.setLastIdx n).evt = s.evt := by
  unfold State.setLastIdx
  split <;> rfl

@[simp] theorem State.setLastIdx_dutyNs (s : State) (n : Nat) : (s.setLastIdx n).dutyNs = s.dutyNs := by
  unfold State.setLastIdx
  split <;> rfl

/-- An emission writes one `PW` event, of the duty value it leaves in `DUTY_NS` (R270, R278). -/
theorem emitSample_evt (n : Nat) (s : State) :
    (emitSample n s).evt = s.evt ++ [.pw (decimal (emitSample n s).dutyNs)] := by
  simp [emitSample, State.emit]

/-- Settles O48: the string is that of the duty value by the one event of an emission; digits, value and first digit
by induction along the spelling. -/
theorem decimalSpelling : Obligations.DecimalSpelling := by
  refine ⟨fun s t h => ?_, fun v => ⟨fun _ => mem_decimal, decimal_value v, ?_, decimal_head_ne_zero, rfl⟩⟩
  · obtain ⟨-, ⟨-, rfl⟩ | ⟨-, rfl⟩⟩ := pwmPoll_cases h
    · exact .inr (emitSample_evt _ s)
    · exact .inl rfl
  · obtain ⟨d, -, hhead, -⟩ := decimal_head v
    rw [hhead]
    exact Option.some_ne_none _

end Sys2Proof.Machine
end

section
/-! PROOFS. LCD.FLOOD as a whole: its two paths (R171, R172), what it transfers (R173), how many events it makes
(R174). -/

namespace Sys2Proof.Machine

variable {s t : State}

/-- LCD.FLOOD accepted on a ready bus is its flood (R170). -/
theorem execLcdFlood_did {color : Half} {len : Word} (hb : s.busReady) (hp : s.pinsReady = true)
    (hd : s.dstate = .initialized ∨ s.dstate = .ready) (hv : s.variant = .unknown ∨ s.winValid = true)
    (hl : 0 < len.toNat) :
    ∃ t, exec (.lcdFlood color len) s = .next t ∧
      s.did t true (floodEvents s.cfg (mapEvents s) (memWriteOp s) color len.toNat) true s.cfg.csIdle s.cfg.cdData
        (loByte color) (floodTransfers (memWriteOp s) color len.toNat) := by
  obtain ⟨hh, hc, hm, hw⟩ := hb
  obtain ⟨t, e, h⟩ := flood_did hc hm hw color hl
  refine ⟨t, ?_, h⟩
  have hcheck : floodCheck len.toNat s = none := floodCheck_eq_none.mpr ⟨hp, hd, hv, hl⟩
  simp only [exec, execLcdFlood, run_of_not_halted hh, hcheck, afterCheck_none, e, Result.outcome_ok]

theorem State.did.evt {m b : Bool} {ev : List Event} {l₁ l₂ : Level} {d : Byte} {xs : List Transfer}
    (h : s.did t m ev b l₁ l₂ d xs) : t.evt = s.evt ++ ev := by rw [h.1.1]

/-! ## Repeated events -/

theorem repeatEvents_add (m n : Nat) (l : List Event) :
    repeatEvents (m + n) l = repeatEvents m l ++ repeatEvents n l := by
  rw [repeatEvents, List.replicate_add, List.flatten_append, repeatEvents, repeatEvents]

theorem repeatEvents_succ (n : Nat) (l : List Event) : repeatEvents (n + 1) l = l ++ repeatEvents n l := by
  rw [repeatEvents, List.replicate_succ, List.flatten_cons, repeatEvents]

theorem repeatEvents_mul (m n : Nat) (l : List Event) : repeatEvents m (repeatEvents n l) = repeatEvents (m * n) l := by
  induction m with
  | zero => rw [Nat.zero_mul]; rfl
  | succ m ih => rw [repeatEvents_succ, ih, Nat.succ_mul, Nat.add_comm, repeatEvents_add]

/-- Blocks of `k` and a remainder loop make the same list as the repetitions in a row (R171). -/
theorem repeatEvents_blocks (n k : Nat) (l : List Event) :
    repeatEvents (n / k) (repeatEvents k l) ++ repeatEvents (n % k) l = repeatEvents n l := by
  rw [repeatEvents_mul, ← repeatEvents_add, Nat.div_add_mod']

theorem length_repeatEvents (n : Nat) (l : List Event) : (repeatEvents n l).length = n * l.length := by
  rw [repeatEvents, List.length_flatten, List.map_replicate, List.sum_replicate, smul_eq_mul]

/-! ## The two paths -/

/-- With equal bytes a flood is one full pixel, then strobe-only pixels (R171). -/
theorem floodEvents_of_eq {color : Half} (h : hiByte color = loByte color) (c : Config) (mapping : List Event)
    (op : Byte) (len : Nat) :
    floodEvents c mapping op color len =
      openEvents c mapping op ++ halfEvents c color ++ repeatEvents (len - 1) (strobePixelEvents c) ++
        [.lv c.pinCS c.csIdle] := by
  rw [floodEvents, restEvents, if_pos h]

/-- With unequal bytes a flood is full pixels only (R172). -/
theorem floodEvents_of_ne {color : Half} (h : hiByte color ≠ loByte color) (c : Config) (mapping : List Event)
    (op : Byte) {len : Nat} (hl : 0 < len) :
    floodEvents c mapping op color len =
      openEvents c mapping op ++ repeatEvents len (halfEvents c color) ++ [.lv c.pinCS c.csIdle] := by
  obtain ⟨n, rfl⟩ := Nat.exists_eq_add_one_of_ne_zero hl.ne'
  rw [floodEvents, restEvents, if_neg h, Nat.add_sub_cancel, repeatEvents_succ,
    List.append_assoc _ (halfEvents c color)]

/-- A strobe event writes the strobe's mask alone (R160). -/
theorem strobeEvent_mask (c : Config) (l : Level) :
    strobeEvent c l = .fs (wrMask c) ∨ strobeEvent c l = .fc (wrMask c) := by
  cases l
  · exact .inr rfl
  · exact .inl rfl

theorem strobePixelEvents_mask {c : Config} {e : Event} (h : e ∈ strobePixelEvents c) :
    e = .fs (wrMask c) ∨ e = .fc (wrMask c) := by
  simp only [strobePixelEvents, pulseEvents, List.mem_append, List.mem_cons, List.not_mem_nil, or_false, or_self] at h
  rcases h with rfl | rfl
  · exact strobeEvent_mask c c.wrActive
  · exact strobeEvent_mask c c.wrIdle

/-- The strobe is no data line (R8). -/
theorem wrMask_and_dataMask {c : Config} (h : PinsOk c) : wrMask c &&& dataMask c = 0 := by
  refine BitVec.eq_of_getLsbD_eq fun j _ => ?_
  change (wrMask c &&& dataMask c).getLsbD j = (0#32).getLsbD j
  rw [BitVec.getLsbD_and, wrMask, getLsbD_pinMask, BitVec.getLsbD_zero, Bool.and_eq_false_iff]
  by_cases hj : j = c.pinWR % 32
  · refine .inr (Bool.eq_false_iff.mpr fun hd => ?_)
    obtain ⟨i, hi, e⟩ := (getLsbD_dataMask c j).mp hd
    exact pinD_bit_ne_wr h hi (e.symm.trans hj)
  · exact .inl (decide_eq_false hj)

/-- LCD.WR16 with the resource mapped, where it completes, emits the events of its two byte writes (R165). -/
theorem execLcdWr16_evt {color : Half} (hc : ConfigOk s.cfg) (hm : s.mapped = true)
    (h : exec (.lcdWr16 color) s = .next t) : t.evt = s.evt ++ halfEvents s.cfg color := by
  rw [exec, execLcdWr16] at h
  obtain ⟨-, hx⟩ := run_eq_next h
  obtain ⟨-, hx⟩ := afterCheck_next hx
  by_cases hw : s.wr = s.cfg.wrIdle
  · obtain ⟨u, e, hu⟩ := write16_did hc (.inl hm) hw color
    rw [mapEvents_of_mapped hm] at hu
    rw [e] at hx
    obtain rfl : u = t := by simpa using hx
    exact hu.evt
  · simp [write16, write8_refused hw] at hx

/-- Settles O23: the events of the flood by its two paths, the blocks by division with remainder. -/
theorem floodPaths : Obligations.FloodPaths := by
  intro s color len hb hp hd hv hl
  obtain ⟨t, e, h⟩ := execLcdFlood_did (color := color) hb hp hd hv hl
  have hevt := h.evt
  refine ⟨t, e, fun heq => ⟨?_, ?_⟩, fun _ => strobePixelEvents_mask, wrMask_and_dataMask hb.2.1.1, fun hne => ?_, ?_⟩
  · rw [hevt, floodEvents_of_eq heq, ← repeatEvents_blocks _ 64]
    simp only [List.append_assoc]
  · rw [hevt, floodEvents_of_eq heq]
    simp only [List.append_assoc]
  · rw [hevt, floodEvents_of_ne hne _ _ _ hl]
    simp only [List.append_assoc]
  · intro r r' hcfg hm hr
    rw [← hcfg]
    exact execLcdWr16_evt (by rw [hcfg]; exact hb.2.1) hm hr

/-! ## The bus trace -/

theorem memWriteOp_family {f : Family} (h : s.variant = .family f) : memWriteOp s = (familyTable s.cfg f).memWrite := by
  rw [memWriteOp, h]

theorem memWriteOp_unknown (h : s.variant = .unknown) : memWriteOp s = s.cfg.opcGeneric := by
  rw [memWriteOp, h]

theorem length_floodTransfers (op : Byte) (color : Half) (len : Nat) :
    (floodTransfers op color len).length = 1 + 2 * len := by
  rw [floodTransfers, List.length_cons, List.length_flatten, List.map_replicate, List.sum_replicate, smul_eq_mul,
    pixelTransfers, List.length_cons, List.length_singleton]
  omega

/-- Settles O24: what the flood did, read off the replay of its trace. -/
theorem floodBusTrace : Obligations.FloodBusTrace := by
  intro s color len hb hp hd hv hl hs
  obtain ⟨t, e, h⟩ := execLcdFlood_did (color := color) hb hp hd hv hl
  obtain ⟨⟨hvalid, -⟩, hbus⟩ := h.2 hs
  refine ⟨t, memWriteOp s, e, fun _ => memWriteOp_family, memWriteOp_unknown, hvalid, hbus, ?_, h.dbus⟩
  rw [hbus, List.length_append, length_floodTransfers]

/-! ## The event counts -/

/-- How many events a byte write makes (R162, R163). -/
def byteEventCount (c : Config) : Nat :=
  match c.strobe with
  | .compliant => 4
  | .merged => 3

theorem length_byteEvents (c : Config) (v : Byte) : (byteEvents c v).length = byteEventCount c := by
  unfold byteEvents byteEventCount
  cases c.strobe with
  | compliant => rfl
  | merged => cases c.wrActive <;> rfl

theorem length_halfEvents (c : Config) (v : Half) : (halfEvents c v).length = 2 * byteEventCount c := by
  rw [halfEvents, List.length_append, length_byteEvents, length_byteEvents, Nat.two_mul]

theorem length_openEvents (c : Config) (op : Byte) : (openEvents c [] op).length = 3 + byteEventCount c := by
  simp only [openEvents, List.length_append, List.length_cons, List.length_nil, length_byteEvents]
  omega

/-- How many events a flood makes once the resource is mapped (R174). -/
theorem length_floodEvents (c : Config) (op : Byte) (color : Half) {len : Nat} (hl : 0 < len) :
    (floodEvents c [] op color len).length =
      if hiByte color = loByte color then 4 + 3 * byteEventCount c + 4 * (len - 1)
      else 4 + byteEventCount c + 2 * byteEventCount c * len := by
  split
  next heq =>
    rw [floodEvents_of_eq heq]
    simp only [List.length_append, length_openEvents, length_halfEvents, length_repeatEvents, strobePixelEvents,
      pulseEvents, List.length_cons, List.length_nil]
    omega
  next hne =>
    rw [floodEvents_of_ne hne _ _ _ hl]
    simp only [List.length_append, length_openEvents, length_halfEvents, length_repeatEvents, List.length_cons,
      List.length_nil, Nat.mul_comm len]
    omega

/-- Settles O25: the events of the flood counted in each path. -/
theorem floodEventCounts : Obligations.FloodEventCounts := by
  refine ⟨fun s color len hb hm hp hd hv hl => ?_, by decide, by decide⟩
  obtain ⟨t, e, h⟩ := execLcdFlood_did (color := color) hb hp hd hv hl
  refine ⟨t, byteEventCount s.cfg, e, fun hs => ?_, fun hs => ?_, ?_⟩
  · rw [byteEventCount, hs]
  · rw [byteEventCount, hs]
  · rw [h.evt, mapEvents_of_mapped hm, List.length_append, length_floodEvents _ _ _ hl]

end Sys2Proof.Machine
end

section
/-! PROOFS. The sequencer against the big steps (R176, R177). The procedures of the bus neither read nor write the
sequencer's own fields (`SeqBlind`), so a turn of the machine does to its state what the procedure does to the state of
the big step; the counters say how much of the flood is left. -/

namespace Sys2Proof.Machine

variable {s t : State} {f g k : State → Result}

/-! ## The sequencer's own fields -/

/-- The fields of the state that only the sequencer writes: the phase, the counters of R25, the held operand (log 9). -/
structure Sequencer where
  phase : Phase
  flBlocks : BitVec 32
  flInblk : BitVec 7
  flRem : BitVec 6
  flLeft : BitVec 32
  puIdx : BitVec 32
  inIdx : Nat
  rsCnt : BitVec 2
  held : Word

/-- The state with the sequencer's fields put. -/
def State.withSeq (s : State) (q : Sequencer) : State :=
  { s with
    phase := q.phase
    flBlocks := q.flBlocks
    flInblk := q.flInblk
    flRem := q.flRem
    flLeft := q.flLeft
    puIdx := q.puIdx
    inIdx := q.inIdx
    rsCnt := q.rsCnt
    held := q.held }

/-- The sequencer's fields of a state. -/
def State.seq (s : State) : Sequencer where
  phase := s.phase
  flBlocks := s.flBlocks
  flInblk := s.flInblk
  flRem := s.flRem
  flLeft := s.flLeft
  puIdx := s.puIdx
  inIdx := s.inIdx
  rsCnt := s.rsCnt
  held := s.held

@[simp] theorem State.withSeq_cfg (s : State) (q : Sequencer) : (s.withSeq q).cfg = s.cfg := rfl

/-- A result with the sequencer's fields put; a fault leaves it in IDLE (R296). -/
def Result.withSeq (x : Result) (q : Sequencer) : Result :=
  match x with
  | .ok s => .ok (s.withSeq q)
  | .stop s => .stop (s.withSeq { q with phase := .idle })
  | .refuse r => .refuse r

/-- A procedure that neither reads nor writes the sequencer's fields. -/
def SeqBlind (f : State → Result) : Prop := ∀ (s : State) (q : Sequencer), f (s.withSeq q) = (f s).withSeq q

theorem SeqBlind.bind (hf : SeqBlind f) (hg : SeqBlind g) : SeqBlind fun s => (f s).bind g := by
  intro s q
  change (f (s.withSeq q)).bind g = ((f s).bind g).withSeq q
  rw [hf]
  cases f s with
  | ok t => exact hg t q
  | stop t => rfl
  | refuse r => rfl

/-- A procedure with a parameter read off the configuration. -/
theorem SeqBlind.ofCfg {f : Config → State → Result} (hf : ∀ c, SeqBlind (f c)) : SeqBlind fun s => f s.cfg s :=
  fun s q => hf s.cfg s q

theorem ensureMapped_blind : SeqBlind ensureMapped := by
  intro s q
  unfold ensureMapped
  by_cases hm : s.mapped = true
  · rw [if_pos hm, if_pos (show (s.withSeq q).mapped = true from hm)]
    rfl
  rw [if_neg hm, if_neg (show ¬(s.withSeq q).mapped = true from hm)]
  by_cases he : s.env.mapOk = true
  · rw [if_pos he, if_pos (show (s.withSeq q).env.mapOk = true from he)]
    rfl
  · rw [if_neg he, if_neg (show ¬(s.withSeq q).env.mapOk = true from he)]
    rfl

theorem writeReg_withSeq (s : State) (q : Sequencer) (r : GpioReg) (m : Word) :
    (s.withSeq q).writeReg r m = (s.writeReg r m).withSeq q := by cases r <;> rfl

theorem gpioWrite_blind (off : Nat) (m : Word) : SeqBlind (gpioWrite off m) := by
  intro s q
  unfold gpioWrite
  rw [State.withSeq_cfg]
  cases gpioRegAt s.cfg off with
  | some r => exact congrArg Result.ok (writeReg_withSeq s q r m)
  | none => rfl

theorem fastDrive_blind (l : Level) (m : Word) : SeqBlind (fastDrive l m) := by
  have emits : ∀ e : Event, SeqBlind fun s => .ok (s.emit e) := fun _ _ _ => rfl
  cases l
  · exact ensureMapped_blind.bind ((SeqBlind.ofCfg fun c => gpioWrite_blind (clrRegOffset c (fastGroup c)) m).bind
      (emits (.fc m)))
  · exact ensureMapped_blind.bind ((SeqBlind.ofCfg fun c => gpioWrite_blind (setRegOffset c (fastGroup c)) m).bind
      (emits (.fs m)))

theorem fastSet_blind (m : Word) : SeqBlind (fastSet m) := fastDrive_blind true m

theorem fastClr_blind (m : Word) : SeqBlind (fastClr m) := fastDrive_blind false m

theorem wrActiveOp_blind : SeqBlind wrActiveOp := SeqBlind.ofCfg fun c => fastDrive_blind c.wrActive (wrMask c)

theorem wrIdleOp_blind : SeqBlind wrIdleOp := SeqBlind.ofCfg fun c => fastDrive_blind c.wrIdle (wrMask c)

theorem writeCompliant_blind (v : Byte) : SeqBlind (writeCompliant v) :=
  (SeqBlind.ofCfg fun c => fastSet_blind (onesMask c v)).bind
    ((SeqBlind.ofCfg fun c => fastClr_blind (zerosMask c v)).bind (wrActiveOp_blind.bind wrIdleOp_blind))

theorem writeMerged_blind (v : Byte) : SeqBlind (writeMerged v) := by
  intro s q
  unfold writeMerged
  rw [State.withSeq_cfg]
  cases s.cfg.wrActive with
  | true =>
    exact ((fastClr_blind (zerosMask s.cfg v)).bind
      ((SeqBlind.ofCfg fun c => fastSet_blind (onesMask c v ||| wrMask c)).bind wrIdleOp_blind)) s q
  | false =>
    exact ((fastSet_blind (onesMask s.cfg v)).bind
      ((SeqBlind.ofCfg fun c => fastClr_blind (zerosMask c v ||| wrMask c)).bind wrIdleOp_blind)) s q

theorem closeStream_withSeq (s : State) (q : Sequencer) : (s.withSeq q).closeStream = s.closeStream.withSeq q := by
  unfold State.closeStream
  by_cases h : s.cs = s.cfg.csActive ∧ s.cd = s.cfg.cdCommand
  · rw [if_pos h, if_pos (by exact h)]
    rfl
  · rw [if_neg h, if_neg (by exact h)]

theorem closeStream_blind : SeqBlind fun s => .ok s.closeStream :=
  fun s q => congrArg Result.ok (closeStream_withSeq s q)

theorem write8_blind (v : Byte) : SeqBlind (write8 v) := by
  intro s q
  unfold write8
  by_cases hw : s.wr = s.cfg.wrIdle
  · rw [if_neg (not_not.mpr hw), if_neg (by exact not_not.mpr hw), State.withSeq_cfg]
    cases s.cfg.strobe with
    | compliant => exact ((writeCompliant_blind v).bind closeStream_blind) s q
    | merged => exact ((writeMerged_blind v).bind closeStream_blind) s q
  · rw [if_pos hw, if_pos (by exact hw)]
    rfl

theorem strobePulse_blind : SeqBlind strobePulse := by
  intro s q
  unfold strobePulse
  by_cases hw : s.wr = s.cfg.wrIdle
  · rw [if_neg (not_not.mpr hw), if_neg (by exact not_not.mpr hw)]
    exact (wrActiveOp_blind.bind wrIdleOp_blind) s q
  · rw [if_pos hw, if_pos (by exact hw)]
    rfl

theorem strobePixel_blind : SeqBlind strobePixel := strobePulse_blind.bind strobePulse_blind

theorem openStream_blind : SeqBlind openStream := by
  intro s q
  have hopen : SeqBlind fun s => .ok { s with streamOpen := true } := fun _ _ => rfl
  exact ((write8_blind (memWriteOp s)).bind hopen)
    ((s.level s.cfg.pinCS s.cfg.csActive).level s.cfg.pinCD s.cfg.cdCommand) q

/-! ## A run of the machine that ends as a big step does -/

/-- The state as R177 compares it once its command has ended: in IDLE, context R free, without the counters. -/
def State.settled (s : State) : State := { s.withoutCounters with phase := .idle, busyR := false }

theorem State.settled_withSeq (s : State) (q : Sequencer) : (s.withSeq q).settled = s.settled := rfl

theorem State.finish_withoutCounters (h : s.phase = .idle) : (s.finish .R).withoutCounters = s.settled := by
  rw [State.finish, if_pos h, State.settled, ← h]
  rfl

/-- From the state `m` the sequencer runs to IDLE wherever the procedure answers a next state, and its last state
settles to that one. -/
def State.Runs (m : State) (x : Result) : Prop :=
  ∀ t, x.outcome = .next t → ∃ n u, (seqRun n m).outcome = .next u ∧ u.phase = .idle ∧ u.settled = t.settled

theorem State.Runs.done {m : State} (hp : m.phase = .idle) (h : m.settled = t.settled) : m.Runs (.ok t) := by
  rintro _ ⟨⟩
  exact ⟨0, m, rfl, hp, h⟩

/-- A turn that ends a run of the machine, or goes on to one. -/
theorem State.Runs.next {m m' : State} {x : Result} (h : seqStep m = .ok m') (hr : m'.Runs x) : m.Runs x := by
  intro t ht
  obtain ⟨n, u, hu, hrest⟩ := hr t ht
  exact ⟨n + 1, u, by rw [seqRun, h, Result.ok_bind, hu], hrest⟩

/-- A turn of the machine does what the next procedure of the big step does; both end together where it faults. -/
theorem State.Runs.turn {q : Sequencer} (hf : SeqBlind f) (hd : Drives s (f s))
    (hs : seqStep (s.withSeq q) = (f (s.withSeq q)).bind g)
    (hk : ∀ t, BusMoves s t → ∃ m, g (t.withSeq q) = .ok m ∧ m.Runs (k t)) :
    (s.withSeq q).Runs ((f s).bind k) := by
  intro t ht
  rw [hf] at hs
  cases e : f s with
  | ok v =>
    rw [e] at hd hs ht
    obtain ⟨m, hg, hm⟩ := hk v hd
    exact State.Runs.next (hs.trans hg) hm t ht
  | stop v =>
    rw [e] at hs ht
    obtain rfl : v = t := by simpa using ht
    exact ⟨1, v.withSeq { q with phase := .idle }, by rw [seqRun, hs]; rfl, rfl, State.settled_withSeq v _⟩
  | refuse r =>
    rw [e] at ht
    cases ht

/-! ## The turns of the flood machine -/

theorem seqStep_fCmd (h : s.phase = .fCmd) :
    seqStep s = (openStream s).bind fun s1 => toPhase .fFirstHi (s1.level s1.cfg.pinCD s1.cfg.cdData) := by
  simp only [seqStep, h]

theorem seqStep_fFirstHi (h : s.phase = .fFirstHi) :
    seqStep s = (write8 (hiByte s.floodColor) s).bind (toPhase .fFirstLo) := by simp only [seqStep, h]

theorem seqStep_fFirstLo (h : s.phase = .fFirstLo) :
    seqStep s =
      (write8 (loByte s.floodColor) s).bind fun s1 => toPhase (firstPhase (loadFlood s1)) (loadFlood s1) := by
  simp only [seqStep, h]

theorem seqStep_fBlock (h : s.phase = .fBlock) :
    seqStep s = (strobePixel s).bind fun s1 => toPhase (strobePhase (countBlock s1)) (countBlock s1) := by
  simp only [seqStep, h]

theorem seqStep_fRem (h : s.phase = .fRem) :
    seqStep s = (strobePixel s).bind fun s1 =>
      toPhase (if s1.flRem - 1 ≠ 0 then .fRem else .fEnd) { s1 with flRem := s1.flRem - 1 } := by
  simp only [seqStep, h]

theorem seqStep_fPixHi (h : s.phase = .fPixHi) :
    seqStep s = (write8 (hiByte s.floodColor) s).bind (toPhase .fPixLo) := by simp only [seqStep, h]

theorem seqStep_fPixLo (h : s.phase = .fPixLo) :
    seqStep s = (write8 (loByte s.floodColor) s).bind fun s1 =>
      toPhase (pixelPhase { s1 with flLeft := s1.flLeft - 1 }) { s1 with flLeft := s1.flLeft - 1 } := by
  simp only [seqStep, h]

/-- The end of a flood that is a command of its own (R176). -/
theorem seqStep_fEnd (h : s.phase = .fEnd) (hi : s.inInit = false) :
    seqStep s = .ok (s.level s.cfg.pinCS s.cfg.csIdle).endOperation := by
  simp only [seqStep, h]
  exact if_neg (by rw [show (s.level s.cfg.pinCS s.cfg.csIdle).inInit = false from hi]; decide)

/-! ## The counters -/

/-- F_BLOCK's count on the sequencer's fields (R176). -/
def Sequencer.countBlock (q : Sequencer) : Sequencer :=
  if q.flInblk - 1 = 0 then { q with flBlocks := q.flBlocks - 1, flInblk := BitVec.ofNat 7 Config.floodBlock }
  else { q with flInblk := q.flInblk - 1 }

theorem countBlock_withSeq (s : State) (q : Sequencer) : countBlock (s.withSeq q) = s.withSeq q.countBlock := by
  unfold Sys2Proof.Machine.countBlock Sequencer.countBlock
  by_cases h : q.flInblk - 1 = 0
  · rw [if_pos h, if_pos (by exact h)]
    rfl
  · rw [if_neg h, if_neg (by exact h)]
    rfl

theorem Sequencer.countBlock_held (q : Sequencer) : q.countBlock.held = q.held := by
  unfold Sequencer.countBlock
  split <;> rfl

/-- The batch counter is between 1 and 64 (R25). -/
def Sequencer.batchOk (q : Sequencer) : Prop := 1 ≤ q.flInblk.toNat ∧ q.flInblk.toNat ≤ 64

/-- A batch just loaded. -/
theorem Sequencer.batchOk_of_full {q : Sequencer} (h : q.flInblk = BitVec.ofNat 7 Config.floodBlock) : q.batchOk := by
  rw [Sequencer.batchOk, h]
  decide

/-- The strobe-only pixels still to come: of the current batch, of the batches after it, of the remainder (R176). -/
def Sequencer.strobesLeft (q : Sequencer) : Nat :=
  (if q.flBlocks = 0 then 0 else q.flInblk.toNat + 64 * (q.flBlocks.toNat - 1)) + q.flRem.toNat

theorem Sequencer.strobesLeft_remainder {q : Sequencer} (h : q.flBlocks = 0) : q.strobesLeft = q.flRem.toNat := by
  rw [Sequencer.strobesLeft, if_pos h, Nat.zero_add]

theorem Sequencer.strobesLeft_batch {q : Sequencer} (h : q.flBlocks ≠ 0) :
    q.strobesLeft = q.flInblk.toNat + 64 * (q.flBlocks.toNat - 1) + q.flRem.toNat := by
  rw [Sequencer.strobesLeft, if_neg h]

/-- No strobe-only pixel is left when both loops are through. -/
theorem Sequencer.strobesLeft_eq_zero {q : Sequencer} (hb : q.batchOk) (h : q.strobesLeft = 0) :
    q.flBlocks = 0 ∧ q.flRem = 0 := by
  by_cases h0 : q.flBlocks = 0
  · exact ⟨h0, BitVec.eq_of_toNat_eq ((Sequencer.strobesLeft_remainder h0).symm.trans h)⟩
  · rw [Sequencer.strobesLeft_batch h0] at h
    have := hb.1
    omega

/-- F_BLOCK counts one pixel off: the last of its batch, or one of several. -/
theorem Sequencer.countBlock_left {q : Sequencer} (hb : q.batchOk) (h : q.flBlocks ≠ 0) :
    q.countBlock.batchOk ∧ q.strobesLeft = q.countBlock.strobesLeft + 1 := by
  obtain ⟨h1, h2⟩ := hb
  rw [Sequencer.strobesLeft_batch h]
  unfold Sequencer.countBlock
  split
  next hlast =>
    have hone : q.flInblk.toNat = 1 := by bv_omega
    refine ⟨Sequencer.batchOk_of_full rfl, ?_⟩
    by_cases h0 : q.flBlocks - 1 = 0
    · rw [Sequencer.strobesLeft_remainder (by exact h0)]
      bv_omega
    · rw [Sequencer.strobesLeft_batch (by exact h0)]
      simp only [Config.floodBlock]
      bv_omega
  next hmore =>
    refine ⟨⟨by dsimp only; bv_omega, by dsimp only; bv_omega⟩, ?_⟩
    rw [Sequencer.strobesLeft_batch (by exact h)]
    bv_omega

/-! ## The flood machine -/

/-- What an operation of the sequencer reaches from where it began by driving the bus: the operand it holds is the
same. -/
structure BusRun (s : State) (q : Sequencer) (t : State) (r : Sequencer) : Prop where
  moves : BusMoves s t
  held : r.held = q.held

section
variable {s₀ : State} {q₀ q r : Sequencer} {n : Nat}

theorem BusRun.step (h : BusRun s₀ q₀ s q) (hm : BusMoves s t) (hq : r.held = q.held) : BusRun s₀ q₀ t r :=
  ⟨h.moves.trans hm, hq.trans h.held⟩

theorem BusRun.configOk (h : BusRun s₀ q₀ s q) (hc : ConfigOk s₀.cfg) : ConfigOk s.cfg := hc.moved h.moves

theorem BusRun.floodColor (h : BusRun s₀ q₀ s q) : (s.withSeq q).floodColor = (s₀.withSeq q₀).floodColor := by
  rw [h.moves.frame, State.floodColor, State.floodColor, show (s₀.withSeq q₀).held = q.held from h.held.symm]
  rfl

theorem BusRun.floodLen (h : BusRun s₀ q₀ s q) : (s.withSeq q).floodLen = (s₀.withSeq q₀).floodLen := by
  rw [h.moves.frame]
  rfl

/-- The strobe-only path (R171, R176): as many strobe pixels as the counters say, then F_END. -/
theorem strobes_runs (hc : ConfigOk s₀.cfg)
    (hend : ∀ (t : State) (r : Sequencer), BusRun s₀ q₀ t r → r.phase = .fEnd → (t.withSeq r).Runs (k t))
    (h : BusRun s₀ q₀ s q) (hb : q.batchOk) (hp : q.phase = strobePhase (s.withSeq q)) (hn : q.strobesLeft = n) :
    (s.withSeq q).Runs ((repeatOp n strobePixel s).bind k) := by
  induction n generalizing s q with
  | zero =>
    obtain ⟨h0, hr⟩ := Sequencer.strobesLeft_eq_zero hb hn
    exact hend s q h (hp.trans ((if_neg (not_not.mpr h0)).trans (if_neg (not_not.mpr hr))))
  | succ n ih =>
    have hd := strobePixel_drives (h.configOk hc)
    rw [repeatOp_succ, Result.bind_assoc]
    by_cases h0 : q.flBlocks = 0
    · rw [Sequencer.strobesLeft_remainder h0] at hn
      have hr : q.flRem ≠ 0 := by bv_omega
      have hrem : q.phase = .fRem := hp.trans ((if_neg (not_not.mpr h0)).trans (if_pos hr))
      refine State.Runs.turn strobePixel_blind hd (seqStep_fRem hrem) fun t ht => ⟨t.withSeq { q with
        flRem := q.flRem - 1, phase := if q.flRem - 1 ≠ 0 then .fRem else .fEnd }, rfl, ?_⟩
      refine ih (h.step ht rfl) hb (if_neg (not_not.mpr h0)).symm ?_
      rw [Sequencer.strobesLeft_remainder (by exact h0)]
      bv_omega
    · have hblock : q.phase = .fBlock := hp.trans (if_pos h0)
      obtain ⟨hb', hleft⟩ := Sequencer.countBlock_left hb h0
      refine State.Runs.turn strobePixel_blind hd (seqStep_fBlock hblock) fun t ht =>
        ⟨t.withSeq { q.countBlock with phase := strobePhase (t.withSeq q.countBlock) }, ?_, ?_⟩
      · rw [countBlock_withSeq]
        rfl
      · exact ih (h.step ht q.countBlock_held) hb' rfl (Nat.succ.inj (hleft.symm.trans hn))

/-- The full-write path (R172, R176): as many pixels as `FL_LEFT` says, each in two phases, then F_END. -/
theorem pixels_runs (hc : ConfigOk s₀.cfg)
    (hend : ∀ (t : State) (r : Sequencer), BusRun s₀ q₀ t r → r.phase = .fEnd → (t.withSeq r).Runs (k t))
    (h : BusRun s₀ q₀ s q) (hp : q.phase = pixelPhase (s.withSeq q)) (hn : q.flLeft.toNat = n) :
    (s.withSeq q).Runs ((repeatOp n (write16 (s₀.withSeq q₀).floodColor) s).bind k) := by
  induction n generalizing s q with
  | zero =>
    have h0 : q.flLeft = 0 := BitVec.eq_of_toNat_eq hn
    exact hend s q h (hp.trans (if_neg (not_not.mpr h0)))
  | succ n ih =>
    have h0 : q.flLeft ≠ 0 := by bv_omega
    have hph : q.phase = .fPixHi := hp.trans (if_pos h0)
    have hcs := h.configOk hc
    rw [repeatOp_succ, write16, Result.bind_assoc, Result.bind_assoc]
    refine State.Runs.turn (write8_blind _) (write8_drives hcs _) (by rw [seqStep_fPixHi hph, h.floodColor])
      fun t ht => ⟨t.withSeq { q with phase := .fPixLo }, rfl, ?_⟩
    have h1 : BusRun s₀ q₀ t { q with phase := .fPixLo } := h.step ht rfl
    refine State.Runs.turn (write8_blind _) (write8_drives (hcs.moved ht) _)
      (by rw [seqStep_fPixLo (by rfl), h1.floodColor]) fun u hu => ⟨u.withSeq { q with
        flLeft := q.flLeft - 1, phase := pixelPhase (u.withSeq { q with flLeft := q.flLeft - 1 }) }, rfl, ?_⟩
    exact ih (h1.step hu rfl) rfl (by dsimp only; bv_omega)

/-- F_FIRST_LO's counters on the sequencer's fields, for `n` pixels after the first (R176). -/
def Sequencer.loadFlood (color : Half) (n : Nat) (q : Sequencer) : Sequencer :=
  if hiByte color = loByte color then
    { q with
      flBlocks := BitVec.ofNat 32 (n / Config.floodBlock)
      flRem := BitVec.ofNat 6 (n % Config.floodBlock)
      flInblk := BitVec.ofNat 7 Config.floodBlock }
  else { q with flLeft := BitVec.ofNat 32 n }

theorem loadFlood_withSeq (s : State) (q : Sequencer) :
    loadFlood (s.withSeq q) =
      s.withSeq (q.loadFlood (s.withSeq q).floodColor ((s.withSeq q).floodLen - 1)) := by
  unfold Sys2Proof.Machine.loadFlood Sequencer.loadFlood
  by_cases h : hiByte (s.withSeq q).floodColor = loByte (s.withSeq q).floodColor
  · rw [if_pos h, if_pos h]
    rfl
  · rw [if_neg h, if_neg h]
    rfl

theorem Sequencer.loadFlood_held (color : Half) (n : Nat) (q : Sequencer) : (q.loadFlood color n).held = q.held := by
  unfold Sequencer.loadFlood
  split <;> rfl

/-- With equal bytes the counters hold every pixel after the first: a 32-bit length leaves no more batches than 32 bits
count (R25). -/
theorem Sequencer.loadFlood_strobes {color : Half} (h : hiByte color = loByte color) (hn : n < 2 ^ 32)
    (q : Sequencer) : (q.loadFlood color n).batchOk ∧ (q.loadFlood color n).strobesLeft = n := by
  unfold Sequencer.loadFlood
  rw [if_pos h]
  refine ⟨Sequencer.batchOk_of_full rfl, ?_⟩
  by_cases h0 : BitVec.ofNat 32 (n / 64) = 0
  · have : (BitVec.ofNat 32 (n / 64)).toNat = 0 := congrArg BitVec.toNat h0
    rw [Sequencer.strobesLeft_remainder (by exact h0)]
    simp only [BitVec.toNat_ofNat, Config.floodBlock] at this ⊢
    omega
  · have : (BitVec.ofNat 32 (n / 64)).toNat ≠ 0 := fun e => h0 (BitVec.eq_of_toNat_eq e)
    rw [Sequencer.strobesLeft_batch (by exact h0)]
    simp only [BitVec.toNat_ofNat, Config.floodBlock] at this ⊢
    omega

theorem Sequencer.loadFlood_pixels {color : Half} (h : hiByte color ≠ loByte color) (hn : n < 2 ^ 32)
    (q : Sequencer) : (q.loadFlood color n).flLeft.toNat = n := by
  unfold Sequencer.loadFlood
  rw [if_neg h]
  exact (BitVec.toNat_ofNat n 32).trans (Nat.mod_eq_of_lt hn)

/-- The pixels after the first (R170, R176), from the counters that F_FIRST_LO loads. -/
theorem floodRest_runs (hc : ConfigOk s₀.cfg) {color : Half} (hcolor : (s₀.withSeq q₀).floodColor = color)
    (hend : ∀ (t : State) (r : Sequencer), BusRun s₀ q₀ t r → r.phase = .fEnd → (t.withSeq r).Runs (k t))
    (h : BusRun s₀ q₀ s q) (hn : n < 2 ^ 32) :
    (s.withSeq { q.loadFlood color n with phase := firstPhase (s.withSeq (q.loadFlood color n)) }).Runs
      ((floodRest color n s).bind k) := by
  subst hcolor
  have hr := h.step .refl (Sequencer.loadFlood_held (s₀.withSeq q₀).floodColor n q)
  rw [firstPhase, hr.floodColor, floodRest]
  by_cases he : hiByte (s₀.withSeq q₀).floodColor = loByte (s₀.withSeq q₀).floodColor
  · obtain ⟨hb, hleft⟩ := Sequencer.loadFlood_strobes he hn q
    rw [if_pos he, if_pos he, floodFast_eq_repeat]
    exact strobes_runs hc hend (hr.step .refl rfl) hb rfl hleft
  · rw [if_neg he, if_neg he]
    exact pixels_runs hc hend (hr.step .refl rfl) rfl (Sequencer.loadFlood_pixels he hn q)

/-- The flood machine from F_CMD to F_END does what the flood does (R176, R177). -/
theorem flood_runs (hc : ConfigOk s₀.cfg) {color : Half} {len : Nat}
    (hcolor : (s₀.withSeq q₀).floodColor = color) (hlen : (s₀.withSeq q₀).floodLen = len) (hl : len ≤ 2 ^ 32)
    (hend : ∀ (t : State) (r : Sequencer), BusRun s₀ q₀ t r → r.phase = .fEnd →
      (t.withSeq r).Runs (k (t.level t.cfg.pinCS t.cfg.csIdle)))
    (hp : q₀.phase = .fCmd) : (s₀.withSeq q₀).Runs ((flood color len s₀).bind k) := by
  unfold flood
  rw [Result.bind_assoc]
  refine State.Runs.turn openStream_blind (openStream_drives hc) (seqStep_fCmd hp) fun t ht =>
    ⟨(t.level t.cfg.pinCD t.cfg.cdData).withSeq { q₀ with phase := .fFirstHi }, rfl, ?_⟩
  have h1 : BusRun s₀ q₀ (t.level t.cfg.pinCD t.cfg.cdData) { q₀ with phase := .fFirstHi } :=
    ⟨ht.trans (level_drives t _ _), rfl⟩
  generalize t.level t.cfg.pinCD t.cfg.cdData = u at h1
  rw [Result.bind_assoc, write16, Result.bind_assoc]
  refine State.Runs.turn (write8_blind _) (write8_drives (h1.configOk hc) _)
    (by rw [seqStep_fFirstHi (by rfl), h1.floodColor, hcolor]) fun v hv =>
    ⟨v.withSeq { q₀ with phase := .fFirstLo }, rfl, ?_⟩
  have h2 : BusRun s₀ q₀ v { q₀ with phase := .fFirstLo } := h1.step hv rfl
  refine State.Runs.turn (write8_blind _) (write8_drives (h2.configOk hc) _)
    (by rw [seqStep_fFirstLo (by rfl), h2.floodColor, hcolor]) fun w hw => ?_
  have h3 : BusRun s₀ q₀ w { q₀ with phase := .fFirstLo } := h2.step hw rfl
  rw [loadFlood_withSeq, h3.floodColor, h3.floodLen, hcolor, hlen]
  refine ⟨_, rfl, ?_⟩
  rw [Result.bind_assoc]
  exact floodRest_runs hc hcolor hend h3 (by omega)

end

/-! ## LCD.FLOOD -/

/-- A branch that does not give the value is not the one taken. -/
theorem else_of_ite_eq {α : Type} {p : Prop} [Decidable p] {a b x : α} (h : (if p then a else b) = x) (ha : a ≠ x) :
    b = x := by
  split at h
  · exact absurd h ha
  · exact h

/-- What the operand registers hold for LCD.FLOOD (R104). -/
theorem operandInstr_eq_lcdFlood {color : Half} {len : Word} (h : s.operandInstr = some (.lcdFlood color len)) :
    opcodeOf s.cmdw = 0x14 ∧ s.operand16 = color ∧ s.opr1 = len := by
  unfold State.operandInstr State.operandWindow at h
  dsimp only at h
  iterate 9 replace h := else_of_ite_eq h nofun
  split at h
  next hop => exact ⟨hop, by simpa using h⟩
  next =>
    iterate 7 replace h := else_of_ite_eq h nofun
    cases h

/-- The sequencer's fields when LCD.FLOOD has begun (R176). -/
def State.floodSeq (s : State) : Sequencer := { s.seq with phase := .fCmd, held := s.opr0 }

theorem startFlood_next {len : Word} (hh : s.halted = false) (hcheck : floodCheck len.toNat s = none) :
    startFlood len s = .next (s.withSeq s.floodSeq) := by
  rw [startFlood, run_of_not_halted hh, hcheck]
  rfl

/-- Outside LCD.INIT the machine ends after F_END (R176). -/
theorem fEnd_runs {q : Sequencer} (hi : s.inInit = false) (hp : q.phase = .fEnd) :
    (s.withSeq q).Runs (.ok (s.level s.cfg.pinCS s.cfg.csIdle)) :=
  State.Runs.next (seqStep_fEnd hp hi) (State.Runs.done rfl rfl)

/-- LCD.FLOOD of an idle sequencer leaves it idle: it moves the display engine or takes a fault. -/
theorem execLcdFlood_phase {color : Half} {len : Word} (hc : ConfigOk s.cfg) (hp : s.phase = .idle)
    (h : exec (.lcdFlood color len) s = .next t) : t.phase = .idle := by
  obtain ⟨-, hm | ⟨u, -, -, -, rfl⟩⟩ := exec_lcd (.inl rfl) hc h
  · rw [hm.frame, hp]
  · rfl

/-- Settles O59: from F_CMD on each turn does the next procedure of the flood, and at the end both states settle
alike. -/
theorem floodMachineRefines : Obligations.FloodMachineRefines := by
  intro s t color len hc hphase hop hexec
  obtain ⟨hcode, hcolor, hlen⟩ := operandInstr_eq_lcdFlood hop
  have hinit : s.inInit = false := by rw [State.inInit, hcode]; decide
  have htphase := execLcdFlood_phase hc hphase hexec
  rw [exec, execLcdFlood] at hexec
  obtain ⟨hh, hx⟩ := run_eq_next hexec
  obtain ⟨hcheck, hflood⟩ := afterCheck_next hx
  have hruns : (s.withSeq s.floodSeq).Runs ((flood color len.toNat s).bind .ok) := by
    refine flood_runs hc ?_ ?_ len.isLt.le (fun r q hr hq => fEnd_runs ?_ hq) rfl
    · exact (if_neg (by exact Bool.eq_false_iff.mp hinit)).trans hcolor
    · exact (if_neg (by exact Bool.eq_false_iff.mp hinit)).trans (congrArg BitVec.toNat hlen)
    · rw [hr.moves.frame]
      exact hinit
  rw [Result.bind_ok] at hruns
  obtain ⟨n, u, hrun, huphase, hsettled⟩ := hruns t (Result.outcome_eq_next.mpr hflood)
  refine ⟨_, n, u, startFlood_next hh hcheck, hrun, huphase, ?_⟩
  rw [State.finish_withoutCounters huphase, State.finish_withoutCounters htphase, hsettled]

end Sys2Proof.Machine
end

section
/-! PROOFS. The duty mapping of the PWM driver (R249). -/

namespace Sys2Proof.Machine

variable {sample : Int}

theorem dutyNumerator_nonneg (hlo : -32768 ≤ sample) : 0 ≤ dutyNumerator sample := by
  unfold dutyNumerator
  omega

theorem dutyNumerator_le (hhi : sample ≤ 32767) : dutyNumerator sample ≤ 65535 := by
  unfold dutyNumerator
  omega

/-- On a 16-bit sample the quotient is not negative, so reading it as a natural number cuts nothing off. -/
theorem coe_dutyNs (c : Config) (hlo : -32768 ≤ sample) :
    (dutyNs c sample : Int) = dutyNumerator sample * c.pwmPeriodNs / 65536 :=
  Int.toNat_of_nonneg <|
    Int.ediv_nonneg (Int.mul_nonneg (dutyNumerator_nonneg hlo) (Int.natCast_nonneg _)) (by decide)

theorem dutyNs_mul_le (c : Config) (hlo : -32768 ≤ sample) :
    (dutyNs c sample : Int) * 65536 ≤ dutyNumerator sample * c.pwmPeriodNs := by
  rw [coe_dutyNs c hlo]
  exact Int.ediv_mul_le _ (by decide)

theorem lt_dutyNs_add_one_mul (c : Config) (hlo : -32768 ≤ sample) :
    dutyNumerator sample * c.pwmPeriodNs < ((dutyNs c sample : Int) + 1) * 65536 := by
  rw [coe_dutyNs c hlo]
  exact Int.lt_ediv_add_one_mul_self _ (by decide)

/-- The duty fraction is below 1, so the duty value is below the period. -/
theorem dutyNs_lt_period {c : Config} (hper : 0 < c.pwmPeriodNs) (hlo : -32768 ≤ sample) (hhi : sample ≤ 32767) :
    dutyNs c sample < c.pwmPeriodNs := by
  have hfloor := dutyNs_mul_le c hlo
  have hfraction : dutyNumerator sample * (c.pwmPeriodNs : Int) ≤ 65535 * c.pwmPeriodNs :=
    Int.mul_le_mul_of_nonneg_right (dutyNumerator_le hhi) (Int.natCast_nonneg _)
  omega

theorem dutyNs_zero (c : Config) : dutyNs c 0 = c.pwmPeriodNs / 2 := by
  have hduty : (dutyNs c 0 : Int) = 32768 * c.pwmPeriodNs / 65536 := coe_dutyNs c (by decide)
  omega

/-- Settles O47: the floor by division with remainder, the range by the bound 65535 on the numerator of the duty
fraction. -/
theorem dutyMapping : Obligations.DutyMapping := by
  intro c sample hper hlo hhi
  exact ⟨rfl, dutyNumerator_nonneg hlo, dutyNumerator_le hhi, dutyNs_mul_le c hlo, lt_dutyNs_add_one_mul c hlo,
    Nat.le_sub_one_of_lt (dutyNs_lt_period hper hlo hhi), dutyNs_zero c⟩

end Sys2Proof.Machine
end

section
/-! PROOFS. The fault of GPIO.INIT (R291). -/

namespace Sys2Proof.Machine

variable {s : State} {pin : Nat}

/-- The first line of GPIO.INIT (R141): of a pin it does not admit, the fault is all that happens. -/
theorem exec_gpioInit_of_not_admitted (hrun : s.halted = false)
    (hpin : validPin s.cfg pin = false ∨ acquireOk s.env pin = false) :
    exec (.gpioInit pin) s = .next (s.halt .pin (BitVec.ofNat 32 pin)) := by
  have hcheck : (!validPin s.cfg pin || !acquireOk s.env pin) = true := by simpa using hpin
  calc exec (.gpioInit pin) s
      = (s.raise .pin (BitVec.ofNat 32 pin)).outcome := by
        simp only [exec, execGpioInit, run_of_not_halted hrun, if_pos hcheck]
    _ = .next (s.halt .pin (BitVec.ofNat 32 pin)) := Result.outcome_stop _

/-- Settles O10: the fault is taken, and `State.halt` writes the state of R296 with the code 1 of `F_PIN`. -/
theorem gpioInitFaults : Obligations.GpioInitFaults := by
  intro s pin hrun hpin
  exact exec_gpioInit_of_not_admitted hrun hpin

end Sys2Proof.Machine
end

section
/-! PROOFS. Bring-up from end to end (R338): LCD.RESET (R200), then LCD.INIT of a recognised identifier (R205). The
procedures of the bus leave the display registers alone, so what a procedure did between two states it also did between
the same states with other display registers; LCD.INIT is then a chain of bus procedures with register writes between
them. -/

namespace Sys2Proof.Machine

variable {s t : State} {m b : Bool} {ev : List Event} {l₁ l₂ : Level} {d : Byte} {xs : List Transfer} {f : Family}

/-! ## The display registers -/

/-- The registers of the display controller that LCD.INIT writes and no procedure of the bus does (R35 to R40). -/
structure Display where
  variant : Variant
  dstate : DriverState
  rot : BitVec 2
  curW : BitVec 17
  curH : BitVec 17
  winx : Word
  winy : Word
  winValid : Bool

/-- The display registers of a state. -/
def State.display (s : State) : Display where
  variant := s.variant
  dstate := s.dstate
  rot := s.rot
  curW := s.curW
  curH := s.curH
  winx := s.winx
  winy := s.winy
  winValid := s.winValid

/-- A state with its display registers written. -/
def State.withDisplay (s : State) (r : Display) : State :=
  { s with
    variant := r.variant
    dstate := r.dstate
    rot := r.rot
    curW := r.curW
    curH := r.curH
    winx := r.winx
    winy := r.winy
    winValid := r.winValid }

@[simp] theorem State.withDisplay_cfg (s : State) (r : Display) : (s.withDisplay r).cfg = s.cfg := rfl

/-- A procedure of the bus leaves the display registers. -/
theorem State.did.display (h : s.did t m ev b l₁ l₂ d xs) : t.display = s.display := by
  rw [h.1.1]
  rfl

theorem State.did.rd (h : s.did t m ev b l₁ l₂ d xs) : t.rd = s.rd := h.1.2.2.1

/-- What a procedure of the bus did, it did whatever the display registers hold: neither the pins nor the trace depend
on them. -/
theorem State.did.withDisplay (h : s.did t m ev b l₁ l₂ d xs) (r : Display) :
    (s.withDisplay r).did (t.withDisplay r) m ev b l₁ l₂ d xs := by
  obtain ⟨⟨hframe, hlines⟩, hbus⟩ := h
  refine ⟨⟨?_, hlines⟩, fun hs => (hbus hs).congr rfl rfl fun _ => rfl⟩
  conv_lhs => rw [hframe]
  rfl

/-! ## The identifiers and the pins -/

theorem ConfigOk.panelOk {c : Config} (hc : ConfigOk c) : PanelOk c := hc.2.2.2.1

theorem not_mem_of_disjointIds {l k : List Half} (h : disjointIds l k = true) {id : Half} (hid : id ∈ l) : id ∉ k :=
  of_decide_eq_true (List.all_eq_true.mp h id hid)

/-- An identifier that the configuration lists for a family is classified as that family, the lists being disjoint
(R8, R206). -/
theorem classify_of_listed {c : Config} (hc : ConfigOk c) {id : Half}
    (h : (f = .A ∧ id ∈ c.idsA) ∨ (f = .B ∧ id ∈ c.idsB) ∨ (f = .C ∧ id ∈ c.idsC)) :
    classify c id = .family f := by
  obtain ⟨-, -, ⟨hAB, hAC, hBC⟩, -⟩ := hc
  rcases h with ⟨rfl, hA⟩ | ⟨rfl, hB⟩ | ⟨rfl, hC⟩
  · simp [classify, hA]
  · have hA : id ∉ c.idsA := fun hA => not_mem_of_disjointIds hAB hA hB
    simp [classify, hA, hB]
  · have hA : id ∉ c.idsA := fun hA => not_mem_of_disjointIds hAC hA hC
    have hB : id ∉ c.idsB := fun hB => not_mem_of_disjointIds hBC hB hC
    simp [classify, hA, hB, hC]

/-- Readiness reads the ownership and the directions of the pins alone (R148). -/
theorem pinsReady_congr (hcfg : t.cfg = s.cfg) (hdirs : t.dirs = s.dirs) (howns : t.owns = s.owns) :
    t.pinsReady = s.pinsReady := by
  unfold State.pinsReady State.owned State.dir
  rw [hcfg, hdirs, howns]

/-! ## LCD.RESET -/

/-- LCD.RESET of an uninitialized driver (R200, R201): the fields it writes, the lines it leaves, three transfers of a
zero command byte. -/
theorem execLcdReset_result (hrun : s.halted = false) (hc : ConfigOk s.cfg) (hm : s.mappable) (hp : s.pinsReady = true)
    (hd : s.dstate = .uninitialized) :
    ∃ t, exec .lcdReset s = .next t ∧
      t = { s with mapped := true, latches := t.latches, winValid := false, streamOpen := false, dstate := .reset,
                   evt := t.evt } ∧
      t.wr = s.cfg.wrIdle ∧ t.rd = s.cfg.rdIdle ∧
      (s.busValid = true → Transferred s t (List.replicate 3 ⟨.command, 0x00⟩)) := by
  obtain ⟨t, heq, hframe, hwr, hrd, -, -, -, -, hbus⟩ := reset_result hc hm
  have hcheck : resetCheck s = none := resetCheck_eq_none.mpr ⟨hp, hd⟩
  refine ⟨{ t with winValid := false, streamOpen := false, dstate := .reset }, ?_, ?_, hwr, hrd,
    fun hb => (hbus hb).congr rfl rfl fun _ => rfl⟩
  · rw [exec, execLcdReset, run_of_not_halted hrun, hcheck, afterCheck_none, heq, Result.outcome_ok]
  · rw [hframe]

/-! ## LCD.INIT -/

/-- The display registers of a recognised family with the whole screen as its window, in rotation 0 (R38, R205). -/
def fullScreen (c : Config) (f : Family) (x : DriverState) : Display where
  variant := .family f
  dstate := x
  rot := 0
  curW := BitVec.ofNat 17 c.nativeW
  curH := BitVec.ofNat 17 c.nativeH
  winx := BitVec.ofNat 32 (c.nativeW - 1)
  winy := BitVec.ofNat 32 (c.nativeH - 1)
  winValid := true

/-- A legal panel fits the registers (R8): none of the four values wraps. -/
theorem fullScreen_toNat {c : Config} (hc : PanelOk c) (f : Family) (x : DriverState) :
    (fullScreen c f x).curW.toNat = c.nativeW ∧ (fullScreen c f x).curH.toNat = c.nativeH ∧
      (fullScreen c f x).winx.toNat = c.nativeW - 1 ∧ (fullScreen c f x).winy.toNat = c.nativeH - 1 := by
  obtain ⟨-, hW, -, hH, -⟩ := hc
  simp only [fullScreen, BitVec.toNat_ofNat]
  omega

/-- A pair with the upper coordinate 0 is its lower coordinate (R120). -/
theorem packPair_zero {n : Nat} (h : n < 65536) : packPair 0 (BitVec.ofNat 16 n) = BitVec.ofNat 32 n := by
  apply BitVec.eq_of_toNat_eq
  simp only [packPair, BitVec.toNat_append, BitVec.toNat_ofNat]
  rw [Nat.mod_eq_of_lt h, Nat.mod_eq_of_lt (by omega)]
  exact Nat.zero_or n

/-- The transfers of LCD.INIT of a recognised family (R205, R207): its sequence, the window, the flood of the screen. -/
def initTransfers (c : Config) (f : Family) : List Transfer :=
  (familyTable c f).initSeq.flatMap initStepTransfers ++
    windowTransfers c f (BitVec.ofNat 32 (c.nativeW - 1)) (BitVec.ofNat 32 (c.nativeH - 1)) ++
    floodTransfers (familyTable c f).memWrite 0x0000 (c.nativeW * c.nativeH)

/-- The events of LCD.INIT of a recognised family, the resource being mapped (R205, R207). -/
def initEvents (c : Config) (f : Family) : List Event :=
  (familyTable c f).initSeq.flatMap (initStepEvents c) ++
    windowEvents c [] f (BitVec.ofNat 32 (c.nativeW - 1)) (BitVec.ofNat 32 (c.nativeH - 1)) ++
    floodEvents c [] (familyTable c f).memWrite 0x0000 (c.nativeW * c.nativeH)

/-- A flood with black is one data byte 0, twice for each pixel (R76, R173). -/
theorem floodTransfers_black (op : Byte) (n : Nat) :
    floodTransfers op 0x0000 n = ⟨.command, op⟩ :: List.replicate (2 * n) ⟨.data, 0x00⟩ := by
  have hpixel : pixelTransfers 0x0000 = List.replicate 2 ⟨.data, 0x00⟩ := rfl
  rw [floodTransfers, hpixel, List.flatten_replicate_replicate, Nat.mul_comm]

/-- The full-screen window of LCD.INIT (R205), from a state of a recognised family. -/
theorem initWindow_did (hc : ConfigOk s.cfg) (hm : s.mapped = true) (hw : s.wr = s.cfg.wrIdle)
    (hv : s.variant = .family f) :
    ∃ t l, setFullWindow (initScreen s) = .ok (t.withDisplay (fullScreen s.cfg f .initialized)) ∧
      s.did t true
        (windowEvents s.cfg [] f (BitVec.ofNat 32 (s.cfg.nativeW - 1)) (BitVec.ofNat 32 (s.cfg.nativeH - 1))) false
        s.cfg.csIdle s.cfg.cdData l
        (windowTransfers s.cfg f (BitVec.ofNat 32 (s.cfg.nativeW - 1)) (BitVec.ofNat 32 (s.cfg.nativeH - 1))) := by
  obtain ⟨hW, hH, -⟩ := fullScreen_toNat hc.panelOk f .initialized
  obtain ⟨-, hW16, -, hH16, -⟩ := hc.panelOk
  obtain ⟨t, heq, hdid⟩ := setWindow_did (s := initScreen s) hc (.inl hm) hw hv 0 0
    (BitVec.ofNat 16 (s.cfg.nativeW - 1)) (BitVec.ofNat 16 (s.cfg.nativeH - 1))
  rw [packPair_zero (by omega), packPair_zero (by omega)] at heq hdid
  have hfull : setFullWindow (initScreen s) = setWindow 0 0 (BitVec.ofNat 16 (s.cfg.nativeW - 1))
      (BitVec.ofNat 16 (s.cfg.nativeH - 1)) (initScreen s) := by
    rw [← hW, ← hH]
    rfl
  have hregs : fullScreen s.cfg f .initialized =
      { t.display with
        winx := BitVec.ofNat 32 (s.cfg.nativeW - 1)
        winy := BitVec.ofNat 32 (s.cfg.nativeH - 1)
        winValid := true } := by
    rw [hdid.display, fullScreen, ← hv]
    rfl
  have hback := hdid.withDisplay s.display
  rw [mapEvents_of_mapped (s := initScreen s) hm] at hback
  refine ⟨t.withDisplay s.display, _, ?_, hback⟩
  rw [hfull, heq, hregs]
  rfl

/-- LCD.INIT after its checks (R205), of a recognised family: its sequence, the full-screen window, one flood of the
screen with black. -/
theorem initBody_did (hc : ConfigOk s.cfg) (hm : s.mapped = true) (hw : s.wr = s.cfg.wrIdle) (f : Family) :
    ∃ t, ((runSeq (familyTable s.cfg f).initSeq { s with variant := .family f }).bind fun s1 =>
        (setFullWindow (initScreen s1)).bind fun s2 =>
          (flood 0x0000 (s2.curW.toNat * s2.curH.toNat) s2).bind fun s3 => .ok { s3 with dstate := .ready }) =
        .ok (t.withDisplay (fullScreen s.cfg f .ready)) ∧
      s.did t true (initEvents s.cfg f) true s.cfg.csIdle s.cfg.cdData 0x00 (initTransfers s.cfg f) := by
  obtain ⟨hW, hH, -⟩ := fullScreen_toNat hc.panelOk f .initialized
  obtain ⟨hW0, -, hH0, -⟩ := hc.panelOk
  obtain ⟨t1, _, _, _, _, heq1, hdid1, -⟩ := runSeq_did (s := { s with variant := .family f })
    (familyTable s.cfg f).initSeq hc hm hw
  have hcfg1 : t1.cfg = s.cfg := hdid1.cfg
  obtain ⟨t2, _, heq2, hdid2⟩ := initWindow_did (f := f) (hdid1.configOk hc) hdid1.mapped (hdid1.idle hw)
    (congrArg Display.variant hdid1.display)
  rw [hcfg1] at heq2 hdid2
  have hcfg2 : t2.cfg = s.cfg := hdid2.cfg.trans hcfg1
  obtain ⟨t3, heq3, hdid3⟩ := flood_did (s := t2.withDisplay (fullScreen s.cfg f .initialized)) (color := 0x0000)
    (hdid2.configOk (hdid1.configOk hc)) (.inl hdid2.mapped) (hdid2.idle (hdid1.idle hw)) (Nat.mul_pos hW0 hH0)
  have hregs : fullScreen s.cfg f .ready = { t3.display with dstate := .ready } := by
    rw [hdid3.display]
    rfl
  have hdid : s.did (t3.withDisplay s.display) _ _ _ _ _ _ _ :=
    ((hdid1.withDisplay s.display).trans (hdid2.withDisplay s.display)).trans (hdid3.withDisplay s.display)
  have hop : memWriteOp (t2.withDisplay (fullScreen s.cfg f .initialized)) = (familyTable s.cfg f).memWrite := by
    rw [memWriteOp_family rfl, State.withDisplay_cfg, hcfg2]
  have harea : (t2.withDisplay (fullScreen s.cfg f .initialized)).curW.toNat *
      (t2.withDisplay (fullScreen s.cfg f .initialized)).curH.toNat = s.cfg.nativeW * s.cfg.nativeH :=
    congrArg₂ (· * ·) hW hH
  rw [hop, mapEvents_of_mapped (s := t2.withDisplay _) hdid2.mapped, State.withDisplay_cfg, hcfg2] at hdid
  refine ⟨t3.withDisplay s.display, ?_, hdid⟩
  rw [heq1, Result.ok_bind, heq2, Result.ok_bind, harea, heq3, Result.ok_bind, hregs]
  rfl

/-- LCD.INIT of an identifier of a recognised family after LCD.RESET (R205). -/
theorem execLcdInit_did {id : Half} (hb : s.busReady) (hm : s.mapped = true) (hp : s.pinsReady = true)
    (hd : s.dstate = .reset) (hid : classify s.cfg id = .family f) :
    ∃ t, exec (.lcdInit id) s = .next (t.withDisplay (fullScreen s.cfg f .ready)) ∧
      s.did t true (initEvents s.cfg f) true s.cfg.csIdle s.cfg.cdData 0x00 (initTransfers s.cfg f) := by
  obtain ⟨hrun, hc, -, hw⟩ := hb
  obtain ⟨t, heq, hdid⟩ := initBody_did hc hm hw f
  have hcheck : initCheck s = none := initCheck_eq_none.mpr ⟨hp, hd⟩
  refine ⟨t, ?_, hdid⟩
  simp only [exec, execLcdInit, run_of_not_halted hrun, hcheck, afterCheck_none, hid, heq, Result.outcome_ok]

/-! ## Bring-up -/

/-- Settles O37: LCD.RESET leaves the lines and the replay that LCD.INIT needs, and the display registers at the end
are those of the whole screen. -/
theorem bringUpEndToEnd : Obligations.BringUpEndToEnd := by
  intro s id f hrun hc hm hp hd hvalid hempty hid
  obtain ⟨t, hreset, hframe, hwr, hrd, hstrobes⟩ := execLcdReset_result hrun hc hm hp hd
  have hcfg : t.cfg = s.cfg := by rw [hframe]
  have hpins : t.pinsReady = s.pinsReady := pinsReady_congr hcfg (by rw [hframe]) (by rw [hframe])
  have hmapped : t.mapped = true := by rw [hframe]
  have hready : t.busReady := ⟨by rw [hframe]; exact hrun, by rw [hcfg]; exact hc, .inl hmapped, by rw [hwr, hcfg]⟩
  have hclass : classify t.cfg id = .family f := by
    rw [hcfg]
    exact classify_of_listed hc hid
  obtain ⟨u, hinit, hdid⟩ := execLcdInit_did hready hmapped (hpins.trans hp) (by rw [hframe]) hclass
  obtain ⟨hW, hH, hx, hy⟩ := fullScreen_toNat hc.panelOk f .ready
  obtain ⟨⟨hvalid', -⟩, hbus⟩ := (hstrobes hvalid).trans (hdid.2 (hstrobes hvalid).1)
  rw [hcfg] at hinit hdid
  refine ⟨t, _, hreset, hinit, rfl, rfl, hW, hH, hx.trans (congrArg (· - 1) hW.symm),
    hy.trans (congrArg (· - 1) hH.symm), rfl, hdid.streamOpen, hdid.mapped, hdid.wr.trans hwr, hdid.cs,
    hdid.rd.trans hrd, hdid.cd, hdid.dbus, hvalid', ?_⟩
  calc u.bus = List.replicate 3 ⟨.command, 0x00⟩ ++ initTransfers s.cfg f := by
        rw [hbus, hempty, List.nil_append, hcfg]
    _ = _ := by
        rw [initTransfers, windowTransfers, floodTransfers_black, ← Nat.mul_assoc]
        simp only [List.append_assoc]
        rfl

end Sys2Proof.Machine
end

section
/-! PROOFS. The command words (30_encoding.md): decoding after encoding, encoding after decoding, and the operand
registers of an accepted command. -/

namespace Sys2Proof

variable {op : Byte} {imm : BitVec 24} {ext : List Word} {i : Instr}

/-! ## The rows of the decoder -/

theorem decodeFields_gpioInit (imm : BitVec 24) (ext : List Word) :
    decodeFields 0x01 imm ext = withNone ext (reservedClear 16 imm) (.gpioInit (imm.extractLsb' 0 16).toNat) := rfl

theorem decodeFields_gpioDirout (imm : BitVec 24) (ext : List Word) :
    decodeFields 0x02 imm ext = withNone ext (reservedClear 16 imm) (.gpioDirout (imm.extractLsb' 0 16).toNat) := rfl

theorem decodeFields_gpioWrlvl (imm : BitVec 24) (ext : List Word) :
    decodeFields 0x03 imm ext =
      withNone ext (reservedClear 17 imm) (.gpioWrlvl (imm.extractLsb' 0 16).toNat (imm.getLsbD 16)) := rfl

theorem decodeFields_gpioFset (imm : BitVec 24) (ext : List Word) :
    decodeFields 0x04 imm ext = withOne ext (reservedClear 0 imm) fun w1 => .gpioFset w1 := rfl

theorem decodeFields_gpioFclr (imm : BitVec 24) (ext : List Word) :
    decodeFields 0x05 imm ext = withOne ext (reservedClear 0 imm) fun w1 => .gpioFclr w1 := rfl

theorem decodeFields_lcdWr8 (imm : BitVec 24) (ext : List Word) :
    decodeFields 0x10 imm ext = withNone ext (reservedClear 8 imm) (.lcdWr8 (imm.extractLsb' 0 8)) := rfl

theorem decodeFields_lcdWr16 (imm : BitVec 24) (ext : List Word) :
    decodeFields 0x11 imm ext = withNone ext (reservedClear 16 imm) (.lcdWr16 (imm.extractLsb' 0 16)) := rfl

theorem decodeFields_lcdWreg32 (imm : BitVec 24) (ext : List Word) :
    decodeFields 0x12 imm ext =
      withOne ext (reservedClear 8 imm) fun w1 => .lcdWreg32 (imm.extractLsb' 0 8) w1 := rfl

theorem decodeFields_lcdSetwin (imm : BitVec 24) (ext : List Word) :
    decodeFields 0x13 imm ext =
      withTwo ext (reservedClear 0 imm) fun w1 w2 =>
        .lcdSetwin (w1.extractLsb' 16 16) (w2.extractLsb' 16 16) (w1.extractLsb' 0 16) (w2.extractLsb' 0 16) := rfl

theorem decodeFields_lcdFlood (imm : BitVec 24) (ext : List Word) :
    decodeFields 0x14 imm ext =
      withOne ext (reservedClear 16 imm) fun w1 => .lcdFlood (imm.extractLsb' 0 16) w1 := rfl

theorem decodeFields_lcdPush (imm : BitVec 24) (ext : List Word) :
    decodeFields 0x15 imm ext =
      withTwo ext (reservedClear 1 imm) fun w1 w2 => .lcdPush w1 w2 (imm.getLsbD 0) := rfl

theorem decodeFields_lcdReset (imm : BitVec 24) (ext : List Word) :
    decodeFields 0x18 imm ext = withNone ext (reservedClear 0 imm) .lcdReset := rfl

theorem decodeFields_lcdInit (imm : BitVec 24) (ext : List Word) :
    decodeFields 0x19 imm ext = withNone ext (reservedClear 16 imm) (.lcdInit (imm.extractLsb' 0 16)) := rfl

theorem decodeFields_lcdSetrot (imm : BitVec 24) (ext : List Word) :
    decodeFields 0x1A imm ext = withNone ext (reservedClear 2 imm) (.lcdSetrot (imm.extractLsb' 0 2).toNat) := rfl

theorem decodeFields_mixAdd (imm : BitVec 24) (ext : List Word) :
    decodeFields 0x20 imm ext =
      withFour ext (reservedClear 16 imm) fun w1 w2 sep w4 =>
        .mixAdd (imm.extractLsb' 0 16) w1 w2 sep.toNat w4 := rfl

theorem decodeFields_mixTick (imm : BitVec 24) (ext : List Word) :
    decodeFields 0x21 imm ext = withNone ext (reservedClear 0 imm) .mixTick := rfl

theorem decodeFields_pwmPoll (imm : BitVec 24) (ext : List Word) :
    decodeFields 0x28 imm ext = withNone ext (reservedClear 0 imm) .pwmPoll := rfl

theorem opcodeByte_of_withNone {clear : Bool} {j : Instr} (h : withNone ext clear j = .command i) :
    opcodeByte i = opcodeByte j := by
  obtain ⟨-, -, rfl⟩ := withNone_eq_command.mp h
  rfl

theorem opcodeByte_of_withOne {clear : Bool} {f : Word → Instr} (h : withOne ext clear f = .command i)
    (hf : ∀ w, opcodeByte (f w) = op) : opcodeByte i = op := by
  obtain ⟨w, -, -, rfl⟩ := withOne_eq_command.mp h
  exact hf w

theorem opcodeByte_of_withTwo {clear : Bool} {f : Word → Word → Instr} (h : withTwo ext clear f = .command i)
    (hf : ∀ w x, opcodeByte (f w x) = op) : opcodeByte i = op := by
  obtain ⟨w, x, -, -, rfl⟩ := withTwo_eq_command.mp h
  exact hf w x

theorem opcodeByte_of_withFour {clear : Bool} {f : Word → Word → Byte → Word → Instr}
    (h : withFour ext clear f = .command i) (hf : ∀ w x y z, opcodeByte (f w x y z) = op) : opcodeByte i = op := by
  obtain ⟨w, x, y, z, -, -, -, rfl⟩ := withFour_eq_command.mp h
  exact hf _ _ _ _

/-- The opcodes of R103. -/
def commandOpcodes : List Byte :=
  [0x01, 0x02, 0x03, 0x04, 0x05, 0x10, 0x11, 0x12, 0x13, 0x14, 0x15, 0x18, 0x19, 0x1A, 0x20, 0x21, 0x28]

/-- Every other opcode byte spells no command (R105). -/
theorem decodeFields_of_unknown (h : op ∉ commandOpcodes) (imm : BitVec 24) (ext : List Word) :
    decodeFields op imm ext = .illegal (.unknownOpcode op) := by
  simp only [commandOpcodes, List.mem_cons, List.not_mem_nil, or_false, not_or] at h
  unfold decodeFields
  simp only [h, if_false]

/-- The decoder reads a command only under the command's own opcode (R103). -/
theorem opcodeByte_of_decodeFields (h : decodeFields op imm ext = .command i) : opcodeByte i = op := by
  by_cases hop : op ∈ commandOpcodes
  · simp only [commandOpcodes, List.mem_cons, List.not_mem_nil, or_false] at hop
    rcases hop with rfl | rfl | rfl | rfl | rfl | rfl | rfl | rfl | rfl | rfl | rfl | rfl | rfl | rfl | rfl | rfl |
      rfl
    · exact opcodeByte_of_withNone (decodeFields_gpioInit imm ext ▸ h)
    · exact opcodeByte_of_withNone (decodeFields_gpioDirout imm ext ▸ h)
    · exact opcodeByte_of_withNone (decodeFields_gpioWrlvl imm ext ▸ h)
    · exact opcodeByte_of_withOne (decodeFields_gpioFset imm ext ▸ h) fun _ => rfl
    · exact opcodeByte_of_withOne (decodeFields_gpioFclr imm ext ▸ h) fun _ => rfl
    · exact opcodeByte_of_withNone (decodeFields_lcdWr8 imm ext ▸ h)
    · exact opcodeByte_of_withNone (decodeFields_lcdWr16 imm ext ▸ h)
    · exact opcodeByte_of_withOne (decodeFields_lcdWreg32 imm ext ▸ h) fun _ => rfl
    · exact opcodeByte_of_withTwo (decodeFields_lcdSetwin imm ext ▸ h) fun _ _ => rfl
    · exact opcodeByte_of_withOne (decodeFields_lcdFlood imm ext ▸ h) fun _ => rfl
    · exact opcodeByte_of_withTwo (decodeFields_lcdPush imm ext ▸ h) fun _ _ => rfl
    · exact opcodeByte_of_withNone (decodeFields_lcdReset imm ext ▸ h)
    · exact opcodeByte_of_withNone (decodeFields_lcdInit imm ext ▸ h)
    · exact opcodeByte_of_withNone (decodeFields_lcdSetrot imm ext ▸ h)
    · exact opcodeByte_of_withFour (decodeFields_mixAdd imm ext ▸ h) fun _ _ _ _ => rfl
    · exact opcodeByte_of_withNone (decodeFields_mixTick imm ext ▸ h)
    · exact opcodeByte_of_withNone (decodeFields_pwmPoll imm ext ▸ h)
  · rw [decodeFields_of_unknown hop] at h
    cases h

/-! ## Decoding after encoding -/

/-- The level above the handle of GPIO.WRLVL (R103). -/
theorem wrlvl_fields (level : Level) (v : Half) :
    ((BitVec.ofBool level ++ v).setWidth 24).extractLsb' 0 16 = v ∧
      ((BitVec.ofBool level ++ v).setWidth 24).getLsbD 16 = level := by
  have hg : ∀ j, (BitVec.ofBool level ++ v).getLsbD j =
      if j < 16 then v.getLsbD j else (BitVec.ofBool level).getLsbD (j - 16) := fun j => BitVec.getLsbD_append
  constructor
  · apply BitVec.eq_of_getLsbD_eq
    intro j hj
    have : j < 24 := by omega
    simp only [BitVec.getLsbD_extractLsb', BitVec.getLsbD_setWidth, hg, Nat.zero_add, hj, this, if_true, decide_true,
      Bool.true_and]
  · rw [BitVec.getLsbD_setWidth, hg]
    exact BitVec.getLsbD_ofBool level 0

/-- The separation's byte in its word (R104). -/
theorem separation_field (v : Byte) :
    (v.setWidth 32 : Word) >>> 8 = 0 ∧ (v.setWidth 32 : Word).extractLsb' 0 8 = v := by
  constructor
  · apply BitVec.eq_of_getLsbD_eq
    intro j hj
    simp
  · apply BitVec.eq_of_getLsbD_eq
    intro j hj
    have : j < 32 := by omega
    simp [hj, this]

theorem reservedClear_zero (n : Nat) : reservedClear n 0 = true := by simp [reservedClear]

/-- A number that fits a field is read back from it. -/
theorem toNat_field {n m : Nat} (hn : n ≤ 24) (h : m < 2 ^ n) :
    (((BitVec.ofNat n m).setWidth 24).extractLsb' 0 n).toNat = m := by
  rw [extract_setWidth _ hn, BitVec.toNat_ofNat, Nat.mod_eq_of_lt h]

/-- The fields of an encoded command, decoded (R100 to R105). -/
theorem decodeFields_encoded (hwf : WellFormed i = true) :
    decodeFields (opcodeByte i) (immediateOf i) (extensionOf i) = .command i := by
  cases i with
  | gpioInit pin =>
    have hpin : pin < 2 ^ 16 := of_decide_eq_true hwf
    exact withNone_eq_command.mpr ⟨rfl, reservedClear_setWidth _, congrArg _ (toNat_field (by decide) hpin)⟩
  | gpioDirout handle =>
    have hhandle : handle < 2 ^ 16 := of_decide_eq_true hwf
    exact withNone_eq_command.mpr ⟨rfl, reservedClear_setWidth _, congrArg _ (toNat_field (by decide) hhandle)⟩
  | gpioWrlvl handle level =>
    have hhandle : handle < 2 ^ 16 := of_decide_eq_true hwf
    obtain ⟨hlow, hbit⟩ := wrlvl_fields level (BitVec.ofNat 16 handle)
    refine withNone_eq_command.mpr ⟨rfl, reservedClear_setWidth _, congrArg₂ Instr.gpioWrlvl ?_ hbit⟩
    exact (congrArg BitVec.toNat hlow).trans (Nat.mod_eq_of_lt hhandle)
  | gpioFset mask => exact withOne_eq_command.mpr ⟨mask, rfl, reservedClear_zero 0, rfl⟩
  | gpioFclr mask => exact withOne_eq_command.mpr ⟨mask, rfl, reservedClear_zero 0, rfl⟩
  | lcdWr8 value =>
    exact withNone_eq_command.mpr ⟨rfl, reservedClear_setWidth _, congrArg _ (extract_setWidth value (by decide))⟩
  | lcdWr16 value =>
    exact withNone_eq_command.mpr ⟨rfl, reservedClear_setWidth _, congrArg _ (extract_setWidth value (by decide))⟩
  | lcdWreg32 reg value =>
    exact withOne_eq_command.mpr
      ⟨value, rfl, reservedClear_setWidth _, congrArg (Instr.lcdWreg32 · value) (extract_setWidth reg (by decide))⟩
  | lcdSetwin x1 y1 x2 y2 =>
    refine (decodeFields_lcdSetwin _ _).trans (withTwo_eq_command.mpr ⟨_, _, rfl, reservedClear_zero 0, ?_⟩)
    obtain ⟨hx1, hx2⟩ := extract_append x1 x2
    obtain ⟨hy1, hy2⟩ := extract_append y1 y2
    rw [hx1, hx2, hy1, hy2]
  | lcdFlood color len =>
    exact withOne_eq_command.mpr
      ⟨len, rfl, reservedClear_setWidth _, congrArg (Instr.lcdFlood · len) (extract_setWidth color (by decide))⟩
  | lcdPush buffer count isFirstCall =>
    refine (decodeFields_lcdPush _ _).trans (withTwo_eq_command.mpr
      ⟨_, _, rfl, reservedClear_setWidth _, congrArg (Instr.lcdPush buffer count) ?_⟩)
    exact (BitVec.getLsbD_setWidth _ _ _).trans (BitVec.getLsbD_ofBool isFirstCall 0)
  | lcdReset => exact withNone_eq_command.mpr ⟨rfl, reservedClear_zero 0, rfl⟩
  | lcdInit id =>
    exact withNone_eq_command.mpr ⟨rfl, reservedClear_setWidth _, congrArg _ (extract_setWidth id (by decide))⟩
  | lcdSetrot r =>
    have hr : r < 2 ^ 2 := of_decide_eq_true hwf
    exact withNone_eq_command.mpr ⟨rfl, reservedClear_setWidth _, congrArg _ (toNat_field (by decide) hr)⟩
  | mixAdd sfxId volume step separation tic =>
    have hsep : separation < 2 ^ 8 := of_decide_eq_true hwf
    obtain ⟨hhigh, hlow⟩ := separation_field (BitVec.ofNat 8 separation)
    refine (decodeFields_mixAdd _ _).trans (withFour_eq_command.mpr
      ⟨_, _, _, _, rfl, reservedClear_setWidth _, hhigh, ?_⟩)
    rw [hlow, BitVec.toNat_ofNat, Nat.mod_eq_of_lt hsep]
    exact congrArg (Instr.mixAdd · volume step separation tic) (extract_setWidth sfxId (by decide))
  | mixTick => exact withNone_eq_command.mpr ⟨rfl, reservedClear_zero 0, rfl⟩
  | pwmPoll => exact withNone_eq_command.mpr ⟨rfl, reservedClear_zero 0, rfl⟩

/-- Settles O2: the fields of the first word are the opcode and the immediate, and each row of the decoder reads its
own command back. -/
theorem decodeOfEncode : Obligations.DecodeOfEncode := by
  intro i hwf
  rw [encode, decode_cons, opcodeOf_firstWord, imm24Of_firstWord, decodeFields_encoded hwf]

/-! ## Encoding after decoding -/

/-- A field of an immediate with clear reserved bits, widened, is the immediate. -/
theorem setWidth_ofNat_extract {n : Nat} (h : reservedClear n imm = true) :
    (BitVec.ofNat n (imm.extractLsb' 0 n).toNat).setWidth 24 = imm := by
  rw [BitVec.ofNat_toNat, BitVec.setWidth_eq, setWidth_extract_of_clear h]

theorem reservedClear_zero_eq (h : reservedClear 0 imm = true) : imm = 0 := by
  simpa [reservedClear] using h

/-- One bit of an immediate, widened, is the immediate where no other bit is set. -/
theorem setWidth_ofBool_getLsbD (h : reservedClear 1 imm = true) :
    (BitVec.ofBool (imm.getLsbD 0)).setWidth 24 = imm := by
  rw [← setWidth_extract_of_clear h]
  congr 1
  apply BitVec.eq_of_getLsbD_eq
  intro j hj
  obtain rfl : j = 0 := by omega
  simp

/-- The level and the handle of GPIO.WRLVL, joined and widened, are the immediate. -/
theorem setWidth_level_handle (h : reservedClear 17 imm = true) :
    (BitVec.ofBool (imm.getLsbD 16) ++ BitVec.ofNat 16 (imm.extractLsb' 0 16).toNat).setWidth 24 = imm := by
  rw [← setWidth_extract_of_clear h, BitVec.ofNat_toNat, BitVec.setWidth_eq]
  congr 1
  apply BitVec.eq_of_getLsbD_eq
  intro j hj
  rw [BitVec.getLsbD_append]
  split
  next hlow =>
    have hj24 : j < 24 := by omega
    simp [hlow, hj, hj24]
  next hhigh =>
    obtain rfl : j = 16 := by omega
    simp

/-- A word whose upper three bytes are clear is its low byte, widened (R105). -/
theorem setWidth_ofNat_separation {w : Word} (h : w >>> 8 = 0) :
    (BitVec.ofNat 8 (w.extractLsb' 0 8).toNat).setWidth 32 = w := by
  rw [BitVec.ofNat_toNat, BitVec.setWidth_eq]
  apply BitVec.eq_of_getLsbD_eq
  intro j hj
  by_cases hlow : j < 8
  · simp [hlow, hj]
  · have hbit := congrArg (fun v : Word => v.getLsbD (j - 8)) h
    simp only [BitVec.getLsbD_ushiftRight, show 8 + (j - 8) = j by omega] at hbit
    simp [hlow, hbit]

/-- What a decoded command's fields are (R100 to R105): each row of the decoder, read back. -/
theorem fields_of_decodeFields (h : decodeFields op imm ext = .command i) :
    WellFormed i = true ∧ immediateOf i = imm ∧ extensionOf i = ext := by
  obtain rfl := opcodeByte_of_decodeFields h
  cases i with
  | gpioInit pin =>
    obtain ⟨rfl, hclear, hi⟩ := withNone_eq_command.mp h
    cases hi
    exact ⟨decide_eq_true (BitVec.isLt _), setWidth_ofNat_extract hclear, rfl⟩
  | gpioDirout handle =>
    obtain ⟨rfl, hclear, hi⟩ := withNone_eq_command.mp h
    cases hi
    exact ⟨decide_eq_true (BitVec.isLt _), setWidth_ofNat_extract hclear, rfl⟩
  | gpioWrlvl handle level =>
    obtain ⟨rfl, hclear, hi⟩ := withNone_eq_command.mp h
    cases hi
    exact ⟨decide_eq_true (BitVec.isLt _), setWidth_level_handle hclear, rfl⟩
  | gpioFset mask =>
    obtain ⟨w1, rfl, hclear, hi⟩ := withOne_eq_command.mp h
    cases hi
    exact ⟨rfl, (reservedClear_zero_eq hclear).symm, rfl⟩
  | gpioFclr mask =>
    obtain ⟨w1, rfl, hclear, hi⟩ := withOne_eq_command.mp h
    cases hi
    exact ⟨rfl, (reservedClear_zero_eq hclear).symm, rfl⟩
  | lcdWr8 value =>
    obtain ⟨rfl, hclear, hi⟩ := withNone_eq_command.mp h
    cases hi
    exact ⟨rfl, setWidth_extract_of_clear hclear, rfl⟩
  | lcdWr16 value =>
    obtain ⟨rfl, hclear, hi⟩ := withNone_eq_command.mp h
    cases hi
    exact ⟨rfl, setWidth_extract_of_clear hclear, rfl⟩
  | lcdWreg32 reg value =>
    obtain ⟨w1, rfl, hclear, hi⟩ := withOne_eq_command.mp h
    cases hi
    exact ⟨rfl, setWidth_extract_of_clear hclear, rfl⟩
  | lcdSetwin x1 y1 x2 y2 =>
    obtain ⟨w1, w2, rfl, hclear, hi⟩ := withTwo_eq_command.mp (decodeFields_lcdSetwin imm ext ▸ h)
    cases hi
    refine ⟨rfl, (reservedClear_zero_eq hclear).symm, ?_⟩
    rw [extensionOf, append_extract, append_extract]
  | lcdFlood color len =>
    obtain ⟨w1, rfl, hclear, hi⟩ := withOne_eq_command.mp h
    cases hi
    exact ⟨rfl, setWidth_extract_of_clear hclear, rfl⟩
  | lcdPush buffer count isFirstCall =>
    obtain ⟨w1, w2, rfl, hclear, hi⟩ := withTwo_eq_command.mp (decodeFields_lcdPush imm ext ▸ h)
    cases hi
    exact ⟨rfl, setWidth_ofBool_getLsbD hclear, rfl⟩
  | lcdReset =>
    obtain ⟨rfl, hclear, -⟩ := withNone_eq_command.mp h
    exact ⟨rfl, (reservedClear_zero_eq hclear).symm, rfl⟩
  | lcdInit id =>
    obtain ⟨rfl, hclear, hi⟩ := withNone_eq_command.mp h
    cases hi
    exact ⟨rfl, setWidth_extract_of_clear hclear, rfl⟩
  | lcdSetrot r =>
    obtain ⟨rfl, hclear, hi⟩ := withNone_eq_command.mp h
    cases hi
    exact ⟨decide_eq_true (BitVec.isLt _), setWidth_ofNat_extract hclear, rfl⟩
  | mixAdd sfxId volume step separation tic =>
    obtain ⟨w1, w2, w3, w4, rfl, hclear, hsep, hi⟩ := withFour_eq_command.mp (decodeFields_mixAdd imm ext ▸ h)
    cases hi
    refine ⟨decide_eq_true (BitVec.isLt _), setWidth_extract_of_clear hclear, ?_⟩
    rw [extensionOf, setWidth_ofNat_separation hsep]
  | mixTick =>
    obtain ⟨rfl, hclear, -⟩ := withNone_eq_command.mp h
    exact ⟨rfl, (reservedClear_zero_eq hclear).symm, rfl⟩
  | pwmPoll =>
    obtain ⟨rfl, hclear, -⟩ := withNone_eq_command.mp h
    exact ⟨rfl, (reservedClear_zero_eq hclear).symm, rfl⟩

/-- Settles O3: the opcode is the command's, and so is each field of its row. -/
theorem encodeOfDecode : Obligations.EncodeOfDecode := by
  intro words i h
  cases words with
  | nil => cases h
  | cons w ext =>
    rw [decode_cons] at h
    obtain ⟨hwf, himm, hext⟩ := fields_of_decodeFields h
    exact ⟨hwf, by rw [encode, opcodeByte_of_decodeFields h, himm, hext, firstWord_fields]⟩

/-! ## The rows of the opcode map -/

/-- The mask of a row whose command uses the low `n` bits of the immediate: the opcode and the reserved bits (R103). -/
def rowMask (n : Nat) : Word := firstWord 0xFF (BitVec.allOnes 24 <<< n)

/-- The row of the opcode map (R103) of an opcode whose command uses the low `n` bits of the immediate and has `k`
extension words. -/
def rowOf (op : Byte) (n k : Nat) : Machine.OpcodeRow where
  value := firstWord op 0
  mask := rowMask n
  extension := k

theorem opcodeMap_eq :
    Machine.opcodeMap =
      [rowOf 0x01 16 0, rowOf 0x02 16 0, rowOf 0x03 17 0, rowOf 0x04 0 1, rowOf 0x05 0 1, rowOf 0x10 8 0,
       rowOf 0x11 16 0, rowOf 0x12 8 1, rowOf 0x13 0 2, rowOf 0x14 16 1, rowOf 0x15 1 2, rowOf 0x18 0 0,
       rowOf 0x19 16 0, rowOf 0x1A 2 0, rowOf 0x20 16 4, rowOf 0x21 0 0, rowOf 0x28 0 0] := by decide

theorem firstWord_and (op op' : Byte) (imm imm' : BitVec 24) :
    firstWord op imm &&& firstWord op' imm' = firstWord (op &&& op') (imm &&& imm') := by
  refine BitVec.eq_of_getLsbD_eq fun j _ => ?_
  rw [BitVec.getLsbD_and, getLsbD_firstWord, getLsbD_firstWord, getLsbD_firstWord]
  split
  next => exact (BitVec.getLsbD_and).symm
  next => exact (BitVec.getLsbD_and).symm

theorem firstWord_inj {op op' : Byte} {imm imm' : BitVec 24} :
    firstWord op imm = firstWord op' imm' ↔ op = op' ∧ imm = imm' := by
  constructor
  · intro h
    exact ⟨by simpa using congrArg opcodeOf h, by simpa using congrArg imm24Of h⟩
  · rintro ⟨rfl, rfl⟩
    rfl

/-- The bits above a field are clear exactly when the mask of those bits selects nothing. -/
theorem and_shiftLeft_allOnes_eq_zero {n : Nat} :
    imm &&& BitVec.allOnes 24 <<< n = 0 ↔ reservedClear n imm = true := by
  rw [reservedClear, beq_iff_eq]
  constructor
  · intro h
    refine BitVec.eq_of_getLsbD_eq fun j _ => ?_
    have hbit : (imm &&& BitVec.allOnes 24 <<< n).getLsbD (n + j) = false := by
      rw [h]
      exact BitVec.getLsbD_zero
    by_cases hj : n + j < 24
    · have hmask : (BitVec.allOnes 24 <<< n).getLsbD (n + j) = true := by
        rw [BitVec.getLsbD_shiftLeft, BitVec.getLsbD_allOnes, Nat.add_sub_cancel_left]
        simp [hj, show j < 24 by omega]
      rw [BitVec.getLsbD_and, hmask, Bool.and_true] at hbit
      rw [BitVec.getLsbD_ushiftRight, hbit]
      exact BitVec.getLsbD_zero.symm
    · simp [BitVec.getLsbD_of_ge imm (n + j) (by omega)]
  · intro h
    refine BitVec.eq_of_getLsbD_eq fun j hj => ?_
    have hbit := congrArg (fun v : BitVec 24 => v.getLsbD (j - n)) h
    by_cases hn : j < n
    · simp [hn]
    · simp only [BitVec.getLsbD_ushiftRight, show n + (j - n) = j by omega] at hbit
      simp [hbit]

/-- A first word matches a row by its opcode and its clear reserved bits. -/
theorem matches_rowOf {w : Word} {n k : Nat} :
    w &&& (rowOf op n k).mask = (rowOf op n k).value ↔ opcodeOf w = op ∧ reservedClear n (imm24Of w) = true := by
  conv_lhs => rw [← firstWord_fields w]
  simp only [rowOf, rowMask]
  rw [firstWord_and, firstWord_inj, and_shiftLeft_allOnes_eq_zero]
  have hff : opcodeOf w &&& 0xFF = opcodeOf w := BitVec.and_allOnes
  rw [hff]

/-- How many bits of the immediate the operands of a command use (R103). -/
def operandBits : Instr → Nat
  | .gpioInit _ => 16
  | .gpioDirout _ => 16
  | .gpioWrlvl _ _ => 17
  | .gpioFset _ => 0
  | .gpioFclr _ => 0
  | .lcdWr8 _ => 8
  | .lcdWr16 _ => 16
  | .lcdWreg32 _ _ => 8
  | .lcdSetwin _ _ _ _ => 0
  | .lcdFlood _ _ => 16
  | .lcdPush _ _ _ => 1
  | .lcdReset => 0
  | .lcdInit _ => 16
  | .lcdSetrot _ => 2
  | .mixAdd _ _ _ _ _ => 16
  | .mixTick => 0
  | .pwmPoll => 0

/-- A command leaves the bits above its operands clear (R102). -/
theorem reservedClear_immediateOf (i : Instr) : reservedClear (operandBits i) (immediateOf i) = true := by
  cases i with
  | gpioFset | gpioFclr | lcdSetwin | lcdReset | mixTick | pwmPoll => exact reservedClear_zero 0
  | gpioInit | gpioDirout | gpioWrlvl | lcdWr8 | lcdWr16 | lcdWreg32 | lcdFlood | lcdPush | lcdInit | lcdSetrot
  | mixAdd => exact reservedClear_setWidth _

/-- Each command has its row in the opcode map (R103). -/
theorem rowOf_mem_opcodeMap (i : Instr) :
    rowOf (opcodeByte i) (operandBits i) (extensionOf i).length ∈ Machine.opcodeMap := by
  rw [opcodeMap_eq]
  cases i <;> simp [opcodeByte, operandBits, extensionOf]

/-- The third extension word is the separation, a byte (R105): only MIX.ADD has one. -/
theorem third_extension_clear {w : Word} (h : (extensionOf i)[2]? = some w) : w >>> 8 = 0 := by
  cases i <;> simp only [extensionOf, List.getElem?_cons_succ, List.getElem?_cons_zero, List.getElem?_nil,
    reduceCtorEq, Option.some.injEq] at h
  rw [← h]
  exact (separation_field _).1

theorem spells_of_decodeFields {w : Word} (h : decodeFields (opcodeOf w) (imm24Of w) ext = .command i) :
    Machine.spells w ext := by
  obtain ⟨-, himm, rfl⟩ := fields_of_decodeFields h
  refine ⟨_, rowOf_mem_opcodeMap i, matches_rowOf.mpr ⟨(opcodeByte_of_decodeFields h).symm, ?_⟩, rfl,
    fun _ w3 hw3 => third_extension_clear hw3⟩
  rw [← himm]
  exact reservedClear_immediateOf i

theorem withNone_decodes {clear : Bool} {j : Instr} (hlen : ext.length = 0) (hclear : clear = true) :
    ∃ i, withNone ext clear j = .command i :=
  ⟨j, withNone_eq_command.mpr ⟨List.length_eq_zero_iff.mp hlen, hclear, rfl⟩⟩

theorem withOne_decodes {clear : Bool} {f : Word → Instr} (hlen : ext.length = 1) (hclear : clear = true) :
    ∃ i, withOne ext clear f = .command i := by
  obtain ⟨w1, rfl⟩ := List.length_eq_one_iff.mp hlen
  exact ⟨_, withOne_eq_command.mpr ⟨w1, rfl, hclear, rfl⟩⟩

theorem withTwo_decodes {clear : Bool} {f : Word → Word → Instr} (hlen : ext.length = 2) (hclear : clear = true) :
    ∃ i, withTwo ext clear f = .command i := by
  obtain ⟨w1, w2, rfl⟩ := List.length_eq_two.mp hlen
  exact ⟨_, withTwo_eq_command.mpr ⟨w1, w2, rfl, hclear, rfl⟩⟩

theorem withFour_decodes {clear : Bool} {f : Word → Word → Byte → Word → Instr} (hlen : ext.length = 4)
    (hclear : clear = true) (hsep : ∀ w3 : Word, ext[2]? = some w3 → w3 >>> 8 = 0) :
    ∃ i, withFour ext clear f = .command i := by
  match ext, hlen with
  | [w1, w2, w3, w4], _ => exact ⟨_, withFour_eq_command.mpr ⟨w1, w2, w3, w4, rfl, hclear, hsep w3 rfl, rfl⟩⟩

/-- A word that matches a row of the map, with the row's number of extension words, spells a command (R103). -/
theorem decode_of_spells {w : Word} (h : Machine.spells w ext) : ∃ i, decode (w :: ext) = .command i := by
  obtain ⟨row, hrow, hmatch, hlen, hsep⟩ := h
  rw [opcodeMap_eq] at hrow
  simp only [List.mem_cons, List.not_mem_nil, or_false] at hrow
  rw [decode_cons]
  rcases hrow with rfl | rfl | rfl | rfl | rfl | rfl | rfl | rfl | rfl | rfl | rfl | rfl | rfl | rfl | rfl | rfl |
      rfl <;>
    obtain ⟨hop, hclear⟩ := matches_rowOf.mp hmatch <;> rw [hop]
  · exact withNone_decodes hlen hclear
  · exact withNone_decodes hlen hclear
  · exact withNone_decodes hlen hclear
  · exact withOne_decodes hlen hclear
  · exact withOne_decodes hlen hclear
  · exact withNone_decodes hlen hclear
  · exact withNone_decodes hlen hclear
  · exact withOne_decodes hlen hclear
  · rw [decodeFields_lcdSetwin]
    exact withTwo_decodes hlen hclear
  · exact withOne_decodes hlen hclear
  · rw [decodeFields_lcdPush]
    exact withTwo_decodes hlen hclear
  · exact withNone_decodes hlen hclear
  · exact withNone_decodes hlen hclear
  · exact withNone_decodes hlen hclear
  · rw [decodeFields_mixAdd]
    exact withFour_decodes hlen hclear (hsep rfl)
  · exact withNone_decodes hlen hclear
  · exact withNone_decodes hlen hclear

theorem decode_iff_spells {w : Word} : (∃ i, decode (w :: ext) = .command i) ↔ Machine.spells w ext :=
  ⟨fun ⟨_, h⟩ => spells_of_decodeFields h, decode_of_spells⟩

/-- No command has the opcode 0 (R105). -/
theorem not_spells_zero (ext : List Word) : ¬ Machine.spells 0 ext := by
  intro h
  obtain ⟨i, hi⟩ := decode_of_spells h
  rw [decode_cons, decodeFields_of_unknown (by decide)] at hi
  cases hi

namespace Machine

variable {s : State} {x : HostInput} {rest : List HostInput}

/-! ## The inputs of the port -/

/-- A step of a block that is not halted takes the first input of the port (R3). -/
theorem step_of_input (hrun : s.halted = false) (hc : ConfigOk s.cfg) (hport : s.port = x :: rest) :
    step s = portInput x { s with port := rest } := by
  rw [step, machineStep, if_neg (by simp [hrun]), if_neg (not_not.mpr hc), hport]

/-- Words that spell no command are refused at the port, however they are handed over (R105). -/
theorem portInput_illegal {ctx : Context} {words : List Word} {e : DecodeError} (h : decode words = .illegal e)
    (hx : x = .issue ctx words ∨ x = .start ctx words) (s : State) :
    portInput x s = .refused (.illegalCommand e) := by
  rcases hx with rfl | rfl
  · rw [portInput, portCommand, h]
  · rw [portInput, portCommand, h]

/-- Settles O4: the rows of the decoder against the rows of the opcode map, and the port on words that spell nothing. -/
theorem illegalWordsRefused : Obligations.IllegalWordsRefused := by
  intro w0 ext
  refine ⟨decode_iff_spells, fun hno s ctx x rest hx hrun hc hport => ?_, not_spells_zero ext⟩
  cases hd : decode (w0 :: ext) with
  | command i => exact absurd (decode_iff_spells.mp ⟨i, hd⟩) hno
  | illegal e => exact ⟨e, (step_of_input hrun hc hport).trans (portInput_illegal hd hx _)⟩

/-! ## The operand registers -/

/-- The state with the words of a command accepted (R101), register by register. -/
theorem accept_eq (s : State) (ctx : Context) (w0 : Word) (ext : List Word) :
    s.accept ctx (w0 :: ext) =
      { s with
        cmdw := w0
        opr0 := (imm24Of w0).setWidth 32
        opr1 := ext.getD 0 s.opr1
        opr2 := ext.getD 1 s.opr2
        opr3 := ext.getD 2 s.opr3
        opr4 := ext.getD 3 s.opr4
        busyR := if ctx = .R then true else s.busyR
        busyA := if ctx = .A then true else s.busyA } := by
  rcases ext with _ | ⟨a, _ | ⟨b, _ | ⟨c, _ | ⟨d, rest⟩⟩⟩⟩ <;> cases ctx <;> rfl

/-- The zero-extended immediate is the first word without its opcode (R101). -/
theorem setWidth_imm24Of (w : Word) : (imm24Of w).setWidth 32 = w &&& 0x00FFFFFF := by
  have hmask : (0x00FFFFFF : Word) = firstWord 0 (BitVec.allOnes 24) := by decide
  refine BitVec.eq_of_getLsbD_eq fun j hj => ?_
  rw [BitVec.getLsbD_and, hmask, getLsbD_firstWord, imm24Of, BitVec.getLsbD_setWidth, BitVec.getLsbD_extractLsb']
  by_cases h : j < 24
  · rw [if_pos h, BitVec.getLsbD_allOnes]
    simp [h, hj]
  · simp [h]

/-- A field of the immediate, read from `OPR[0]` (R104). -/
theorem extract_setWidth_opr {n : Nat} (imm : BitVec 24) (hn : n ≤ 24) :
    (imm.setWidth 32).extractLsb' 0 n = imm.extractLsb' 0 n := by
  refine BitVec.eq_of_getLsbD_eq fun j hj => ?_
  have hj32 : j < 32 := by omega
  simp [hj, hj32]

theorem getLsbD_setWidth_opr (imm : BitVec 24) {j : Nat} (hj : j < 24) :
    (imm.setWidth 32).getLsbD j = imm.getLsbD j := by
  have hj32 : j < 32 := by omega
  simp [hj32]

/-- The registers hold the operands of a decoded command when `CMDW` has its opcode, `OPR[0]` its immediate and the next
registers its extension words (R104). -/
theorem operandInstr_of_decodeFields {op : Byte} {imm : BitVec 24} {ext : List Word} {i : Instr}
    (hop : opcodeOf s.cmdw = op) (h0 : s.opr0 = imm.setWidth 32) (h1 : ∀ w, ext[0]? = some w → s.opr1 = w)
    (h2 : ∀ w, ext[1]? = some w → s.opr2 = w) (h3 : ∀ w, ext[2]? = some w → s.opr3 = w)
    (h4 : ∀ w, ext[3]? = some w → s.opr4 = w) (h : decodeFields op imm ext = .command i) :
    s.operandInstr = some i := by
  have h16 : s.operand16 = imm.extractLsb' 0 16 := by rw [State.operand16, h0, extract_setWidth_opr imm (by decide)]
  have h8 : s.operand8 = imm.extractLsb' 0 8 := by rw [State.operand8, h0, extract_setWidth_opr imm (by decide)]
  obtain rfl := opcodeByte_of_decodeFields h
  cases i with
  | gpioInit pin =>
    obtain ⟨-, -, hi⟩ := withNone_eq_command.mp h
    simp [State.operandInstr, hop, opcodeByte, h16, ← hi]
  | gpioDirout handle =>
    obtain ⟨-, -, hi⟩ := withNone_eq_command.mp h
    simp [State.operandInstr, hop, opcodeByte, h16, ← hi]
  | gpioWrlvl handle level =>
    obtain ⟨-, -, hi⟩ := withNone_eq_command.mp h
    have hlevel : s.operandLevel = imm.getLsbD 16 := by
      rw [State.operandLevel, h0, getLsbD_setWidth_opr imm (by decide)]
    simp [State.operandInstr, hop, opcodeByte, h16, hlevel, ← hi]
  | gpioFset mask =>
    obtain ⟨w1, rfl, -, hi⟩ := withOne_eq_command.mp h
    simp [State.operandInstr, hop, opcodeByte, h1 w1 rfl, ← hi]
  | gpioFclr mask =>
    obtain ⟨w1, rfl, -, hi⟩ := withOne_eq_command.mp h
    simp [State.operandInstr, hop, opcodeByte, h1 w1 rfl, ← hi]
  | lcdWr8 value =>
    obtain ⟨-, -, hi⟩ := withNone_eq_command.mp h
    simp [State.operandInstr, hop, opcodeByte, h8, ← hi]
  | lcdWr16 value =>
    obtain ⟨-, -, hi⟩ := withNone_eq_command.mp h
    simp [State.operandInstr, hop, opcodeByte, h16, ← hi]
  | lcdWreg32 reg value =>
    obtain ⟨w1, rfl, -, hi⟩ := withOne_eq_command.mp h
    simp [State.operandInstr, hop, opcodeByte, h8, h1 w1 rfl, ← hi]
  | lcdSetwin x1 y1 x2 y2 =>
    obtain ⟨w1, w2, rfl, -, hi⟩ := withTwo_eq_command.mp (decodeFields_lcdSetwin imm ext ▸ h)
    simp [State.operandInstr, State.operandWindow, hop, opcodeByte, h1 w1 rfl, h2 w2 rfl, ← hi]
  | lcdFlood color len =>
    obtain ⟨w1, rfl, -, hi⟩ := withOne_eq_command.mp h
    simp [State.operandInstr, hop, opcodeByte, h16, h1 w1 rfl, ← hi]
  | lcdPush buffer count isFirstCall =>
    obtain ⟨w1, w2, rfl, -, hi⟩ := withTwo_eq_command.mp (decodeFields_lcdPush imm ext ▸ h)
    have hfirst : s.operandFirst = imm.getLsbD 0 := by
      rw [State.operandFirst, h0, getLsbD_setWidth_opr imm (by decide)]
    simp [State.operandInstr, hop, opcodeByte, hfirst, h1 w1 rfl, h2 w2 rfl, ← hi]
  | lcdReset => simp [State.operandInstr, hop, opcodeByte]
  | lcdInit id =>
    obtain ⟨-, -, hi⟩ := withNone_eq_command.mp h
    simp [State.operandInstr, hop, opcodeByte, h16, ← hi]
  | lcdSetrot r =>
    obtain ⟨-, -, hi⟩ := withNone_eq_command.mp h
    have hr : s.operandRotation = imm.extractLsb' 0 2 := by
      rw [State.operandRotation, h0, extract_setWidth_opr imm (by decide)]
    simp [State.operandInstr, hop, opcodeByte, hr, ← hi]
  | mixAdd sfxId volume step separation tic =>
    obtain ⟨w1, w2, w3, w4, rfl, -, -, hi⟩ := withFour_eq_command.mp (decodeFields_mixAdd imm ext ▸ h)
    simp [State.operandInstr, State.operandSeparation, hop, opcodeByte, h16, h1 w1 rfl, h2 w2 rfl, h3 w3 rfl,
      h4 w4 rfl, ← hi]
  | mixTick => simp [State.operandInstr, hop, opcodeByte]
  | pwmPoll => simp [State.operandInstr, hop, opcodeByte]

/-- The registers of an accepted command hold its operands (R101, R104). -/
theorem operandInstr_accept {ctx : Context} {w0 : Word} {ext : List Word} {i : Instr}
    (h : decode (w0 :: ext) = .command i) (s : State) : (s.accept ctx (w0 :: ext)).operandInstr = some i := by
  have getD : ∀ {k : Nat} {d w : Word}, ext[k]? = some w → ext.getD k d = w := by
    intro k d w hw
    rw [List.getD_eq_getElem?_getD, hw, Option.getD_some]
  rw [decode_cons] at h
  rw [accept_eq]
  exact operandInstr_of_decodeFields rfl rfl (fun _ => getD) (fun _ => getD) (fun _ => getD) (fun _ => getD) h

/-- Settles O5: the accepted state register by register, and the assembly of its operands row by row. -/
theorem operandAssembly : Obligations.OperandAssembly := by
  intro s ctx w0 ext i h
  refine ⟨operandInstr_accept h s, ?_⟩
  rw [accept_eq, setWidth_imm24Of]

/-- Settles O1: the sample words, decoded. -/
theorem decodeSampleWords : Obligations.DecodeSampleWords := by
  refine ⟨?_, ?_, ?_, ?_, ?_, ?_, ?_, ?_⟩ <;> decide

end Machine

end Sys2Proof
end


section
/-! PROOFS. The step of the machine on each input of the schedule (R3, R23, R48, R73, R101, R310), and its end after
HALT (R296). -/

namespace Sys2Proof.Machine

variable {s t : State} {ctx : Context} {words : List Word} {i : Instr}

/-! ## After HALT -/

theorem step_of_halted (h : s.halted = true) : step s = .fault (.halted s.fault) := if_pos h

theorem exec_of_halted (h : s.halted = true) (i : Instr) : exec i s = .fault (.halted s.fault) := by
  cases i <;> exact if_pos h

/-- Settles O7: a step and every command ask first whether the block is halted. -/
theorem haltedNeverExecutes : Obligations.HaltedNeverExecutes :=
  fun _ h => ⟨step_of_halted h, exec_of_halted h⟩

/-! ## The command port -/

theorem step_of_empty_port (hrun : s.halted = false) (hc : ConfigOk s.cfg) (hport : s.port = []) :
    step s = (seqStep s).outcome := by
  rw [step, machineStep, if_neg (by simp [hrun]), if_neg (not_not.mpr hc), hport]

theorem seqStep_idle (h : s.phase = .idle) : seqStep s = .ok s := by simp only [seqStep, h]

/-- A decoded command, handed over by its context while that is free, runs (R101). -/
theorem portCommand_runs (exe : Instr → State → Host.Outcome State Fault Refusal) (hd : decode words = .command i)
    (hctx : contextOf i = ctx) (hfree : s.occupied ctx = false) :
    portCommand exe ctx words s =
      match exe i (s.accept ctx words) with
      | .next t => .next ((t.finish ctx).resume s ctx)
      | .fault f => .fault f
      | .refused r => .refused r := by
  rw [portCommand, hd]
  exact (if_neg (not_not.mpr hctx)).trans (if_neg (by simp [hfree]))

theorem portCommand_wrongContext (exe : Instr → State → Host.Outcome State Fault Refusal)
    (hd : decode words = .command i) (hctx : contextOf i ≠ ctx) :
    portCommand exe ctx words s = .refused .wrongContext := by
  rw [portCommand, hd]
  exact if_pos hctx

theorem portCommand_busy (exe : Instr → State → Host.Outcome State Fault Refusal) (hd : decode words = .command i)
    (hctx : contextOf i = ctx) (hbusy : s.occupied ctx = true) :
    portCommand exe ctx words s = .refused .contextBusy := by
  rw [portCommand, hd]
  exact (if_neg (not_not.mpr hctx)).trans (if_pos hbusy)

/-- A command of context A has no phases (R24, R310). -/
theorem startExec_of_contextA (hi : contextOf i = .A) : startExec i s = exec i s :=
  startExec_eq (fun _ _ e => by cases e; cases hi) (fun _ _ _ e => by cases e; cases hi) (fun e => by cases e; cases hi)
    fun _ e => by cases e; cases hi

/-- A step that takes a command of context A leaves its immediate in `OPR[0]` (R20); `CMDW` has its word, or that of the
operation between whose phases it falls (R21, log 9). -/
theorem contextA_words {w0 : Word} {ext : List Word} {rest : List HostInput}
    (hport : s.port = .issue .A (w0 :: ext) :: rest ∨ s.port = .start .A (w0 :: ext) :: rest)
    (h : step s = .next t) :
    t.opr0 = w0 &&& 0x00FFFFFF ∧ t.cmdw = if s.occupied .R then s.cmdw else w0 := by
  obtain ⟨-, -, ⟨hnil, -⟩ | ⟨x, rest', hx, hcase⟩⟩ := step_cases h
  · rcases hport with hp | hp <;> rw [hp] at hnil <;> cases hnil
  have hinput : x = .issue .A (w0 :: ext) ∨ x = .start .A (w0 :: ext) := by
    rw [hx] at hport
    exact hport.imp (fun hp => (List.cons.inj hp).1) fun hp => (List.cons.inj hp).1
  rcases hcase with ⟨rfl, -⟩ | ⟨ctx, words, i, v, hxw, hd, hctx, -, hrun, rfl⟩ | ⟨now, rfl, -⟩ | ⟨a, v, rfl, -⟩
  · rcases hinput with hp | hp <;> cases hp
  · obtain ⟨rfl, rfl⟩ : ctx = .A ∧ words = w0 :: ext := by
      rcases hinput with rfl | rfl <;> rcases hxw with hp | hp <;> cases hp <;> exact ⟨rfl, rfl⟩
    have hexec : exec i (State.accept { s with port := rest' } .A (w0 :: ext)) = .next v := by
      rcases hrun with ⟨-, hrun⟩ | ⟨-, hrun⟩
      · exact hrun
      · rwa [startExec_of_contextA hctx] at hrun
    obtain ⟨-, hv⟩ := contextA_frame hctx hexec
    rw [accept_eq, setWidth_imm24Of] at hv
    have hopr0 : v.opr0 = w0 &&& 0x00FFFFFF := congrArg State.opr0 hv
    have hcmdw : v.cmdw = w0 := congrArg State.cmdw hv
    have hocc : State.occupied { s with port := rest' } .R = s.occupied .R := rfl
    rw [resume_frame, (finish_frame v).1, hocc]
    refine ⟨hopr0, ?_⟩
    dsimp only
    rw [hcmdw]
    simp
  · rcases hinput with hp | hp <;> cases hp
  · rcases hinput with hp | hp <;> cases hp

/-- Settles O6: the step on each input of the port. -/
theorem stepRunsDecodedCommand : Obligations.StepRunsDecodedCommand := by
  intro s hrun hc
  refine ⟨fun ctx words rest i r hd hctx hfree hr => ⟨fun hport => ?_, fun hport => ?_⟩,
    fun i h1 h2 h3 h4 => startExec_eq h1 h2 h3 h4, fun w0 ext rest t hport h => contextA_words hport h,
    fun rest hport => step_of_input hrun hc hport, step_of_empty_port hrun hc, fun hport hphase => ?_⟩
  · rw [step_of_input hrun hc hport, ← hr]
    exact portCommand_runs exec hd hctx (by rw [hr]; exact hfree)
  · rw [step_of_input hrun hc hport, ← hr]
    exact portCommand_runs startExec hd hctx (by rw [hr]; exact hfree)
  · rw [step_of_empty_port hrun hc hport, seqStep_idle hphase, Result.outcome_ok]

/-- Settles O8: the refusals of the port, the clock and the renderer. -/
theorem scheduleInputs : Obligations.ScheduleInputs := by
  intro s rest hrun hc
  refine ⟨fun ctx words i hd hport => ?_, fun now hport => ⟨fun hlt => ?_, fun hle => ?_⟩,
    fun a v hport => ⟨fun hbusy => ?_, fun hfree => ?_⟩⟩
  · rcases hport with hport | hport <;> rw [step_of_input hrun hc hport]
    · exact ⟨portCommand_wrongContext exec hd, fun h1 h2 => portCommand_busy exec hd h1 h2⟩
    · exact ⟨portCommand_wrongContext startExec hd, fun h1 h2 => portCommand_busy startExec hd h1 h2⟩
  · rw [step_of_input hrun hc hport]
    exact if_pos hlt
  · rw [step_of_input hrun hc hport]
    exact if_neg (Nat.not_lt.mpr hle)
  · rw [step_of_input hrun hc hport]
    exact if_pos hbusy
  · rw [step_of_input hrun hc hport]
    refine ⟨State.writePix { s with port := rest } a v, if_neg (by exact Bool.eq_false_iff.mp hfree), rfl, fun b => ?_⟩
    exact readCells_writeCells _ _ _ _

end Sys2Proof.Machine
end


section
/-! PROOFS. What a step can do, in one relation: a command's own effect (`CommandMove`) between writes of the registers
that the port and the sequencer keep for themselves (`Clerical`). From it the invariants that every step keeps: the
canonical form of the lists (log 12), the replay of the trace (R52), the channel file (R43), the polls (R279). -/

namespace Sys2Proof.Machine

variable {s t u : State} {i : Instr}

/-! ## The effect of a command -/

/-- What a command can do to the state (R141 to R145, R183, R230, R245, R270), said once for all of them. -/
inductive CommandMove : State → State → Prop
  | display {s t : State} (h : LcdMoves s t) : CommandMove s t
  | mapFault {s u : State} (h : LcdMoves s u) : CommandMove s (u.halt .map 0)
  | pinFault (s : State) (x : Word) : CommandMove s (s.halt .pin x)
  | acquire (s : State) (p : Nat) :
      CommandMove s (State.emit { s with owns := writePinBit s.owns p true, res := BitVec.ofNat 32 p } (.aq p))
  | output (s : State) (p : Nat) :
      CommandMove s (State.emit { s with dirs := writePinBit s.dirs p true } (.dirOut p))
  | panFault (s : State) (id : Half) (x : Word) :
      CommandMove s (State.halt { s with channels := silence s.cfg id s.channels } .pan x)
  | record (s : State) (x : Sound) (step tic : Word) (left right : Int) (h : 1 ≤ x.length) :
      CommandMove s (State.recordSound { s with channels := silence s.cfg x.id s.channels }
        (selectSlot (silence s.cfg x.id s.channels)) x step tic left right)
  | tick (s : State) : CommandMove s (mixTick s)
  | emission (s : State) (h : s.lastIdx.toNat < sampleIndex s.cfg s.t0 s.env.now) :
      CommandMove s (emitSample (sampleIndex s.cfg s.t0 s.env.now) s)

/-- Every command does one of these. -/
theorem exec_move (hc : ConfigOk s.cfg) (h : exec i s = .next t) : CommandMove s t := by
  have lcd : ∀ {j : Instr}, drivesBus j = true ∨ j = .lcdReset → exec j s = .next t → CommandMove s t := by
    intro j hj hx
    obtain ⟨-, hm | ⟨u, hm, -, -, rfl⟩⟩ := exec_lcd hj hc hx
    · exact .display hm
    · exact .mapFault hm
  have fast : ∀ {j : Instr} {m : Word}, j = .gpioFset m ∨ j = .gpioFclr m → exec j s = .next t → CommandMove s t := by
    intro j m hj hx
    obtain ⟨-, hm | ⟨-, -, rfl⟩⟩ := gpioFast_cases hj hc hx
    · exact .display hm.lcd
    · exact .mapFault .refl
  cases i with
  | gpioInit pin =>
    obtain ⟨-, ⟨-, rfl⟩ | ⟨-, -, -, rfl⟩⟩ := gpioInit_cases h
    · exact .pinFault s _
    · exact .acquire s pin
  | gpioDirout p =>
    obtain ⟨-, -, -, rfl⟩ := gpioDirout_cases h
    exact .output s p
  | gpioWrlvl p l =>
    obtain ⟨-, -, -, -, rfl⟩ := gpioWrlvl_cases h
    exact .display (BusMoves.lcd ((level_drives s p l).trans (closeOnEdge_drives _ s)))
  | gpioFset m => exact fast (.inl rfl) h
  | gpioFclr m => exact fast (.inr rfl) h
  | lcdWr8 | lcdWr16 | lcdWreg32 | lcdSetwin | lcdFlood | lcdPush | lcdInit | lcdSetrot => exact lcd (.inl rfl) h
  | lcdReset => exact lcd (.inr rfl) h
  | mixAdd id volume step separation tic =>
    obtain ⟨-, x, -, rfl, hlen, -, ⟨-, rfl⟩ | ⟨-, -, rfl⟩ | ⟨-, -, rfl⟩⟩ := mixAdd_cases h
    · exact .panFault s x.id _
    · exact .panFault s x.id _
    · exact .record s x step tic _ _ hlen
  | mixTick =>
    obtain ⟨-, rfl⟩ := mixTick_cases h
    exact .tick s
  | pwmPoll =>
    obtain ⟨-, ⟨hlt, rfl⟩ | ⟨-, rfl⟩⟩ := pwmPoll_cases h
    · exact .emission s hlt
    · exact .display .refl

/-! ## The effect of a step -/

/-- Only the registers that the port and the sequencer keep for themselves differ (R20, R21, R23 to R25, log 9). -/
def Clerical (s t : State) : Prop :=
  t = { s with
    opr0 := t.opr0
    opr1 := t.opr1
    opr2 := t.opr2
    opr3 := t.opr3
    opr4 := t.opr4
    cmdw := t.cmdw
    busyR := t.busyR
    busyA := t.busyA
    phase := t.phase
    flBlocks := t.flBlocks
    flInblk := t.flInblk
    flRem := t.flRem
    flLeft := t.flLeft
    puIdx := t.puIdx
    inIdx := t.inIdx
    rsCnt := t.rsCnt
    held := t.held
    port := t.port }

theorem Clerical.refl (s : State) : Clerical s s := rfl

theorem Clerical.trans (h : Clerical s t) (h' : Clerical t u) : Clerical s u := by
  unfold Clerical at *
  rw [h', h]

theorem clerical_accept (s : State) (rest : List HostInput) (ctx : Context) (words : List Word) :
    Clerical s (State.accept { s with port := rest } ctx words) := by
  cases words with
  | nil => rfl
  | cons w0 ext =>
    rw [accept_eq]
    rfl

/-- No command is in execution (R23, R24). -/
def State.resting (s : State) : Prop := s.busyR = false ∧ s.busyA = false ∧ s.phase = .idle

/-- Clerical writes after a command, which leave a halted block at rest (R296). -/
def ClericalEnd (s t : State) : Prop := Clerical s t ∧ (s.halted = true → s.resting → t.resting)

theorem ClericalEnd.refl (s : State) : ClericalEnd s s := ⟨.refl s, fun _ h => h⟩

theorem ClericalEnd.of_running (hrun : s.halted = false) (h : Clerical s t) : ClericalEnd s t :=
  ⟨h, fun hh => by rw [hrun] at hh; cases hh⟩

theorem Clerical.halted (h : Clerical s t) : t.halted = s.halted := by rw [h]

theorem Clerical.cfg (h : Clerical s t) : t.cfg = s.cfg := by rw [h]

theorem ClericalEnd.trans (h : ClericalEnd s t) (h' : ClericalEnd t u) : ClericalEnd s u :=
  ⟨h.1.trans h'.1, fun hh hr => h'.2 (h.1.halted.trans hh) (h.2 hh hr)⟩

theorem clericalEnd_finish (s before : State) (ctx : Context) :
    ClericalEnd s ((s.finish ctx).resume before ctx) := by
  rw [resume_frame]
  cases ctx with
  | A =>
    rw [(finish_frame s).1]
    exact ⟨rfl, fun _ ⟨hR, _, hp⟩ => ⟨hR, rfl, hp⟩⟩
  | R =>
    rw [(finish_frame s).2]
    refine ⟨rfl, fun _ ⟨hR, hA, hp⟩ => ⟨?_, hA, hp⟩⟩
    dsimp only
    rw [hR, Bool.false_and]

theorem LcdMoves.halted (h : LcdMoves s t) : t.halted = s.halted := by rw [h.frame]

/-- What a turn of the sequencer does is an effect of the display engine, then clerical. -/
theorem turn_move (hrun : s.halted = false) (hc : ConfigOk s.cfg) (h : (seqStep s).outcome = .next t) :
    ∃ v, CommandMove s v ∧ ClericalEnd v t := by
  have hturn := seqStep_turns hc
  rcases Result.outcome_eq_next.mp h with hx | hx <;> rw [hx] at hturn
  · obtain ⟨u, hm, ht⟩ := hturn
    exact ⟨u, .display hm, .of_running (hm.halted.trans hrun) (by rw [ht]; rfl)⟩
  · obtain ⟨u, hm, -, -, rfl⟩ := hturn
    exact ⟨_, .mapFault hm, .refl _⟩

/-- What beginning a command does is an effect of the command, then clerical (R24). -/
theorem start_move (hc : ConfigOk s.cfg) (h : startExec i s = .next t) :
    ∃ v, CommandMove s v ∧ ClericalEnd v t := by
  rcases start_cases h with hx | ⟨hrun, ⟨_, _, -, -, rfl⟩ | ⟨_, _, _, -, -, rfl⟩ | ⟨-, -, rfl⟩ |
    ⟨id, -, -, ⟨-, rfl⟩ | ⟨f, r, -, rfl, rfl⟩⟩⟩
  · exact ⟨t, exec_move hc hx, .refl t⟩
  · exact ⟨s, .display .refl, .of_running hrun rfl⟩
  · exact ⟨s, .display .refl, .of_running hrun rfl⟩
  · exact ⟨s, .display .refl, .of_running hrun rfl⟩
  · exact ⟨_, .display (.single (.display s .unknown .initialized s.rot s.curW s.curH s.winx s.winy s.winValid true)),
      .refl _⟩
  · exact ⟨_, .display (.single (.display s (.family f) s.dstate s.rot s.curW s.curH s.winx s.winy s.winValid
      s.degraded)), .of_running hrun rfl⟩

/-- What a step does, from a state that is not halted: the effect of a command between clerical writes, a new clock, or
a pixel. -/
theorem step_move (h : step s = .next t) :
    s.halted = false ∧
      ((∃ r v, Clerical s r ∧ CommandMove r v ∧ ClericalEnd v t) ∨
        (∃ rest now, s.env.now.toNat ≤ now.toNat ∧
          t = { s with port := rest, env := { s.env with now := now } }) ∨
        ∃ rest a v, t = State.writePix { s with port := rest } a v) := by
  obtain ⟨hrun, hc, ⟨-, hx⟩ | ⟨x, rest, -, ⟨-, hx⟩ | ⟨ctx, words, i, v, -, -, -, -, hexe, rfl⟩ | ⟨now, -, hle, rfl⟩ |
    ⟨a, v, -, -, rfl⟩⟩⟩ := step_cases h
  · obtain ⟨v, hm, hv⟩ := turn_move hrun hc hx
    exact ⟨hrun, .inl ⟨s, v, .refl s, hm, hv⟩⟩
  · obtain ⟨v, hm, hv⟩ := turn_move (s := { s with port := rest }) hrun hc hx
    exact ⟨hrun, .inl ⟨{ s with port := rest }, v, rfl, hm, hv⟩⟩
  · have hr := clerical_accept s rest ctx words
    have hcr : ConfigOk (State.accept { s with port := rest } ctx words).cfg := by rw [hr.cfg]; exact hc
    have hend := clericalEnd_finish v { s with port := rest } ctx
    rcases hexe with ⟨-, hx⟩ | ⟨-, hx⟩
    · exact ⟨hrun, .inl ⟨_, v, hr, exec_move hcr hx, hend⟩⟩
    · obtain ⟨w, hm, hw⟩ := start_move hcr hx
      exact ⟨hrun, .inl ⟨_, w, hr, hm, hw.trans hend⟩⟩
  · exact ⟨hrun, .inr (.inl ⟨rest, now, hle, rfl⟩)⟩
  · exact ⟨hrun, .inr (.inr ⟨rest, a, v, rfl⟩)⟩

/-- A property that clerical writes, the effects of commands, the clock and the renderer keep, every step keeps. -/
theorem step_keeps {P : State → Prop} (hclerical : ∀ {s t}, Clerical s t → P s → P t)
    (hmove : ∀ {s t}, CommandMove s t → P s → P t)
    (hclock : ∀ {s} now, s.env.now.toNat ≤ now.toNat → P s → P { s with env := { s.env with now := now } })
    (hpixel : ∀ {s} a v, P s → P (s.writePix a v)) (h : step s = .next t) (hs : P s) : P t := by
  have hport : ∀ rest, P { s with port := rest } := fun rest => hclerical rfl hs
  rcases (step_move h).2 with ⟨r, v, hr, hm, hv, -⟩ | ⟨rest, now, hle, rfl⟩ | ⟨rest, a, v, rfl⟩
  · exact hclerical hv (hmove hm (hclerical hr hs))
  · exact hclock (s := { s with port := rest }) now hle (hport rest)
  · exact hpixel a v (hport rest)

/-! ## The canonical form of the lists -/

theorem CommandMove.tidy (h : CommandMove s t) (hs : s.tidy) : t.tidy := by
  obtain ⟨hl, hd, ho, hpcm, hpix⟩ := hs
  cases h with
  | display hm =>
    rw [hm.frame]
    exact ⟨hm.cellsOk hl, hd, ho, hpcm, hpix⟩
  | mapFault hm =>
    rw [hm.frame]
    exact ⟨hm.cellsOk hl, hd, ho, hpcm, hpix⟩
  | acquire p => exact ⟨hl, hd, cellsOk_writePinBit p true ho, hpcm, hpix⟩
  | output p => exact ⟨hl, cellsOk_writePinBit p true hd, ho, hpcm, hpix⟩
  | pinFault | panFault | record | tick => exact ⟨hl, hd, ho, hpcm, hpix⟩
  | emission hlt =>
    unfold emitSample State.setLastIdx
    dsimp only
    split <;> exact ⟨hl, hd, ho, hpcm, hpix⟩

/-- Settles O52: every write of a list is a write of the canonical form. -/
theorem stepKeepsTidy : Obligations.StepKeepsTidy := by
  intro s t hs h
  refine step_keeps (fun hcl hs => ?_) (fun hm hs => hm.tidy hs) (fun _ _ hs => hs) (fun a v hs => ?_) h hs
  · rw [hcl]
    exact hs
  · obtain ⟨hl, hd, ho, hpcm, hpix⟩ := hs
    exact ⟨hl, hd, ho, hpcm, cellsOk_writeCells a v hpix⟩

/-! ## The replay of the trace -/

/-- Agreement reads the configuration, the trace and the latches alone. -/
theorem traceAgrees_congr (hs : s.traceAgrees) (hc : t.cfg = s.cfg) (he : t.evt = s.evt)
    (hl : t.latches = s.latches) : t.traceAgrees := by
  intro p l hv
  rw [busView_congr hc he] at hv
  rw [State.pin_of_latches hl]
  exact hs p l hv

theorem halt_traceAgrees (k : FaultKind) (x : Word) (hs : s.traceAgrees) : (s.halt k x).traceAgrees :=
  traceAgrees_quiet hs (e := .halt (faultCode k)) rfl rfl (fun _ => rfl) fun _ => rfl

@[simp] theorem State.setLastIdx_latches (s : State) (n : Nat) : (s.setLastIdx n).latches = s.latches := by
  unfold State.setLastIdx
  split <;> rfl

@[simp] theorem State.setLastIdx_cfg (s : State) (n : Nat) : (s.setLastIdx n).cfg = s.cfg := by
  unfold State.setLastIdx
  split <;> rfl

/-- An emission writes the PWM driver's registers, the mixer's and one event (R270). -/
theorem emitSample_frame (n : Nat) (s : State) :
    emitSample n s = { s with
      resA := (mixTick s).resA
      channels := (mixTick s).channels
      dutyNs := dutyNs s.cfg (mixSample s)
      evt := s.evt ++ [.pw (decimal (dutyNs s.cfg (mixSample s)))]
      lastIdx := (emitSample n s).lastIdx
      freeCount := (emitSample n s).freeCount } := by
  unfold emitSample State.setLastIdx
  dsimp only
  split <;> rfl

theorem CommandMove.traceAgrees (h : CommandMove s t) (hs : s.traceAgrees) : t.traceAgrees := by
  cases h with
  | display hm => exact hm.traceAgrees hs
  | mapFault hm => exact halt_traceAgrees _ _ (hm.traceAgrees hs)
  | pinFault x => exact halt_traceAgrees _ _ hs
  | panFault id x => exact halt_traceAgrees _ _ (traceAgrees_congr hs rfl rfl rfl)
  | acquire p => exact traceAgrees_quiet hs (e := .aq p) rfl rfl (fun _ => rfl) fun _ => rfl
  | output p => exact traceAgrees_quiet hs (e := .dirOut p) rfl rfl (fun _ => rfl) fun _ => rfl
  | record | tick => exact traceAgrees_congr hs rfl rfl rfl
  | emission hlt =>
    rw [emitSample_frame]
    exact traceAgrees_quiet hs (e := .pw _) rfl rfl (fun _ => rfl) fun _ => rfl

/-- Settles O56: what writes a latch emits its event, every other event drives no line. -/
theorem stepKeepsReplay : Obligations.StepKeepsReplay := by
  intro s t hs h
  refine step_keeps (fun hcl hs => ?_) (fun hm hs => hm.traceAgrees hs) (fun _ _ hs => hs) (fun _ _ hs => hs) h hs
  rw [hcl]
  exact hs

/-! ## The fault registers and the mapping event -/

/-- An event other than the mapping leaves their number. -/
theorem mapOnce_snoc {e : Event} (he : e ≠ .map) (hevt : t.evt = s.evt ++ [e]) (hm : t.mapped = s.mapped)
    (hs : s.mapOnce) : t.mapOnce := by
  have hcount : t.evt.count .map = s.evt.count .map := by simp [hevt, he]
  unfold State.mapOnce at *
  rw [hcount, hm]
  exact hs

theorem halt_mapOnce (k : FaultKind) (x : Word) (hs : s.mapOnce) : (s.halt k x).mapOnce :=
  mapOnce_snoc (e := .halt (faultCode k)) nofun rfl rfl hs

theorem CommandMove.mapOnce (h : CommandMove s t) (hs : s.mapOnce) : t.mapOnce := by
  cases h with
  | display hm => exact hm.mapOnce hs
  | mapFault hm => exact halt_mapOnce _ _ (hm.mapOnce hs)
  | pinFault x => exact halt_mapOnce _ _ hs
  | panFault id x => exact halt_mapOnce (s := { s with channels := _ }) _ _ hs
  | acquire p => exact mapOnce_snoc (e := .aq p) nofun rfl rfl hs
  | output p => exact mapOnce_snoc (e := .dirOut p) nofun rfl rfl hs
  | record | tick => exact hs
  | emission hlt =>
    rw [emitSample_frame]
    exact mapOnce_snoc (e := .pw _) nofun rfl rfl hs

theorem halt_faultOk {k : FaultKind} (hk : k ≠ .none) (s : State) (x : Word) : (s.halt k x).faultOk :=
  ⟨⟨fun _ => hk, fun _ => rfl⟩, fun _ => ⟨rfl, rfl, rfl⟩⟩

theorem CommandMove.faultOk (h : CommandMove s t) (hs : s.faultOk) : t.faultOk := by
  cases h with
  | display hm =>
    rw [hm.frame]
    exact hs
  | mapFault | pinFault | panFault => exact halt_faultOk (by decide) _ _
  | acquire | output | record | tick => exact hs
  | emission hlt =>
    rw [emitSample_frame]
    exact hs

theorem Clerical.faultOk_of_running (hrun : s.halted = false) (h : Clerical s t) (hs : s.faultOk) : t.faultOk := by
  refine ⟨?_, fun hh => ?_⟩
  · rw [h]
    exact hs.1
  · rw [h.halted, hrun] at hh
    cases hh

theorem ClericalEnd.faultOk (h : ClericalEnd s t) (hs : s.faultOk) : t.faultOk := by
  refine ⟨?_, fun hh => h.2 (h.1.halted.symm.trans hh) (hs.2 (h.1.halted.symm.trans hh))⟩
  rw [h.1]
  exact hs.1

/-- Settles O55: a fault is taken by `State.halt` alone; a mapping event is emitted where `MAPPED` is set. -/
theorem stepKeepsFaultAndMap : Obligations.StepKeepsFaultAndMap := by
  intro s t hf hm h
  refine ⟨?_, step_keeps (fun hcl hs => ?_) (fun hm hs => hm.mapOnce hs) (fun _ _ hs => hs) (fun _ _ hs => hs) h hm⟩
  · obtain ⟨hrun, ⟨r, v, hr, hmove, hv⟩ | ⟨rest, now, -, rfl⟩ | ⟨rest, a, v, rfl⟩⟩ := step_move h
    · exact hv.faultOk (hmove.faultOk (hr.faultOk_of_running hrun hf))
    · exact hf
    · exact hf
  · rw [hcl]
    exact hs

end Sys2Proof.Machine
end


section
/-! PROOFS. The channel file (10_state.md section 5, 43_mixer.md): the choice of a slot (R237), exclusivity (R236), the
invariant that every step keeps (R43). -/

namespace Sys2Proof.Machine

variable {s t : State} {c : Config} {id id' : Half} {l : List Channel} {ch : Channel}

/-! ## The choice of a slot -/

/-- The smallest start-tic is one of the list, and none is smaller. -/
theorem minTic_spec (h : l ≠ []) :
    (∃ x ∈ l, x.startTic.toInt = minTic l) ∧ ∀ x ∈ l, minTic l ≤ x.startTic.toInt := by
  induction l with
  | nil => exact absurd rfl h
  | cons a rest ih =>
    cases rest with
    | nil => simp [minTic]
    | cons b more =>
      obtain ⟨⟨y, hy, hmin⟩, hle⟩ := ih (List.cons_ne_nil b more)
      have hcons : minTic (a :: b :: more) = min a.startTic.toInt (minTic (b :: more)) := rfl
      rw [hcons]
      refine ⟨?_, fun x hx => ?_⟩
      · rcases min_choice a.startTic.toInt (minTic (b :: more)) with e | e <;> rw [e]
        · exact ⟨a, List.mem_cons_self, rfl⟩
        · exact ⟨y, List.mem_cons_of_mem a hy, hmin⟩
      · rcases List.mem_cons.mp hx with rfl | hx
        · exact min_le_left _ _
        · exact (min_le_right _ _).trans (hle x hx)

/-- With a free slot, the least free one (R237). -/
theorem selectSlot_of_free (h : ∃ x ∈ l, x.active = false) :
    ∃ ch, l[selectSlot l]? = some ch ∧ ch.active = false ∧
      ∀ k x, k < selectSlot l → l[k]? = some x → x.active = true := by
  unfold selectSlot
  cases hf : l.findIdx? fun ch => !ch.active with
  | none =>
    obtain ⟨x, hx, hfree⟩ := h
    have := List.findIdx?_eq_none_iff.mp hf x hx
    simp [hfree] at this
  | some k =>
    obtain ⟨hk, hfree, hbefore⟩ := List.findIdx?_eq_some_iff_getElem.mp hf
    refine ⟨l[k], List.getElem?_eq_getElem hk, by simpa using hfree, fun j x hj hx => ?_⟩
    obtain ⟨hjl, rfl⟩ := List.getElem?_eq_some_iff.mp hx
    simpa using hbefore j hj

/-- With every slot active, the least slot of the smallest start-tic (R237). -/
theorem selectSlot_of_full (hne : l ≠ []) (h : ∀ x ∈ l, x.active = true) :
    ∃ ch, l[selectSlot l]? = some ch ∧ (∀ x ∈ l, ch.startTic.toInt ≤ x.startTic.toInt) ∧
      ∀ k x, k < selectSlot l → l[k]? = some x → ch.startTic.toInt < x.startTic.toInt := by
  obtain ⟨⟨y, hy, hmin⟩, hle⟩ := minTic_spec hne
  have hnone : l.findIdx? (fun ch => !ch.active) = none :=
    List.findIdx?_eq_none_iff.mpr fun x hx => by rw [h x hx]; rfl
  have hslot : selectSlot l = l.findIdx fun ch => decide (ch.startTic.toInt = minTic l) := by
    rw [selectSlot, hnone]
  have hlt := List.findIdx_lt_length_of_exists (p := fun ch : Channel => decide (ch.startTic.toInt = minTic l))
    ⟨y, hy, decide_eq_true hmin⟩
  have hat := List.findIdx_getElem (w := hlt)
  rw [decide_eq_true_eq] at hat
  rw [hslot]
  refine ⟨_, List.getElem?_eq_getElem hlt, fun x hx => hat.le.trans (hle x hx), fun k x hk hx => ?_⟩
  obtain ⟨hkl, rfl⟩ := List.getElem?_eq_some_iff.mp hx
  have hnot := List.not_of_lt_findIdx hk
  rw [decide_eq_false_iff_not] at hnot
  exact hat.trans_lt (lt_of_le_of_ne (hle _ (List.getElem_mem hkl)) (Ne.symm hnot))

theorem free_or_full (l : List Channel) : (∃ x ∈ l, x.active = false) ∨ ∀ x ∈ l, x.active = true := by
  by_cases h : ∃ x ∈ l, x.active = false
  · exact .inl h
  · exact .inr fun x hx => by_contra fun hn => h ⟨x, hx, Bool.not_eq_true _ ▸ hn⟩

/-- The chosen slot is one of the file. -/
theorem selectSlot_lt (h : l ≠ []) : selectSlot l < l.length := by
  rcases free_or_full l with hfree | hfull
  · obtain ⟨ch, hch, -⟩ := selectSlot_of_free hfree
    exact (List.getElem?_eq_some_iff.mp hch).1
  · obtain ⟨ch, hch, -⟩ := selectSlot_of_full h hfull
    exact (List.getElem?_eq_some_iff.mp hch).1

/-- Settles O43: the two cases of the choice, which exclude each other. -/
theorem slotSelection : Obligations.SlotSelection := by
  intro l hne
  rcases free_or_full l with hfree | hfull
  · obtain ⟨ch, hch, hidle, hbefore⟩ := selectSlot_of_free hfree
    refine ⟨_, ch, rfl, hch, fun _ => ⟨hidle, hbefore⟩, fun hfull => ?_⟩
    obtain ⟨x, hx, hxidle⟩ := hfree
    rw [hfull x hx] at hxidle
    cases hxidle
  · obtain ⟨ch, hch, hmin⟩ := selectSlot_of_full hne hfull
    refine ⟨_, ch, rfl, hch, fun ⟨x, hx, hxidle⟩ => ?_, fun _ => hmin⟩
    rw [hfull x hx] at hxidle
    cases hxidle

/-! ## Exclusivity -/

/-- What `Exclusive(sfxId)` does to one slot (R236). -/
def silenced (c : Config) (id : Half) (ch : Channel) : Channel :=
  if id ∈ c.exclusiveIds ∧ ch.active = true ∧ ch.sfxid = id then { ch with active := false } else ch

theorem silence_eq_map (c : Config) (id : Half) (l : List Channel) : silence c id l = l.map (silenced c id) := by
  unfold silence silenced
  by_cases h : id ∈ c.exclusiveIds
  · simp [h]
  · simp [h]

theorem silence_of_not_exclusive (h : id ∉ c.exclusiveIds) (l : List Channel) : silence c id l = l := if_neg h

@[simp] theorem length_silence (c : Config) (id : Half) (l : List Channel) : (silence c id l).length = l.length := by
  rw [silence_eq_map, List.length_map]

theorem silence_ne_nil (h : l ≠ []) : silence c id l ≠ [] := by
  rw [silence_eq_map]
  simpa using h

/-- A slot that silencing leaves active is as it was. -/
theorem silenced_active (h : (silenced c id ch).active = true) : silenced c id ch = ch := by
  unfold silenced at h ⊢
  split
  next hsil => rw [if_pos hsil] at h; cases h
  next => rfl

/-- A slot of another sound is as it was. -/
theorem silenced_other (h : ch.sfxid ≠ id) : silenced c id ch = ch := if_neg fun hh => h hh.2.2

/-- Silencing an exclusive id leaves no active slot of it. -/
theorem silenced_exclusive (hid : id ∈ c.exclusiveIds) (h : (silenced c id ch).active = true) : ch.sfxid ≠ id := by
  intro hch
  by_cases ha : ch.active = true
  · rw [silenced, if_pos ⟨hid, ha, hch⟩] at h
    cases h
  · rw [silenced_active h] at h
    exact ha h

/-- A slot is active and plays the sound. -/
def plays (id : Half) (ch : Channel) : Bool := ch.active && decide (ch.sfxid = id)

theorem plays_iff : plays id ch = true ↔ ch.active = true ∧ ch.sfxid = id := by simp [plays]

theorem length_activeOf (l : List Channel) (id : Half) : (activeOf l id).length = l.countP (plays id) :=
  List.countP_eq_length_filter.symm

theorem activeCount_eq (l : List Channel) : activeCount l = l.countP Channel.active :=
  List.countP_eq_length_filter.symm

/-- Changing each slot so that a slot still playing a sound has played it before leaves no more of them. -/
theorem countP_plays_map_le {f : Channel → Channel} (hf : ∀ ch, (f ch).active = true → ch.active = true)
    (hid : ∀ ch, (f ch).sfxid = ch.sfxid) (l : List Channel) (id : Half) :
    (l.map f).countP (plays id) ≤ l.countP (plays id) := by
  rw [List.countP_map]
  refine List.countP_mono_left fun ch _ h => ?_
  obtain ⟨ha, hi⟩ := plays_iff.mp h
  exact plays_iff.mpr ⟨hf ch ha, (hid ch).symm.trans hi⟩

theorem silenced_sfxid (c : Config) (id : Half) (ch : Channel) : (silenced c id ch).sfxid = ch.sfxid := by
  unfold silenced
  split <;> rfl

theorem countP_plays_silence_le (l : List Channel) : (silence c id l).countP (plays id') ≤ l.countP (plays id') := by
  rw [silence_eq_map]
  exact countP_plays_map_le (fun ch h => by rwa [silenced_active h] at h) (silenced_sfxid c id) l id'

theorem countP_plays_silence (hid : id ∈ c.exclusiveIds) (l : List Channel) :
    (silence c id l).countP (plays id) = 0 := by
  rw [silence_eq_map, List.countP_map, List.countP_eq_zero]
  intro ch _ h
  obtain ⟨ha, hi⟩ := plays_iff.mp h
  exact silenced_exclusive hid ha ((silenced_sfxid c id ch).symm.trans hi)

/-- Putting a channel into a slot adds at most itself. -/
theorem countP_set_le {p : Channel → Bool} {k : Nat} (hk : k < l.length) (ch : Channel) :
    (l.set k ch).countP p ≤ l.countP p + if p ch then 1 else 0 := by
  rw [List.countP_set hk]
  exact Nat.add_le_add_right (Nat.sub_le _ _) _

/-! ## The invariant -/

/-- The invariant of one active channel (R42, R44). -/
def Channel.wellFormed (ch : Channel) : Prop :=
  ch.active = true → ch.ptr < ch.stop ∧ ch.handle.toNat < Config.handleMod

theorem silenced_wellFormed (h : ch.wellFormed) : (silenced c id ch).wellFormed := by
  intro ha
  have hch := silenced_active ha
  rw [hch] at ha ⊢
  exact h ha

theorem nextHandle_lt (h : BitVec 7) : (nextHandle h).toNat < Config.handleMod := by
  simp only [nextHandle, Config.handleMod, BitVec.toNat_ofNat]
  omega

/-- A tick leaves a channel active only where it was, and within its buffer (R246, R252). -/
theorem tickChannel_active (h : (tickChannel ch).active = true) : ch.active = true := by
  unfold tickChannel at h
  split at h
  next ha => exact ha
  next ha => exact h

theorem tickChannel_sfxid (ch : Channel) : (tickChannel ch).sfxid = ch.sfxid := by
  unfold tickChannel
  split <;> rfl

theorem tickChannel_wellFormed (h : ch.wellFormed) : (tickChannel ch).wellFormed := by
  intro ha
  have hch := tickChannel_active ha
  rw [tickChannel, if_pos hch] at ha ⊢
  exact ⟨of_decide_eq_true ha, (h hch).2⟩

/-- The invariant of the channel file over its parts. -/
theorem channelsOk_iff :
    s.channelsOk ↔ s.channels.length = Config.nChannels ∧ (∀ ch ∈ s.channels, ch.wellFormed) ∧
      (∀ id ∈ s.cfg.exclusiveIds, s.channels.countP (plays id) ≤ 1) ∧ s.handleCtr.toNat < Config.handleMod := by
  simp only [State.channelsOk, length_activeOf, Channel.wellFormed]

/-- Silencing keeps the invariant (R236). -/
theorem silence_channelsOk (hs : s.channelsOk) (id : Half) :
    State.channelsOk { s with channels := silence s.cfg id s.channels } := by
  rw [channelsOk_iff] at hs ⊢
  obtain ⟨hlen, hwf, hex, hctr⟩ := hs
  refine ⟨(length_silence _ _ _).trans hlen, fun ch hch => ?_, fun id' hid' =>
    (countP_plays_silence_le _).trans (hex id' hid'), hctr⟩
  dsimp only at hch
  rw [silence_eq_map, List.mem_map] at hch
  obtain ⟨ch', hch', rfl⟩ := hch
  exact silenced_wellFormed (hwf ch' hch')

theorem channels_ne_nil (h : s.channels.length = Config.nChannels) : s.channels ≠ [] := by
  intro e
  rw [e] at h
  cases h

/-- The record keeps the invariant after silencing (R243): its sound has no other active slot if it is exclusive. -/
theorem recordSound_channelsOk {x : Sound} (hs : s.channelsOk)
    (hx : x.id ∈ s.cfg.exclusiveIds → s.channels.countP (plays x.id) = 0) (hlen : 1 ≤ x.length) (step tic : Word)
    (left right : Int) : (s.recordSound (selectSlot s.channels) x step tic left right).channelsOk := by
  rw [channelsOk_iff] at hs ⊢
  obtain ⟨hl, hwf, hex, hctr⟩ := hs
  have hslot := selectSlot_lt (channels_ne_nil hl)
  refine ⟨(List.length_set ..).trans hl, fun ch hch => ?_, fun id hid => (countP_set_le hslot _).trans ?_,
    nextHandle_lt _⟩
  · rcases List.mem_or_eq_of_mem_set hch with hch | rfl
    · exact hwf ch hch
    · exact fun _ => ⟨by simp only [newChannel]; omega, hctr⟩
  · by_cases hxid : x.id = id
    · subst hxid
      rw [hx hid]
      split <;> omega
    · have hno : plays id (newChannel x step tic left right s.handleCtr) = false := by simp [plays, newChannel, hxid]
      rw [hno]
      exact hex id hid

theorem mixTick_channelsOk (hs : s.channelsOk) : (mixTick s).channelsOk := by
  rw [channelsOk_iff] at hs ⊢
  obtain ⟨hl, hwf, hex, hctr⟩ := hs
  refine ⟨(List.length_map ..).trans hl, fun ch hch => ?_, fun id hid => ?_, hctr⟩
  · obtain ⟨ch', hch', rfl⟩ := List.mem_map.mp hch
    exact tickChannel_wellFormed (hwf ch' hch')
  · exact (countP_plays_map_le (fun _ => tickChannel_active) tickChannel_sfxid _ _).trans (hex id hid)

theorem CommandMove.channelsOk (h : CommandMove s t) (hs : s.channelsOk) : t.channelsOk := by
  cases h with
  | display hm =>
    rw [hm.frame]
    exact hs
  | mapFault hm =>
    rw [hm.frame]
    exact hs
  | pinFault | acquire | output => exact hs
  | panFault id x => exact silence_channelsOk hs id
  | record x step tic left right hlen =>
    exact recordSound_channelsOk (silence_channelsOk hs x.id) (fun hid => countP_plays_silence hid _) hlen _ _ _ _
  | tick => exact mixTick_channelsOk hs
  | emission hlt =>
    rw [emitSample_frame]
    exact mixTick_channelsOk hs

/-- Settles O53: silencing, the record and the tick keep the invariant; nothing else writes the channel file. -/
theorem stepKeepsChannels : Obligations.StepKeepsChannels := by
  intro s t hs h
  refine step_keeps (fun hcl hs => ?_) (fun hm hs => hm.channelsOk hs) (fun _ _ hs => hs) (fun _ _ hs => hs) h hs
  rw [hcl]
  exact hs

end Sys2Proof.Machine
end


section
/-! PROOFS. The mixer's commands (43_mixer.md): panning and its fault (R238, R239, R293), the record of MIX.ADD (R230,
R243), exclusive sounds (R236, R244), the tick (R245 to R248) and the life of a channel (R253). -/

namespace Sys2Proof.Machine

variable {s t : State} {c : Config} {id : Half} {l : List Channel} {ch : Channel} {volume : Int} {separation : Nat}

/-! ## Panning -/

/-- A part `q` of 65536 of a volume lies between 0 and the volume. -/
theorem share_bounds {q : Int} (hv : 0 ≤ volume) (h0 : 0 ≤ q) (h1 : q ≤ 65536) :
    0 ≤ volume * q / 65536 ∧ volume * q / 65536 ≤ volume := by
  have hle : volume * q ≤ volume * 65536 := Int.mul_le_mul_of_nonneg_left h1 hv
  have hge : 0 ≤ volume * q := Int.mul_nonneg hv h0
  omega

theorem square_bounds {n : Int} (h0 : -256 ≤ n) (h1 : n ≤ 256) : 0 ≤ n * n ∧ n * n ≤ 65536 := by
  constructor <;> nlinarith

theorem panLeft_bounds (hv : 0 ≤ volume) (hsep : separation < 256) :
    0 ≤ panLeft volume separation ∧ panLeft volume separation ≤ volume := by
  obtain ⟨h0, h1⟩ := square_bounds (n := separation + 1) (by omega) (by omega)
  have hshare := share_bounds hv h0 h1
  simp only [panLeft, Int.mul_assoc]
  omega

theorem panRight_bounds (hv : 0 ≤ volume) (hsep : separation < 256) :
    0 ≤ panRight volume separation ∧ panRight volume separation ≤ volume := by
  obtain ⟨h0, h1⟩ := square_bounds (n := separation + 1 - 257) (by omega) (by omega)
  have hshare := share_bounds hv h0 h1
  simp only [panRight, Int.mul_assoc]
  omega

/-- Settles O40: the part taken off is at most the whole volume; at the two ends the squares are 1 and 65536. -/
theorem panStaysInRange : Obligations.PanStaysInRange := by
  intro volume hv
  refine ⟨fun h127 separation hsep => ?_, fun hlt => ?_⟩
  · obtain ⟨hl0, hl1⟩ := panLeft_bounds hv hsep
    obtain ⟨hr0, hr1⟩ := panRight_bounds hv hsep
    exact ⟨hl0, hl1.trans h127, hr0, hr1.trans h127⟩
  · simp only [panLeft, panRight]
    omega

theorem panLegal_iff {v : Int} : panLegal v = true ↔ 0 ≤ v ∧ v ≤ 127 := by
  rw [panLegal, Bool.and_eq_true, decide_eq_true_eq, decide_eq_true_eq]
  rfl

/-- A volume of 0..127 pans to legal results (R239). -/
theorem panLegal_of_volume (hv : 0 ≤ volume) (h127 : volume ≤ 127) (hsep : separation < 256) :
    panLegal (panLeft volume separation) = true ∧ panLegal (panRight volume separation) = true := by
  obtain ⟨hl0, hl1⟩ := panLeft_bounds hv hsep
  obtain ⟨hr0, hr1⟩ := panRight_bounds hv hsep
  exact ⟨panLegal_iff.mpr ⟨hl0, hl1.trans h127⟩, panLegal_iff.mpr ⟨hr0, hr1.trans h127⟩⟩

/-! ## MIX.ADD -/

section
variable {vol step : Word} {tic : Word} {x : Sound}

/-- MIX.ADD of a supplied sound with a volume that is not negative runs its steps (R230). -/
theorem exec_mixAdd (hrun : s.halted = false) (hx : soundOf s.env id = some x) (hlen : 1 ≤ x.length)
    (hvol : 0 ≤ vol.toInt) :
    exec (.mixAdd id vol step separation tic) s = (addSound x vol.toInt step separation tic s).outcome := by
  have h1 : ¬ x.length < 1 := Nat.not_lt.mpr hlen
  have h2 : ¬ vol.toInt < 0 := not_lt.mpr hvol
  simp only [exec, execMixAdd, run_of_not_halted hrun, hx, h1, h2, if_false]

theorem soundOf_id (h : soundOf s.env id = some x) : x.id = id := by
  simpa using List.find?_some h

/-- Settles O41: the left result is tested first; each test that fails takes the fault after the silencing. -/
theorem panFault : Obligations.PanFault := by
  intro s id volume step separation tic x left right hrun hx hlen hvol hsep hleft hright
  have hL : panLeft volume.toInt separation = left := hleft.symm
  have hR : panRight volume.toInt separation = right := hright.symm
  refine ⟨fun hbad => ?_, fun h127 t h => ?_⟩
  · rw [exec_mixAdd hrun hx hlen hvol, addSound, hL, hR, soundOf_id hx]
    by_cases hl : 0 ≤ left ∧ left ≤ 127
    · have hr : ¬(0 ≤ right ∧ right ≤ 127) := hbad.resolve_left (not_not.mpr hl)
      have hno : panLegal right = false := Bool.eq_false_iff.mpr fun h => hr (panLegal_iff.mp h)
      rw [if_pos hl]
      simp only [panLegal_iff.mpr hl, hno, Bool.not_true, Bool.not_false, Bool.false_eq_true, if_false, if_true]
      rfl
    · have hno : panLegal left = false := Bool.eq_false_iff.mpr fun h => hl (panLegal_iff.mp h)
      rw [if_neg hl]
      simp only [hno, Bool.not_false, if_true]
      rfl
  · obtain ⟨hl, hr⟩ := panLegal_of_volume hvol h127 hsep
    obtain ⟨-, y, -, -, -, -, ⟨hno, -⟩ | ⟨-, hno, -⟩ | ⟨-, -, rfl⟩⟩ := mixAdd_cases h
    · rw [hl] at hno
      cases hno
    · rw [hr] at hno
      cases hno
    · exact hrun

/-- A legal pan result fits a channel's volume register (R42). -/
theorem toNat_ofInt_pan {v : Int} (h : 0 ≤ v ∧ v ≤ 127) : ((BitVec.ofInt 7 v).toNat : Int) = v := by
  rw [BitVec.toNat_ofInt]
  omega

/-- Settles O39: the record of R243 field by field, in the slot selected after the silencing. -/
theorem addSoundRecords : Obligations.AddSoundRecords := by
  intro s id volume step separation tic x left right hrun hchan hx hlen hvol hleft hright hl0 hl1 hr0 hr1
  have hL : panLeft volume.toInt separation = left := hleft.symm
  have hR : panRight volume.toInt separation = right := hright.symm
  have hid := soundOf_id hx
  have hne : s.channels ≠ [] := channels_ne_nil hchan
  have hslot := selectSlot_lt (silence_ne_nil (c := s.cfg) (id := id) hne)
  rw [length_silence, hchan] at hslot
  refine ⟨({ s with channels := silence s.cfg id s.channels } : State).recordSound
      (selectSlot (silence s.cfg id s.channels)) x step tic left right,
    selectSlot (silence s.cfg id s.channels), newChannel x step tic left right s.handleCtr,
    (exec_mixAdd hrun hx hlen hvol).trans ?_, rfl, hslot, ?_, rfl, rfl, rfl, rfl, rfl, rfl, toNat_ofInt_pan ⟨hl0, hl1⟩,
    toNat_ofInt_pan ⟨hr0, hr1⟩, hid, rfl, fun k old hk hold => ?_⟩
  · rw [addSound, hL, hR, hid]
    simp only [panLegal_iff.mpr ⟨hl0, hl1⟩, panLegal_iff.mpr ⟨hr0, hr1⟩, Bool.not_true, Bool.false_eq_true, if_false,
      Result.outcome_ok]
  · rw [State.recordSound]
    simp only [BitVec.ofNat_toNat]
    rfl
  · exact (List.getElem?_set_ne (Ne.symm hk)).trans (by rw [silence_eq_map, List.getElem?_map, hold]; rfl)

end

/-! ## Exclusive sounds -/

/-- Silencing takes away the active instances of an exclusive id and nothing else (R236). -/
theorem countP_active_silence (hid : id ∈ c.exclusiveIds) (l : List Channel) :
    (silence c id l).countP Channel.active + l.countP (plays id) = l.countP Channel.active := by
  rw [silence_eq_map]
  induction l with
  | nil => rfl
  | cons ch rest ih =>
    rw [List.map_cons, List.countP_cons, List.countP_cons, List.countP_cons]
    by_cases hp : plays id ch = true
    · obtain ⟨ha, hi⟩ := plays_iff.mp hp
      have hsil : (silenced c id ch).active = false := by rw [silenced, if_pos ⟨hid, ha, hi⟩]
      rw [if_pos hp, if_pos ha, hsil, if_neg Bool.false_ne_true]
      omega
    · have hsil : silenced c id ch = ch := if_neg fun h => hp (plays_iff.mpr h.2)
      rw [if_neg hp, hsil]
      omega

/-- A new record in a free slot adds one active slot and one of its own sound. -/
theorem countP_set_free {k : Nat} {p : Channel → Bool} (hch : l[k]? = some ch) (hfree : p ch = false) {new : Channel}
    (hnew : p new = true) : (l.set k new).countP p = l.countP p + 1 := by
  obtain ⟨hk, hget⟩ := List.getElem?_eq_some_iff.mp hch
  rw [List.countP_set hk, hget, hfree, hnew]
  rfl

/-- A new record in an active slot leaves the number of active slots. -/
theorem countP_set_full {k : Nat} (hk : k < l.length) (hall : ∀ x ∈ l, x.active = true) {new : Channel}
    (hnew : new.active = true) : (l.set k new).countP Channel.active = l.length := by
  have hfull : l.countP Channel.active = l.length := List.countP_eq_length.mpr hall
  rw [List.countP_set hk, hall _ (List.getElem_mem hk), hnew, hfull]
  simp only [if_true]
  omega

/-- Settles O42: silencing frees the slot that the record then fills, and the selected slot is otherwise the only one
that changes. -/
theorem exclusiveRetrigger : Obligations.ExclusiveRetrigger := by
  intro s t id volume step separation tic hs h hrun
  obtain ⟨-, x, -, rfl, -, -, ⟨-, rfl⟩ | ⟨-, -, rfl⟩ | ⟨-, -, rfl⟩⟩ := mixAdd_cases h
  · cases hrun
  · cases hrun
  obtain ⟨hlen, -, hex, -⟩ := channelsOk_iff.mp hs
  have hne := channels_ne_nil hlen
  simp only [State.recordSound, activeCount_eq, length_activeOf]
  refine ⟨fun hid ⟨old, hold, hact, hold_id⟩ => ?_, fun hid => ?_⟩
  · have hidle : ∃ ch ∈ silence s.cfg x.id s.channels, ch.active = false := by
      rw [silence_eq_map]
      exact ⟨_, List.mem_map.mpr ⟨old, hold, rfl⟩, by rw [silenced, if_pos ⟨hid, hact, hold_id⟩]⟩
    obtain ⟨free, hslot, hfree, -⟩ := selectSlot_of_free hidle
    have hnone : plays x.id free = false := by rw [plays, hfree, Bool.false_and]
    have hone : s.channels.countP (plays x.id) = 1 :=
      Nat.le_antisymm (hex _ hid) (List.countP_pos_iff.mpr ⟨old, hold, plays_iff.mpr ⟨hact, hold_id⟩⟩)
    refine ⟨?_, ?_, fun k ch hk ha hother => ?_⟩
    · rw [countP_set_free hslot hfree rfl, ← countP_active_silence hid s.channels, hone]
    · rw [countP_set_free hslot hnone (plays_iff.mpr ⟨rfl, rfl⟩), countP_plays_silence hid]
    · have hkept : (silence s.cfg x.id s.channels)[k]? = some ch := by
        rw [silence_eq_map, List.getElem?_map, hk, Option.map_some, silenced_other hother]
      refine (List.getElem?_set_ne fun e => ?_).trans hkept
      rw [e, hkept] at hslot
      cases hslot
      rw [ha] at hfree
      cases hfree
  · rw [silence_of_not_exclusive hid]
    refine ⟨fun k hk => List.getElem?_set_ne (Ne.symm hk), fun hidle => ?_, fun hall => ?_⟩
    · obtain ⟨free, hslot, hfree, -⟩ := selectSlot_of_free hidle
      exact countP_set_free hslot hfree rfl
    · exact (countP_set_full (selectSlot_lt hne) hall rfl).trans hlen

/-! ## The tick -/

theorem clamp16_eq (v : Int) : clamp16 v = max (-32768) (min 32767 v) := by
  unfold clamp16
  split
  · omega
  · split <;> omega

/-- The returned sample fits `RES_A` (R248). -/
theorem toInt_sample (v : Int) : (BitVec.ofInt 32 (clamp16 v)).toInt = clamp16 v := by
  rw [BitVec.toInt_ofInt]
  refine Int.bmod_eq_of_le ?_ ?_ <;> rw [clamp16_eq] <;> omega

/-- A slot that is not active contributes nothing to the sum (R245). -/
theorem sum_contribution (s : State) (l : List Channel) :
    (l.map (contribution s)).sum =
      ((l.filter fun ch => ch.active).map fun ch =>
        volLookup s.cfg ch.lvol (s.readPcm ch.ptr) + volLookup s.cfg ch.rvol (s.readPcm ch.ptr)).sum := by
  induction l with
  | nil => rfl
  | cons ch rest ih =>
    rw [List.map_cons, List.sum_cons, ih]
    cases hact : ch.active with
    | false =>
      rw [List.filter_cons_of_neg (by simp [hact]), contribution, hact, if_neg Bool.false_ne_true, Int.zero_add]
    | true => rw [List.filter_cons_of_pos hact, List.map_cons, List.sum_cons, contribution, if_pos hact, foldSides]

theorem exec_mixTick (hrun : s.halted = false) : exec .mixTick s = .next (mixTick s) := by
  simp only [exec, execMixTick, run_of_not_halted hrun, Result.outcome_ok]

/-- Settles O44, slot by slot: an active one is advanced, any other stays. -/
theorem tickMixesAndAdvances : Obligations.TickMixesAndAdvances := by
  intro s hrun
  refine ⟨mixTick s, _, exec_mixTick hrun, rfl, rfl, ?_, List.length_map ..,
    fun vol b => ⟨fun v hv => ?_, fun hv => ?_⟩, fun k ch hk => ?_⟩
  · rw [mixTick_resA, mixSample, toInt_sample, clamp16_eq, mixSum, sum_contribution]
  · simp only [volLookup, hv]
  · simp only [volLookup, List.getElem?_eq_none hv]
    rfl
  · have ht : (mixTick s).channels[k]? = some (tickChannel ch) := by
      rw [mixTick, List.getElem?_map, hk]
      rfl
    rw [ht, tickChannel]
    refine ⟨fun ha => ?_, fun ha => ?_⟩
    · rw [ha, if_neg Bool.false_ne_true]
    · rw [if_pos ha, advance]

/-! ## The life of a channel -/

/-- A channel without a fraction after `k` steps, if it is active until the last of them (R246, R252). -/
def Channel.movedBy (ch : Channel) (k : Nat) : Channel :=
  { ch with
    ptr := ch.ptr + k * ch.step.toNat / 65536
    frac := BitVec.ofNat 16 (k * ch.step.toNat % 65536)
    active := decide (ch.ptr + k * ch.step.toNat / 65536 < ch.stop) }

theorem movedBy_zero (hact : ch.active = true) (hfrac : ch.frac = 0) (hlen : ch.ptr < ch.stop) : ch.movedBy 0 = ch := by
  have hlt : decide (ch.ptr + 0 * ch.step.toNat / 65536 < ch.stop) = ch.active := by
    rw [hact, decide_eq_true_eq]
    omega
  have hnone : BitVec.ofNat 16 (0 * ch.step.toNat % 65536) = ch.frac := by rw [Nat.zero_mul, hfrac]; rfl
  rw [Channel.movedBy, hlt, hnone, Nat.zero_mul]
  rfl

theorem movedBy_active {k : Nat} (h : ch.ptr + k * ch.step.toNat / 65536 < ch.stop) : (ch.movedBy k).active = true :=
  decide_eq_true h

theorem advance_movedBy (ch : Channel) (k : Nat) : advance (ch.movedBy k) = ch.movedBy (k + 1) := by
  have hfrac : (ch.movedBy k).frac.toNat = k * ch.step.toNat % 65536 := by
    simp only [Channel.movedBy, BitVec.toNat_ofNat]
    omega
  have hptr : ch.ptr + k * ch.step.toNat / 65536 + (k * ch.step.toNat % 65536 + ch.step.toNat) / 65536 =
      ch.ptr + (k + 1) * ch.step.toNat / 65536 := by
    rw [Nat.succ_mul]
    omega
  have hrest : (k * ch.step.toNat % 65536 + ch.step.toNat) % 65536 = (k + 1) * ch.step.toNat % 65536 := by
    rw [Nat.succ_mul]
    omega
  simp only [advance, hfrac]
  simp only [Channel.movedBy, hptr, hrest]

/-- While the channel has samples left, each tick moves it by its step. -/
theorem iterate_tickChannel (h0 : ch.movedBy 0 = ch) (k : Nat) (h : ch.ptr + k * ch.step.toNat / 65536 < ch.stop) :
    tickChannel^[k] ch = ch.movedBy k := by
  induction k with
  | zero => exact h0.symm
  | succ k ih =>
    have hk : ch.ptr + k * ch.step.toNat / 65536 < ch.stop := by
      rw [Nat.succ_mul] at h
      omega
    rw [Function.iterate_succ_apply', ih hk, tickChannel, if_pos (movedBy_active hk), advance_movedBy]

/-- The tick that takes it past its end moves it too. -/
theorem iterate_tickChannel_succ (h0 : ch.movedBy 0 = ch) {k : Nat}
    (h : ch.ptr + k * ch.step.toNat / 65536 < ch.stop) : tickChannel^[k + 1] ch = ch.movedBy (k + 1) := by
  rw [Function.iterate_succ_apply',
    iterate_tickChannel h0 k h, tickChannel, if_pos (movedBy_active h), advance_movedBy]

/-- A channel is active as long as it has samples left, and never again (R253). -/
theorem iterate_tickChannel_active (h0 : ch.movedBy 0 = ch) (k : Nat) :
    (tickChannel^[k] ch).active = decide (ch.ptr + k * ch.step.toNat / 65536 < ch.stop) := by
  induction k with
  | zero => exact (congrArg Channel.active h0).symm
  | succ k ih =>
    by_cases hk : ch.ptr + k * ch.step.toNat / 65536 < ch.stop
    · rw [iterate_tickChannel_succ h0 hk]
      rfl
    · have hpast : ¬ ch.ptr + (k + 1) * ch.step.toNat / 65536 < ch.stop := by
        rw [Nat.succ_mul]
        omega
      have hidle : (tickChannel^[k] ch).active = false := ih.trans (decide_eq_false hk)
      rw [Function.iterate_succ_apply', tickChannel, if_neg (by rw [hidle]; exact Bool.false_ne_true), hidle,
        decide_eq_false hpast]

theorem ticks_channel (k c : Nat) (s : State) : (ticks k s).channels[c]? = s.channels[c]?.map tickChannel^[k] := by
  induction k generalizing s with
  | zero => exact (Option.map_id_fun' ▸ rfl)
  | succ k ih =>
    rw [ticks, ih, mixTick, List.getElem?_map, Option.map_map]
    rfl

/-- `k` is below the quotient rounded up exactly when `k` steps do not reach the dividend. -/
theorem lt_ceil_iff {k X d : Nat} (hd : 0 < d) : k < (X + d - 1) / d ↔ k * d < X := by
  rw [Nat.lt_iff_add_one_le, Nat.le_div_iff_mul_le hd, Nat.succ_mul]
  omega

/-- Settles O45, from the position of the channel after `k` ticks. -/
theorem channelLifetime : Obligations.ChannelLifetime := by
  intro s c ch L hc hact hfrac hL hstop k
  have h0 : ch.movedBy 0 = ch := movedBy_zero hact hfrac (by omega)
  have hleft : ∀ n, ch.ptr + n < ch.stop ↔ n < L := fun n => by omega
  have hactive : (tickChannel^[k] ch).active = true ↔ k * ch.step.toNat / 65536 < L := by
    rw [iterate_tickChannel_active h0, decide_eq_true_eq, hleft]
  have hscale : k * ch.step.toNat / 65536 < L ↔ k * ch.step.toNat < L * 65536 := Nat.div_lt_iff_lt_mul (by omega)
  refine ⟨tickChannel^[k] ch, by rw [ticks_channel, hc]; rfl, fun hstep => ⟨?_, hactive⟩,
    fun S hS hstep => ⟨?_, fun hk => ?_⟩, fun hstep => ?_⟩
  · rw [hactive, hscale, lt_ceil_iff hstep]
  · rw [hactive, lt_ceil_iff hS, hstep, ← Nat.mul_assoc, Nat.mul_div_cancel _ (by omega)]
  · cases k with
    | zero => exact (Nat.add_zero _).symm.trans (by rw [Nat.zero_mul]; rfl)
    | succ n =>
      have hn : n * ch.step.toNat / 65536 < L := by
        rw [hstep, ← Nat.mul_assoc, Nat.mul_div_cancel _ (by omega)]
        exact (lt_ceil_iff hS).mp hk
      rw [iterate_tickChannel_succ h0 ((hleft _).mpr hn), Channel.movedBy, hstep, ← Nat.mul_assoc,
        Nat.mul_div_cancel _ (by omega)]
  · rw [hactive, hstep]
    exact (Nat.zero_div 65536).symm ▸ hL

end Sys2Proof.Machine
end


section
/-! PROOFS. What commands leave alone (R2, R20, R311), the PWM driver's polls (R270 to R272, R279), the state after
power-on (R330, R331). -/

namespace Sys2Proof.Machine

variable {s t u : State} {i : Instr}

/-! ## The display engine writes no duty value -/

theorem pwmOut_append (l l' : List Event) : pwmOut (l ++ l') = pwmOut l ++ pwmOut l' := List.filterMap_append

theorem LcdMoves.pwmOut (h : LcdMoves s t) : pwmOut t.evt = pwmOut s.evt := by
  have hsnoc : ∀ (l : List Event) (e : Event), Machine.pwmOut [e] = [] → Machine.pwmOut l = [] →
      Machine.pwmOut (l ++ [e]) = [] := fun l e he hl => by rw [pwmOut_append, hl, he]; rfl
  obtain ⟨ev, hev, hnone⟩ := h.trace (P := fun l => Machine.pwmOut l = []) rfl (fun l => hsnoc l _ rfl)
    (fun l m => hsnoc l _ rfl) (fun l m => hsnoc l _ rfl) (fun l p b => hsnoc l _ rfl) (fun l d => hsnoc l _ rfl)
  rw [hev, pwmOut_append, hnone, List.append_nil]

/-- An event that is no duty value leaves them as they are. -/
theorem pwmOut_snoc {e : Event} (he : pwmOut [e] = []) (hevt : t.evt = s.evt ++ [e]) : pwmOut t.evt = pwmOut s.evt := by
  rw [hevt, pwmOut_append, he, List.append_nil]

/-! ## No command writes these -/

/-- Everything that a command run whole can write (R20, R46, R54, R72, R73, R82). -/
def Commanded (s t : State) : Prop :=
  t = { s with
    res := t.res
    resA := t.resA
    busyR := t.busyR
    busyA := t.busyA
    phase := t.phase
    mapped := t.mapped
    latches := t.latches
    dirs := t.dirs
    owns := t.owns
    dstate := t.dstate
    variant := t.variant
    rot := t.rot
    curW := t.curW
    curH := t.curH
    winx := t.winx
    winy := t.winy
    winValid := t.winValid
    streamOpen := t.streamOpen
    channels := t.channels
    handleCtr := t.handleCtr
    lastIdx := t.lastIdx
    dutyNs := t.dutyNs
    halted := t.halted
    fault := t.fault
    faultInfo := t.faultInfo
    degraded := t.degraded
    evt := t.evt
    freeCount := t.freeCount }

theorem LcdMoves.commanded (h : LcdMoves s t) : Commanded s t := by
  unfold Commanded
  rw [h.frame]

theorem CommandMove.commanded (h : CommandMove s t) : Commanded s t := by
  cases h with
  | display hm => exact hm.commanded
  | mapFault hm =>
    unfold Commanded
    rw [hm.frame]
    rfl
  | pinFault | acquire | output | panFault | record | tick => rfl
  | emission hlt =>
    unfold Commanded
    rw [emitSample_frame]

theorem CommandMove.evt (h : CommandMove s t) : ∃ ev, t.evt = s.evt ++ ev := by
  cases h with
  | display hm => exact hm.evt
  | mapFault hm =>
    obtain ⟨ev, hev⟩ := hm.evt
    exact ⟨ev ++ [.halt 2], by rw [State.halt_evt, hev, List.append_assoc]; rfl⟩
  | pinFault | acquire | output | panFault => exact ⟨_, rfl⟩
  | record | tick => exact ⟨[], (List.append_nil _).symm⟩
  | emission hlt => exact ⟨_, emitSample_evt _ _⟩

theorem CommandMove.mapped (h : CommandMove s t) (hs : s.mapped = true) : t.mapped = true := by
  cases h with
  | display hm => exact hm.mapped hs
  | mapFault hm => exact hm.mapped hs
  | pinFault | acquire | output | panFault | record | tick => exact hs
  | emission hlt =>
    rw [emitSample_frame]
    exact hs

/-- Settles O50: every command writes only what `Commanded` lists. -/
theorem commandFrame : Obligations.CommandFrame := by
  intro s t i hc h
  have hm := exec_move hc h
  refine ⟨hm.evt, ?_⟩
  have hmapped := hm.mapped
  rw [hm.commanded]
  exact ⟨rfl, rfl, rfl, rfl, rfl, rfl, rfl, rfl, rfl, rfl, rfl, rfl, rfl, rfl, rfl, rfl, rfl, rfl, hmapped,
    fun _ => rfl, fun _ => rfl⟩

/-! ## The two halves -/

/-- The mixer, the PWM driver and the duty values are as before (R2). -/
def MixerKept (s t : State) : Prop :=
  t.channels = s.channels ∧ t.handleCtr = s.handleCtr ∧ t.resA = s.resA ∧ t.lastIdx = s.lastIdx ∧
    t.dutyNs = s.dutyNs ∧ t.freeCount = s.freeCount ∧ pwmOut t.evt = pwmOut s.evt

theorem LcdMoves.mixerKept (h : LcdMoves s t) : MixerKept s t := by
  have hpwm := h.pwmOut
  rw [h.frame] at hpwm ⊢
  exact ⟨rfl, rfl, rfl, rfl, rfl, rfl, hpwm⟩

theorem MixerKept.halt (h : MixerKept s t) (k : FaultKind) (x : Word) : MixerKept s (t.halt k x) := by
  obtain ⟨hch, hctr, hres, hidx, hduty, hfree, hpwm⟩ := h
  exact ⟨hch, hctr, hres, hidx, hduty, hfree, (pwmOut_snoc (s := t) (e := .halt (faultCode k)) rfl rfl).trans hpwm⟩

theorem exec_mixerKept (hi : displayHalf i = true) (hc : ConfigOk s.cfg) (h : exec i s = .next t) : MixerKept s t := by
  have lcd : ∀ {j : Instr}, drivesBus j = true ∨ j = .lcdReset → exec j s = .next t → MixerKept s t := by
    intro j hj hx
    obtain ⟨-, hm | ⟨u, hm, -, -, rfl⟩⟩ := exec_lcd hj hc hx
    · exact hm.mixerKept
    · exact hm.mixerKept.halt _ _
  have fast : ∀ {j : Instr} {m : Word}, j = .gpioFset m ∨ j = .gpioFclr m → exec j s = .next t → MixerKept s t := by
    intro j m hj hx
    obtain ⟨-, hm | ⟨-, -, rfl⟩⟩ := gpioFast_cases hj hc hx
    · exact hm.lcd.mixerKept
    · exact (LcdMoves.mixerKept .refl).halt _ _
  cases i with
  | gpioInit pin =>
    obtain ⟨-, ⟨-, rfl⟩ | ⟨-, -, -, rfl⟩⟩ := gpioInit_cases h
    · exact (LcdMoves.mixerKept .refl).halt _ _
    · exact ⟨rfl, rfl, rfl, rfl, rfl, rfl, pwmOut_snoc (e := .aq pin) rfl rfl⟩
  | gpioDirout p =>
    obtain ⟨-, -, -, rfl⟩ := gpioDirout_cases h
    exact ⟨rfl, rfl, rfl, rfl, rfl, rfl, pwmOut_snoc (e := .dirOut p) rfl rfl⟩
  | gpioWrlvl p l =>
    obtain ⟨-, -, -, -, rfl⟩ := gpioWrlvl_cases h
    exact LcdMoves.mixerKept (BusMoves.lcd ((level_drives s p l).trans (closeOnEdge_drives _ s)))
  | gpioFset m => exact fast (.inl rfl) h
  | gpioFclr m => exact fast (.inr rfl) h
  | lcdWr8 | lcdWr16 | lcdWreg32 | lcdSetwin | lcdFlood | lcdPush | lcdInit | lcdSetrot => exact lcd (.inl rfl) h
  | lcdReset => exact lcd (.inr rfl) h
  | mixAdd | mixTick | pwmPoll => cases hi

/-- The pins and the display are as before (R2), and the replay of the trace. -/
def DisplayKept (s t : State) : Prop :=
  t.mapped = s.mapped ∧ t.latches = s.latches ∧ t.dirs = s.dirs ∧ t.owns = s.owns ∧ t.dstate = s.dstate ∧
    t.variant = s.variant ∧ t.rot = s.rot ∧ t.curW = s.curW ∧ t.curH = s.curH ∧ t.winx = s.winx ∧ t.winy = s.winy ∧
    t.winValid = s.winValid ∧ t.streamOpen = s.streamOpen ∧ t.degraded = s.degraded ∧ t.busView = s.busView

/-- An event that drives no line leaves the replay. -/
theorem busView_still {e : Event} (hc : ConfigOk s.cfg) (hcfg : t.cfg = s.cfg) (he : t.evt = s.evt ++ [e])
    (hd : ∀ v, BusView.drive s.cfg v e = v) : t.busView = s.busView := by
  obtain ⟨-, -, -, -, ⟨hwr, -⟩, -⟩ := hc
  have hquiet : ¬(s.busView.pin s.cfg.pinWR = some s.cfg.wrActive ∧
      (s.busView.drive s.cfg e).pin s.cfg.pinWR = some s.cfg.wrIdle) := fun ⟨hact, hidle⟩ => by
    rw [hd, hact] at hidle
    exact hwr (Option.some.inj hidle)
  rw [busView_snoc hcfg he, busStep_quiet _ _ _ hquiet, hd]

theorem exec_displayKept (hi : displayHalf i = false) (hc : ConfigOk s.cfg) (h : exec i s = .next t) :
    DisplayKept s t := by
  have halted : ∀ l x, DisplayKept s (State.halt { s with channels := l } .pan x) := fun l x =>
    ⟨rfl, rfl, rfl, rfl, rfl, rfl, rfl, rfl, rfl, rfl, rfl, rfl, rfl, rfl,
      busView_still (e := .halt 3) hc rfl rfl fun _ => rfl⟩
  cases i with
  | mixAdd id volume step separation tic =>
    obtain ⟨-, x, -, -, -, -, ⟨-, rfl⟩ | ⟨-, -, rfl⟩ | ⟨-, -, rfl⟩⟩ := mixAdd_cases h
    · exact halted _ _
    · exact halted _ _
    · exact ⟨rfl, rfl, rfl, rfl, rfl, rfl, rfl, rfl, rfl, rfl, rfl, rfl, rfl, rfl, rfl⟩
  | mixTick =>
    obtain ⟨-, rfl⟩ := mixTick_cases h
    exact ⟨rfl, rfl, rfl, rfl, rfl, rfl, rfl, rfl, rfl, rfl, rfl, rfl, rfl, rfl, rfl⟩
  | pwmPoll =>
    obtain ⟨-, ⟨-, rfl⟩ | ⟨-, rfl⟩⟩ := pwmPoll_cases h
    · rw [emitSample_frame]
      exact ⟨rfl, rfl, rfl, rfl, rfl, rfl, rfl, rfl, rfl, rfl, rfl, rfl, rfl, rfl,
        busView_still (e := .pw _) hc rfl rfl fun _ => rfl⟩
    · exact ⟨rfl, rfl, rfl, rfl, rfl, rfl, rfl, rfl, rfl, rfl, rfl, rfl, rfl, rfl, rfl⟩
  | gpioInit | gpioDirout | gpioWrlvl | gpioFset | gpioFclr | lcdWr8 | lcdWr16 | lcdWreg32 | lcdSetwin | lcdFlood
  | lcdPush | lcdReset | lcdInit | lcdSetrot => cases hi

/-- Settles O51. -/
theorem halvesAreIndependent : Obligations.HalvesAreIndependent := by
  intro s t i hc h
  refine ⟨fun hi => exec_mixerKept hi hc h, fun hi => exec_displayKept hi hc h, fun hi => ?_⟩
  rw [(contextA_frame hi h).2]
  exact ⟨rfl, rfl, rfl, rfl, rfl, rfl, rfl⟩

/-! ## The polls -/

theorem exec_pwmPoll_idle (hrun : s.halted = false) (h : sampleIndex s.cfg s.t0 s.env.now ≤ s.lastIdx.toNat) :
    exec .pwmPoll s = .next s := by
  simp only [exec, execPwmPoll, run_of_not_halted hrun, if_neg (Nat.not_lt.mpr h), Result.outcome_ok]

theorem exec_pwmPoll_emits (hrun : s.halted = false) (h : s.lastIdx.toNat < sampleIndex s.cfg s.t0 s.env.now) :
    exec .pwmPoll s = .next (emitSample (sampleIndex s.cfg s.t0 s.env.now) s) := by
  simp only [exec, execPwmPoll, run_of_not_halted hrun, if_pos h, Result.outcome_ok]

/-- An index that fits is kept (R47). -/
theorem emitSample_lastIdx {n : Nat} (h : n < 18446744073709551616) (s : State) :
    (emitSample n s).lastIdx.toNat = n ∧ (emitSample n s).freeCount = s.freeCount := by
  unfold emitSample State.setLastIdx
  dsimp only
  rw [if_pos h]
  exact ⟨BitVec.toNat_ofNat .. |>.trans (Nat.mod_eq_of_lt h), rfl⟩

/-- Settles O46. -/
theorem pollEmitsOnce : Obligations.PollEmitsOnce := by
  intro s n hrun hn
  have hidx : sampleIndex s.cfg s.t0 s.env.now = n := hn.symm
  refine ⟨fun hle => exec_pwmPoll_idle hrun (hidx ▸ hle), fun hlt => ?_⟩
  refine ⟨mixTick s, emitSample n s, dutyNs s.cfg (mixSample s), exec_mixTick hrun, ?_, ?_, emitSample_frame n s,
    fun hfits => emitSample_lastIdx hfits s⟩
  · rw [exec_pwmPoll_emits hrun (hidx ▸ hlt), hidx]
  · rw [mixTick_resA, mixSample, toInt_sample]
    rfl

theorem sampleIndex_le_elapsed {c : Config} (h : c.sampleRate ≤ 1000000000) (t0 now : BitVec 64) :
    sampleIndex c t0 now ≤ now.toNat - t0.toNat := by
  unfold sampleIndex
  exact Nat.div_le_of_le_mul (Nat.mul_comm 1000000000 _ ▸ Nat.mul_le_mul_left _ h)

theorem sampleIndex_mono (c : Config) (t0 : BitVec 64) {now now' : BitVec 64} (h : now.toNat ≤ now'.toNat) :
    sampleIndex c t0 now ≤ sampleIndex c t0 now' :=
  Nat.div_le_div_right (Nat.mul_le_mul_right _ (Nat.sub_le_sub_right h _))

/-- No duty value and the index kept, or one more and the index of the clock, which is higher (R270). -/
def Polled (s t : State) : Prop :=
  (pwmOut t.evt = pwmOut s.evt ∧ t.lastIdx = s.lastIdx) ∨
    ((pwmOut t.evt).length = (pwmOut s.evt).length + 1 ∧ s.lastIdx.toNat < t.lastIdx.toNat ∧
      t.lastIdx.toNat = sampleIndex s.cfg s.t0 s.env.now)

theorem CommandMove.polled (hrate : s.cfg.sampleRate ≤ 1000000000) (h : CommandMove s t) : Polled s t := by
  cases h with
  | display hm =>
    obtain ⟨-, -, -, hidx, -, -, hpwm⟩ := hm.mixerKept
    exact .inl ⟨hpwm, hidx⟩
  | mapFault hm =>
    obtain ⟨-, -, -, hidx, -, -, hpwm⟩ := hm.mixerKept.halt .map 0
    exact .inl ⟨hpwm, hidx⟩
  | pinFault | acquire | output | panFault => exact .inl ⟨pwmOut_snoc rfl rfl, rfl⟩
  | record | tick => exact .inl ⟨rfl, rfl⟩
  | emission hlt =>
    have hfits : sampleIndex s.cfg s.t0 s.env.now < 18446744073709551616 :=
      (sampleIndex_le_elapsed hrate _ _).trans_lt ((Nat.sub_le _ _).trans_lt s.env.now.isLt)
    have hidx := (emitSample_lastIdx hfits s).1
    refine .inr ⟨?_, hlt.trans_eq hidx.symm, hidx⟩
    rw [emitSample_evt, pwmOut_append, List.length_append]
    rfl

/-- A poll keeps what R279 says of the run, at a clock that does not go back. -/
theorem pollsOk_of_polled (hs : s.pollsOk) (h : Polled s t) (hcfg : t.cfg = s.cfg) (ht0 : t.t0 = s.t0)
    (henv : t.env = s.env) : t.pollsOk := by
  obtain ⟨hcount, hidx, hclock⟩ := hs
  unfold State.pollsOk
  rw [hcfg, ht0, henv]
  rcases h with ⟨hpwm, hlast⟩ | ⟨hpwm, hup, hlast⟩
  · rw [hpwm, hlast]
    exact ⟨hcount, hidx, hclock⟩
  · rw [hpwm]
    exact ⟨Nat.succ_le_of_lt (hcount.trans_lt hup), hlast.le, hclock⟩

/-- Settles O49: the dichotomy is that of the command inside the step; the clock only raises the index. -/
theorem stepKeepsPollCount : Obligations.StepKeepsPollCount := by
  intro s t hrate hs h
  rcases (step_move h).2 with ⟨r, v, hr, hm, hv, -⟩ | ⟨rest, now, hle, rfl⟩ | ⟨rest, a, v, rfl⟩
  · have hp : Polled s t := by
      have hr' : r.evt = s.evt ∧ r.lastIdx = s.lastIdx ∧ r.cfg = s.cfg ∧ r.t0 = s.t0 ∧ r.env = s.env := by
        rw [hr]
        exact ⟨rfl, rfl, rfl, rfl, rfl⟩
      obtain ⟨hevt, hlast, hcfg, ht0, henv⟩ := hr'
      have hpol := hm.polled (s := r) (hcfg ▸ hrate)
      unfold Polled at hpol
      rw [hevt, hlast, hcfg, ht0, henv] at hpol
      unfold Polled
      rw [hv]
      exact hpol
    refine ⟨pollsOk_of_polled hs hp ?_ ?_ ?_, hp.imp_right fun ⟨hlen, hup, _⟩ => ⟨hlen, hup⟩⟩ <;>
      rw [hv, hm.commanded, hr]
  · obtain ⟨hcount, hidx, hclock⟩ := hs
    exact ⟨⟨hcount, hidx.trans (sampleIndex_mono _ _ hle), hclock.trans hle⟩, .inl ⟨rfl, rfl⟩⟩
  · exact ⟨hs, .inl ⟨rfl, rfl⟩⟩

/-! ## Power-on -/

section
variable (cfg : Config) (env : Env)

theorem powerOn_channelsOk : (State.powerOn cfg env).channelsOk := by
  have hidle : ∀ ch ∈ (State.powerOn cfg env).channels, ch.active = false := fun ch hch => by
    rw [List.eq_of_mem_replicate hch]
    rfl
  refine channelsOk_iff.mpr ⟨rfl, fun ch hch ha => ?_, fun id _ => ?_, Nat.zero_lt_succ 99⟩
  · rw [hidle ch hch] at ha
    cases ha
  · rw [List.countP_eq_zero.mpr fun ch hch => by rw [plays, hidle ch hch]; exact Bool.false_ne_true]
    exact Nat.zero_le 1

theorem powerOn_displayOk : (State.powerOn cfg env).displayOk :=
  ⟨fun h => absurd rfl h, fun _ => ⟨rfl, rfl⟩, nofun, nofun, nofun, nofun⟩

theorem powerOn_sequencerOk : (State.powerOn cfg env).sequencerOk :=
  ⟨fun h => absurd rfl h, fun h => (h.elim nofun nofun : _), nofun, fun h => (h.elim nofun nofun : _), nofun,
    fun h => (h.elim nofun nofun : _), nofun⟩

theorem powerOn_pollsOk : (State.powerOn cfg env).pollsOk := ⟨Nat.le_refl 0, Nat.zero_le _, Nat.le_refl _⟩

end

/-- Settles O57: each invariant at the values of `State.powerOn`. -/
theorem powerOnMeetsInvariants : Obligations.PowerOnMeetsInvariants := by
  refine ⟨?_, rfl, by decide, rfl, rfl⟩
  rintro cfg env hpcm hpix s rfl
  refine ⟨⟨rfl, rfl, rfl, hpcm, hpix⟩, powerOn_channelsOk cfg env, powerOn_displayOk cfg env,
    powerOn_sequencerOk cfg env, ⟨⟨nofun, fun h => absurd rfl h⟩, nofun⟩, rfl, fun p l hv => ?_,
    powerOn_pollsOk cfg env, rfl, rfl⟩
  have hnone : (State.powerOn cfg env).busView.pin p = none :=
    if_neg ((pinBit_nil p).symm ▸ Bool.false_ne_true)
  rw [hnone] at hv
  cases hv

/-- Settles O58. -/
theorem resetValues : Obligations.ResetValues := by
  rintro cfg env s rfl
  refine ⟨rfl, rfl, rfl, rfl, fun p => ?_, pinBit_nil, rfl, rfl, rfl, rfl, fun ch hch => ?_, rfl, rfl, rfl, rfl, rfl,
    rfl, rfl⟩
  · exact if_neg (by rw [State.powerOn, pinBit_nil]; exact Bool.false_ne_true)
  · rw [List.eq_of_mem_replicate hch]
    rfl

end Sys2Proof.Machine
end


section
/-! PROOFS. The driver state and the sequencer (R35 to R41, R200, R205, R215, R226, R227). What the LCD commands do to
the display registers, said once for each; from it the transitions of the driver state and the invariant of the display
that every step keeps, a turn of the sequencer too. -/

namespace Sys2Proof.Machine

variable {s t u : State} {i : Instr} {x : Result} {f : State → Result}

/-! ## Procedures that only drive the bus or wait -/

/-- The state after a procedure that drives the bus or waits: the display registers are as they were. -/
def Wired (s t : State) : Prop :=
  t = { s with mapped := t.mapped, latches := t.latches, streamOpen := t.streamOpen, evt := t.evt } ∧
    (s.mapped = true → t.mapped = true)

theorem Wired.refl (s : State) : Wired s s := ⟨rfl, id⟩

theorem Wired.trans (h : Wired s t) (h' : Wired t u) : Wired s u := by
  obtain ⟨hframe, hmapped⟩ := h
  obtain ⟨hframe', hmapped'⟩ := h'
  refine ⟨?_, hmapped' ∘ hmapped⟩
  conv_lhs => rw [hframe', hframe]

theorem BusMoves.wired (h : BusMoves s t) : Wired s t := ⟨h.frame, h.mapped⟩

theorem wired_level (s : State) (p : Nat) (l : Level) : Wired s (s.level p l) := ⟨rfl, id⟩

/-- The mapping fault, after driving the bus with the resource unmapped (R183, R292). -/
def Faulted (s t : State) : Prop :=
  ∃ u, Wired s u ∧ u.mapped = false ∧ u.env.mapOk = false ∧ t = u.halt .map 0

theorem Faulted.unmapped (h : Faulted s t) : s.mapped = false := by
  obtain ⟨u, ⟨-, hmapped⟩, hu, -⟩ := h
  rw [← Bool.not_eq_true]
  intro hs
  rw [hmapped hs] at hu
  cases hu

theorem Faulted.false_of_mapped (h : Faulted s t) (hm : s.mapped = true) : False := by
  rw [h.unmapped] at hm
  cases hm

theorem Faulted.after (h : Wired s t) (h' : Faulted t u) : Faulted s u := by
  obtain ⟨v, hv, hrest⟩ := h'
  exact ⟨v, h.trans hv, hrest⟩

/-- What a result may be of a procedure that only drives the bus or waits. -/
def Carries (s : State) (x : Result) : Prop :=
  match x with
  | .ok t => Wired s t
  | .stop t => Faulted s t
  | .refuse _ => True

theorem Drives.carries (h : Drives s x) : Carries s x := by
  cases x with
  | ok t => exact BusMoves.wired h
  | stop t =>
    obtain ⟨u, hu, hrest⟩ := h
    exact ⟨u, BusMoves.wired hu, hrest⟩
  | refuse r => trivial

theorem Carries.after (h : Wired s t) (hx : Carries t x) : Carries s x := by
  cases x with
  | ok u => exact h.trans hx
  | stop u => exact Faulted.after h hx
  | refuse r => trivial

theorem Carries.bind (hx : Carries s x) (hf : ∀ t, Wired s t → Carries t (f t)) : Carries s (x.bind f) := by
  cases x with
  | ok t => exact (hf t hx).after hx
  | stop t => exact hx
  | refuse r => trivial

theorem Carries.outcome (hx : Carries s x) (h : x.outcome = .next t) : Wired s t ∨ Faulted s t := by
  rcases Result.outcome_eq_next.mp h with rfl | rfl
  · exact .inl hx
  · exact .inr hx

/-- A procedure that only drives the bus or waits, then another one. -/
theorem Carries.bind_outcome (hx : Carries s x) (h : (x.bind f).outcome = .next t) :
    Faulted s t ∨ ∃ u, Wired s u ∧ (f u).outcome = .next t := by
  cases x with
  | ok u => exact .inr ⟨u, hx, h⟩
  | stop u =>
    cases h
    exact .inl hx
  | refuse r => cases h

theorem Wired.cfg (h : Wired s t) : t.cfg = s.cfg := by rw [h.1]

theorem ConfigOk.wired (hc : ConfigOk s.cfg) (h : Wired s t) : ConfigOk t.cfg := h.cfg ▸ hc

theorem runInitStep_carries (hc : ConfigOk s.cfg) (y : InitStep) : Carries s (runInitStep y s) := by
  rcases runInitStep_drives hc y with ⟨op, l, heq, hd⟩ | ⟨d, -, heq⟩ <;> rw [heq]
  · exact hd.carries
  · exact ⟨rfl, id⟩

/-- The bring-up sequence only drives the bus and waits (R207). -/
theorem runSeq_carries (l : List InitStep) (hc : ConfigOk s.cfg) : Carries s (runSeq l s) := by
  induction l generalizing s with
  | nil => exact Wired.refl s
  | cons y rest ih => exact (runInitStep_carries hc y).bind fun u hu => ih (hc.wired hu)

/-! ## The window -/

/-- A window of a recognised variant is programmed (R169). -/
def Framed (s t : State) : Prop :=
  s.variant ≠ .unknown ∧ ∃ u x y, Wired s u ∧ t = { u with winx := x, winy := y, winValid := true }

/-- What a result may be of a window procedure (R169). -/
def Windows (s : State) (x : Result) : Prop :=
  match x with
  | .ok t => (s.variant = .unknown ∧ t = s) ∨ Framed s t
  | .stop t => Faulted s t
  | .refuse _ => True

theorem Windows.outcome (hx : Windows s x) (h : x.outcome = .next t) :
    (s.variant = .unknown ∧ t = s) ∨ Framed s t ∨ Faulted s t := by
  rcases Result.outcome_eq_next.mp h with rfl | rfl
  · exact hx.imp_right .inl
  · exact .inr (.inr hx)

/-- A window of a recognised variant, then another procedure. -/
theorem Windows.bind_outcome (hx : Windows s x) (hv : s.variant ≠ .unknown) (h : (x.bind f).outcome = .next t) :
    Faulted s t ∨ ∃ u, Framed s u ∧ (f u).outcome = .next t := by
  cases x with
  | ok u => exact .inr ⟨u, hx.resolve_left fun hu => hv hu.1, h⟩
  | stop u =>
    cases h
    exact .inl hx
  | refuse r => cases h

theorem setWindow_windows (hc : ConfigOk s.cfg) (x1 y1 x2 y2 : Half) : Windows s (setWindow x1 y1 x2 y2 s) := by
  unfold setWindow
  split
  next hv => exact .inl ⟨hv, rfl⟩
  next fam hv =>
    have hne : s.variant ≠ .unknown := by rw [hv]; nofun
    have hfirst := (regWrite_drives hc (familyTable s.cfg fam).xWin (wordBytes (packPair x1 x2))).carries
    cases hx : regWrite (familyTable s.cfg fam).xWin (wordBytes (packPair x1 x2)) s <;> rw [hx] at hfirst
    case refuse => trivial
    case stop => exact hfirst
    case ok u =>
      have hsecond :=
        (regWrite_drives (hc.wired hfirst) (familyTable u.cfg fam).yWin (wordBytes (packPair y1 y2))).carries
      rw [Result.ok_bind]
      cases hy : regWrite (familyTable u.cfg fam).yWin (wordBytes (packPair y1 y2)) u <;> rw [hy] at hsecond
      case refuse => trivial
      case stop => exact Faulted.after hfirst hsecond
      case ok v => exact .inr ⟨hne, v, _, _, Wired.trans hfirst hsecond, rfl⟩

/-! ## The LCD commands -/

/-- A command with its `require` and `refuse` lines (R299) that answers a state has passed them. -/
theorem checked_next {check : State → Option Refusal} {body : State → Result}
    (h : s.run (fun s => afterCheck (check s) (body s)) = .next t) :
    s.halted = false ∧ check s = none ∧ (body s).outcome = .next t := by
  obtain ⟨hrun, hx⟩ := run_eq_next h
  obtain ⟨hcheck, hx⟩ := afterCheck_next hx
  exact ⟨hrun, hcheck, Result.outcome_eq_next.mpr hx⟩

/-- LCD.WR8, LCD.WR16, LCD.WREG32, LCD.FLOOD and LCD.PUSH: the commands that leave the display registers. -/
def keepsDisplay : Instr → Bool
  | .lcdWr8 _ | .lcdWr16 _ | .lcdWreg32 _ _ | .lcdFlood _ _ | .lcdPush _ _ _ => true
  | _ => false

/-- LCD.PUSH after its checks (R180). -/
def pushBody (buffer count : Word) (first : Bool) (s : State) : Result :=
  (if first then openStream s else .ok (s.level s.cfg.pinCS s.cfg.csActive)).bind fun s1 =>
    (pushPixels buffer.toNat count.toNat (s1.level s1.cfg.pinCD s1.cfg.cdData)).bind fun s2 =>
      .ok (s2.level s2.cfg.pinCS s2.cfg.csIdle)

/-- LCD.RESET after its checks (R200). -/
def resetBody (s : State) : Result :=
  (resetByte (idleControlLines s)).bind fun s1 =>
    (strobePulse s1).bind fun s2 => (strobePulse s2).bind fun s3 => .ok (finishReset s3)

/-- LCD.INIT of a recognised identifier after its checks (R205). -/
def initBody (fam : Family) (s : State) : Result :=
  (runSeq (familyTable s.cfg fam).initSeq { s with variant := .family fam }).bind fun s1 =>
    (setFullWindow (initScreen s1)).bind fun s2 =>
      (flood 0x0000 (s2.curW.toNat * s2.curH.toNat) s2).bind fun s3 => .ok { s3 with dstate := .ready }

/-- LCD.SETROT in a family with a rotation table, after its checks (R215). -/
def rotationBody (fam : Family) (tab : RotationTable) (r : Nat) (s : State) : Result :=
  (regWrite (familyTable s.cfg fam).madctl [rotationByte tab (BitVec.ofNat 2 r)] s).bind fun s1 =>
    setFullWindow (s1.setRotation (BitVec.ofNat 2 r))

/-- LCD.INIT after its checks (R205). -/
def initRun (id : Half) (s : State) : Result :=
  match classify s.cfg id with
  | .unknown => .ok (initUnknown s)
  | .family fam => initBody fam s

/-- LCD.SETROT after its checks (R215). -/
def rotationRun (r : Nat) (s : State) : Result :=
  match s.variant with
  | .unknown => .ok s
  | .family fam =>
    match rotationTable s.cfg fam with
    | none => .refuse .rotationUndefined
    | some tab => rotationBody fam tab r s

theorem pushBody_carries (hc : ConfigOk s.cfg) (buffer count : Word) (first : Bool) :
    Carries s (pushBody buffer count first s) := by
  have hopen : Carries s (if first then openStream s else .ok (s.level s.cfg.pinCS s.cfg.csActive)) := by
    cases first with
    | true => exact (openStream_drives hc).carries
    | false => exact wired_level s _ _
  refine hopen.bind fun u hu => ?_
  have hlevel := wired_level u u.cfg.pinCD u.cfg.cdData
  exact ((pushPixels_drives _ _ ((hc.wired hu).wired hlevel)).carries.bind
    (f := fun v => .ok (v.level v.cfg.pinCS v.cfg.csIdle)) fun v _ => wired_level v _ _).after hlevel

/-- Such a command runs in a driver state after LCD.RESET and only drives the bus (R226). -/
theorem exec_keepsDisplay (hi : keepsDisplay i = true) (hc : ConfigOk s.cfg) (h : exec i s = .next t) :
    s.halted = false ∧ s.dstate ≠ .uninitialized ∧ (Wired s t ∨ Faulted s t) := by
  have drawn : s.dstate = .initialized ∨ s.dstate = .ready → s.dstate ≠ .uninitialized := by
    rintro (hd | hd) <;> rw [hd] <;> nofun
  cases i <;> try cases hi
  case lcdWr8 value =>
    obtain ⟨hrun, hcheck, hx⟩ := checked_next (check := protocolCheck) h
    exact ⟨hrun, (protocolCheck_eq_none.mp hcheck).2,
      (write8_drives hc value).carries.outcome hx⟩
  case lcdWr16 value =>
    obtain ⟨hrun, hcheck, hx⟩ := checked_next (check := protocolCheck) h
    exact ⟨hrun, (protocolCheck_eq_none.mp hcheck).2,
      (write16_drives hc value).carries.outcome hx⟩
  case lcdWreg32 reg value =>
    obtain ⟨hrun, hcheck, hx⟩ := checked_next (check := protocolCheck) h
    exact ⟨hrun, (protocolCheck_eq_none.mp hcheck).2,
      (regWrite_drives hc reg _).carries.outcome hx⟩
  case lcdFlood color len =>
    obtain ⟨hrun, hcheck, hx⟩ := checked_next (check := floodCheck len.toNat) h
    exact ⟨hrun, drawn (floodCheck_eq_none.mp hcheck).2.1,
      (flood_drives color _ hc).carries.outcome hx⟩
  case lcdPush buffer count first =>
    obtain ⟨hrun, hcheck, hx⟩ := checked_next (check := pushCheck first) (body := pushBody buffer count first) h
    exact ⟨hrun, drawn (pushCheck_eq_none.mp hcheck).2.1,
      (pushBody_carries hc buffer count first).outcome hx⟩

/-- LCD.SETWIN (R169). -/
theorem lcdSetwin_cases {x1 y1 x2 y2 : Half} (hc : ConfigOk s.cfg) (h : exec (.lcdSetwin x1 y1 x2 y2) s = .next t) :
    s.halted = false ∧ (s.dstate = .initialized ∨ s.dstate = .ready) ∧
      ((s.variant = .unknown ∧ t = s) ∨ Framed s t ∨ Faulted s t) := by
  obtain ⟨hrun, hcheck, hx⟩ := checked_next (check := windowCheck x1 y1 x2 y2) h
  exact ⟨hrun, (windowCheck_eq_none.mp hcheck).2.1,
    (setWindow_windows hc x1 y1 x2 y2).outcome hx⟩

/-- LCD.SETROT (R215). -/
theorem lcdSetrot_cases {r : Nat} (hc : ConfigOk s.cfg) (h : exec (.lcdSetrot r) s = .next t) :
    s.halted = false ∧ s.dstate ≠ .uninitialized ∧
      ((s.variant = .unknown ∧ t = s) ∨ Faulted s t ∨
        (s.dstate = .ready ∧ ∃ u, Wired s u ∧
          (Framed (u.setRotation (BitVec.ofNat 2 r)) t ∨ Faulted (u.setRotation (BitVec.ofNat 2 r)) t))) := by
  obtain ⟨hrun, hcheck, hx⟩ := checked_next (check := rotationCheck) (body := rotationRun r) h
  have hstate := (rotationCheck_eq_none.mp hcheck).2
  refine ⟨hrun, ?_, ?_⟩
  · rcases hstate with hd | ⟨hd, -⟩ <;> rw [hd] <;> nofun
  unfold rotationRun at hx
  split at hx
  next hv =>
    cases hx
    exact .inl ⟨hv, rfl⟩
  next fam hv =>
    have hready : s.dstate = .ready := hstate.resolve_right fun ⟨_, hu⟩ => by rw [hv] at hu; cases hu
    split at hx
    next => cases hx
    next tab htab =>
      rcases (regWrite_drives hc _ _).carries.bind_outcome hx with hf | ⟨u, hu, hx⟩
      · exact .inr (.inl hf)
      refine .inr (.inr ⟨hready, u, hu, ?_⟩)
      have hcu : ConfigOk u.cfg := hc.wired hu
      have hvar : (u.setRotation (BitVec.ofNat 2 r)).variant ≠ .unknown := by
        rw [hu.1]
        exact fun e => by rw [State.setRotation_variant] at e; rw [hv] at e; cases e
      exact ((setWindow_windows (s := u.setRotation (BitVec.ofNat 2 r)) hcu _ _ _ _).outcome hx).resolve_left
        fun ⟨he, _⟩ => hvar he

/-- LCD.INIT of a recognised identifier, after its checks (R205): how far it came. -/
def Initializes (fam : Family) (s t : State) : Prop :=
  Faulted { s with variant := .family fam } t ∨
    ∃ u, Wired { s with variant := .family fam } u ∧
      (Faulted (initScreen u) t ∨
        ∃ v, Framed (initScreen u) v ∧ (Faulted v t ∨ ∃ w, Wired v w ∧ t = { w with dstate := .ready }))

theorem lcdInit_cases {id : Half} (hc : ConfigOk s.cfg) (h : exec (.lcdInit id) s = .next t) :
    s.halted = false ∧ s.dstate = .reset ∧
      ((classify s.cfg id = .unknown ∧ t = initUnknown s) ∨
        ∃ fam, classify s.cfg id = .family fam ∧ Initializes fam s t) := by
  obtain ⟨hrun, hcheck, hx⟩ := checked_next (check := initCheck) (body := initRun id) h
  refine ⟨hrun, (initCheck_eq_none.mp hcheck).2, ?_⟩
  unfold initRun at hx
  split at hx
  next hid =>
    cases hx
    exact .inl ⟨hid, rfl⟩
  next fam hid =>
    refine .inr ⟨fam, hid, ?_⟩
    rcases (runSeq_carries (s := { s with variant := .family fam }) _ hc).bind_outcome hx with hf | ⟨u, hu, hx⟩
    · exact .inl hf
    have hcu : ConfigOk (initScreen u).cfg := ConfigOk.wired (s := { s with variant := .family fam }) (t := u) hc hu
    have hvar : (initScreen u).variant ≠ .unknown := by
      rw [initScreen, hu.1]
      nofun
    refine .inr ⟨u, hu, ?_⟩
    rcases (setWindow_windows hcu _ _ _ _).bind_outcome hvar hx with hf | ⟨v, hv, hx⟩
    · exact .inl hf
    have hcv : ConfigOk v.cfg := by
      obtain ⟨-, w, _, _, hw, rfl⟩ := hv
      exact ConfigOk.wired (t := w) hcu hw
    refine .inr ⟨v, hv, ?_⟩
    rcases (flood_drives _ _ hcv).carries.bind_outcome hx with hf | ⟨w, hw, hx⟩
    · exact .inl hf
    cases hx
    exact .inr ⟨w, hw, rfl⟩

/-- LCD.RESET where the resource cannot be mapped stops at its first byte, after its six slow writes (R200, R292). -/
theorem reset_fault (hc : ConfigOk s.cfg) (hm : s.mapped = false) (he : s.env.mapOk = false) :
    resetBody s = .stop ((resetLines s).halt .map 0) := by
  have hframe := levels_framed [(s.cfg.pinCS, s.cfg.csIdle), (s.cfg.pinCD, s.cfg.cdData), (s.cfg.pinWR, s.cfg.wrIdle),
    (s.cfg.pinRD, s.cfg.rdIdle), (s.cfg.pinCS, s.cfg.csActive), (s.cfg.pinCD, s.cfg.cdCommand)] s
  have hwr : (resetLines s).wr = (resetLines s).cfg.wrIdle := by rw [resetLines_cfg, (resetLines_pin hc).1]
  have hmapped : (resetLines s).mapped = false := (levels_mapped _ s).trans hm
  have henv : (resetLines s).env.mapOk = false := by
    have : (resetLines s).env = s.env := by rw [resetLines, hframe]
    rw [this, he]
  rw [resetBody, resetByte_eq, write8_fault hwr hmapped henv]
  rfl

theorem mappable_or (s : State) : s.mappable ∨ (s.mapped = false ∧ s.env.mapOk = false) := by
  unfold State.mappable
  cases s.mapped <;> cases s.env.mapOk <;> simp

/-- LCD.RESET (R200). -/
theorem lcdReset_cases (hc : ConfigOk s.cfg) (h : exec .lcdReset s = .next t) :
    s.halted = false ∧ s.dstate = .uninitialized ∧
      ((∃ u, Wired s u ∧ u.mapped = true ∧ t = { u with winValid := false, streamOpen := false, dstate := .reset }) ∨
        (s.mapped = false ∧ s.env.mapOk = false ∧ t = (resetLines s).halt .map 0)) := by
  obtain ⟨hrun, hcheck, hx⟩ := checked_next (check := resetCheck) (body := resetBody) h
  refine ⟨hrun, (resetCheck_eq_none.mp hcheck).2, ?_⟩
  rcases mappable_or s with hm | ⟨hm, he⟩
  · obtain ⟨u, heq, hframe, -⟩ := reset_result hc hm
    have hmapped : u.mapped = true := by rw [hframe]
    rw [resetBody, heq] at hx
    cases hx
    refine .inl ⟨u, ⟨?_, fun _ => hmapped⟩, hmapped, rfl⟩
    conv_lhs => rw [hframe]
    rw [hframe]
  · rw [reset_fault hc hm he] at hx
    cases hx
    exact .inr ⟨hm, he, rfl⟩

/-! ## The transitions of the driver state -/

theorem Wired.dstate (h : Wired s t) : t.dstate = s.dstate := by rw [h.1]

theorem Wired.degraded (h : Wired s t) : t.degraded = s.degraded := by rw [h.1]

theorem Faulted.dstate (h : Faulted s t) : t.dstate = s.dstate ∧ t.halted = true := by
  obtain ⟨u, hu, -, -, rfl⟩ := h
  exact ⟨hu.dstate, rfl⟩

theorem Framed.dstate (h : Framed s t) : t.dstate = s.dstate := by
  obtain ⟨-, u, _, _, hu, rfl⟩ := h
  exact hu.dstate

theorem Initializes.dstate {fam : Family} (h : Initializes fam s t) :
    t.dstate = s.dstate ∨ (t.dstate = .initialized ∧ t.halted = true) ∨ (t.dstate = .ready ∧ t.rot = 0) := by
  rcases h with hf | ⟨u, hu, hf | ⟨v, hv, hf | ⟨w, hw, rfl⟩⟩⟩
  · exact .inl hf.dstate.1
  · exact .inr (.inl hf.dstate)
  · exact .inr (.inl ⟨hf.dstate.1.trans hv.dstate, hf.dstate.2⟩)
  · obtain ⟨-, x, _, _, hx, rfl⟩ := hv
    refine .inr (.inr ⟨rfl, ?_⟩)
    rw [hw.1]
    show x.rot = 0
    rw [hx.1]
    rfl

/-- Settles O38: no command but LCD.RESET and LCD.INIT writes the driver state. -/
theorem driverStateTransitions : Obligations.DriverStateTransitions := by
  intro s t i hc h
  have kept : Wired s t ∨ Faulted s t → t.dstate = s.dstate := fun hw => hw.elim Wired.dstate fun hf => hf.dstate.1
  cases hd : displayHalf i with
  | false =>
    obtain ⟨-, -, -, -, hdstate, -⟩ := exec_displayKept hd hc h
    exact .inl hdstate
  | true =>
    cases i with
    | gpioInit pin =>
      obtain ⟨-, ⟨-, rfl⟩ | ⟨-, -, -, rfl⟩⟩ := gpioInit_cases h <;> exact .inl rfl
    | gpioDirout p =>
      obtain ⟨-, -, -, rfl⟩ := gpioDirout_cases h
      exact .inl rfl
    | gpioWrlvl p l =>
      obtain ⟨-, -, -, -, rfl⟩ := gpioWrlvl_cases h
      exact .inl (BusMoves.wired ((level_drives s p l).trans (closeOnEdge_drives _ s))).dstate
    | gpioFset m | gpioFclr m =>
      obtain ⟨-, hm | ⟨-, -, rfl⟩⟩ := gpioFast_cases (m := m) (by simp) hc h
      · exact .inl (BusMoves.wired hm).dstate
      · exact .inl rfl
    | lcdWr8 | lcdWr16 | lcdWreg32 | lcdFlood | lcdPush => exact .inl (kept (exec_keepsDisplay rfl hc h).2.2)
    | lcdSetwin =>
      obtain ⟨-, -, ⟨-, rfl⟩ | hw | hf⟩ := lcdSetwin_cases hc h
      · exact .inl rfl
      · exact .inl hw.dstate
      · exact .inl hf.dstate.1
    | lcdSetrot =>
      obtain ⟨-, -, ⟨-, rfl⟩ | hf | ⟨-, u, hu, hw | hf⟩⟩ := lcdSetrot_cases hc h
      · exact .inl rfl
      · exact .inl hf.dstate.1
      · exact .inl (hw.dstate.trans hu.dstate)
      · exact .inl (hf.dstate.1.trans hu.dstate)
    | lcdReset =>
      obtain ⟨-, hs, ⟨u, -, -, rfl⟩ | ⟨-, -, rfl⟩⟩ := lcdReset_cases hc h
      · exact .inr (.inl ⟨rfl, hs, rfl⟩)
      · exact .inl (by rw [State.halt_dstate, resetLines, levels_framed])
    | lcdInit id =>
      obtain ⟨-, hs, ⟨hid, rfl⟩ | ⟨fam, hid, hinit⟩⟩ := lcdInit_cases hc h
      · exact .inr (.inr ⟨id, rfl, hs, .inl ⟨rfl, .inl hid⟩⟩)
      · rcases hinit.dstate with hsame | ⟨hi, hhalt⟩ | hready
        · exact .inl hsame
        · exact .inr (.inr ⟨id, rfl, hs, .inl ⟨hi, .inr hhalt⟩⟩)
        · exact .inr (.inr ⟨id, rfl, hs, .inr ⟨hready.1, by rw [hid]; nofun, hready.2⟩⟩)
    | mixAdd | mixTick | pwmPoll => cases hd

/-! ## The invariant of the display: what a command does -/

/-- The display invariant, the sequencer's part aside: `drawing` says that LCD.INIT is drawing its first screen. -/
def State.displayOkIf (s : State) (drawing : Bool) : Prop :=
  (s.dstate ≠ .uninitialized → s.mapped = true) ∧
    (s.dstate = .uninitialized → s.winValid = false ∧ s.streamOpen = false) ∧
    (s.dstate = .reset → s.winValid = false) ∧
    (s.dstate = .ready → s.variant ≠ .unknown ∧ s.winValid = true ∧ s.dimsOk) ∧
    (s.dstate = .initialized →
      (s.variant = .unknown ∧ s.degraded = true ∧ s.winValid = false) ∨ drawing = true) ∧
    (s.degraded = true → s.dstate = .initialized ∧ s.variant = .unknown)

theorem displayOk_iff : s.displayOk ↔ s.displayOkIf s.initDrawing := Iff.rfl

theorem initDrawing_of_idle (h : s.phase = .idle) : s.initDrawing = false := by
  simp [State.initDrawing, Phase.ofFlood, h]

variable {b : Bool}

/-- Driving the bus keeps it, where no stream is opened before LCD.RESET (R226). -/
theorem Wired.displayOkIf (h : Wired s t) (hs : s.displayOkIf b)
    (hstream : s.dstate = .uninitialized → t.streamOpen = false) : t.displayOkIf b := by
  obtain ⟨hmapped, hfresh, hreset, hready, hinit, hdeg⟩ := hs
  obtain ⟨hframe, hmono⟩ := h
  rw [hframe]
  exact ⟨fun hd => hmono (hmapped hd), fun hd => ⟨(hfresh hd).1, hstream hd⟩, hreset, hready, hinit, hdeg⟩

/-- A fault cannot come after LCD.RESET: the resource is mapped (R146). -/
theorem not_faulted (hs : s.displayOkIf b) (hd : s.dstate ≠ .uninitialized) : ¬ Faulted s t := fun hf =>
  hf.false_of_mapped (hs.1 hd)

/-- Only `Initialized` is degraded (R210). -/
theorem not_degraded (hs : s.displayOkIf b) (hd : s.dstate ≠ .initialized) : s.degraded = false :=
  Bool.eq_false_iff.mpr fun h => hd (hs.2.2.2.2.2 h).1

theorem closeOnEdge_streamOpen {before : State} (h : s.streamOpen = false) :
    (s.closeOnEdge before).streamOpen = false := by
  unfold State.closeOnEdge State.closeStream
  split
  · split
    · rfl
    · exact h
  · exact h

theorem rawDrive_wired (hc : ConfigOk s.cfg) (hm : s.mappable) (l : Level) (m : Word) :
    Wired s ((fastState l m s).closeOnEdge s) := by
  have hd := rawDrive_drives hc l m
  rw [rawDrive_ok hc hm] at hd
  exact BusMoves.wired hd

/-- The window of a `Ready` display stays one (R226). -/
theorem Framed.displayOkIf (h : Framed s t) (hs : s.displayOkIf b) (hd : s.dstate = .ready) : t.displayOkIf b := by
  obtain ⟨hvar, u, x, y, hu, rfl⟩ := h
  have hdu : u.dstate = .ready := hu.dstate.trans hd
  obtain ⟨hmapped, -, -, hready, -, hdeg⟩ := hu.displayOkIf hs fun e => by rw [hd] at e; cases e
  refine ⟨hmapped, fun e => ?_, fun e => ?_, fun e => ⟨(hready e).1, rfl, (hready e).2.2⟩, fun e => ?_, hdeg⟩ <;>
    exact absurd (hdu.symm.trans e) nofun

/-- A rotation takes over its dimensions (R38). -/
theorem setRotation_displayOkIf (r : BitVec 2) (hs : s.displayOkIf b) : (s.setRotation r).displayOkIf b := by
  obtain ⟨hmapped, hfresh, hreset, hready, hinit, hdeg⟩ := hs
  exact ⟨hmapped, hfresh, hreset, fun e => ⟨(hready e).1, (hready e).2.1, rfl, rfl⟩, hinit, hdeg⟩

/-- LCD.INIT has programmed the window of its first screen (R205). -/
def State.screenSet (s : State) : Prop :=
  s.mapped = true ∧ s.dstate = .initialized ∧ s.variant ≠ .unknown ∧ s.winValid = true ∧ s.dimsOk ∧ s.rot = 0 ∧
    s.degraded = false

theorem Framed.screenSet (h : Framed (initScreen s) t) (hm : s.mapped = true) (hdeg : s.degraded = false) :
    t.screenSet := by
  obtain ⟨hvar, u, x, y, ⟨hframe, hmono⟩, rfl⟩ := h
  have hmu : u.mapped = true := hmono hm
  rw [hframe]
  exact ⟨hmu, rfl, hvar, rfl, ⟨rfl, rfl⟩, rfl, hdeg⟩

theorem Wired.screenSet (h : Wired s t) (hs : s.screenSet) : t.screenSet := by
  obtain ⟨hm, hrest⟩ := hs
  obtain ⟨hframe, hmono⟩ := h
  rw [hframe]
  exact ⟨hmono hm, hrest⟩

theorem State.screenSet.drawing (h : s.screenSet) : s.displayOkIf true := by
  obtain ⟨hm, hd, hvar, hwin, hdims, -, hdeg⟩ := h
  refine ⟨fun _ => hm, fun e => ?_, fun e => ?_, fun e => ?_, fun _ => .inr rfl, fun e => ?_⟩
  · exact absurd (hd.symm.trans e) nofun
  · exact absurd (hd.symm.trans e) nofun
  · exact absurd (hd.symm.trans e) nofun
  · exact absurd (hdeg.symm.trans e) nofun

theorem State.screenSet.ready (h : s.screenSet) : State.displayOkIf { s with dstate := .ready } b := by
  obtain ⟨hm, -, hvar, hwin, hdims, -, hdeg⟩ := h
  exact ⟨fun _ => hm, nofun, nofun, fun _ => ⟨hvar, hwin, hdims⟩, nofun, fun e => absurd (hdeg.symm.trans e) nofun⟩

/-- LCD.INIT of a recognised identifier cannot fault where the resource is mapped, and ends `Ready` (R205). -/
theorem Initializes.displayOkIf {fam : Family} (h : Initializes fam s t) (hm : s.mapped = true)
    (hdeg : s.degraded = false) : t.displayOkIf b := by
  rcases h with hf | ⟨u, hu, h⟩
  · exact (hf.false_of_mapped hm).elim
  have hmu : u.mapped = true := hu.2 hm
  rcases h with hf | ⟨v, hv, h⟩
  · exact (hf.false_of_mapped hmu).elim
  have hset : v.screenSet := hv.screenSet hmu (hu.degraded.trans hdeg)
  rcases h with hf | ⟨w, hw, rfl⟩
  · exact (hf.false_of_mapped hset.1).elim
  · exact (hw.screenSet hset).ready

/-- The unrecognised identifier leaves the degraded Unknown state (R210). -/
theorem initUnknown_displayOkIf (hs : s.displayOkIf b) (hd : s.dstate = .reset) : (initUnknown s).displayOkIf b := by
  obtain ⟨hmapped, -, hreset, -, -, -⟩ := hs
  exact ⟨fun _ => hmapped (by rw [hd]; nofun), nofun, nofun, nofun, fun _ => .inl ⟨rfl, rfl, hreset hd⟩,
    fun _ => ⟨rfl, rfl⟩⟩

/-- The variant is recognised before the sequence runs (R206). -/
theorem recognised_displayOkIf {v : Variant} (hs : s.displayOkIf b) (hd : s.dstate = .reset) :
    State.displayOkIf { s with variant := v } b := by
  have hdeg := not_degraded hs (by rw [hd]; nofun)
  obtain ⟨hmapped, hfresh, hreset, -, -, -⟩ := hs
  refine ⟨hmapped, hfresh, hreset, fun e => ?_, fun e => ?_, fun e => absurd (hdeg.symm.trans e) nofun⟩ <;>
    exact absurd (hd.symm.trans e) nofun

/-- LCD.RESET ends with the resource mapped and without a window (R200). -/
theorem reset_displayOkIf (hm : s.mapped = true) (hdeg : s.degraded = false) :
    State.displayOkIf { s with winValid := false, streamOpen := false, dstate := .reset } b :=
  ⟨fun _ => hm, nofun, fun _ => rfl, nofun, nofun, fun e => absurd (hdeg.symm.trans e) nofun⟩

theorem DisplayKept.displayOkIf (h : DisplayKept s t) (hcfg : t.cfg = s.cfg) (hs : s.displayOkIf b) :
    t.displayOkIf b := by
  obtain ⟨hmapped, -, -, -, hd, hvar, hrot, hw, hh, -, -, hwin, hstream, hdeg, -⟩ := h
  unfold State.displayOkIf State.dimsOk
  rw [hmapped, hd, hvar, hrot, hw, hh, hwin, hstream, hdeg, hcfg]
  exact hs

theorem levels_wired (l : List (Nat × Level)) (s : State) :
    Wired s (levels l s) ∧ (levels l s).streamOpen = s.streamOpen := by
  induction l generalizing s with
  | nil => exact ⟨.refl s, rfl⟩
  | cons y rest ih => exact ⟨(wired_level s y.1 y.2).trans (ih _).1, (ih _).2⟩

theorem resetLines_wired (s : State) : Wired s (resetLines s) ∧ (resetLines s).streamOpen = s.streamOpen :=
  levels_wired _ s

/-- A fault taken from `IDLE` leaves the invariant: it writes no display register (R296). -/
theorem halt_displayOkIf (hs : s.displayOkIf b) (k : FaultKind) (y : Word) : (s.halt k y).displayOkIf b := hs

/-- Every command run whole keeps the invariant of the display, from `IDLE`. -/
theorem exec_displayOkIf (hc : ConfigOk s.cfg) (hs : s.displayOkIf false) (h : exec i s = .next t) :
    t.displayOkIf false := by
  have stay : s.dstate = .uninitialized → s.streamOpen = false := fun e => (hs.2.1 e).2
  have raw : ∀ l m, (rawDrive l m s).outcome = .next t → t.displayOkIf false := fun l m hx => by
    rcases mappable_or s with hm | ⟨hm, he⟩
    · rw [rawDrive_ok hc hm] at hx
      cases hx
      exact (rawDrive_wired hc hm l m).displayOkIf hs fun e => closeOnEdge_streamOpen (stay e)
    · rw [rawDrive_fault hm he] at hx
      cases hx
      exact hs
  cases hd : displayHalf i with
  | false =>
    have hcfg : t.cfg = s.cfg := by rw [(exec_move hc h).commanded]
    exact (exec_displayKept hd hc h).displayOkIf hcfg hs
  | true =>
    cases i with
    | gpioInit pin =>
      obtain ⟨-, ⟨-, rfl⟩ | ⟨-, -, -, rfl⟩⟩ := gpioInit_cases h <;> exact hs
    | gpioDirout p =>
      obtain ⟨-, -, -, rfl⟩ := gpioDirout_cases h
      exact hs
    | gpioWrlvl p l =>
      obtain ⟨-, -, -, -, rfl⟩ := gpioWrlvl_cases h
      exact (BusMoves.wired ((level_drives s p l).trans (closeOnEdge_drives _ s))).displayOkIf hs fun e =>
        closeOnEdge_streamOpen (stay e)
    | gpioFset m => exact raw true m (Result.outcome_eq_next.mpr (run_eq_next (body := rawDrive true m) h).2)
    | gpioFclr m => exact raw false m (Result.outcome_eq_next.mpr (run_eq_next (body := rawDrive false m) h).2)
    | lcdWr8 | lcdWr16 | lcdWreg32 | lcdFlood | lcdPush =>
      obtain ⟨-, hd, hw | hf⟩ := exec_keepsDisplay rfl hc h
      · exact hw.displayOkIf hs fun e => absurd e hd
      · exact absurd hf (not_faulted hs hd)
    | lcdSetwin =>
      obtain ⟨-, hd, ⟨-, rfl⟩ | hw | hf⟩ := lcdSetwin_cases hc h
      · exact hs
      · refine hw.displayOkIf hs (hd.resolve_left fun e => hw.1 ?_)
        exact ((hs.2.2.2.2.1 e).resolve_right Bool.false_ne_true).1
      · exact absurd hf (not_faulted hs (by rcases hd with e | e <;> rw [e] <;> nofun))
    | lcdSetrot r =>
      obtain ⟨-, hd, ⟨-, rfl⟩ | hf | ⟨hready, u, hu, hw⟩⟩ := lcdSetrot_cases hc h
      · exact hs
      · exact absurd hf (not_faulted hs hd)
      · have hru := setRotation_displayOkIf (BitVec.ofNat 2 r) (hu.displayOkIf hs fun e => absurd e hd)
        have hdu : u.dstate = .ready := hu.dstate.trans hready
        rcases hw with hw | hf
        · exact hw.displayOkIf hru hdu
        · exact absurd hf (not_faulted hru (by rw [State.setRotation_dstate, hdu]; nofun))
    | lcdReset =>
      obtain ⟨-, hd, ⟨u, hu, hm, rfl⟩ | ⟨-, -, rfl⟩⟩ := lcdReset_cases hc h
      · exact reset_displayOkIf hm (hu.degraded.trans (not_degraded hs (by rw [hd]; nofun)))
      · obtain ⟨hw, hstream⟩ := resetLines_wired s
        exact halt_displayOkIf (hw.displayOkIf hs fun e => hstream.trans (stay e)) _ _
    | lcdInit id =>
      obtain ⟨-, hd, ⟨-, rfl⟩ | ⟨fam, -, hinit⟩⟩ := lcdInit_cases hc h
      · exact initUnknown_displayOkIf hs hd
      · exact hinit.displayOkIf (hs.1 (by rw [hd]; nofun)) (not_degraded hs (by rw [hd]; nofun))
    | mixAdd | mixTick | pwmPoll => cases hd

/-! ## The invariant of the display: a turn of the sequencer -/

/-- Only the phase and the counters differ (R24, R25). -/
def Counted (s t : State) : Prop :=
  t = { s with
    phase := t.phase
    flBlocks := t.flBlocks
    flInblk := t.flInblk
    flRem := t.flRem
    flLeft := t.flLeft
    puIdx := t.puIdx
    inIdx := t.inIdx
    rsCnt := t.rsCnt }

/-- The state after a turn that leaves the display registers: driving the bus or waiting, then counting. -/
def Turned (s t : State) : Prop := ∃ u, Wired s u ∧ Counted u t

theorem Wired.turned (h : Wired s u) (h' : Turned u t) : Turned s t := by
  obtain ⟨v, hv, hrest⟩ := h'
  exact ⟨v, h.trans hv, hrest⟩

/-- A turn of a procedure that drives the bus, once the resource is mapped (R146). -/
theorem Carries.turned {P : Phase → Prop} (hx : Carries s x) (hm : s.mapped = true)
    (h : (x.bind f).outcome = .next t) (hf : ∀ u, ∃ v, f u = .ok v ∧ Turned u v ∧ P v.phase) :
    Turned s t ∧ P t.phase := by
  rcases hx.bind_outcome h with hfault | ⟨u, hu, h⟩
  · exact (hfault.false_of_mapped hm).elim
  · obtain ⟨v, hv, hturn, hp⟩ := hf u
    rw [hv] at h
    cases h
    exact ⟨hu.turned hturn, hp⟩

theorem Turned.frame (h : Turned s t) :
    t.dstate = s.dstate ∧ t.variant = s.variant ∧ t.inInit = s.inInit ∧ t.busyR = s.busyR ∧ t.halted = s.halted := by
  obtain ⟨u, ⟨hu, -⟩, ht⟩ := h
  rw [ht, hu]
  exact ⟨rfl, rfl, rfl, rfl, rfl⟩

theorem Turned.mapped (h : Turned s t) (hm : s.mapped = true) : t.mapped = true := by
  obtain ⟨u, ⟨-, hmono⟩, ht⟩ := h
  rw [ht]
  exact hmono hm

theorem Turned.displayOkIf (h : Turned s t) (hs : s.displayOkIf b)
    (hstream : s.dstate = .uninitialized → t.streamOpen = false) : t.displayOkIf b := by
  obtain ⟨u, hu, ht⟩ := h
  have hus : u.displayOkIf b := hu.displayOkIf hs fun e => by
    rw [ht] at hstream
    exact hstream e
  rw [ht]
  exact hus

/-- What the rules say of LCD.INIT's first screen (R205). -/
def State.screenOk (s : State) : Prop :=
  s.dstate = .initialized ∧ s.variant ≠ .unknown ∧ s.winValid = true ∧ s.dimsOk ∧ s.rot = 0

theorem Turned.screenOk (h : Turned s t) (hs : s.screenOk) : t.screenOk := by
  obtain ⟨u, ⟨hu, -⟩, ht⟩ := h
  rw [ht, hu]
  exact hs

theorem sequencerOk_of_idle (h : s.phase = .idle) : s.sequencerOk := by
  simp [State.sequencerOk, h, Phase.ofFlood, Phase.ofPush, State.inReset, State.initSequence, State.initDrawing]

theorem mem_of_ofFlood {p : Phase} (h : p.ofFlood = true) :
    p = .fCmd ∨ p = .fFirstHi ∨ p = .fFirstLo ∨ p = .fBlock ∨ p = .fRem ∨ p = .fPixHi ∨ p = .fPixLo ∨ p = .fEnd := by
  simpa [Phase.ofFlood, or_assoc] using h

theorem mem_of_ofPush {p : Phase} (h : p.ofPush = true) : p = .pCmd ∨ p = .pPixHi ∨ p = .pPixLo ∨ p = .pEnd := by
  simpa [Phase.ofPush, or_assoc] using h

/-- The invariant of the sequencer in a phase of LCD.FLOOD (R176). -/
theorem sequencerOk_flood_iff (h : s.phase.ofFlood = true) :
    s.sequencerOk ↔ (s.busyR = true ∧ s.halted = false) ∧ (s.dstate = .initialized ∨ s.dstate = .ready) ∧
      (s.inInit = true → s.screenOk) := by
  rcases mem_of_ofFlood h with hp | hp | hp | hp | hp | hp | hp | hp <;>
    simp [State.sequencerOk, hp, Phase.ofFlood, Phase.ofPush, State.inReset, State.initSequence, State.initDrawing,
        State.screenOk]

theorem initDrawing_flood (h : s.phase.ofFlood = true) : s.initDrawing = s.inInit := by
  rcases mem_of_ofFlood h with hp | hp | hp | hp | hp | hp | hp | hp <;>
    simp [State.initDrawing, hp, Phase.ofFlood]

/-- The invariant of the sequencer in a phase of LCD.PUSH (R180). -/
theorem sequencerOk_push_iff (h : s.phase.ofPush = true) :
    s.sequencerOk ↔ (s.busyR = true ∧ s.halted = false) ∧ (s.dstate = .initialized ∨ s.dstate = .ready) := by
  rcases mem_of_ofPush h with hp | hp | hp | hp <;>
    simp [State.sequencerOk, hp, Phase.ofFlood, Phase.ofPush, State.inReset, State.initSequence, State.initDrawing]

theorem initDrawing_push (h : s.phase.ofPush = true) : s.initDrawing = false := by
  rcases mem_of_ofPush h with hp | hp | hp | hp <;>
    simp [State.initDrawing, hp, Phase.ofFlood]

/-- The invariant of the sequencer in LCD.INIT's sequence and at its window (R205). -/
theorem sequencerOk_sequence_iff (h : s.initSequence = true) :
    s.sequencerOk ↔ (s.busyR = true ∧ s.halted = false) ∧ s.dstate = .reset ∧ s.variant ≠ .unknown ∧
      s.inInit = true := by
  have hp : s.phase = .iSeq ∨ s.phase = .iWin := by simpa [State.initSequence] using h
  rcases hp with hp | hp <;>
    simp [State.sequencerOk, hp, Phase.ofFlood, Phase.ofPush, State.inReset, State.initSequence, State.initDrawing]

/-- The invariant of the sequencer where LCD.INIT enters and leaves its flood (R205). -/
theorem sequencerOk_screen_iff (h : s.phase = .iFlood ∨ s.phase = .iEnd) :
    s.sequencerOk ↔ (s.busyR = true ∧ s.halted = false) ∧ s.inInit = true ∧ s.screenOk := by
  rcases h with hp | hp <;>
    simp [State.sequencerOk, hp, Phase.ofFlood, Phase.ofPush, State.inReset, State.initSequence, State.initDrawing,
      State.screenOk]

/-- The invariant of the sequencer in LCD.RESET (R200). -/
theorem sequencerOk_reset_iff (h : s.inReset = true) :
    s.sequencerOk ↔ (s.busyR = true ∧ s.halted = false) ∧ s.dstate = .uninitialized ∧
      (s.phase = .rsPulse ∨ s.phase = .rsEnd → s.mapped = true) := by
  have hp : s.phase = .rsIdle ∨ s.phase = .rsByte ∨ s.phase = .rsPulse ∨ s.phase = .rsEnd := by
    simpa [State.inReset, or_assoc] using h
  rcases hp with hp | hp | hp | hp <;>
    simp [State.sequencerOk, hp, Phase.ofFlood, Phase.ofPush, State.inReset, State.initSequence, State.initDrawing]

/-- The invariants of the display and of the sequencer together. -/
def State.steady (s : State) : Prop := s.displayOk ∧ s.sequencerOk

/-- A turn between two phases of LCD.FLOOD (R176). -/
theorem Turned.flood (h : Turned s t) (hs : s.steady) (hp : s.phase.ofFlood = true) (hp' : t.phase.ofFlood = true) :
    t.steady := by
  obtain ⟨hdisplay, hseq⟩ := hs
  obtain ⟨hd, hv, hinit, hbusy, hhalt⟩ := h.frame
  obtain ⟨hrun, hdraw, hscreen⟩ := (sequencerOk_flood_iff hp).mp hseq
  have hdrawing : t.initDrawing = s.initDrawing := by rw [initDrawing_flood hp, initDrawing_flood hp', hinit]
  refine ⟨displayOk_iff.mpr (hdrawing ▸ h.displayOkIf hdisplay fun e => ?_),
    (sequencerOk_flood_iff hp').mpr ⟨?_, ?_, ?_⟩⟩
  · rw [e] at hdraw
    rcases hdraw with hdraw | hdraw <;> cases hdraw
  · rwa [hbusy, hhalt]
  · rwa [hd]
  · rw [hinit]
    exact fun hi => h.screenOk (hscreen hi)

/-- A turn between two phases of LCD.PUSH (R180). -/
theorem Turned.push (h : Turned s t) (hs : s.steady) (hp : s.phase.ofPush = true) (hp' : t.phase.ofPush = true) :
    t.steady := by
  obtain ⟨hdisplay, hseq⟩ := hs
  obtain ⟨hd, hv, hinit, hbusy, hhalt⟩ := h.frame
  obtain ⟨hrun, hdraw⟩ := (sequencerOk_push_iff hp).mp hseq
  have hdrawing : t.initDrawing = s.initDrawing := by rw [initDrawing_push hp, initDrawing_push hp']
  refine ⟨displayOk_iff.mpr (hdrawing ▸ h.displayOkIf hdisplay fun e => ?_), (sequencerOk_push_iff hp').mpr ⟨?_, ?_⟩⟩
  · rw [e] at hdraw
    rcases hdraw with hdraw | hdraw <;> cases hdraw
  · rwa [hbusy, hhalt]
  · rwa [hd]

/-- The end of an operation that leaves the invariant of an idle display (R23, R24). -/
theorem endOperation_steady (hs : s.displayOkIf false) : s.endOperation.steady :=
  ⟨displayOk_iff.mpr ((initDrawing_of_idle rfl : s.endOperation.initDrawing = false) ▸ hs), sequencerOk_of_idle rfl⟩

/-- A fault leaves the sequencer in `IDLE` (R296). -/
theorem halt_steady (hs : s.displayOkIf false) (k : FaultKind) (y : Word) : (s.halt k y).steady :=
  ⟨displayOk_iff.mpr ((initDrawing_of_idle rfl : (s.halt k y).initDrawing = false) ▸ hs), sequencerOk_of_idle rfl⟩

theorem State.steady.mapped (hs : s.steady) (hd : s.dstate ≠ .uninitialized) : s.mapped = true := hs.1.1 hd

/-! ### LCD.FLOOD -/

theorem strobePhase_ofFlood (s : State) : (strobePhase s).ofFlood = true := by
  unfold strobePhase
  split
  · rfl
  · split <;> rfl

theorem pixelPhase_ofFlood (s : State) : (pixelPhase s).ofFlood = true := by
  unfold pixelPhase
  split <;> rfl

theorem firstPhase_ofFlood (s : State) : (firstPhase s).ofFlood = true := by
  unfold firstPhase
  split
  · exact strobePhase_ofFlood s
  · exact pixelPhase_ofFlood s

/-- A turn of the flood machine (R176). -/
theorem flood_turn (hc : ConfigOk s.cfg) (hs : s.steady) (hp : s.phase.ofFlood = true)
    (h : (seqStep s).outcome = .next t) : t.steady := by
  obtain ⟨⟨hbusy, hrun⟩, hdraw, hscreen⟩ := (sequencerOk_flood_iff hp).mp hs.2
  have hne : s.dstate ≠ .uninitialized := by rcases hdraw with e | e <;> rw [e] <;> nofun
  have hm := hs.mapped hne
  have go : ∀ {x : Result} {f : State → Result}, Carries s x → (x.bind f).outcome = .next t →
      (∀ u, ∃ v, f u = .ok v ∧ Turned u v ∧ v.phase.ofFlood = true) → t.steady := fun hx h hf =>
    let ⟨hturn, hp'⟩ := Carries.turned (P := fun p => p.ofFlood = true) hx hm h hf
    hturn.flood hs hp hp'
  rcases mem_of_ofFlood hp with e | e | e | e | e | e | e | e
  · rw [seqStep_fCmd e] at h
    exact go (openStream_drives hc).carries h fun u => ⟨_, rfl, ⟨_, wired_level u _ _, rfl⟩, rfl⟩
  · rw [seqStep_fFirstHi e] at h
    exact go (write8_drives hc _).carries h fun u => ⟨_, rfl, ⟨u, .refl u, rfl⟩, rfl⟩
  · rw [seqStep_fFirstLo e] at h
    refine go (write8_drives hc _).carries h fun u => ⟨_, rfl, ⟨u, .refl u, ?_⟩, firstPhase_ofFlood _⟩
    rw [loadFlood_frame]
    rfl
  · rw [seqStep_fBlock e] at h
    refine go (strobePixel_drives hc).carries h fun u => ⟨_, rfl, ⟨u, .refl u, ?_⟩, strobePhase_ofFlood _⟩
    rw [countBlock_frame]
    rfl
  · rw [seqStep_fRem e] at h
    refine go (strobePixel_drives hc).carries h fun u => ⟨_, rfl, ⟨u, .refl u, rfl⟩, ?_⟩
    dsimp only
    split <;> rfl
  · rw [seqStep_fPixHi e] at h
    exact go (write8_drives hc _).carries h fun u => ⟨_, rfl, ⟨u, .refl u, rfl⟩, rfl⟩
  · rw [seqStep_fPixLo e] at h
    exact go (write8_drives hc _).carries h fun u => ⟨_, rfl, ⟨u, .refl u, rfl⟩, pixelPhase_ofFlood _⟩
  · have hstay : s.dstate = .uninitialized → (s.level s.cfg.pinCS s.cfg.csIdle).streamOpen = false :=
      fun e => absurd e hne
    have hkept := (wired_level s s.cfg.pinCS s.cfg.csIdle).displayOkIf hs.1 hstay
    rw [initDrawing_flood hp] at hkept
    simp only [seqStep, e] at h
    split at h
    next hi =>
      have hi : s.inInit = true := hi
      cases h
      refine ⟨?_, (sequencerOk_screen_iff (.inr rfl)).mpr ⟨⟨hbusy, hrun⟩, hi, hscreen hi⟩⟩
      rw [hi] at hkept
      exact hkept
    next hi =>
      have hi : s.inInit = false := Bool.eq_false_iff.mpr hi
      cases h
      rw [hi] at hkept
      exact endOperation_steady hkept

/-! ### LCD.PUSH -/

theorem pushPhase_ofPush (s : State) : (pushPhase s).ofPush = true := by
  unfold pushPhase
  split <;> rfl

/-- A turn of the machine of LCD.PUSH (R180). -/
theorem push_turn (hc : ConfigOk s.cfg) (hs : s.steady) (hp : s.phase.ofPush = true)
    (h : (seqStep s).outcome = .next t) : t.steady := by
  obtain ⟨⟨hbusy, hrun⟩, hdraw⟩ := (sequencerOk_push_iff hp).mp hs.2
  have hne : s.dstate ≠ .uninitialized := by rcases hdraw with e | e <;> rw [e] <;> nofun
  have hm := hs.mapped hne
  have go : ∀ {x : Result} {f : State → Result}, Carries s x → (x.bind f).outcome = .next t →
      (∀ u, ∃ v, f u = .ok v ∧ Turned u v ∧ v.phase.ofPush = true) → t.steady := fun hx h hf =>
    let ⟨hturn, hp'⟩ := Carries.turned (P := fun p => p.ofPush = true) hx hm h hf
    hturn.push hs hp hp'
  rcases mem_of_ofPush hp with e | e | e | e <;> simp only [seqStep, e] at h
  · have hopen : Carries s (if s.held.getLsbD 0 then openStream s else .ok (s.level s.cfg.pinCS s.cfg.csActive)) := by
      split
      · exact (openStream_drives hc).carries
      · exact wired_level s _ _
    exact go hopen h fun u => ⟨_, rfl, ⟨_, wired_level u _ _, rfl⟩, pushPhase_ofPush _⟩
  · exact go (write8_drives hc _).carries h fun u => ⟨_, rfl, ⟨u, .refl u, rfl⟩, rfl⟩
  · exact go (write8_drives hc _).carries h fun u => ⟨_, rfl, ⟨u, .refl u, rfl⟩, pushPhase_ofPush _⟩
  · cases h
    have hkept := (wired_level s s.cfg.pinCS s.cfg.csIdle).displayOkIf hs.1 fun e => absurd e hne
    rw [initDrawing_push hp] at hkept
    exact endOperation_steady hkept

/-! ### LCD.INIT -/

theorem initPhase_sequence {u : State} (h : u.phase = initPhase s) : u.initSequence = true := by
  unfold initPhase at h
  split at h <;> simp [State.initSequence, h]

theorem initDrawing_sequence (h : s.initSequence = true) : s.initDrawing = false := by
  have hp : s.phase = .iSeq ∨ s.phase = .iWin := by simpa [State.initSequence] using h
  rcases hp with hp | hp <;> simp [State.initDrawing, hp, Phase.ofFlood]

theorem initDrawing_screen (h : s.phase = .iFlood ∨ s.phase = .iEnd) : s.initDrawing = true := by
  rcases h with hp | hp <;> simp [State.initDrawing, hp]

/-- A turn within LCD.INIT's sequence, or from it to the window (R205). -/
theorem Turned.sequence (h : Turned s t) (hs : s.steady) (hp : s.initSequence = true) (hp' : t.initSequence = true) :
    t.steady := by
  obtain ⟨hdisplay, hseq⟩ := hs
  obtain ⟨hd, hv, hinit, hbusy, hhalt⟩ := h.frame
  obtain ⟨hrun, hreset, hvar, hi⟩ := (sequencerOk_sequence_iff hp).mp hseq
  have hdrawing : t.initDrawing = s.initDrawing := by rw [initDrawing_sequence hp, initDrawing_sequence hp']
  refine ⟨displayOk_iff.mpr (hdrawing ▸ h.displayOkIf hdisplay fun e => ?_),
    (sequencerOk_sequence_iff hp').mpr ⟨?_, ?_, ?_, ?_⟩⟩
  · rw [e] at hreset
    cases hreset
  · rwa [hbusy, hhalt]
  · rwa [hd]
  · rwa [hv]
  · rwa [hinit]

theorem Framed.frame (h : Framed s t) : t.inInit = s.inInit ∧ t.busyR = s.busyR ∧ t.halted = s.halted := by
  obtain ⟨-, u, x, y, ⟨hu, -⟩, rfl⟩ := h
  rw [hu]
  exact ⟨rfl, rfl, rfl⟩

theorem State.screenSet.screenOk (h : s.screenSet) : s.screenOk := by
  obtain ⟨-, hd, hvar, hwin, hdims, hrot, -⟩ := h
  exact ⟨hd, hvar, hwin, hdims, hrot⟩

/-- A turn of LCD.INIT outside its flood (R205). -/
theorem init_turn (hc : ConfigOk s.cfg) (hs : s.steady)
    (hp : s.phase = .iSeq ∨ s.phase = .iWin ∨ s.phase = .iFlood ∨ s.phase = .iEnd)
    (h : (seqStep s).outcome = .next t) : t.steady := by
  rcases hp with e | e | e | e
  · have hp : s.initSequence = true := by simp [State.initSequence, e]
    obtain ⟨-, hreset, -, -⟩ := (sequencerOk_sequence_iff hp).mp hs.2
    simp only [seqStep, e] at h
    split at h
    next y hy =>
      obtain ⟨hturn, v, hv⟩ := Carries.turned (P := fun p => ∃ u, p = initPhase u) (runInitStep_carries hc y)
        (hs.mapped (by rw [hreset]; nofun)) h fun u => ⟨_, rfl, ⟨u, .refl u, rfl⟩, _, rfl⟩
      exact hturn.sequence hs hp (initPhase_sequence hv)
    next =>
      cases h
      exact Turned.sequence ⟨s, .refl s, rfl⟩ hs hp rfl
  · have hp : s.initSequence = true := by simp [State.initSequence, e]
    obtain ⟨hrun, hreset, hvar, hi⟩ := (sequencerOk_sequence_iff hp).mp hs.2
    have hm := hs.mapped (by rw [hreset]; nofun)
    have hdeg := not_degraded hs.1 (by rw [hreset]; nofun)
    simp only [seqStep, e] at h
    have hwin : Windows (initScreen s) (setFullWindow (initScreen s)) :=
      setWindow_windows (s := initScreen s) hc _ _ _ _
    rcases hwin.bind_outcome hvar h with hf | ⟨u, hu, h⟩
    · exact (hf.false_of_mapped hm).elim
    cases h
    obtain ⟨hinit, hbusy, hhalt⟩ := hu.frame
    have hset := hu.screenSet hm hdeg
    refine ⟨hset.drawing, (sequencerOk_screen_iff (.inl rfl)).mpr ⟨?_, hinit.trans hi, hset.screenOk⟩⟩
    exact ⟨hbusy.trans hrun.1, hhalt.trans hrun.2⟩
  · obtain ⟨hrun, hi, hscreen⟩ := (sequencerOk_screen_iff (.inl e)).mp hs.2
    have hdraw := initDrawing_screen (.inl e)
    simp only [seqStep, e] at h
    cases h
    have hdraw' : State.initDrawing { s with phase := .fCmd } = true := (initDrawing_flood rfl).trans hi
    refine ⟨displayOk_iff.mpr (hdraw' ▸ ?_), (sequencerOk_flood_iff rfl).mpr ⟨hrun, .inl hscreen.1, fun _ => hscreen⟩⟩
    exact hdraw ▸ displayOk_iff.mp hs.1
  · obtain ⟨hrun, hi, hd, hvar, hwin, hdims, hrot⟩ := (sequencerOk_screen_iff (.inr e)).mp hs.2
    have hdeg : s.degraded = false := Bool.eq_false_iff.mpr fun hg => hvar (hs.1.2.2.2.2.2 hg).2
    have hset : s.screenSet := ⟨hs.mapped (by rw [hd]; nofun), hd, hvar, hwin, hdims, hrot, hdeg⟩
    simp only [seqStep, e] at h
    cases h
    exact endOperation_steady hset.ready

/-! ### LCD.RESET -/

theorem initDrawing_reset (h : s.inReset = true) : s.initDrawing = false := by
  have hp : s.phase = .rsIdle ∨ s.phase = .rsByte ∨ s.phase = .rsPulse ∨ s.phase = .rsEnd := by
    simpa [State.inReset, or_assoc] using h
  rcases hp with hp | hp | hp | hp <;> simp [State.initDrawing, hp, Phase.ofFlood]

/-- A turn within LCD.RESET, which opens no stream (R200). -/
theorem Turned.reset (h : Turned s t) (hs : s.steady) (hp : s.inReset = true) (hp' : t.inReset = true)
    (hstream : t.streamOpen = false) (hm : t.phase = .rsPulse ∨ t.phase = .rsEnd → t.mapped = true) : t.steady := by
  obtain ⟨hdisplay, hseq⟩ := hs
  obtain ⟨hd, hv, hinit, hbusy, hhalt⟩ := h.frame
  obtain ⟨hrun, hfresh, -⟩ := (sequencerOk_reset_iff hp).mp hseq
  have hdrawing : t.initDrawing = s.initDrawing := by rw [initDrawing_reset hp, initDrawing_reset hp']
  refine ⟨displayOk_iff.mpr (hdrawing ▸ h.displayOkIf hdisplay fun _ => hstream),
    (sequencerOk_reset_iff hp').mpr ⟨?_, ?_, hm⟩⟩
  · rwa [hbusy, hhalt]
  · rwa [hd]

/-- A byte write, then another procedure (R161, R292). -/
theorem write8_bind_outcome (hc : ConfigOk s.cfg) {v : Byte} (h : ((write8 v s).bind f).outcome = .next t) :
    (s.mapped = false ∧ s.env.mapOk = false ∧ t = s.halt .map 0) ∨
      (s.mappable ∧ s.wr = s.cfg.wrIdle ∧ (f (byteState v s)).outcome = .next t) := by
  by_cases hw : s.wr = s.cfg.wrIdle
  · rcases mappable_or s with hm | ⟨hm, he⟩
    · rw [write8_ok hc hm hw] at h
      exact .inr ⟨hm, hw, h⟩
    · rw [write8_fault hw hm he] at h
      cases h
      exact .inl ⟨hm, he, rfl⟩
  · rw [write8_refused hw] at h
    cases h

/-- A pulse of the strobe with the resource mapped, then another procedure (R166). -/
theorem strobePulse_bind_outcome (hc : ConfigOk s.cfg) (hm : s.mapped = true)
    (h : ((strobePulse s).bind f).outcome = .next t) : (f (pulseState s)).outcome = .next t := by
  by_cases hw : s.wr = s.cfg.wrIdle
  · rwa [strobePulse_ok hc (.inl hm) hw] at h
  · rw [strobePulse, if_pos hw] at h
    cases h

theorem wired_byteState (hc : ConfigOk s.cfg) (hm : s.mappable) (hw : s.wr = s.cfg.wrIdle) (v : Byte) :
    Wired s (byteState v s) := by
  have hd := write8_drives hc v
  rw [write8_ok hc hm hw] at hd
  exact BusMoves.wired hd

theorem wired_pulseState (s : State) : Wired s (pulseState s) := by
  refine ⟨?_, fun _ => by rw [pulseState_frame]⟩
  conv_lhs => rw [pulseState_frame]
  rw [pulseState_frame]

theorem idleControlLines_wired (s : State) :
    Wired s (idleControlLines s) ∧ (idleControlLines s).streamOpen = s.streamOpen := by
  unfold idleControlLines
  refine ⟨?_, by simp only [State.level_streamOpen]⟩
  exact (((wired_level s _ _).trans (wired_level _ _ _)).trans (wired_level _ _ _)).trans (wired_level _ _ _)

/-- A turn of LCD.RESET (R200). -/
theorem reset_turn (hc : ConfigOk s.cfg) (hs : s.steady) (hp : s.inReset = true)
    (h : (seqStep s).outcome = .next t) : t.steady := by
  obtain ⟨hrun, hfresh, hmapped⟩ := (sequencerOk_reset_iff hp).mp hs.2
  have hstream : s.streamOpen = false := (hs.1.2.1 hfresh).2
  have hkept := displayOk_iff.mp hs.1
  rw [initDrawing_reset hp] at hkept
  have hcases : s.phase = .rsIdle ∨ s.phase = .rsByte ∨ s.phase = .rsPulse ∨ s.phase = .rsEnd := by
    simpa [State.inReset, or_assoc] using hp
  rcases hcases with e | e | e | e <;> simp only [seqStep, e] at h
  · cases h
    obtain ⟨hw, hsame⟩ := idleControlLines_wired s
    exact Turned.reset ⟨idleControlLines s, hw, rfl⟩ hs hp rfl (hsame.trans hstream) fun hp' => by
      rcases hp' with e | e <;> cases e
  · have hlines : Wired s ((s.level s.cfg.pinCS s.cfg.csActive).level s.cfg.pinCD s.cfg.cdCommand) :=
      (wired_level s _ _).trans (wired_level _ _ _)
    rcases write8_bind_outcome (hc.wired hlines) h with ⟨-, -, rfl⟩ | ⟨hm, hw, h⟩
    · exact halt_steady (hlines.displayOkIf hkept fun _ => hstream) _ _
    · cases h
      refine Turned.reset ⟨_, hlines.trans (wired_byteState (hc.wired hlines) hm hw _), rfl⟩ hs hp rfl ?_
        fun _ => byteState_mapped _ _
      refine (byteState_streamOpen (hc.wired hlines) hw _).trans ?_
      split
      · rfl
      · exact hstream
  · have h := strobePulse_bind_outcome hc (hmapped (.inl e)) h
    cases h
    have hpulse : (pulseState s).streamOpen = s.streamOpen := by rw [pulseState_frame]
    refine Turned.reset ⟨pulseState s, wired_pulseState s, rfl⟩ hs hp ?_ (hpulse.trans hstream) fun _ => ?_
    · unfold State.inReset
      dsimp only
      split <;> rfl
    · exact (wired_pulseState s).2 (hmapped (.inl e))
  · cases h
    have hdeg : s.degraded = false := not_degraded hkept (by rw [hfresh]; nofun)
    exact endOperation_steady (reset_displayOkIf (s := s.level s.cfg.pinCS s.cfg.csIdle) (hmapped (.inr e)) hdeg)

/-- Every turn of the sequencer keeps the invariants (R24). -/
theorem turn_steady (hc : ConfigOk s.cfg) (hs : s.steady) (h : (seqStep s).outcome = .next t) : t.steady := by
  cases hp : s.phase with
  | idle =>
    rw [seqStep_idle hp] at h
    cases h
    exact hs
  | fCmd | fFirstHi | fFirstLo | fBlock | fRem | fPixHi | fPixLo | fEnd =>
    exact flood_turn hc hs (by rw [hp]; rfl) h
  | pCmd | pPixHi | pPixLo | pEnd => exact push_turn hc hs (by rw [hp]; rfl) h
  | iSeq | iWin | iFlood | iEnd => exact init_turn hc hs (by simp [hp]) h
  | rsIdle | rsByte | rsPulse | rsEnd => exact reset_turn hc hs (by simp [State.inReset, hp]) h

/-! ## The invariant of the display: a step -/

theorem CommandMove.phase (h : CommandMove s t) (hs : s.phase = .idle) : t.phase = .idle := by
  cases h with
  | display hm =>
    rw [hm.frame]
    exact hs
  | mapFault | pinFault | panFault => rfl
  | acquire | output | record | tick => exact hs
  | emission hlt =>
    rw [emitSample_frame]
    exact hs

/-- An idle display with the invariant of `IDLE` (R24). -/
theorem steady_of_idle (hp : s.phase = .idle) (hs : s.displayOkIf false) : s.steady :=
  ⟨displayOk_iff.mpr (initDrawing_of_idle hp ▸ hs), sequencerOk_of_idle hp⟩

theorem State.steady.idle (hs : s.steady) (hp : s.phase = .idle) : s.displayOkIf false :=
  initDrawing_of_idle hp ▸ displayOk_iff.mp hs.1

/-- Freeing context R in a phase other than `IDLE` writes nothing, and in `IDLE` its busy flag (R23). -/
theorem finish_steady (hs : s.steady) : (s.finish .R).steady := by
  by_cases hp : s.phase = .idle
  · rw [State.finish, if_pos hp]
    exact steady_of_idle (s := s.setBusy .R false) hp (hs.idle hp)
  · rw [State.finish, if_neg hp]
    exact hs

/-- A command of context R is accepted (R101): context R was free and is busy, the display as it was. -/
theorem accept_R_facts {words : List Word} (hd : decode words = .command i) (s : State) :
    ∃ r, s.accept .R words = r ∧ r.busyR = true ∧ r.phase = s.phase ∧ r.halted = s.halted ∧ r.cfg = s.cfg ∧
      opcodeOf r.cmdw = opcodeByte i ∧ ∀ b, s.displayOkIf b → r.displayOkIf b := by
  cases words with
  | nil => cases hd
  | cons w0 ext =>
    refine ⟨_, rfl, ?_⟩
    rw [accept_eq]
    exact ⟨rfl, rfl, rfl, rfl, (opcodeByte_of_decodeFields hd).symm, fun _ h => h⟩

/-- Beginning a command of context R from `IDLE` keeps the invariants (R24). -/
theorem start_steady (hc : ConfigOk s.cfg) (hs : s.displayOkIf false) (hp : s.phase = .idle) (hbusy : s.busyR = true)
    (hop : opcodeOf s.cmdw = opcodeByte i) (h : startExec i s = .next t) : t.steady := by
  rcases start_cases h with hx | ⟨hrun, ⟨color, len, rfl, hcheck, rfl⟩ | ⟨buffer, count, first, rfl, hcheck, rfl⟩ |
    ⟨rfl, hcheck, rfl⟩ | ⟨id, rfl, hcheck, ⟨-, rfl⟩ | ⟨f, r, -, hr, rfl⟩⟩⟩
  · exact steady_of_idle ((exec_move hc hx).phase hp) (exec_displayOkIf hc hs hx)
  · have hi : s.inInit = false := decide_eq_false (hop ▸ (by decide : (0x14 : Byte) ≠ 0x19))
    obtain ⟨-, hdraw, -⟩ := floodCheck_eq_none.mp hcheck
    refine ⟨?_, (sequencerOk_flood_iff rfl).mpr ⟨⟨hbusy, hrun⟩, hdraw, fun e => ?_⟩⟩
    · have hdraw' : State.initDrawing { s with held := s.opr0, phase := .fCmd } = false :=
        (initDrawing_flood rfl).trans hi
      exact displayOk_iff.mpr (hdraw' ▸ hs)
    · exact absurd (hi.symm.trans e) nofun
  · obtain ⟨-, hdraw, -⟩ := pushCheck_eq_none.mp hcheck
    exact ⟨displayOk_iff.mpr ((initDrawing_push rfl :
      State.initDrawing { s with held := s.opr0, puIdx := 0, phase := .pCmd } = false) ▸ hs),
      (sequencerOk_push_iff rfl).mpr ⟨⟨hbusy, hrun⟩, hdraw⟩⟩
  · obtain ⟨-, hfresh⟩ := resetCheck_eq_none.mp hcheck
    exact ⟨displayOk_iff.mpr ((initDrawing_reset rfl : State.initDrawing { s with phase := .rsIdle } = false) ▸ hs),
      (sequencerOk_reset_iff rfl).mpr ⟨⟨hbusy, hrun⟩, hfresh, fun e => by rcases e with e | e <;> cases e⟩⟩
  · obtain ⟨-, hreset⟩ := initCheck_eq_none.mp hcheck
    exact steady_of_idle hp (initUnknown_displayOkIf hs hreset)
  · obtain ⟨-, hreset⟩ := initCheck_eq_none.mp hcheck
    have hseq := initPhase_sequence (s := r) (u := { r with phase := initPhase r }) rfl
    have hfacts : r.displayOkIf false ∧ r.busyR = true ∧ r.halted = false ∧ r.dstate = .reset ∧ r.variant ≠ .unknown ∧
        r.inInit = true := by
      rw [hr]
      exact ⟨recognised_displayOkIf hs hreset, hbusy, hrun, hreset, nofun, decide_eq_true hop⟩
    obtain ⟨hdr, hbr, hrr, hresetr, hvr, hir⟩ := hfacts
    exact ⟨displayOk_iff.mpr (initDrawing_sequence hseq ▸ hdr),
      (sequencerOk_sequence_iff hseq).mpr ⟨⟨hbr, hrr⟩, hresetr, hvr, hir⟩⟩

/-- A command of context A leaves the display and context R as they are (R311); `CMDW` only in `IDLE` (R21). -/
theorem contextA_steady {words : List Word} (hd : decode words = .command i) (hctx : contextOf i = .A)
    (hs : s.steady) (h : exec i (s.accept .A words) = .next t) : ((t.finish .A).resume s .A).steady := by
  have hframe := (contextA_frame hctx h).2
  rw [resume_frame, (finish_frame t).1, hframe]
  cases words with
  | nil => cases hd
  | cons w0 ext =>
    rw [accept_eq]
    by_cases hp : s.phase = .idle
    · exact steady_of_idle hp (hs.idle hp)
    · have hocc : s.occupied .R = true := by simp [State.occupied, hp]
      simp only [hocc]
      exact hs

/-- Settles O54: a turn of the sequencer by its phase, a command of context R from `IDLE`, one of context A around the
operation in execution. -/
theorem stepKeepsDisplay : Obligations.StepKeepsDisplay := by
  intro s t hdisplay hseq h
  have hs : s.steady := ⟨hdisplay, hseq⟩
  obtain ⟨-, hc, ⟨-, hx⟩ | ⟨x, rest, -, ⟨-, hx⟩ | ⟨ctx, words, i, v, -, hd, hctx, hfree, hexe, rfl⟩ | ⟨now, -, -, rfl⟩ |
    ⟨a, v, -, -, rfl⟩⟩⟩ := step_cases h
  · exact turn_steady hc hs hx
  · exact turn_steady (s := { s with port := rest }) hc hs hx
  · have hs' : State.steady { s with port := rest } := hs
    cases ctx with
    | A =>
      have hx : exec i (State.accept { s with port := rest } .A words) = .next v := by
        rcases hexe with ⟨-, hx⟩ | ⟨-, hx⟩
        · exact hx
        · rwa [startExec_of_contextA hctx] at hx
      exact contextA_steady hd hctx hs' hx
    | R =>
      have hidle : s.phase = .idle := by
        by_contra hp
        simp [State.occupied, hp] at hfree
      obtain ⟨r, hr, hbusy, hphase, -, hcfg, hop, hkept⟩ := accept_R_facts hd { s with port := rest }
      rw [hr] at hexe
      have hcr : ConfigOk r.cfg := hcfg ▸ hc
      have hpr : r.phase = .idle := hphase.trans hidle
      have hdr := hkept false (hs'.idle hidle)
      rw [State.resume_R]
      refine finish_steady ?_
      rcases hexe with ⟨-, hx⟩ | ⟨-, hx⟩
      · exact steady_of_idle ((exec_move hcr hx).phase hpr) (exec_displayOkIf hcr hdr hx)
      · exact start_steady hcr hdr hpr hbusy hop hx
  · exact hs
  · exact hs

end Sys2Proof.Machine
end


section
/-! PROOFS. What the protocol and controller commands do where they run (R164 to R169, R170, R180, R200, R205, R215):
each is its checks and then the procedure that Laws/Protocol.lean and Laws/Controller.lean give exactly. -/

namespace Sys2Proof.Machine

variable {s t u : State} {m b : Bool} {ev : List Event} {l₁ l₂ : Level} {d : Byte} {xs : List Transfer} {f : Family}

/-! ## Commands past their checks -/

theorem run_checked {check : State → Option Refusal} {body : State → Result} (hrun : s.halted = false)
    (hcheck : check s = none) (hbody : body s = .ok t) :
    s.run (fun s => afterCheck (check s) (body s)) = .next t := by
  rw [run_of_not_halted hrun, hcheck, afterCheck_none, hbody, Result.outcome_ok]

theorem run_refused {check : State → Option Refusal} {body : State → Result} {r : Refusal} (hrun : s.halted = false)
    (hcheck : check s = some r) : s.run (fun s => afterCheck (check s) (body s)) = .refused r := by
  rw [run_of_not_halted hrun, hcheck, afterCheck_some, Result.outcome_refuse]

/-! ## Bytes, words and registers -/

section
variable (hb : s.busReady) (hp : s.pinsReady = true) (hd : s.dstate ≠ .uninitialized)
include hb hp hd

theorem execLcdWr8_did (v : Byte) :
    ∃ t, exec (.lcdWr8 v) s = .next t ∧
      s.did t true (mapEvents s ++ byteEvents s.cfg v) (streamAfter s) s.cs s.cd v (xferOf s.cfg s.cs s.cd v) := by
  obtain ⟨hrun, hc, hm, hw⟩ := hb
  obtain ⟨t, heq, hdid⟩ := write8_did hc hm hw v
  exact ⟨t, run_checked (check := protocolCheck) (body := write8 v) hrun (protocolCheck_eq_none.mpr ⟨hp, hd⟩) heq, hdid⟩

theorem execLcdWr16_did (v : Half) :
    ∃ t, exec (.lcdWr16 v) s = .next t ∧
      s.did t true (mapEvents s ++ halfEvents s.cfg v) (streamAfter s) s.cs s.cd (loByte v)
        (xferOf s.cfg s.cs s.cd (hiByte v) ++ xferOf s.cfg s.cs s.cd (loByte v)) := by
  obtain ⟨hrun, hc, hm, hw⟩ := hb
  obtain ⟨t, heq, hdid⟩ := write16_did hc hm hw v
  exact ⟨t, run_checked (check := protocolCheck) (body := write16 v) hrun (protocolCheck_eq_none.mpr ⟨hp, hd⟩) heq,
    hdid⟩

theorem execLcdWreg32_did (reg : Byte) (value : Word) :
    ∃ t, exec (.lcdWreg32 reg value) s = .next t ∧
      s.did t true (regEvents s.cfg (mapEvents s) reg (wordBytes value)) false s.cfg.csIdle s.cfg.cdData
        (value.extractLsb' 0 8) (regTransfers reg (wordBytes value)) := by
  obtain ⟨hrun, hc, hm, hw⟩ := hb
  obtain ⟨t, heq, hdid⟩ := regWrite_did hc hm hw reg (wordBytes value)
  exact ⟨t, run_checked (check := protocolCheck) (body := regWrite reg (wordBytes value)) hrun
    (protocolCheck_eq_none.mpr ⟨hp, hd⟩) heq, hdid⟩

end

/-- Settles O19. -/
theorem byteAndWordCommands : Obligations.ByteAndWordCommands := by
  intro s hb hp hd
  refine ⟨execLcdWr8_did hb hp hd, fun v => ?_⟩
  obtain ⟨t, heq, hdid⟩ := execLcdWr16_did hb hp hd v
  rw [halfEvents, ← List.append_assoc] at hdid
  exact ⟨t, heq, hdid⟩

/-- Settles O20: the events of the register write, byte by byte. -/
theorem registerWriteCommand : Obligations.RegisterWriteCommand := by
  intro s reg value hb hp hd
  obtain ⟨t, heq, hdid⟩ := execLcdWreg32_did hb hp hd reg value
  refine ⟨t, heq, ?_⟩
  simpa only [regEvents, bytesEvents, wordBytes, regTransfers, dataTransfers, List.map_cons, List.map_nil,
    List.flatMap_cons, List.flatMap_nil, List.append_nil, List.append_assoc] using hdid

/-! ## The window -/

/-- The packing of R120 puts the first coordinate above the second. -/
theorem packPair_eq (hi lo : Half) : packPair hi lo = (hi.setWidth 32 <<< 16) ||| lo.setWidth 32 := by
  refine BitVec.eq_of_getLsbD_eq fun j hj => ?_
  rw [packPair, BitVec.getLsbD_append, BitVec.getLsbD_or, BitVec.getLsbD_shiftLeft]
  by_cases h : j < 16
  · simp [h, hj]
  · have hlo : lo.getLsbD j = false := BitVec.getLsbD_of_ge _ _ (by omega)
    have hj16 : j - 16 < 32 := by omega
    simp [h, hj, hlo, hj16]

theorem execLcdSetwin_did (hb : s.busReady) (hp : s.pinsReady = true)
    (hd : s.dstate = .initialized ∨ s.dstate = .ready) (hv : s.variant = .family f) {x1 y1 x2 y2 : Half}
    (hx : x1.toNat ≤ x2.toNat) (hy : y1.toNat ≤ y2.toNat) :
    ∃ t, exec (.lcdSetwin x1 y1 x2 y2) s =
        .next { t with winx := packPair x1 x2, winy := packPair y1 y2, winValid := true } ∧
      s.did t true (windowEvents s.cfg (mapEvents s) f (packPair x1 x2) (packPair y1 y2)) false s.cfg.csIdle
        s.cfg.cdData (loByte y2) (windowTransfers s.cfg f (packPair x1 x2) (packPair y1 y2)) := by
  obtain ⟨hrun, hc, hm, hw⟩ := hb
  obtain ⟨t, heq, hdid⟩ := setWindow_did hc hm hw hv x1 y1 x2 y2
  exact ⟨t, run_checked (check := windowCheck x1 y1 x2 y2) (body := setWindow x1 y1 x2 y2) hrun
    (windowCheck_eq_none.mpr ⟨hp, hd, hx, hy⟩) heq, hdid⟩

/-- Settles O21. -/
theorem windowCommand : Obligations.WindowCommand := by
  intro s f x1 y1 x2 y2 hb hp hd hv hx hy
  obtain ⟨t, heq, hdid⟩ := execLcdSetwin_did hb hp hd hv hx hy
  exact ⟨t, packPair x1 x2, packPair y1 y2, packPair_eq x1 x2, packPair_eq y1 y2, heq, hdid⟩

/-- Settles O22. -/
theorem floodResult : Obligations.FloodResult := fun _ _ _ hb hp hd hv hl => execLcdFlood_did hb hp hd hv hl

/-! ## The pixel stream -/

theorem pixelsAt_succ (s : State) (a n : Nat) : pixelsAt s a (n + 1) = s.readPix a :: pixelsAt s (a + 1) n := by
  simp only [pixelsAt, List.range_succ_eq_map, List.map_cons, List.map_map, Nat.add_zero]
  congr 1
  refine List.map_congr_left fun i _ => ?_
  rw [Function.comp_apply, Nat.succ_eq_add_one, Nat.add_assoc, Nat.add_comm 1]

theorem pixelsAt_congr (h : t.env = s.env) (a n : Nat) : pixelsAt t a n = pixelsAt s a n := by
  simp only [pixelsAt, State.readPix, h]

theorem pixelsAt_add (s : State) (a n k : Nat) : pixelsAt s a (n + k) = pixelsAt s a n ++ pixelsAt s (a + n) k := by
  induction n generalizing a with
  | zero => rw [Nat.zero_add, Nat.add_zero]; rfl
  | succ n ih => rw [Nat.succ_add, pixelsAt_succ, pixelsAt_succ, ih, List.cons_append, Nat.succ_add_eq_add_succ a n]

/-- The event of the mapping that a list of pixels makes with its first byte (R146). -/
def streamMapping (s : State) (pixels : List Half) : List Event := if pixels = [] then [] else mapEvents s

/-- The pixels of LCD.PUSH at data level, the resource mapped or mappable (R180): the first of them maps it. -/
theorem pushPixels_stream_did (a n : Nat) (hc : ConfigOk s.cfg) (h : s.mappable) (hw : s.wr = s.cfg.wrIdle)
    (hd : s.cd = s.cfg.cdData) :
    ∃ t, pushPixels a n s = .ok t ∧
      s.did t (s.mapped || decide (0 < n))
        (streamMapping s (pixelsAt s a n) ++ (pixelsAt s a n).flatMap (halfEvents s.cfg)) s.streamOpen s.cs s.cd
        (((pixelsAt s a n).map loByte).getLastD s.dbus)
        ((pixelsAt s a n).flatMap fun v => xferOf s.cfg s.cs s.cd (hiByte v) ++ xferOf s.cfg s.cs s.cd (loByte v)) := by
  cases n with
  | zero =>
    have hdid := State.did.refl s
    rw [← Bool.or_false s.mapped] at hdid
    exact ⟨s, rfl, hdid⟩
  | succ n =>
    obtain ⟨t, heq, h1⟩ := write16_did hc h hw (s.readPix a)
    rw [streamAfter_data hc hd] at h1
    obtain ⟨u, heq', h2⟩ := pushPixels_did (s := t) (a + 1) n (h1.configOk hc) h1.mapped (h1.idle hw)
      (by rw [h1.cd, h1.cfg, hd])
    refine ⟨u, by rw [pushPixels, heq, Result.ok_bind, heq'], ?_⟩
    have h3 := h1.trans h2
    rw [h1.cfg, h1.cs, h1.cd, h1.dbus, h1.streamOpen, pixelsAt_congr h1.env] at h3
    rw [pixelsAt_succ]
    simpa [streamMapping, List.getLast?_cons] using h3

/-- LCD.PUSH from the data level on (R180): its pixels, then chip-select idle. -/
theorem pushTail_did (h : s.did u m ev true s.cfg.csActive s.cfg.cdData d xs) (hc : ConfigOk s.cfg)
    (hm : u.mappable) (hw : s.wr = s.cfg.wrIdle) (a n : Nat) :
    ∃ t, ((pushPixels a n u).bind fun s2 => .ok (s2.level s2.cfg.pinCS s2.cfg.csIdle)) = .ok t ∧
      s.did t (m || decide (0 < n))
        (ev ++ streamMapping u (pixelsAt s a n) ++ (pixelsAt s a n).flatMap (halfEvents s.cfg) ++
          [.lv s.cfg.pinCS s.cfg.csIdle]) true s.cfg.csIdle s.cfg.cdData
        (((pixelsAt s a n).map loByte).getLastD d) (xs ++ (pixelsAt s a n).flatMap pixelTransfers) := by
  have hcd : u.cd = u.cfg.cdData := by rw [h.cd, h.cfg]
  obtain ⟨v, heq, h1⟩ := pushPixels_stream_did a n (h.configOk hc) hm (h.idle hw) hcd
  have h2 := h.trans h1
  have h3 := h2.trans (level_cs_did h2.cfg hc s.cfg.csIdle)
  refine ⟨v.level s.cfg.pinCS s.cfg.csIdle, by rw [heq, Result.ok_bind, h2.cfg], ?_⟩
  have hpixel : ∀ p : Half, xferOf s.cfg s.cfg.csActive s.cfg.cdData (hiByte p) ++
      xferOf s.cfg s.cfg.csActive s.cfg.cdData (loByte p) = pixelTransfers p := fun p => by
    rw [xferOf_data hc, xferOf_data hc]
    rfl
  rw [h2.mapped, h2.streamOpen, h2.cd, h2.dbus, h.cfg, h.mapped, h.streamOpen, h.cs, h.cd, h.dbus,
    pixelsAt_congr h.env] at h3
  simp only [hpixel] at h3
  simpa only [List.append_assoc, List.append_nil] using h3

/-- LCD.PUSH accepted on a ready bus (R180). -/
theorem execLcdPush_did {buffer count : Word} {first : Bool} (hb : s.busReady) (hp : s.pinsReady = true)
    (hd : s.dstate = .initialized ∨ s.dstate = .ready)
    (hfirst : first = true → s.variant = .unknown ∨ s.winValid = true)
    (hnext : first = false → s.streamOpen = true) :
    ∃ t, exec (.lcdPush buffer count first) s = .next t ∧
      s.did t (s.mapped || first || decide (0 < count.toNat))
        (pushEvents s.cfg (mapEvents s) (memWriteOp s) first (pixelsAt s buffer.toNat count.toNat)) true s.cfg.csIdle
        s.cfg.cdData
        (((pixelsAt s buffer.toNat count.toNat).map loByte).getLastD (if first then memWriteOp s else s.dbus))
        ((if first then [(⟨.command, memWriteOp s⟩ : Transfer)] else []) ++
          (pixelsAt s buffer.toNat count.toNat).flatMap pixelTransfers) := by
  obtain ⟨hrun, hc, hm, hw⟩ := hb
  have hcheck : pushCheck first s = none := pushCheck_eq_none.mpr ⟨hp, hd, hfirst, hnext⟩
  cases first with
  | true =>
    obtain ⟨v, heq, h1⟩ := openData_did hc hm hw
    obtain ⟨t, heq', h2⟩ := pushTail_did h1 hc (.inl h1.mapped) hw buffer.toNat count.toNat
    refine ⟨t, run_checked (check := pushCheck true) (body := pushBody buffer count true) hrun hcheck ?_, ?_⟩
    · rw [pushBody, if_pos rfl, heq, Result.ok_bind, heq']
    · rw [streamMapping, mapEvents_of_mapped h1.mapped, ite_self, List.append_nil] at h2
      rw [Bool.or_true]
      exact h2
  | false =>
    have h0 := level_cs_did rfl hc s.cfg.csActive
    have h1 := h0.trans (level_cd_did h0.cfg hc s.cfg.cdData)
    rw [h0.mapped, h0.streamOpen, h0.cs, h0.dbus, hnext rfl] at h1
    have hmu : State.mappable ((s.level s.cfg.pinCS s.cfg.csActive).level s.cfg.pinCD s.cfg.cdData) := hm
    obtain ⟨t, heq, h2⟩ := pushTail_did h1 hc hmu hw buffer.toNat count.toNat
    refine ⟨t, run_checked (check := pushCheck false) (body := pushBody buffer count false) hrun hcheck heq, ?_⟩
    rw [Bool.or_false]
    exact h2

/-- Settles O26. -/
theorem pushResult : Obligations.PushResult := by
  intro s buffer count first hb hp hd hfirst hnext
  obtain ⟨t, heq, hdid⟩ := execLcdPush_did hb hp hd hfirst hnext
  exact ⟨t, _, heq, rfl, hdid⟩

theorem State.did.stream_frame (h : s.did t m ev b l₁ l₂ d xs) :
    t.halted = s.halted ∧ t.dstate = s.dstate ∧ t.variant = s.variant ∧ t.winValid = s.winValid ∧
      t.pinsReady = s.pinsReady := by
  refine ⟨?_, ?_, ?_, ?_, pinsReady_congr h.cfg ?_ ?_⟩ <;> rw [h.1.1]

theorem toNat_add_of_lt {x y : Word} (h : x.toNat + y.toNat < 4294967296) : (x + y).toNat = x.toNat + y.toNat := by
  rw [BitVec.toNat_add]
  exact Nat.mod_eq_of_lt h

/-- Settles O27: the second chunk adds its pixels, the command byte is in the first. -/
theorem pushChunks : Obligations.PushChunks := by
  intro s buffer n k hb hp hsync hd hv hbn hnk
  obtain ⟨hrun, hc, hm, hw⟩ := id hb
  obtain ⟨t, ht, hdid⟩ := execLcdPush_did (buffer := buffer) (count := n) (first := true) hb hp hd (fun _ => hv) nofun
  obtain ⟨hhalt, hdstate, -, -, hpins⟩ := hdid.stream_frame
  have hmapped : t.mapped = true := by rw [hdid.mapped, Bool.or_true, Bool.true_or]
  have hbt : t.busReady := ⟨hhalt.trans hrun, hdid.configOk hc, .inl hmapped, hdid.idle hw⟩
  obtain ⟨u, hu, hdid'⟩ := execLcdPush_did (buffer := buffer + n) (count := k) (first := false) hbt (hpins.trans hp)
    (hdstate ▸ hd) nofun fun _ => hdid.streamOpen
  obtain ⟨w, hw', hdid''⟩ := execLcdPush_did (buffer := buffer) (count := n + k) (first := true) hb hp hd (fun _ => hv)
    nofun
  obtain ⟨htsync, htbus⟩ := hdid.2 hsync
  obtain ⟨husync, hubus⟩ := hdid'.2 htsync
  obtain ⟨hwsync, hwbus⟩ := hdid''.2 hsync
  refine ⟨t, u, w, ht, hu, hw', husync.1, hwsync.1, ?_⟩
  rw [hubus, htbus, hwbus, pixelsAt_congr hdid.env, toNat_add_of_lt hbn, toNat_add_of_lt hnk, pixelsAt_add,
    List.flatMap_append]
  simp only [if_true, Bool.false_eq_true, if_false, List.nil_append, List.append_assoc]

/-! ## LCD.RESET -/

/-- Settles O33. -/
theorem resetCommand : Obligations.ResetCommand := by
  intro s hrun hc hm hp hd
  obtain ⟨t, heq, hframe, hwr, hrd, hcs, hcd, hdbus, hother, hbus⟩ := reset_result hc hm
  refine ⟨{ t with winValid := false, streamOpen := false, dstate := .reset },
    run_checked (check := resetCheck) (body := resetBody) hrun (resetCheck_eq_none.mpr ⟨hp, hd⟩) heq, ?_, hcs, hwr, hrd,
    hcd, hdbus, hother, fun hb => (hbus hb).congr rfl rfl fun _ => rfl⟩
  rw [hframe]
  simp only [resetEvents, List.append_assoc]

/-! ## LCD.INIT -/

/-- Settles O34. -/
theorem initCommand : Obligations.InitCommand := by
  intro s id f hb hm hp hd hid
  have hclass := classify_of_listed hb.2.1 hid
  obtain ⟨t, heq, hdid⟩ := execLcdInit_did hb hm hp hd hclass
  exact ⟨t, _, _, hclass, rfl, rfl, heq, hdid⟩

/-! ## LCD.SETROT -/

/-- The width after a rotation (R38). -/
def rotatedW (c : Config) (r : Nat) : Nat := if swapsAxes (BitVec.ofNat 2 r) then c.nativeH else c.nativeW

/-- The height after a rotation (R38). -/
def rotatedH (c : Config) (r : Nat) : Nat := if swapsAxes (BitVec.ofNat 2 r) then c.nativeW else c.nativeH

theorem rotated_eq {r : Nat} (hr : r < 4) (c : Config) :
    (rotatedW c r = if r = 0 ∨ r = 2 then c.nativeW else c.nativeH) ∧
      rotatedH c r = if r = 0 ∨ r = 2 then c.nativeH else c.nativeW := by
  rcases (by omega : r = 0 ∨ r = 1 ∨ r = 2 ∨ r = 3) with rfl | rfl | rfl | rfl <;> exact ⟨rfl, rfl⟩

theorem rotated_bounds {c : Config} (hc : ConfigOk c) (r : Nat) :
    (1 ≤ rotatedW c r ∧ rotatedW c r ≤ 65536) ∧ 1 ≤ rotatedH c r ∧ rotatedH c r ≤ 65536 := by
  obtain ⟨hW1, hW, hH1, hH, -⟩ := hc.panelOk
  unfold rotatedW rotatedH
  split
  · exact ⟨⟨hH1, hH⟩, hW1, hW⟩
  · exact ⟨⟨hW1, hW⟩, hH1, hH⟩

theorem rotationByte_getElem {r : Nat} (hr : r < 4) (tab : RotationTable) :
    [tab.r0, tab.r1, tab.r2, tab.r3][r]? = some (rotationByte tab (BitVec.ofNat 2 r)) := by
  rcases (by omega : r = 0 ∨ r = 1 ∨ r = 2 ∨ r = 3) with rfl | rfl | rfl | rfl <;> rfl

/-- The whole screen as the window (R120): the upper coordinates are one less than the dimensions. -/
theorem fullWindow_did (hc : ConfigOk s.cfg) (hm : s.mapped = true) (hw : s.wr = s.cfg.wrIdle)
    (hv : s.variant = .family f) {w h : Nat} (hW : s.curW = BitVec.ofNat 17 w) (hH : s.curH = BitVec.ofNat 17 h)
    (hw0 : w ≤ 65536) (hh0 : h ≤ 65536) (hw1 : 1 ≤ w) (hh1 : 1 ≤ h) :
    ∃ t, setFullWindow s =
        .ok { t with winx := BitVec.ofNat 32 (w - 1), winy := BitVec.ofNat 32 (h - 1), winValid := true } ∧
      s.did t true (windowEvents s.cfg [] f (BitVec.ofNat 32 (w - 1)) (BitVec.ofNat 32 (h - 1))) false s.cfg.csIdle
        s.cfg.cdData (BitVec.ofNat 8 (h - 1))
        (windowTransfers s.cfg f (BitVec.ofNat 32 (w - 1)) (BitVec.ofNat 32 (h - 1))) := by
  obtain ⟨t, heq, hdid⟩ := setWindow_did hc (.inl hm) hw hv 0 0 (BitVec.ofNat 16 (w - 1)) (BitVec.ofNat 16 (h - 1))
  rw [packPair_zero (by omega), packPair_zero (by omega)] at heq hdid
  rw [mapEvents_of_mapped hm] at hdid
  have hnat : ∀ {n : Nat}, n ≤ 65536 → (BitVec.ofNat 17 n).toNat = n := fun hn => by
    rw [BitVec.toNat_ofNat]
    omega
  have hlow : loByte (BitVec.ofNat 16 (h - 1)) = BitVec.ofNat 8 (h - 1) := by
    refine BitVec.eq_of_toNat_eq ?_
    simp only [loByte, BitVec.extractLsb'_toNat, BitVec.toNat_ofNat, Nat.shiftRight_zero]
    omega
  refine ⟨t, ?_, hlow ▸ hdid⟩
  rw [setFullWindow, hW, hH, hnat hw0, hnat hh0, heq]

theorem rotationTable_eq {tab : RotationTable} (h : (f = .A ∧ tab = s.cfg.rotA) ∨ (f = .B ∧ tab = s.cfg.rotB)) :
    rotationTable s.cfg f = some tab := by
  rcases h with ⟨rfl, rfl⟩ | ⟨rfl, rfl⟩ <;> rfl

/-- The display registers after LCD.SETROT (R215). -/
def rotatedDisplay (s : State) (r : Nat) : Display :=
  { s.display with
    rot := BitVec.ofNat 2 r
    curW := BitVec.ofNat 17 (rotatedW s.cfg r)
    curH := BitVec.ofNat 17 (rotatedH s.cfg r)
    winx := BitVec.ofNat 32 (rotatedW s.cfg r - 1)
    winy := BitVec.ofNat 32 (rotatedH s.cfg r - 1)
    winValid := true }

/-- LCD.SETROT in a family with a rotation table (R215): the control value, then the whole screen as the window. -/
theorem execLcdSetrot_did {tab : RotationTable} (hb : s.busReady) (hm : s.mapped = true) (hp : s.pinsReady = true)
    (hd : s.dstate = .ready) (hv : s.variant = .family f) (htab : rotationTable s.cfg f = some tab) (r : Nat) :
    ∃ t, exec (.lcdSetrot r) s = .next (t.withDisplay (rotatedDisplay s r)) ∧
      s.did t true
        (regEvents s.cfg [] (familyTable s.cfg f).madctl [rotationByte tab (BitVec.ofNat 2 r)] ++
          windowEvents s.cfg [] f (BitVec.ofNat 32 (rotatedW s.cfg r - 1)) (BitVec.ofNat 32 (rotatedH s.cfg r - 1)))
        false s.cfg.csIdle s.cfg.cdData (BitVec.ofNat 8 (rotatedH s.cfg r - 1))
        (regTransfers (familyTable s.cfg f).madctl [rotationByte tab (BitVec.ofNat 2 r)] ++
          windowTransfers s.cfg f (BitVec.ofNat 32 (rotatedW s.cfg r - 1))
            (BitVec.ofNat 32 (rotatedH s.cfg r - 1))) := by
  obtain ⟨hrun, hc, hmap, hw⟩ := hb
  obtain ⟨⟨hw1, hw2⟩, hh1, hh2⟩ := rotated_bounds hc r
  obtain ⟨t1, heq1, hdid1⟩ := regWrite_did hc hmap hw (familyTable s.cfg f).madctl
    [rotationByte tab (BitVec.ofNat 2 r)]
  rw [mapEvents_of_mapped hm] at hdid1
  have hcfg : t1.cfg = s.cfg := hdid1.cfg
  have hrot : (t1.setRotation (BitVec.ofNat 2 r)).display =
      { s.display with
        rot := BitVec.ofNat 2 r
        curW := BitVec.ofNat 17 (rotatedW s.cfg r)
        curH := BitVec.ofNat 17 (rotatedH s.cfg r) } := by
    rw [← hdid1.display, ← hcfg]
    rfl
  obtain ⟨t2, heq2, hdid2⟩ := fullWindow_did (s := t1.setRotation (BitVec.ofNat 2 r)) (hdid1.configOk hc) hdid1.mapped
    (hdid1.idle hw) ((congrArg Display.variant hrot).trans hv) (congrArg Display.curW hrot)
    (congrArg Display.curH hrot) hw2 hh2 hw1 hh1
  have hdid := (hdid1.withDisplay s.display).trans (hdid2.withDisplay s.display)
  rw [State.setRotation_cfg, hcfg] at hdid
  refine ⟨t2.withDisplay s.display, run_checked (check := rotationCheck) (body := rotationRun r) hrun
    (rotationCheck_eq_none.mpr ⟨hp, .inl hd⟩) ?_, hdid⟩
  simp only [rotationRun, hv, htab, rotationBody, heq1, Result.ok_bind, heq2]
  have hfull : ∀ x y, ({ t2 with winx := x, winy := y, winValid := true } : State) =
      t2.withDisplay { t2.display with winx := x, winy := y, winValid := true } := fun _ _ => rfl
  rw [hfull, hdid2.display.trans hrot]
  rfl

/-- Settles O36. -/
theorem rotationCommand : Obligations.RotationCommand := by
  intro s f tab r hb hm hp hd hv htab hr
  obtain ⟨hW, hH⟩ := rotated_eq hr s.cfg
  obtain ⟨t, heq, hdid⟩ := execLcdSetrot_did hb hm hp hd hv (rotationTable_eq htab) r
  have hback : t.withDisplay (rotatedDisplay s r) = (t.withDisplay s.display).withDisplay (rotatedDisplay s r) := rfl
  refine ⟨t.withDisplay s.display, _, _, rotationByte tab (BitVec.ofNat 2 r), hW, hH, rotationByte_getElem hr tab, ?_,
    hdid.withDisplay s.display⟩
  rw [heq, hback]
  rfl

end Sys2Proof.Machine
end


section
/-! PROOFS. What the LCD and mixer commands refuse (R148, R169, R170, R180, R215, R226, R230, R231), the Unknown variant
(R206, R210), the only fault of an LCD command (R183, R292) and the control lines it leaves (R182). -/

namespace Sys2Proof.Machine

variable {s t u : State} {i : Instr}

/-! ## The pins and the driver state -/

theorem pinsReady_iff : s.pinsReady = true ↔ ∀ p ∈ twelvePins s.cfg, s.owned p = true ∧ s.dir p = .output := by
  simp only [State.pinsReady, List.all_eq_true, Bool.and_eq_true, decide_eq_true_eq]

section
variable (h : s.pinsReady = false)
include h

theorem protocolCheck_notReady : protocolCheck s = some .pinsNotReady := by simp [protocolCheck, h]

theorem windowCheck_notReady (x1 y1 x2 y2 : Half) : windowCheck x1 y1 x2 y2 s = some .pinsNotReady := by
  simp [windowCheck, h]

theorem floodCheck_notReady (len : Nat) : floodCheck len s = some .pinsNotReady := by simp [floodCheck, h]

theorem pushCheck_notReady (first : Bool) : pushCheck first s = some .pinsNotReady := by simp [pushCheck, h]

theorem resetCheck_notReady : resetCheck s = some .pinsNotReady := by simp [resetCheck, h]

theorem initCheck_notReady : initCheck s = some .pinsNotReady := by simp [initCheck, h]

theorem rotationCheck_notReady : rotationCheck s = some .pinsNotReady := by simp [rotationCheck, h]

end

/-- An LCD command without its pins set up is refused (R148). -/
theorem exec_notReady (hrun : s.halted = false) (h : s.pinsReady = false) (hi : drivesBus i = true ∨ i = .lcdReset) :
    exec i s = .refused .pinsNotReady := by
  cases i with
  | gpioInit | gpioDirout | gpioWrlvl | gpioFset | gpioFclr | mixAdd | mixTick | pwmPoll =>
    rcases hi with hi | hi <;> cases hi
  | lcdWr8 v => exact run_refused (check := protocolCheck) (body := write8 v) hrun (protocolCheck_notReady h)
  | lcdWr16 v => exact run_refused (check := protocolCheck) (body := write16 v) hrun (protocolCheck_notReady h)
  | lcdWreg32 reg v =>
    exact run_refused (check := protocolCheck) (body := regWrite reg (wordBytes v)) hrun (protocolCheck_notReady h)
  | lcdSetwin x1 y1 x2 y2 =>
    exact run_refused (check := windowCheck x1 y1 x2 y2) (body := setWindow x1 y1 x2 y2) hrun
      (windowCheck_notReady h x1 y1 x2 y2)
  | lcdFlood color len =>
    exact run_refused (check := floodCheck len.toNat) (body := flood color len.toNat) hrun (floodCheck_notReady h _)
  | lcdPush buffer count first =>
    exact run_refused (check := pushCheck first) (body := pushBody buffer count first) hrun (pushCheck_notReady h first)
  | lcdReset => exact run_refused (check := resetCheck) (body := resetBody) hrun (resetCheck_notReady h)
  | lcdInit id => exact run_refused (check := initCheck) (body := initRun id) hrun (initCheck_notReady h)
  | lcdSetrot r => exact run_refused (check := rotationCheck) (body := rotationRun r) hrun (rotationCheck_notReady h)

theorem drawingState_eq_false (hi : s.dstate ≠ .initialized) (hr : s.dstate ≠ .ready) : s.drawingState = false :=
  Bool.eq_false_iff.mpr fun h => (drawingState_iff.mp h).elim hi hr

/-- Settles O29. -/
theorem lcdRefusedOutOfState : Obligations.LcdRefusedOutOfState := by
  intro s hrun
  refine ⟨?_, fun h i hi => exec_notReady hrun h hi, fun hp => ⟨fun hd => ?_, fun id hd => ?_, fun b h r w hd => ?_,
    fun x1 y1 x2 y2 color len buffer count first hi hr => ?_, fun r hr hu => ?_⟩⟩
  · simp only [pinsReady_iff, mem_twelvePins]
  · exact run_refused (check := resetCheck) (body := resetBody) hrun (by simp [resetCheck, hp, hd])
  · exact run_refused (check := initCheck) (body := initRun id) hrun (by simp [initCheck, hp, hd])
  · have hcheck : protocolCheck s = some .wrongDriverState := by simp [protocolCheck, hp, State.protocolState, hd]
    exact ⟨run_refused (check := protocolCheck) (body := write8 b) hrun hcheck,
      run_refused (check := protocolCheck) (body := write16 h) hrun hcheck,
      run_refused (check := protocolCheck) (body := regWrite r (wordBytes w)) hrun hcheck⟩
  · have hstate := drawingState_eq_false hi hr
    exact ⟨run_refused (check := windowCheck x1 y1 x2 y2) (body := setWindow x1 y1 x2 y2) hrun
        (by simp [windowCheck, hp, hstate]),
      run_refused (check := floodCheck len.toNat) (body := flood color len.toNat) hrun
        (by simp [floodCheck, hp, hstate]),
      run_refused (check := pushCheck first) (body := pushBody buffer count first) hrun
        (by simp [pushCheck, hp, hstate])⟩
  · have hstate : s.rotationState = false :=
      Bool.eq_false_iff.mpr fun h => (rotationState_iff.mp h).elim hr hu
    exact run_refused (check := rotationCheck) (body := rotationRun r) hrun (by simp [rotationCheck, hp, hstate])

/-! ## The operands -/

theorem windowReady_eq_false (hv : s.variant ≠ .unknown) (hw : s.winValid = false) : s.windowReady = false :=
  Bool.eq_false_iff.mpr fun h => (windowReady_iff.mp h).elim hv fun e => by rw [hw] at e; cases e

/-- Settles O30. -/
theorem operandRefusals : Obligations.OperandRefusals := by
  intro s hrun
  refine ⟨fun hp hd => ⟨fun x1 y1 x2 y2 hxy => ?_, fun color len buffer count hv hw => ?_, fun color hv => ?_,
    fun buffer count hs => ?_, fun r hready hv => ?_⟩, fun id volume step separation tic => ⟨fun hnone => ?_,
      fun x hx => ⟨fun hlen => ?_, fun hlen hvol => ?_⟩⟩⟩
  · exact run_refused (check := windowCheck x1 y1 x2 y2) (body := setWindow x1 y1 x2 y2) hrun
      (by simp only [windowCheck, hp, drawingState_iff.mpr hd, hxy]; rfl)
  · have hwin := windowReady_eq_false hv hw
    exact ⟨run_refused (check := floodCheck len.toNat) (body := flood color len.toNat) hrun
        (by simp [floodCheck, hp, drawingState_iff.mpr hd, hwin]),
      run_refused (check := pushCheck true) (body := pushBody buffer count true) hrun
        (by simp [pushCheck, hp, drawingState_iff.mpr hd, hwin])⟩
  · exact run_refused (check := floodCheck (0 : Word).toNat) (body := flood color (0 : Word).toNat) hrun
      (by simp [floodCheck, hp, drawingState_iff.mpr hd, windowReady_iff.mpr hv])
  · exact run_refused (check := pushCheck false) (body := pushBody buffer count false) hrun
      (by simp [pushCheck, hp, drawingState_iff.mpr hd, hs])
  · have hcheck : rotationCheck s = none := rotationCheck_eq_none.mpr ⟨hp, .inl hready⟩
    have hbody : rotationRun r s = .refuse .rotationUndefined := by simp only [rotationRun, hv]; rfl
    show s.run (fun s => afterCheck (rotationCheck s) (rotationRun r s)) = _
    rw [run_of_not_halted hrun, hcheck, afterCheck_none, hbody, Result.outcome_refuse]
  · simp only [exec, execMixAdd, run_of_not_halted hrun, hnone, Result.outcome_refuse]
  · simp only [exec, execMixAdd, run_of_not_halted hrun, hx, hlen, Nat.zero_lt_one, if_true, Result.outcome_refuse]
  · have hlen' : ¬ x.length < 1 := Nat.not_lt.mpr hlen
    simp only [exec, execMixAdd, run_of_not_halted hrun, hx, hlen', hvol, if_false, if_true, Result.outcome_refuse]

/-! ## The Unknown variant -/

theorem classify_of_unlisted {c : Config} {id : Half} (hA : id ∉ c.idsA) (hB : id ∉ c.idsB) (hC : id ∉ c.idsC) :
    classify c id = .unknown := by
  rw [classify, if_neg hA, if_neg hB, if_neg hC]

/-- Settles O35. -/
theorem unknownVariant : Obligations.UnknownVariant := by
  intro s hrun hp
  refine ⟨fun id hd hA hB hC => ?_, fun hd hv => ⟨fun x1 y1 x2 y2 hx hy => ?_, fun r => ?_⟩⟩
  · have hclass := classify_of_unlisted hA hB hC
    exact ⟨hclass, run_checked (check := initCheck) (body := initRun id) hrun (initCheck_eq_none.mpr ⟨hp, hd⟩)
      (by simp only [initRun, hclass]; rfl)⟩
  · exact run_checked (check := windowCheck x1 y1 x2 y2) (body := setWindow x1 y1 x2 y2) hrun
      (windowCheck_eq_none.mpr ⟨hp, .inl hd, hx, hy⟩) (by simp only [setWindow, hv])
  · exact run_checked (check := rotationCheck) (body := rotationRun r) hrun
      (rotationCheck_eq_none.mpr ⟨hp, .inr ⟨hd, hv⟩⟩) (by simp only [rotationRun, hv])

/-! ## The only fault -/

theorem lcdReset_faults (hrun : s.halted = false) (hc : ConfigOk s.cfg) (hm : s.mapped = false)
    (he : s.env.mapOk = false) (hp : s.pinsReady = true) (hd : s.dstate = .uninitialized) :
    exec .lcdReset s = .next ((resetLines s).halt .map 0) := by
  show s.run (fun s => afterCheck (resetCheck s) (resetBody s)) = _
  rw [run_of_not_halted hrun, resetCheck_eq_none.mpr ⟨hp, hd⟩, afterCheck_none, reset_fault hc hm he,
    Result.outcome_stop]

/-- Settles O28: an unmapped resource leaves slow writes and delays alone; the halt is the last event. -/
theorem lcdFaultsOnlyMap : Obligations.LcdFaultsOnlyMap := by
  intro s hrun hc
  refine ⟨fun i t hi h hhalt => ?_, fun hm he hp hd => ?_⟩
  · obtain ⟨-, hmoves | ⟨u, hmoves, hmu, heu, rfl⟩⟩ := exec_lcd hi hc h
    · rw [hmoves.halted, hrun] at hhalt
      cases hhalt
    · have hm : s.mapped = false := Bool.eq_false_iff.mpr fun e => by
        rw [hmoves.mapped e] at hmu
        cases hmu
      obtain ⟨pre, hpre, hslow⟩ := hmoves.unmapped hmu
      exact ⟨hm, hmoves.env ▸ heu, rfl, rfl, hmu, pre, by rw [State.halt_evt, hpre]; rfl, hslow⟩
  · have hevt : (resetLines s).evt = s.evt ++
        [.lv s.cfg.pinCS s.cfg.csIdle, .lv s.cfg.pinCD s.cfg.cdData, .lv s.cfg.pinWR s.cfg.wrIdle,
         .lv s.cfg.pinRD s.cfg.rdIdle, .lv s.cfg.pinCS s.cfg.csActive, .lv s.cfg.pinCD s.cfg.cdCommand] := by
      rw [resetLines, levels_framed]
      rfl
    refine ⟨_, lcdReset_faults hrun hc hm he hp hd, rfl, rfl, ?_, ?_⟩
    · exact (resetLines_wired s).1.dstate.trans hd
    · rw [State.halt_evt, hevt, List.append_assoc]
      rfl

/-! ## The control lines -/

/-- The events drive no level on the read-strobe. -/
def NoRead (c : Config) (ev : List Event) : Prop := ∀ l, Event.lv c.pinRD l ∉ ev

section
variable {c : Config} {ev ev' : List Event}

theorem noRead_append : NoRead c (ev ++ ev') ↔ NoRead c ev ∧ NoRead c ev' := by
  simp only [NoRead, List.mem_append, not_or, forall_and]

theorem noRead_nil (c : Config) : NoRead c [] := fun _ => List.not_mem_nil

theorem noRead_cons {e : Event} : NoRead c (e :: ev) ↔ (∀ l, Event.lv c.pinRD l ≠ e) ∧ NoRead c ev := by
  simp only [NoRead, List.mem_cons, not_or, forall_and, ne_eq]

theorem lv_ne_strobeEvent (c : Config) (p : Nat) (l k : Level) : Event.lv p l ≠ strobeEvent c k := by
  cases k <;> nofun

theorem noRead_flatMap {α : Type} {g : α → List Event} (hg : ∀ a, NoRead c (g a)) (l : List α) :
    NoRead c (l.flatMap g) := fun k h => by
  obtain ⟨a, -, ha⟩ := List.mem_flatMap.mp h
  exact hg a k ha

theorem noRead_repeatEvents (h : NoRead c ev) (n : Nat) : NoRead c (repeatEvents n ev) := fun k hk => by
  obtain ⟨l, hl, hkl⟩ := List.mem_flatten.mp hk
  rw [List.eq_of_mem_replicate hl] at hkl
  exact h k hkl

theorem noRead_mapEvents (s : State) : NoRead c (mapEvents s) := by
  unfold mapEvents
  split <;> simp [noRead_cons, noRead_nil]

theorem noRead_byteEvents (c : Config) (v : Byte) : NoRead c (byteEvents c v) := by
  unfold byteEvents
  split
  · simp [noRead_cons, noRead_nil, lv_ne_strobeEvent]
  · split <;> simp [noRead_cons, noRead_nil, lv_ne_strobeEvent]

theorem noRead_halfEvents (c : Config) (v : Half) : NoRead c (halfEvents c v) :=
  noRead_append.mpr ⟨noRead_byteEvents c _, noRead_byteEvents c _⟩

theorem noRead_strobePixelEvents (c : Config) : NoRead c (strobePixelEvents c) := by
  simp [strobePixelEvents, pulseEvents, noRead_cons, noRead_nil, lv_ne_strobeEvent]

/-- Chip-select and command/data select are other pins than the read-strobe (R8). -/
theorem noRead_select (hc : ConfigOk c) (l k : Level) : NoRead c [.lv c.pinCS l, .lv c.pinCD k] ∧
    NoRead c [.lv c.pinCD k] ∧ NoRead c [.lv c.pinCS l] := by
  obtain ⟨-, -, -, -, hcs, hcd⟩ := controls_distinct hc.1
  simp [noRead_cons, noRead_nil, hcs.symm, hcd.symm]

variable (hc : ConfigOk c)
include hc

theorem noRead_regEvents (h : NoRead c ev) (op : Byte) (l : List Byte) : NoRead c (regEvents c ev op l) := by
  simp only [regEvents, noRead_append]
  exact ⟨⟨⟨⟨⟨(noRead_select hc _ _).1, h⟩, noRead_byteEvents c op⟩, (noRead_select hc true _).2.1⟩,
    noRead_flatMap (noRead_byteEvents c) l⟩, (noRead_select hc _ true).2.2⟩

theorem noRead_windowEvents (h : NoRead c ev) (f : Family) (x y : Word) : NoRead c (windowEvents c ev f x y) :=
  noRead_append.mpr ⟨noRead_regEvents hc h _ _, noRead_regEvents hc (noRead_nil c) _ _⟩

theorem noRead_openEvents (h : NoRead c ev) (op : Byte) : NoRead c (openEvents c ev op) := by
  simp only [openEvents, noRead_append]
  exact ⟨⟨⟨(noRead_select hc _ _).1, h⟩, noRead_byteEvents c op⟩, (noRead_select hc true _).2.1⟩

theorem noRead_floodEvents (h : NoRead c ev) (op : Byte) (color : Half) (len : Nat) :
    NoRead c (floodEvents c ev op color len) := by
  have hrest : NoRead c (restEvents c color (len - 1)) := by
    unfold restEvents
    split
    · exact noRead_repeatEvents (noRead_strobePixelEvents c) _
    · exact noRead_repeatEvents (noRead_halfEvents c color) _
  simp only [floodEvents, noRead_append]
  exact ⟨⟨⟨noRead_openEvents hc h op, noRead_halfEvents c color⟩, hrest⟩, (noRead_select hc _ true).2.2⟩

theorem noRead_pushEvents (h : NoRead c ev) (op : Byte) (first : Bool) (pixels : List Half) :
    NoRead c (pushEvents c ev op first pixels) := by
  simp only [pushEvents, noRead_append]
  refine ⟨⟨?_, noRead_flatMap (noRead_halfEvents c) _⟩, (noRead_select hc _ true).2.2⟩
  split
  · exact noRead_openEvents hc h op
  · refine noRead_append.mpr ⟨(noRead_select hc _ _).1, ?_⟩
    split
    · exact noRead_nil c
    · exact h

theorem noRead_initStepEvents (y : InitStep) : NoRead c (initStepEvents c y) := by
  cases y with
  | cmd op => exact noRead_regEvents hc (noRead_nil c) op []
  | reg op n v => exact noRead_regEvents hc (noRead_nil c) op _
  | delay d => simp [initStepEvents, noRead_cons, noRead_nil]

theorem noRead_initEvents (f : Family) : NoRead c (initEvents c f) := by
  simp only [initEvents, noRead_append]
  exact ⟨⟨noRead_flatMap (noRead_initStepEvents hc) _, noRead_windowEvents hc (noRead_nil c) _ _ _⟩,
    noRead_floodEvents hc (noRead_nil c) _ _ _⟩

end

/-! ## What a bus-driving command does, apart from its events -/

/-- What a bus-driving command leaves, apart from the events by which it does so: the display registers, the resource
and stream bits, the lines, the transfers. -/
structure Effect where
  display : Display
  degraded : Bool
  mapped : Bool
  stream : Bool
  cs : Level
  cd : Level
  byte : Byte
  transfers : List Transfer

/-- From `s` to `t` by the effect `e`, with no level driven on the read-strobe. -/
def Performs (s t : State) (e : Effect) : Prop :=
  ∃ u ev, t = { u.withDisplay e.display with degraded := e.degraded } ∧
    s.did u e.mapped ev e.stream e.cs e.cd e.byte e.transfers ∧ NoRead s.cfg ev

section
variable {m b : Bool} {ev : List Event} {l₁ l₂ : Level} {d : Byte} {xs : List Transfer} {f : Family}

theorem State.did.performs_display (h : s.did t m ev b l₁ l₂ d xs) (hev : NoRead s.cfg ev) (r : Display) :
    Performs s (t.withDisplay r) ⟨r, s.degraded, m, b, l₁, l₂, d, xs⟩ := by
  have hdeg : t.degraded = s.degraded := by rw [h.1.1]
  exact ⟨t, ev, by rw [← hdeg]; rfl, h, hev⟩

theorem State.did.performs (h : s.did t m ev b l₁ l₂ d xs) (hev : NoRead s.cfg ev) :
    Performs s t ⟨s.display, s.degraded, m, b, l₁, l₂, d, xs⟩ := by
  rw [← h.display]
  exact h.performs_display hev t.display

/-- A command that drives nothing (R169, R210, R215). -/
theorem performs_nothing (s : State) (r : Display) (g : Bool) :
    Performs s { s.withDisplay r with degraded := g } ⟨r, g, s.mapped, s.streamOpen, s.cs, s.cd, s.dbus, []⟩ :=
  ⟨s, [], rfl, .refl s, noRead_nil _⟩

/-- The display registers after an unrecognised identifier (R210). -/
def unknownDisplay (s : State) : Display := { s.display with variant := .unknown, dstate := .initialized }

/-- The same state in another strobe variant. -/
def State.withStrobe (s : State) (v : StrobeVariant) : State := { s with cfg := { s.cfg with strobe := v } }

/-- A command performs the same effect from two states. -/
def SameEffect (i : Instr) (s s' t : State) : Prop :=
  ∃ e t', Performs s t e ∧ exec i s' = .next t' ∧ Performs s' t' e ∧ (s.cs = s.cfg.csIdle → e.cs = s.cfg.csIdle)

theorem sameEffect {s' t₀ t' : State} {e : Effect} (h : exec i s = .next t) (heq : exec i s = .next t₀)
    (hp : Performs s t₀ e) (heq' : exec i s' = .next t') (hp' : Performs s' t' e)
    (hcs : s.cs = s.cfg.csIdle → e.cs = s.cfg.csIdle) : SameEffect i s s' t := by
  rw [heq] at h
  cases h
  exact ⟨e, t', hp, heq', hp', hcs⟩

/-! ### Each command's effect -/

section
variable (hb : s.busReady) (hp : s.pinsReady = true)
include hb hp

theorem lcdWr8_performs (hd : s.dstate ≠ .uninitialized) (v : Byte) :
    ∃ t, exec (.lcdWr8 v) s = .next t ∧ Performs s t
      ⟨s.display, s.degraded, true, streamAfter s, s.cs, s.cd, v, xferOf s.cfg s.cs s.cd v⟩ := by
  obtain ⟨t, heq, hdid⟩ := execLcdWr8_did hb hp hd v
  exact ⟨t, heq, hdid.performs (noRead_append.mpr ⟨noRead_mapEvents s, noRead_byteEvents _ v⟩)⟩

theorem lcdWr16_performs (hd : s.dstate ≠ .uninitialized) (v : Half) :
    ∃ t, exec (.lcdWr16 v) s = .next t ∧ Performs s t
      ⟨s.display, s.degraded, true, streamAfter s, s.cs, s.cd, loByte v,
        xferOf s.cfg s.cs s.cd (hiByte v) ++ xferOf s.cfg s.cs s.cd (loByte v)⟩ := by
  obtain ⟨t, heq, hdid⟩ := execLcdWr16_did hb hp hd v
  exact ⟨t, heq, hdid.performs (noRead_append.mpr ⟨noRead_mapEvents s, noRead_halfEvents _ v⟩)⟩

theorem lcdWreg32_performs (hd : s.dstate ≠ .uninitialized) (reg : Byte) (value : Word) :
    ∃ t, exec (.lcdWreg32 reg value) s = .next t ∧ Performs s t
      ⟨s.display, s.degraded, true, false, s.cfg.csIdle, s.cfg.cdData, value.extractLsb' 0 8,
        regTransfers reg (wordBytes value)⟩ := by
  obtain ⟨t, heq, hdid⟩ := execLcdWreg32_did hb hp hd reg value
  exact ⟨t, heq, hdid.performs (noRead_regEvents hb.2.1 (noRead_mapEvents s) _ _)⟩

theorem lcdFlood_performs {color : Half} {len : Word} (hd : s.dstate = .initialized ∨ s.dstate = .ready)
    (hv : s.variant = .unknown ∨ s.winValid = true) (hl : 0 < len.toNat) :
    ∃ t, exec (.lcdFlood color len) s = .next t ∧ Performs s t
      ⟨s.display, s.degraded, true, true, s.cfg.csIdle, s.cfg.cdData, loByte color,
        floodTransfers (memWriteOp s) color len.toNat⟩ := by
  obtain ⟨t, heq, hdid⟩ := execLcdFlood_did hb hp hd hv hl
  exact ⟨t, heq, hdid.performs (noRead_floodEvents hb.2.1 (noRead_mapEvents s) _ _ _)⟩

theorem lcdPush_performs {buffer count : Word} {first : Bool} (hd : s.dstate = .initialized ∨ s.dstate = .ready)
    (hfirst : first = true → s.variant = .unknown ∨ s.winValid = true) (hnext : first = false → s.streamOpen = true) :
    ∃ t, exec (.lcdPush buffer count first) s = .next t ∧ Performs s t
      ⟨s.display, s.degraded, s.mapped || first || decide (0 < count.toNat), true, s.cfg.csIdle, s.cfg.cdData,
        ((pixelsAt s buffer.toNat count.toNat).map loByte).getLastD (if first then memWriteOp s else s.dbus),
        (if first then [(⟨.command, memWriteOp s⟩ : Transfer)] else []) ++
          (pixelsAt s buffer.toNat count.toNat).flatMap pixelTransfers⟩ := by
  obtain ⟨t, heq, hdid⟩ := execLcdPush_did hb hp hd hfirst hnext
  exact ⟨t, heq, hdid.performs (noRead_pushEvents hb.2.1 (noRead_mapEvents s) _ _ _)⟩

theorem lcdSetwin_performs {x1 y1 x2 y2 : Half} (hd : s.dstate = .initialized ∨ s.dstate = .ready)
    (hv : s.variant = .family f) (hx : x1.toNat ≤ x2.toNat) (hy : y1.toNat ≤ y2.toNat) :
    ∃ t, exec (.lcdSetwin x1 y1 x2 y2) s = .next t ∧ Performs s t
      ⟨{ s.display with winx := packPair x1 x2, winy := packPair y1 y2, winValid := true }, s.degraded, true, false,
        s.cfg.csIdle, s.cfg.cdData, loByte y2,
        windowTransfers s.cfg f (packPair x1 x2) (packPair y1 y2)⟩ := by
  obtain ⟨t, heq, hdid⟩ := execLcdSetwin_did hb hp hd hv hx hy
  refine ⟨_, heq, ?_⟩
  rw [← hdid.display]
  exact hdid.performs_display (noRead_windowEvents hb.2.1 (noRead_mapEvents s) _ _ _)
    { t.display with winx := packPair x1 x2, winy := packPair y1 y2, winValid := true }

theorem lcdSetrot_performs {tab : RotationTable} (hm : s.mapped = true) (hd : s.dstate = .ready)
    (hv : s.variant = .family f) (htab : rotationTable s.cfg f = some tab) (r : Nat) :
    ∃ t, exec (.lcdSetrot r) s = .next t ∧ Performs s t
      ⟨rotatedDisplay s r, s.degraded, true, false, s.cfg.csIdle, s.cfg.cdData, BitVec.ofNat 8 (rotatedH s.cfg r - 1),
        regTransfers (familyTable s.cfg f).madctl [rotationByte tab (BitVec.ofNat 2 r)] ++
          windowTransfers s.cfg f (BitVec.ofNat 32 (rotatedW s.cfg r - 1))
            (BitVec.ofNat 32 (rotatedH s.cfg r - 1))⟩ := by
  obtain ⟨t, heq, hdid⟩ := execLcdSetrot_did hb hm hp hd hv htab r
  have hnone := noRead_nil s.cfg
  exact ⟨_, heq, hdid.performs_display
    (noRead_append.mpr ⟨noRead_regEvents hb.2.1 hnone _ _, noRead_windowEvents hb.2.1 hnone _ _ _⟩) _⟩

theorem lcdInit_performs {id : Half} (hm : s.mapped = true) (hd : s.dstate = .reset)
    (hid : classify s.cfg id = .family f) :
    ∃ t, exec (.lcdInit id) s = .next t ∧ Performs s t
      ⟨fullScreen s.cfg f .ready, s.degraded, true, true, s.cfg.csIdle, s.cfg.cdData, 0x00, initTransfers s.cfg f⟩ := by
  obtain ⟨t, heq, hdid⟩ := execLcdInit_did hb hm hp hd hid
  exact ⟨_, heq, hdid.performs_display (noRead_initEvents hb.2.1 f) _⟩

end

/-- A bus-driving command performs one effect in both strobe variants (R163). -/
theorem exec_sameEffect (hb : s.busReady) (hs : s.displayOk) (hi : drivesBus i = true) (h : exec i s = .next t)
    (v : StrobeVariant) : SameEffect i s (s.withStrobe v) t := by
  have hb' : (s.withStrobe v).busReady := hb
  have mapped : s.dstate ≠ .uninitialized → s.mapped = true := hs.1
  cases i with
  | gpioInit | gpioDirout | gpioWrlvl | gpioFset | gpioFclr | lcdReset | mixAdd | mixTick | pwmPoll => cases hi
  | lcdWr8 b =>
    obtain ⟨-, hcheck, -⟩ := checked_next (check := protocolCheck) (body := write8 b) h
    obtain ⟨hp, hd⟩ := protocolCheck_eq_none.mp hcheck
    obtain ⟨t₀, heq, hperf⟩ := lcdWr8_performs hb hp hd b
    obtain ⟨t', heq', hperf'⟩ := lcdWr8_performs hb' hp hd b
    exact sameEffect h heq hperf heq' hperf' id
  | lcdWr16 w =>
    obtain ⟨-, hcheck, -⟩ := checked_next (check := protocolCheck) (body := write16 w) h
    obtain ⟨hp, hd⟩ := protocolCheck_eq_none.mp hcheck
    obtain ⟨t₀, heq, hperf⟩ := lcdWr16_performs hb hp hd w
    obtain ⟨t', heq', hperf'⟩ := lcdWr16_performs hb' hp hd w
    exact sameEffect h heq hperf heq' hperf' id
  | lcdWreg32 reg value =>
    obtain ⟨-, hcheck, -⟩ := checked_next (check := protocolCheck) (body := regWrite reg (wordBytes value)) h
    obtain ⟨hp, hd⟩ := protocolCheck_eq_none.mp hcheck
    obtain ⟨t₀, heq, hperf⟩ := lcdWreg32_performs hb hp hd reg value
    obtain ⟨t', heq', hperf'⟩ := lcdWreg32_performs hb' hp hd reg value
    exact sameEffect h heq hperf heq' hperf' fun _ => rfl
  | lcdFlood color len =>
    obtain ⟨-, hcheck, -⟩ := checked_next (check := floodCheck len.toNat) (body := flood color len.toNat) h
    obtain ⟨hp, hd, hv, hl⟩ := floodCheck_eq_none.mp hcheck
    obtain ⟨t₀, heq, hperf⟩ := lcdFlood_performs hb hp (color := color) hd hv hl
    obtain ⟨t', heq', hperf'⟩ := lcdFlood_performs hb' hp (color := color) hd hv hl
    exact sameEffect h heq hperf heq' hperf' fun _ => rfl
  | lcdPush buffer count first =>
    obtain ⟨-, hcheck, -⟩ := checked_next (check := pushCheck first) (body := pushBody buffer count first) h
    obtain ⟨hp, hd, hfirst, hnext⟩ := pushCheck_eq_none.mp hcheck
    obtain ⟨t₀, heq, hperf⟩ := lcdPush_performs hb hp (buffer := buffer) (count := count) hd hfirst hnext
    obtain ⟨t', heq', hperf'⟩ := lcdPush_performs hb' hp (buffer := buffer) (count := count) hd hfirst hnext
    exact sameEffect h heq hperf heq' hperf' fun _ => rfl
  | lcdSetwin x1 y1 x2 y2 =>
    obtain ⟨hrun, hcheck, -⟩ := checked_next (check := windowCheck x1 y1 x2 y2) (body := setWindow x1 y1 x2 y2) h
    obtain ⟨hp, hd, hx, hy⟩ := windowCheck_eq_none.mp hcheck
    cases hv : s.variant with
    | unknown =>
      have same : ∀ r : State, r.halted = false → windowCheck x1 y1 x2 y2 r = none → r.variant = .unknown →
          exec (.lcdSetwin x1 y1 x2 y2) r = .next r := fun r hrun hcheck hv =>
        run_checked (check := windowCheck x1 y1 x2 y2) (body := setWindow x1 y1 x2 y2) hrun hcheck
          (by simp only [setWindow, hv])
      exact sameEffect h (same s hrun hcheck hv) (performs_nothing s s.display s.degraded)
        (same (s.withStrobe v) hrun hcheck hv) (performs_nothing (s.withStrobe v) s.display s.degraded) id
    | family f =>
      obtain ⟨t₀, heq, hperf⟩ := lcdSetwin_performs hb hp hd hv hx hy
      obtain ⟨t', heq', hperf'⟩ := lcdSetwin_performs hb' hp hd hv hx hy
      exact sameEffect h heq hperf heq' hperf' fun _ => rfl
  | lcdSetrot r =>
    obtain ⟨hrun, hcheck, hx⟩ := checked_next (check := rotationCheck) (body := rotationRun r) h
    obtain ⟨hp, hd⟩ := rotationCheck_eq_none.mp hcheck
    cases hv : s.variant with
    | unknown =>
      have same : ∀ q : State, q.halted = false → rotationCheck q = none → q.variant = .unknown →
          exec (.lcdSetrot r) q = .next q := fun q hrun hcheck hv =>
        run_checked (check := rotationCheck) (body := rotationRun r) hrun hcheck (by simp only [rotationRun, hv])
      exact sameEffect h (same s hrun hcheck hv) (performs_nothing s s.display s.degraded)
        (same (s.withStrobe v) hrun hcheck hv) (performs_nothing (s.withStrobe v) s.display s.degraded) id
    | family f =>
      have hready : s.dstate = .ready := hd.resolve_right fun ⟨_, hu⟩ => by rw [hv] at hu; cases hu
      have hm := mapped (by rw [hready]; nofun)
      cases htab : rotationTable s.cfg f with
      | none =>
        simp only [rotationRun, hv, htab] at hx
        cases hx
      | some tab =>
        obtain ⟨t₀, heq, hperf⟩ := lcdSetrot_performs hb hp hm hready hv htab r
        obtain ⟨t', heq', hperf'⟩ := lcdSetrot_performs (s := s.withStrobe v) (f := f) hb' hp hm hready hv
          (by rw [← htab]; cases f <;> rfl) r
        exact sameEffect h heq hperf heq' hperf' fun _ => rfl
  | lcdInit id =>
    obtain ⟨hrun, hcheck, hx⟩ := checked_next (check := initCheck) (body := initRun id) h
    obtain ⟨hp, hd⟩ := initCheck_eq_none.mp hcheck
    have hm := mapped (by rw [hd]; nofun)
    have hclass : classify (s.withStrobe v).cfg id = classify s.cfg id := rfl
    cases hid : classify s.cfg id with
    | unknown =>
      have same : ∀ q : State, q.halted = false → initCheck q = none → classify q.cfg id = .unknown →
          exec (.lcdInit id) q = .next (initUnknown q) := fun q hrun hcheck hid =>
        run_checked (check := initCheck) (body := initRun id) hrun hcheck (by simp only [initRun, hid])
      exact sameEffect h (same s hrun hcheck hid) (performs_nothing s (unknownDisplay s) true)
        (same (s.withStrobe v) hrun hcheck (hclass.trans hid))
        (performs_nothing (s.withStrobe v) (unknownDisplay s) true)
        fun hcs => hcs
    | family f =>
      obtain ⟨t₀, heq, hperf⟩ := lcdInit_performs hb hp hm hd hid
      obtain ⟨t', heq', hperf'⟩ := lcdInit_performs hb' hp hm hd (hclass.trans hid)
      exact sameEffect h heq hperf heq' hperf' fun _ => rfl

end

/-- A bus-driving command finds the driver initialised or in `Reset` (R226). -/
theorem drivesBus_runs (hi : drivesBus i = true) (hc : ConfigOk s.cfg) (h : exec i s = .next t) :
    s.halted = false ∧ s.dstate ≠ .uninitialized := by
  cases i with
  | gpioInit | gpioDirout | gpioWrlvl | gpioFset | gpioFclr | lcdReset | mixAdd | mixTick | pwmPoll => cases hi
  | lcdWr8 | lcdWr16 | lcdWreg32 | lcdFlood | lcdPush =>
    obtain ⟨hrun, hd, -⟩ := exec_keepsDisplay rfl hc h
    exact ⟨hrun, hd⟩
  | lcdSetwin =>
    obtain ⟨hrun, hd, -⟩ := lcdSetwin_cases hc h
    exact ⟨hrun, by rcases hd with e | e <;> rw [e] <;> nofun⟩
  | lcdSetrot =>
    obtain ⟨hrun, hd, -⟩ := lcdSetrot_cases hc h
    exact ⟨hrun, hd⟩
  | lcdInit =>
    obtain ⟨hrun, hd, -⟩ := lcdInit_cases hc h
    exact ⟨hrun, by rw [hd]; nofun⟩

theorem Performs.linesIdle {e : Effect} (h : Performs s t e) (hs : s.linesIdle) (hcs : e.cs = s.cfg.csIdle) :
    t.linesIdle ∧ ∃ ev, t.evt = s.evt ++ ev ∧ NoRead s.cfg ev := by
  obtain ⟨u, ev, rfl, hdid, hread⟩ := h
  obtain ⟨hwr, -, hrd⟩ := hs
  have hidle : u.linesIdle :=
    ⟨hdid.idle hwr, by rw [hdid.cs, hcs, hdid.cfg], by rw [hdid.rd, hrd, hdid.cfg]⟩
  exact ⟨hidle, ev, hdid.evt, hread⟩

/-- LCD.RESET that does not fault idles the control lines (R200). -/
theorem lcdReset_linesIdle (hc : ConfigOk s.cfg) (h : exec .lcdReset s = .next t) (hrun : t.halted = false) :
    t.linesIdle := by
  obtain ⟨-, -, hx⟩ := checked_next (check := resetCheck) (body := resetBody) h
  rcases mappable_or s with hm | ⟨hm, he⟩
  · obtain ⟨u, heq, hframe, hwr, hrd, hcs, -⟩ := reset_result hc hm
    have hcfg : u.cfg = s.cfg := by rw [hframe]
    rw [resetBody, heq] at hx
    cases hx
    exact ⟨hwr.trans (congrArg Config.wrIdle hcfg.symm), hcs.trans (congrArg Config.csIdle hcfg.symm),
      hrd.trans (congrArg Config.rdIdle hcfg.symm)⟩
  · rw [reset_fault hc hm he] at hx
    cases hx
    cases hrun

/-- Settles O31: what a command does is one `Effect`, and each effect ends with chip-select idle if it began so. -/
theorem controlLinesIdle : Obligations.ControlLinesIdle := by
  intro s t i hc hs h hrun
  refine ⟨fun hi hlines => ?_, fun hi => ?_⟩
  · obtain ⟨hhalt, hd⟩ := drivesBus_runs hi hc h
    obtain ⟨e, -, hperf, -, -, hcs⟩ := exec_sameEffect ⟨hhalt, hc, .inl (hs.1 hd), hlines.1⟩ hs hi h s.cfg.strobe
    exact hperf.linesIdle hlines (hcs hlines.2.1)
  · subst hi
    exact lcdReset_linesIdle hc h hrun

/-! ## The strobe variants (R163) -/

theorem withStrobe_busSynced (h : s.busSynced) (v : StrobeVariant) : (s.withStrobe v).busSynced := h

/-- One effect from two states that differ in the strobe variant leaves the same pins. -/
theorem Performs.pin_congr {v : StrobeVariant} {t' : State} {e : Effect} (h : Performs s t e)
    (h' : Performs (s.withStrobe v) t' e) (p : Nat) : t'.pin p = t.pin p := by
  obtain ⟨u, ev, rfl, hd, -⟩ := h
  obtain ⟨u', ev', rfl, hd', -⟩ := h'
  show u'.pin p = u.pin p
  have hcfg : u.cfg = s.cfg := hd.cfg
  have hcfg' : u'.cfg = (s.withStrobe v).cfg := hd'.cfg
  by_cases hp : p ∈ twelvePins s.cfg
  · rcases (mem_twelvePins _ _).mp hp with ⟨k, hk, rfl⟩ | rfl | rfl | rfl | rfl
    · have bit := getLsbD_dataByte u.cfg u.pin hk
      have bit' := getLsbD_dataByte u'.cfg u'.pin hk
      rw [hcfg] at bit
      rw [hcfg'] at bit'
      calc u'.pin (pinD s.cfg k) = (dataByte u'.cfg u'.pin).getLsbD k := by rw [hcfg']; exact bit'.symm
        _ = (dataByte u.cfg u.pin).getLsbD k := congrArg (·.getLsbD k) (hd'.dbus.trans hd.dbus.symm)
        _ = u.pin (pinD s.cfg k) := by rw [hcfg]; exact bit
    · have := hd'.wr.trans hd.wr.symm
      rwa [State.wr, State.wr, hcfg, hcfg'] at this
    · have := hd'.cs.trans hd.cs.symm
      rwa [State.cs, State.cs, hcfg, hcfg'] at this
    · have := hd'.cd.trans hd.cd.symm
      rwa [State.cd, State.cd, hcfg, hcfg'] at this
    · have := hd'.rd.trans hd.rd.symm
      rwa [State.rd, State.rd, hcfg, hcfg'] at this
  · exact (hd'.1.2.2.2.2.2.2 p hp).trans (hd.1.2.2.2.2.2.2 p hp).symm

/-- One effect from two states that differ in the strobe variant leaves the same state, the events aside. -/
theorem Performs.state_congr {v : StrobeVariant} {t' : State} {e : Effect} (h : Performs s t e)
    (h' : Performs (s.withStrobe v) t' e) :
    t' = { t with cfg := (s.withStrobe v).cfg, latches := t'.latches, evt := t'.evt } := by
  obtain ⟨u, ev, rfl, ⟨⟨hu, -⟩, -⟩, -⟩ := h
  obtain ⟨u', ev', rfl, ⟨⟨hu', -⟩, -⟩, -⟩ := h'
  rw [hu, hu']
  rfl

theorem Performs.transferred {e : Effect} (h : Performs s t e) (hs : s.busSynced) : Transferred s t e.transfers := by
  obtain ⟨u, ev, rfl, hd, -⟩ := h
  exact (hd.2 hs).congr rfl rfl fun _ => rfl

/-- Settles O32: both variants perform the same effect. -/
theorem strobeVariantsSameBus : Obligations.StrobeVariantsSameBus := by
  intro s t i v hb hs hsync hi h
  obtain ⟨e, t', hperf, heq, hperf', -⟩ := exec_sameEffect hb hs hi h v
  obtain ⟨⟨hvalid, -⟩, hbus⟩ := hperf.transferred hsync
  obtain ⟨⟨hvalid', -⟩, hbus'⟩ := hperf'.transferred (withStrobe_busSynced hsync v)
  exact ⟨t', heq, hperf.state_congr hperf', hperf.pin_congr hperf', hvalid, hvalid', hbus'.trans hbus.symm⟩

end Sys2Proof.Machine
end


section
/-! PROOFS. The GPIO commands (R141 to R146), the register map (R71) and the byte-write contract (R161). -/

namespace Sys2Proof.Machine

variable {s t u : State} {c : Config}

/-! ## Handles and directions -/

/-- Settles O9. -/
theorem gpioInitAcquires : Obligations.GpioInitAcquires := by
  intro s pin hrun hvalid hgrant howned
  refine ⟨State.emit { s with owns := writePinBit s.owns pin true, res := BitVec.ofNat 32 pin } (.aq pin), ?_, rfl,
    pinBit_writePinBit s.owns pin true⟩
  simp only [exec, execGpioInit, run_of_not_halted hrun, hvalid, hgrant, howned, Bool.not_true, Bool.or_false,
    Bool.false_eq_true, if_false, Result.outcome_ok]

/-- Settles O11. -/
theorem gpioDiroutMakesOutput : Obligations.GpioDiroutMakesOutput := by
  intro s handle hrun hvalid howned
  refine ⟨State.emit { s with dirs := writePinBit s.dirs handle true } (.dirOut handle), ?_, rfl, fun q => ?_⟩
  · simp only [exec, execGpioDirout, run_of_not_halted hrun, hvalid, howned, Bool.not_true, Bool.or_false,
      Bool.false_eq_true, if_false, Result.outcome_ok]
  · show (if pinBit (writePinBit s.dirs handle true) q then PinDir.output else .unconfigured) = _
    rw [pinBit_writePinBit]
    by_cases hq : q = handle
    · simp only [hq, if_true]
    · simp only [hq, if_false]
      rfl

/-- Settles O16. -/
theorem gpioRefusals : Obligations.GpioRefusals := by
  intro s p level hrun
  refine ⟨fun hvalid hgrant howned => ?_, fun hno => ?_, fun hvalid howned hdir => ?_⟩
  · simp only [exec, execGpioInit, run_of_not_halted hrun, hvalid, hgrant, howned, Bool.not_true, Bool.or_false,
      Bool.false_eq_true, if_false, if_true, Result.outcome_refuse]
  · have hcheck : (!validPin s.cfg p || !s.owned p) = true := by simpa using hno
    simp only [exec, execGpioDirout, execGpioWrlvl, run_of_not_halted hrun, hcheck, if_true, Result.outcome_refuse,
      and_self]
  · have hnot : s.dir p ≠ .output := by rw [hdir]; nofun
    simp only [exec, execGpioWrlvl, run_of_not_halted hrun, hvalid, howned, Bool.not_true, Bool.or_false,
      Bool.false_eq_true, if_false, if_pos hnot, Result.outcome_refuse]

/-! ## The register map -/

/-- A mask cut to the existing pins of a group. -/
theorem getLsbD_and_validMask (c : Config) (m : Word) {g p : Nat} (h : p / 32 = g) :
    (m &&& validMask c g).getLsbD (p % 32) = (m.getLsbD (p % 32) && validPin c p) := by
  rw [BitVec.getLsbD_and, getLsbD_validMask c g _ (Nat.mod_lt _ (by decide)), ← h,
    show 32 * (p / 32) + p % 32 = p by omega]

theorem writeReg_set_pin (s : State) (g : Nat) (m : Word) (p : Nat) :
    (s.writeReg (.set g) m).pin p =
      if p / 32 = g ∧ m.getLsbD (p % 32) = true ∧ validPin s.cfg p = true then true else s.pin p := by
  refine (pinBit_setGroupBits _ _ _ _).trans ?_
  by_cases h : p / 32 = g
  · rw [getLsbD_and_validMask _ _ h]
    cases m.getLsbD (p % 32) <;> cases validPin s.cfg p <;> simp [h, State.pin]
  · simp [h, State.pin]

theorem writeReg_clr_pin (s : State) (g : Nat) (m : Word) (p : Nat) :
    (s.writeReg (.clr g) m).pin p =
      if p / 32 = g ∧ m.getLsbD (p % 32) = true ∧ validPin s.cfg p = true then false else s.pin p := by
  refine (pinBit_clearGroupBits _ _ _ _).trans ?_
  by_cases h : p / 32 = g
  · rw [getLsbD_and_validMask _ _ h]
    cases m.getLsbD (p % 32) <;> cases validPin s.cfg p <;> simp [h, State.pin]
  · simp [h, State.pin]

theorem gpioWrite_of_reg {off : Nat} {r : GpioReg} (h : gpioRegAt s.cfg off = some r) (m : Word) :
    gpioWrite off m s = .ok (s.writeReg r m) := by rw [gpioWrite, h]

/-- Settles O15. -/
theorem registerMapDrivesGroups : Obligations.RegisterMapDrivesGroups := by
  intro s g m hc hg
  exact ⟨⟨_, gpioWrite_of_reg (gpioRegAt_set hg) m, rfl, writeReg_set_pin s g m⟩,
    _, gpioWrite_of_reg (gpioRegAt_clr hc.2.1 hg) m, rfl, writeReg_clr_pin s g m⟩

/-! ## Raw writes and the bus (R52, R45) -/

theorem BusView.pin_eq_some {v : BusView} {p : Nat} {l : Level} (h : v.pin p = some l) : pinBit v.level p = l := by
  unfold BusView.pin at h
  split at h
  · exact Option.some.inj h
  · cases h

/-- A latching edge after which the replay still has a value was a transfer or nothing, by chip-select. -/
theorem edge_transfers {v w : BusView} {cs cd : Level} {d : Byte} (hv : (v.edge c w).lost = false)
    (hcs : w.pin c.pinCS = some cs) (hcd : w.pin c.pinCD = some cd)
    (hd : ∀ i < 8, w.pin (pinD c i) = some (d.getLsbD i)) :
    (v.edge c w).transfers = w.transfers ++ xferOf c cs cd d := by
  have hx : w.transfer c = ⟨if cd = c.cdCommand then .command else .data, d⟩ := by
    simp only [BusView.transfer, BusView.pin_eq_some hcd, dataByte_eq fun i hi => BusView.pin_eq_some (hd i hi)]
  simp only [BusView.edge, hcs, hx, xferOf] at hv ⊢
  by_cases hact : cs = c.csActive
  · simp only [if_pos hact] at hv ⊢
    split at hv
    next hknown => rw [if_pos hknown]
    next => cases hv
  · simp only [if_neg hact, List.append_nil]

/-- The transfer of a raw write from `s` to `t`. -/
def rawTransfers (s t : State) : List Transfer :=
  if s.wr = s.cfg.wrActive ∧ t.wr = t.cfg.wrIdle ∧ t.cs = t.cfg.csActive then
    [⟨if t.cd = t.cfg.cdCommand then .command else .data, t.dbus⟩]
  else []

/-- One event after which the replay still has a value makes the transfer of its edge. -/
theorem rawEvent_bus {e : Event} (h : s.busSynced) (hc : t.cfg = s.cfg) (he : t.evt = s.evt ++ [e])
    (hp : ∀ p ∈ twelvePins s.cfg, (s.busView.drive s.cfg e).pin p = some (t.pin p)) (hv : t.busValid = true) :
    t.bus = s.bus ++ rawTransfers s t := by
  have mem : ∀ p ∈ [s.cfg.pinWR, s.cfg.pinCS, s.cfg.pinCD], p ∈ twelvePins s.cfg := fun p hp =>
    (mem_twelvePins _ _).mpr (.inr (by simp only [List.mem_cons, List.not_mem_nil, or_false] at hp; tauto))
  by_cases hq : s.wr = s.cfg.wrActive ∧ t.wr = t.cfg.wrIdle
  · have hlost : s.busView.lost = false := by simpa [State.busValid] using h.1
    have hedge : s.busView.pin s.cfg.pinWR = some s.cfg.wrActive ∧
        (s.busView.drive s.cfg e).pin s.cfg.pinWR = some s.cfg.wrIdle := by
      rw [h.2 _ (mem _ (by simp)), hp _ (mem _ (by simp))]
      exact ⟨congrArg some hq.1, congrArg some (by rw [← hc]; exact hq.2)⟩
    have hview : t.busView = s.busView.edge s.cfg (s.busView.drive s.cfg e) := by
      rw [busView_snoc hc he]
      simp only [busStep, hlost, if_pos hedge, Bool.false_eq_true, if_false]
    have hkept : (s.busView.edge s.cfg (s.busView.drive s.cfg e)).lost = false := by
      simpa [State.busValid, hview] using hv
    have hx := edge_transfers hkept (hp _ (mem _ (by simp))) (hp _ (mem _ (by simp))) (d := t.dbus) fun i hi => by
      rw [hp _ (mem_dataLine _ hi), State.dbus, hc, getLsbD_dataByte _ _ hi]
    rw [State.bus, hview, hx, drive_transfers]
    congr 1
    simp only [rawTransfers, xferOf, hq.1, hq.2, true_and, State.cs, State.cd, hc]
  · have hnone : rawTransfers s t = [] := if_neg fun hh => hq ⟨hh.1, hh.2.1⟩
    rw [hnone]
    exact (transferred_quiet h hc he hp hq).2

/-- What a raw command does is its write, then the end of the stream. -/
theorem rawWrote_closeOnEdge (hs : t.streamOpen = s.streamOpen)
    (hbus : s.busSynced → t.busValid = true → t.bus = s.bus ++ rawTransfers s t) : s.rawWrote (t.closeOnEdge s) := by
  have hstream := State.closeOnEdge_streamOpen t s
  rw [hs] at hstream
  rw [State.closeOnEdge_eq] at hstream ⊢
  exact ⟨hstream, hbus⟩

/-- Settles O12. -/
theorem gpioWrlvlDrivesOnePin : Obligations.GpioWrlvlDrivesOnePin := by
  intro s handle level hrun hvalid howned hdir
  refine ⟨(s.level handle level).closeOnEdge s, ?_, ?_, fun q => ?_, ?_⟩
  · simp only [exec, execGpioWrlvl, run_of_not_halted hrun, hvalid, howned, hdir, Bool.not_true, Bool.or_false,
      Bool.false_eq_true, if_false, ne_eq, not_true_eq_false, Result.outcome_ok]
  · conv_lhs => rw [State.closeOnEdge_eq]
    rw [State.closeOnEdge_latches]
    rfl
  · rw [State.pin, State.closeOnEdge_latches]
    exact State.pin_level s handle level q
  · refine rawWrote_closeOnEdge rfl fun hsync hv => rawEvent_bus hsync rfl rfl (fun p hp => ?_) hv
    rw [drive_lv_pin, State.pin_level]
    split
    · rfl
    · exact hsync.2 p hp

/-- The transfer of a fast write is that of its own event: mapping moves no line. -/
theorem fastState_bus (hne : s.cfg.wrActive ≠ s.cfg.wrIdle) (l : Level) (m : Word) (h : s.busSynced)
    (hv : (fastState l m s).busValid = true) :
    (fastState l m s).bus = s.bus ++ rawTransfers s (fastState l m s) := by
  obtain ⟨hsync, hbus⟩ := map_transferred h hne
  rw [List.append_nil] at hbus
  rw [← hbus]
  refine rawEvent_bus (s := { s with mapped := true, evt := s.evt ++ mapEvents s }) hsync rfl
    (List.append_assoc _ _ _).symm (fun p hp => ?_) hv
  rw [drive_fast_pin, fastState_pin]
  split
  · rfl
  · exact hsync.2 p hp

theorem rawDrive_result (hrun : s.halted = false) (hc : ConfigOk s.cfg) (hm : s.mappable) (l : Level) (m : Word) :
    ∃ t, s.run (rawDrive l m) = .next t ∧
      t = { s with mapped := true, latches := t.latches, streamOpen := t.streamOpen,
                   evt := s.evt ++ mapEvents s ++ [fastEvent l m] } ∧
      (∀ p, t.pin p =
        if p / 32 = fastGroup s.cfg ∧ m.getLsbD (p % 32) = true ∧ validPin s.cfg p = true then l else s.pin p) ∧
      s.rawWrote t := by
  refine ⟨(fastState l m s).closeOnEdge s, ?_, ?_, fun p => ?_, ?_⟩
  · rw [run_of_not_halted hrun, rawDrive_ok hc hm, Result.outcome_ok]
  · conv_lhs => rw [State.closeOnEdge_eq]
    rw [State.closeOnEdge_latches, List.append_assoc]
    rfl
  · rw [State.pin, State.closeOnEdge_latches]
    exact fastState_pin l m s p
  · exact rawWrote_closeOnEdge rfl (fastState_bus hc.2.2.2.2.1.1 l m)

/-- Settles O13. -/
theorem fastWritesDriveTheMask : Obligations.FastWritesDriveTheMask :=
  fun _ mask hrun hc hm => ⟨rawDrive_result hrun hc hm true mask, rawDrive_result hrun hc hm false mask⟩

/-- Settles O14. -/
theorem fastWriteMapFault : Obligations.FastWriteMapFault := by
  intro s mask hrun hm he i hi
  have faults : ∀ l, s.run (rawDrive l mask) = .next (s.halt .map 0) := fun l => by
    rw [run_of_not_halted hrun, rawDrive_fault hm he, Result.outcome_stop]
  rcases hi with rfl | rfl
  · exact faults true
  · exact faults false

/-! ## The byte-write contract (R161) -/

theorem drive_fast_level (c : Config) (v : BusView) (l : Level) (m : Word) :
    (v.drive c (fastEvent l m)).level = fastLatches c v.level l m := by cases l <;> rfl

/-- The latches after a fast write, then those after the events that follow. -/
theorem latchScan_fast (c : Config) (f : List (Nat × Word)) (l : Level) (m : Word) (rest : List Event) :
    latchScan c f (fastEvent l m :: rest) = fastLatches c f l m :: latchScan c (fastLatches c f l m) rest := by
  simp only [latchScan, drive_fast_level]

/-- A fast write of a mask without the write-strobe leaves it. -/
theorem fastLatches_wr {f : List (Nat × Word)} {m : Word} (hm : m.getLsbD (c.pinWR % 32) = false) (l : Level) :
    pinBit (fastLatches c f l m) c.pinWR = pinBit f c.pinWR := by
  rw [pinBit_fastLatches, if_neg fun h => by rw [hm] at h; cases h.2.1]

theorem byteState_latches (v : Byte) (s : State) :
    (byteState v s).latches = fastLatches s.cfg (byteActive v s).latches s.cfg.wrIdle (wrMask s.cfg) := by
  rw [byteState, State.closeStream_latches, fastState_latches, byteActive_cfg]

/-- The latches after each event of a byte write: first some that leave the strobe idle, then the active edge, then the
idle edge (R161 b). -/
theorem latchScan_byte (hc : ConfigOk s.cfg) (hw : s.wr = s.cfg.wrIdle) (v : Byte) :
    ∃ data, latchScan s.cfg s.latches (byteEvents s.cfg v) =
        data ++ [(byteActive v s).latches, (byteState v s).latches] ∧
      ∀ f ∈ data, pinBit f s.cfg.pinWR = s.cfg.wrIdle := by
  obtain ⟨hones, hzeros⟩ := masks_elsewhere v fun i hi => Ne.symm (pinD_bit_ne_wr hc.1 hi)
  have idle : pinBit s.latches s.cfg.pinWR = s.cfg.wrIdle := hw
  have hset : ∀ m, Event.fs m = fastEvent true m := fun _ => rfl
  have hclr : ∀ m, Event.fc m = fastEvent false m := fun _ => rfl
  rw [byteState_latches]
  cases hs : s.cfg.strobe with
  | compliant =>
    refine ⟨[fastLatches s.cfg s.latches true (onesMask s.cfg v),
      fastLatches s.cfg (fastLatches s.cfg s.latches true (onesMask s.cfg v)) false (zerosMask s.cfg v)], ?_, ?_⟩
    · simp only [byteEvents, hs, hset, hclr, strobeEvent_eq, latchScan_fast, byteActive]
      rfl
    · simp only [List.mem_cons, List.not_mem_nil, or_false, forall_eq_or_imp, forall_eq, fastLatches_wr hones,
        fastLatches_wr hzeros, idle, and_self]
  | merged =>
    cases ha : s.cfg.wrActive with
    | true =>
      refine ⟨[fastLatches s.cfg s.latches false (zerosMask s.cfg v)], ?_, ?_⟩
      · simp only [byteEvents, hs, ha, hset, hclr, strobeEvent_eq, latchScan_fast, byteActive, if_true]
        rfl
      · simp only [List.mem_singleton, forall_eq, fastLatches_wr hzeros, idle]
    | false =>
      refine ⟨[fastLatches s.cfg s.latches true (onesMask s.cfg v)], ?_, ?_⟩
      · simp only [byteEvents, hs, ha, hset, hclr, strobeEvent_eq, latchScan_fast, byteActive, Bool.false_eq_true,
          if_false]
        rfl
      · simp only [List.mem_singleton, forall_eq, fastLatches_wr hones, idle]

/-- Settles O18: the write is `byteState`, up to its active edge `byteActive`. -/
theorem byteWriteContract : Obligations.ByteWriteContract := by
  intro s v hc hm
  refine ⟨fun hw => ?_, fun hw => write8_refused hw v⟩
  obtain ⟨hactive, hstrobe, -⟩ := byteActive_pin hc v
  obtain ⟨hbits, hother⟩ := byteState_pin hc hw v
  obtain ⟨data, hscan, hidle⟩ := latchScan_byte hc hw v
  have hwr : (byteState v s).pin s.cfg.pinWR = s.cfg.wrIdle :=
    (hother _ fun i hi => ((pinD_ne_control hc.1 hi).1).symm).trans hw
  refine ⟨byteState v s, byteEvents s.cfg v, write8_ok hc hm hw v, ?_, ?_, ?_, ⟨data.length, 0, ?_, ?_⟩,
    fun p hp _ => hother p hp, fun hsync => byteState_transferred hsync hc hw v, byteState_streamOpen hc hw v⟩
  · rw [List.append_assoc]
    exact byteState_frame v s
  · rw [State.dbus, byteState_cfg, dataByte_eq hbits]
  · rw [State.wr, byteState_cfg, hwr]
  · have hquiet : data.map (fun f => pinBit f s.cfg.pinWR) = List.replicate data.length s.cfg.wrIdle :=
      List.eq_replicate_iff.mpr ⟨List.length_map _, by simpa using hidle⟩
    rw [hscan, List.map_append, hquiet, List.append_assoc]
    exact congrArg _ (congrArg₂ (fun a b => [a, b]) hstrobe hwr)
  · rw [hscan, Nat.add_zero, List.drop_left]
    simp only [List.mem_cons, List.not_mem_nil, or_false, forall_eq_or_imp, forall_eq]
    exact ⟨dataByte_eq hactive, dataByte_eq hbits⟩

end Sys2Proof.Machine
end


section
/-! PROOFS. The state machines of LCD.PUSH (R180), LCD.RESET (R200) and LCD.INIT (R205) against their big steps (R177),
with the runs of the sequencer that LCD.FLOOD's machine has. -/

namespace Sys2Proof.Machine

variable {s t : State} {f g k : State → Result} {q : Sequencer}

/-! ## Procedures that leave the sequencer's fields -/

theorem level_withSeq (s : State) (q : Sequencer) (p : Nat) (l : Level) :
    (s.withSeq q).level p l = (s.level p l).withSeq q := rfl

theorem writeBytes_blind (l : List Byte) : SeqBlind (writeBytes l) := by
  induction l with
  | nil => exact fun _ _ => rfl
  | cons b rest ih => exact (write8_blind b).bind ih

theorem regWrite_blind (op : Byte) (l : List Byte) : SeqBlind (regWrite op l) := by
  have hclose : SeqBlind fun s => .ok (s.level s.cfg.pinCS s.cfg.csIdle) := fun _ _ => rfl
  have hdata : SeqBlind fun s => (writeBytes l (s.level s.cfg.pinCD s.cfg.cdData)).bind fun u =>
      .ok (u.level u.cfg.pinCS u.cfg.csIdle) :=
    fun s q => ((writeBytes_blind l).bind hclose) (s.level s.cfg.pinCD s.cfg.cdData) q
  exact fun s q => ((write8_blind op).bind hdata)
    ((s.level s.cfg.pinCS s.cfg.csActive).level s.cfg.pinCD s.cfg.cdCommand) q

theorem setWindow_blind (x1 y1 x2 y2 : Half) : SeqBlind (setWindow x1 y1 x2 y2) := by
  intro s q
  have hkeep : SeqBlind fun s => .ok { s with winx := packPair x1 x2, winy := packPair y1 y2, winValid := true } :=
    fun _ _ => rfl
  unfold setWindow
  rw [show (s.withSeq q).variant = s.variant from rfl]
  cases s.variant with
  | unknown => rfl
  | family fam =>
    exact ((SeqBlind.ofCfg fun c => regWrite_blind (familyTable c fam).xWin (wordBytes (packPair x1 x2))).bind
      ((SeqBlind.ofCfg fun c => regWrite_blind (familyTable c fam).yWin (wordBytes (packPair y1 y2))).bind hkeep)) s q

theorem initWindow_blind : SeqBlind fun s => setFullWindow (initScreen s) :=
  fun s q => setWindow_blind 0 0 _ _ (initScreen s) q

theorem runInitStep_blind (x : InitStep) : SeqBlind (runInitStep x) := by
  cases x with
  | cmd op => exact regWrite_blind op []
  | reg op n v => exact regWrite_blind op (stepBytes n v)
  | delay d => exact fun _ _ => rfl

theorem resetByte_blind : SeqBlind resetByte := fun s q =>
  write8_blind 0x00 ((s.level s.cfg.pinCS s.cfg.csActive).level s.cfg.pinCD s.cfg.cdCommand) q

theorem resetByte_drives (hc : ConfigOk s.cfg) : Drives s (resetByte s) := by
  have h0 : BusMoves s ((s.level s.cfg.pinCS s.cfg.csActive).level s.cfg.pinCD s.cfg.cdCommand) :=
    (level_drives s _ _).trans (level_drives _ _ _)
  exact Drives.after h0 (write8_drives (hc.moved h0) 0x00)

theorem idleControlLines_withSeq (s : State) (q : Sequencer) :
    idleControlLines (s.withSeq q) = (idleControlLines s).withSeq q := by
  simp only [idleControlLines, level_withSeq, State.withSeq_cfg]

/-- A turn of the machine does what the next procedure of the big step does, whatever fields that one writes. -/
theorem State.Runs.turn_ok (hf : SeqBlind f) (hs : seqStep (s.withSeq q) = (f (s.withSeq q)).bind g)
    (hk : ∀ t, f s = .ok t → ∃ m, g (t.withSeq q) = .ok m ∧ m.Runs (k t)) : (s.withSeq q).Runs ((f s).bind k) := by
  intro t ht
  rw [hf] at hs
  cases e : f s with
  | ok v =>
    rw [e] at hs ht
    obtain ⟨m, hg, hm⟩ := hk v e
    exact State.Runs.next (hs.trans hg) hm t ht
  | stop v =>
    rw [e] at hs ht
    obtain rfl : v = t := by simpa using ht
    exact ⟨1, v.withSeq { q with phase := .idle }, by rw [seqRun, hs]; rfl, rfl, State.settled_withSeq v _⟩
  | refuse r =>
    rw [e] at ht
    cases ht

/-! ## LCD.PUSH -/

/-- The first lines of LCD.PUSH (R180): the stream opened on a first call, else chip-select alone. -/
def pushOpen (first : Bool) (s : State) : Result :=
  if first then openStream s else .ok (s.level s.cfg.pinCS s.cfg.csActive)

theorem pushOpen_blind (first : Bool) : SeqBlind (pushOpen first) := by
  cases first with
  | true => exact openStream_blind
  | false => exact fun _ _ => rfl

theorem pushOpen_drives (hc : ConfigOk s.cfg) (first : Bool) : Drives s (pushOpen first s) := by
  cases first with
  | true => exact openStream_drives hc
  | false => exact Drives.of_moves (level_drives s _ _)

theorem seqStep_pCmd (h : s.phase = .pCmd) :
    seqStep s = (pushOpen (s.held.getLsbD 0) s).bind fun s1 =>
      toPhase (pushPhase (s1.level s1.cfg.pinCD s1.cfg.cdData)) (s1.level s1.cfg.pinCD s1.cfg.cdData) := by
  simp only [seqStep, h, pushOpen]

theorem seqStep_pPixHi (h : s.phase = .pPixHi) :
    seqStep s = (write8 (hiByte s.pushPixel) s).bind (toPhase .pPixLo) := by simp only [seqStep, h]

theorem seqStep_pPixLo (h : s.phase = .pPixLo) :
    seqStep s = (write8 (loByte s.pushPixel) s).bind fun s1 =>
      toPhase (pushPhase { s1 with puIdx := s1.puIdx + 1 }) { s1 with puIdx := s1.puIdx + 1 } := by
  simp only [seqStep, h]

theorem seqStep_pEnd (h : s.phase = .pEnd) : seqStep s = .ok (s.level s.cfg.pinCS s.cfg.csIdle).endOperation := by
  simp only [seqStep, h]

section
variable {s₀ : State} {n a : Nat}

theorem pushPhase_moved (h : BusMoves s₀ s) (q : Sequencer) :
    pushPhase (s.withSeq q) = if q.puIdx.toNat < s₀.opr2.toNat then .pPixHi else .pEnd := by
  rw [h.frame]
  rfl

theorem pushPixel_moved (h : BusMoves s₀ s) (ha : a = s₀.opr1.toNat + q.puIdx.toNat) :
    (s.withSeq q).pushPixel = s₀.readPix a := by
  rw [h.frame, ha]
  rfl

/-- The pixels of LCD.PUSH, each in two phases, then P_END (R180). -/
theorem pushPixels_runs (hc : ConfigOk s₀.cfg) (h : BusMoves s₀ s) (hp : q.phase = pushPhase (s.withSeq q))
    (ha : a = s₀.opr1.toNat + q.puIdx.toNat) (hn : q.puIdx.toNat + n = s₀.opr2.toNat) :
    (s.withSeq q).Runs ((pushPixels a n s).bind fun t => .ok (t.level t.cfg.pinCS t.cfg.csIdle)) := by
  rw [pushPhase_moved h] at hp
  induction n generalizing s q a with
  | zero =>
    rw [if_neg (by omega)] at hp
    exact State.Runs.next (seqStep_pEnd hp) (State.Runs.done rfl rfl)
  | succ n ih =>
    have hcs := hc.moved h
    have hread : s.readPix a = s₀.readPix a := by rw [h.frame]; rfl
    rw [if_pos (by omega)] at hp
    rw [pushPixels, hread, write16, Result.bind_assoc, Result.bind_assoc]
    refine State.Runs.turn (write8_blind _) (write8_drives hcs _) (by rw [seqStep_pPixHi hp, pushPixel_moved h ha])
      fun t ht => ⟨t.withSeq { q with phase := .pPixLo }, rfl, ?_⟩
    have hnext : (q.puIdx + 1).toNat = q.puIdx.toNat + 1 := by
      have := s₀.opr2.isLt
      bv_omega
    refine State.Runs.turn (write8_blind _) (write8_drives (hcs.moved ht) _)
      (by rw [seqStep_pPixLo (by rfl), pushPixel_moved (h.trans ht) (by exact ha)]) fun u hu =>
      ⟨u.withSeq { q with
        puIdx := q.puIdx + 1, phase := pushPhase (u.withSeq { q with puIdx := q.puIdx + 1 }) }, rfl, ?_⟩
    refine ih ((h.trans ht).trans hu) (pushPhase_moved ((h.trans ht).trans hu) _) ?_ ?_
    · dsimp only
      omega
    · dsimp only
      omega

end

/-- What the operand registers hold for LCD.PUSH (R104). -/
theorem operandInstr_eq_lcdPush {buffer count : Word} {first : Bool}
    (h : s.operandInstr = some (.lcdPush buffer count first)) :
    s.opr1 = buffer ∧ s.opr2 = count ∧ s.opr0.getLsbD 0 = first := by
  unfold State.operandInstr State.operandWindow at h
  dsimp only at h
  iterate 10 replace h := else_of_ite_eq h nofun
  split at h
  next => simpa [State.operandFirst] using h
  next =>
    iterate 6 replace h := else_of_ite_eq h nofun
    cases h

/-- The sequencer's fields when LCD.PUSH has begun (R180). -/
def State.pushSeq (s : State) : Sequencer := { s.seq with phase := .pCmd, held := s.opr0, puIdx := 0 }

theorem push_runs {buffer count : Word} {first : Bool} (hc : ConfigOk s.cfg)
    (hop : s.operandInstr = some (.lcdPush buffer count first)) :
    (s.withSeq s.pushSeq).Runs (pushBody buffer count first s) := by
  obtain ⟨rfl, rfl, hfirst⟩ := operandInstr_eq_lcdPush hop
  refine State.Runs.turn (f := pushOpen first) (pushOpen_blind first) (pushOpen_drives hc first)
    ((seqStep_pCmd rfl).trans (by rw [show (s.withSeq s.pushSeq).held.getLsbD 0 = first from hfirst])) fun t ht =>
    ⟨(t.level t.cfg.pinCD t.cfg.cdData).withSeq { s.pushSeq with
      phase := pushPhase ((t.level t.cfg.pinCD t.cfg.cdData).withSeq s.pushSeq) }, rfl, ?_⟩
  exact pushPixels_runs hc (ht.trans (level_drives t _ _)) rfl rfl (Nat.zero_add _)

/-! ## LCD.RESET -/

theorem seqStep_rsIdle (h : s.phase = .rsIdle) : seqStep s = toPhase .rsByte (idleControlLines s) := by
  simp only [seqStep, h]

theorem seqStep_rsByte (h : s.phase = .rsByte) :
    seqStep s = (resetByte s).bind fun s1 => toPhase .rsPulse { s1 with rsCnt := 2 } := by simp only [seqStep, h]

theorem seqStep_rsPulse (h : s.phase = .rsPulse) :
    seqStep s = (strobePulse s).bind fun s1 =>
      toPhase (if s1.rsCnt - 1 ≠ 0 then .rsPulse else .rsEnd) { s1 with rsCnt := s1.rsCnt - 1 } := by
  simp only [seqStep, h]

theorem seqStep_rsEnd (h : s.phase = .rsEnd) : seqStep s = .ok (finishReset s).endOperation := by
  simp only [seqStep, h]

/-- RS_PULSE's count on the sequencer's fields (R200). -/
def Sequencer.countPulse (q : Sequencer) : Sequencer :=
  { q with rsCnt := q.rsCnt - 1, phase := if q.rsCnt - 1 ≠ 0 then .rsPulse else .rsEnd }

theorem Sequencer.countPulse_two (h : q.rsCnt = 2) : q.countPulse.phase = .rsPulse ∧ q.countPulse.rsCnt = 1 := by
  simp [countPulse, h]

theorem Sequencer.countPulse_one (h : q.rsCnt = 1) : q.countPulse.phase = .rsEnd := by simp [countPulse, h]

/-- The machine from RS_IDLE on does what LCD.RESET does (R200). -/
theorem reset_runs (hc : ConfigOk s.cfg) (hp : q.phase = .rsIdle) : (s.withSeq q).Runs (resetBody s) := by
  have hfirst : seqStep (s.withSeq q) = .ok ((idleControlLines s).withSeq { q with phase := .rsByte }) := by
    rw [seqStep_rsIdle hp, idleControlLines_withSeq]
    rfl
  refine State.Runs.next hfirst ?_
  have hci : ConfigOk (idleControlLines s).cfg := hc.wired (idleControlLines_wired s).1
  refine State.Runs.turn resetByte_blind (resetByte_drives hci) (seqStep_rsByte rfl) fun t ht =>
    ⟨t.withSeq { q with phase := .rsPulse, rsCnt := 2 }, rfl, ?_⟩
  have htwo : ({ q with phase := .rsPulse, rsCnt := 2 } : Sequencer).rsCnt = 2 := rfl
  have hphase : ({ q with phase := .rsPulse, rsCnt := 2 } : Sequencer).phase = .rsPulse := rfl
  generalize ({ q with phase := .rsPulse, rsCnt := 2 } : Sequencer) = r at htwo hphase
  obtain ⟨hpulse, hone⟩ := Sequencer.countPulse_two htwo
  refine State.Runs.turn strobePulse_blind (strobePulse_drives (hci.moved ht)) (seqStep_rsPulse hphase) fun u hu =>
    ⟨u.withSeq r.countPulse, rfl, ?_⟩
  refine State.Runs.turn strobePulse_blind (strobePulse_drives ((hci.moved ht).moved hu)) (seqStep_rsPulse hpulse)
    fun v _ => ⟨v.withSeq r.countPulse.countPulse, rfl, ?_⟩
  exact State.Runs.next (seqStep_rsEnd (Sequencer.countPulse_one hone)) (State.Runs.done rfl rfl)

/-! ## LCD.INIT -/

theorem seqStep_iSeq {x : InitStep} (h : s.phase = .iSeq) (hx : s.initSteps[s.inIdx]? = some x) :
    seqStep s = (runInitStep x s).bind fun s1 =>
      toPhase (initPhase { s1 with inIdx := s1.inIdx + 1 }) { s1 with inIdx := s1.inIdx + 1 } := by
  simp only [seqStep, h, hx]

theorem seqStep_iWin (h : s.phase = .iWin) :
    seqStep s = (setFullWindow (initScreen s)).bind (toPhase .iFlood) := by simp only [seqStep, h]

theorem seqStep_iFlood (h : s.phase = .iFlood) : seqStep s = toPhase .fCmd s := by simp only [seqStep, h]

/-- The end of the flood of LCD.INIT (R176, R205). -/
theorem seqStep_fEnd_init (h : s.phase = .fEnd) (hi : s.inInit = true) :
    seqStep s = toPhase .iEnd (s.level s.cfg.pinCS s.cfg.csIdle) := by
  simp only [seqStep, h]
  exact if_pos hi

theorem seqStep_iEnd (h : s.phase = .iEnd) : seqStep s = .ok (State.endOperation { s with dstate := .ready }) := by
  simp only [seqStep, h]

theorem Wired.initSteps (h : Wired s t) (q : Sequencer) : (t.withSeq q).initSteps = s.initSteps := by
  rw [h.1]
  rfl

theorem Wired.initPhase (h : Wired s t) (q : Sequencer) :
    initPhase (t.withSeq q) = if q.inIdx < s.initSteps.length then .iSeq else .iWin := by
  rw [Sys2Proof.Machine.initPhase, h.initSteps]
  rfl

/-- The steps of the bring-up sequence from the counter's on, then I_WIN (R205). -/
theorem sequence_runs {s₀ : State} {l : List InitStep} (hc : ConfigOk s₀.cfg)
    (hend : ∀ (t : State) (r : Sequencer), Wired s₀ t → r.phase = .iWin → (t.withSeq r).Runs (k t))
    (h : Wired s₀ s) (hp : q.phase = initPhase (s.withSeq q)) (hl : s₀.initSteps.drop q.inIdx = l) :
    (s.withSeq q).Runs ((runSeq l s).bind k) := by
  rw [h.initPhase] at hp
  induction l generalizing s q with
  | nil =>
    rw [if_neg (Nat.not_lt.mpr (List.drop_eq_nil_iff.mp hl))] at hp
    exact hend s q h hp
  | cons x rest ih =>
    have hget : s₀.initSteps[q.inIdx]? = some x := by
      rw [← Nat.add_zero q.inIdx, ← List.getElem?_drop, hl]
      rfl
    have hrest : s₀.initSteps.drop (q.inIdx + 1) = rest := by rw [← List.tail_drop, hl, List.tail_cons]
    rw [if_pos (show q.inIdx < s₀.initSteps.length from (List.getElem?_eq_some_iff.mp hget).1)] at hp
    rw [runSeq, Result.bind_assoc]
    refine State.Runs.turn_ok (runInitStep_blind x)
      (seqStep_iSeq hp ((congrArg (·[q.inIdx]?) (h.initSteps q)).trans hget)) fun t ht => ⟨t.withSeq { q with
        inIdx := q.inIdx + 1, phase := initPhase (t.withSeq { q with inIdx := q.inIdx + 1 }) }, rfl, ?_⟩
    have hcarries := runInitStep_carries (hc.wired h) x
    rw [ht] at hcarries
    exact ih (h.trans hcarries) ((h.trans hcarries).initPhase _) hrest

/-- The last lines of LCD.INIT: the flood to black, the state `Ready` (R205). -/
def initFlood (s : State) : Result :=
  (flood 0x0000 (s.curW.toNat * s.curH.toNat) s).bind fun u => .ok { u with dstate := .ready }

/-- The screen has no more pixels than a flood can count (R8). -/
theorem initScreen_area (hc : ConfigOk s.cfg) :
    (initScreen s).curW.toNat * (initScreen s).curH.toNat ≤ 2 ^ 32 := by
  obtain ⟨-, -, -, -, harea⟩ := hc.panelOk
  have hW : (initScreen s).curW.toNat ≤ s.cfg.nativeW := Nat.mod_le _ _
  have hH : (initScreen s).curH.toNat ≤ s.cfg.nativeH := Nat.mod_le _ _
  exact (Nat.mul_le_mul hW hH).trans (by omega)

/-- From I_FLOOD the flood machine does the flood of LCD.INIT, then I_END its last line (R205). -/
theorem initFlood_runs (hc : ConfigOk s.cfg) (hi : s.inInit = true)
    (harea : s.curW.toNat * s.curH.toNat ≤ 2 ^ 32) (hp : q.phase = .iFlood) :
    (s.withSeq q).Runs (initFlood s) := by
  refine State.Runs.next (m' := s.withSeq { q with phase := .fCmd }) (seqStep_iFlood hp)
    (flood_runs hc (if_pos hi) (if_pos hi) harea (fun t r hr hend => ?_) rfl)
  have hit : (t.withSeq r).inInit = true := by
    rw [hr.moves.frame]
    exact hi
  exact State.Runs.next (seqStep_fEnd_init hend hit) (State.Runs.next (seqStep_iEnd rfl) (State.Runs.done rfl rfl))

/-- The full window of LCD.INIT leaves the configuration, the command word and the dimensions. -/
theorem initWindow_keeps (hc : ConfigOk s.cfg) (h : setFullWindow (initScreen s) = .ok t) :
    t.cfg = s.cfg ∧ t.cmdw = s.cmdw ∧ t.curW = (initScreen s).curW ∧ t.curH = (initScreen s).curH := by
  have hw := setWindow_windows (s := initScreen s) hc 0 0 (BitVec.ofNat 16 ((initScreen s).curW.toNat - 1))
    (BitVec.ofNat 16 ((initScreen s).curH.toNat - 1))
  rw [setFullWindow] at h
  rw [h] at hw
  rcases hw with ⟨-, rfl⟩ | ⟨-, u, x, y, hu, rfl⟩
  · exact ⟨rfl, rfl, rfl, rfl⟩
  · rw [hu.1]
    exact ⟨rfl, rfl, rfl, rfl⟩

/-- The sequencer's fields when LCD.INIT has begun (R205). -/
def State.initSeq (s : State) : Sequencer :=
  { s.seq with phase := initPhase { s with inIdx := 0 }, inIdx := 0 }

/-- The machine from I_SEQ on does what LCD.INIT of a recognised identifier does (R205). -/
theorem init_runs {fam : Family} (hc : ConfigOk s.cfg) (hi : s.inInit = true) (hv : s.variant = .family fam) :
    (s.withSeq s.initSeq).Runs ((runSeq (familyTable s.cfg fam).initSeq s).bind fun u =>
      (setFullWindow (initScreen u)).bind initFlood) := by
  refine sequence_runs hc (fun t r ht hr => ?_) (.refl s) rfl ?_
  · have hct := hc.wired ht
    refine State.Runs.turn_ok initWindow_blind (seqStep_iWin hr) fun u hu =>
      ⟨u.withSeq { r with phase := .iFlood }, rfl, ?_⟩
    obtain ⟨hcfg, hcmdw, hW, hH⟩ := initWindow_keeps hct hu
    have htcmdw : t.cmdw = s.cmdw := by rw [ht.1]
    exact initFlood_runs (by rw [hcfg]; exact hct) (by rw [State.inInit, hcmdw, htcmdw]; exact hi)
      (by rw [hW, hH]; exact initScreen_area hct) rfl
  · exact congrArg (List.drop 0) (by rw [State.initSteps, hv])

theorem operandInstr_eq_lcdInit {id : Half} (h : s.operandInstr = some (.lcdInit id)) : s.inInit = true := by
  unfold State.operandInstr State.operandWindow at h
  dsimp only at h
  iterate 12 replace h := else_of_ite_eq h nofun
  split at h
  next hop => exact decide_eq_true hop
  next =>
    iterate 4 replace h := else_of_ite_eq h nofun
    cases h

/-! ## The refinement -/

/-- A display command of an idle sequencer leaves it idle. -/
theorem exec_phase {i : Instr} (hi : drivesBus i = true ∨ i = .lcdReset) (hc : ConfigOk s.cfg) (hp : s.phase = .idle)
    (h : exec i s = .next t) : t.phase = .idle := by
  obtain ⟨-, hm | ⟨u, -, -, -, rfl⟩⟩ := exec_lcd hi hc h
  · rw [hm.frame, hp]
  · rfl

/-- A machine that begins where its operation does, and runs as that does, refines it (R177). -/
theorem refines_of_runs {i : Instr} {m : State} {x : Result} (hstart : startExec i s = .next m) (hruns : m.Runs x)
    (hx : x.outcome = .next t) (ht : t.phase = .idle) :
    ∃ s1 n u, startExec i s = .next s1 ∧ (seqRun n s1).outcome = .next u ∧ u.phase = .idle ∧
      (u.finish .R).withoutCounters = (t.finish .R).withoutCounters := by
  obtain ⟨n, u, hrun, hu, hsettled⟩ := hruns t hx
  refine ⟨m, n, u, hstart, hrun, hu, ?_⟩
  rw [State.finish_withoutCounters hu, State.finish_withoutCounters ht, hsettled]

/-- Settles O60: each machine, from its first phase on, does the procedures of its big step in their order. -/
theorem otherMachinesRefine : Obligations.OtherMachinesRefine := by
  intro s t i hc hphase hop hi h
  have ht : t.phase = .idle := by
    refine exec_phase ?_ hc hphase h
    rcases hi with ⟨_, _, _, rfl⟩ | rfl | ⟨_, rfl⟩
    · exact .inl rfl
    · exact .inr rfl
    · exact .inl rfl
  rcases hi with ⟨buffer, count, first, rfl⟩ | rfl | ⟨id, rfl⟩
  · obtain ⟨hrun, hcheck, hx⟩ := checked_next (check := pushCheck first) (body := pushBody buffer count first) h
    refine refines_of_runs ?_ (push_runs hc hop) hx ht
    exact run_checked (check := pushCheck first) (body := fun s => toPhase .pCmd { s.hold with puIdx := 0 }) hrun hcheck
      rfl
  · obtain ⟨hrun, hcheck, hx⟩ := checked_next (check := resetCheck) (body := resetBody) h
    refine refines_of_runs (m := s.withSeq { s.seq with phase := .rsIdle }) ?_ (reset_runs hc rfl) hx ht
    exact run_checked (check := resetCheck) (body := toPhase .rsIdle) hrun hcheck rfl
  · obtain ⟨hrun, hcheck, hx⟩ := checked_next (check := initCheck) (body := initRun id) h
    cases hid : classify s.cfg id with
    | unknown =>
      have hbody : initRun id s = .ok (initUnknown s) := by rw [initRun, hid]
      rw [hbody] at hx
      refine refines_of_runs (m := initUnknown s) ?_ (State.Runs.done hphase rfl) hx ht
      rw [startExec, startInit, run_of_not_halted hrun, hcheck, afterCheck_none, hid]
      rfl
    | family fam =>
      have hbody : initRun id s = initBody fam s := by rw [initRun, hid]
      rw [hbody] at hx
      refine refines_of_runs (m := State.withSeq { s with variant := .family fam }
        (State.initSeq { s with variant := .family fam })) ?_
        (init_runs (s := { s with variant := .family fam }) hc (operandInstr_eq_lcdInit hop) rfl) hx ht
      rw [startExec, startInit, run_of_not_halted hrun, hcheck, afterCheck_none, hid]
      rfl

end Sys2Proof.Machine
end
